-- ==== Sys2Proof/Word.lean ====
section
/-!
DEFINITION. The widths of the T824's fields and the index types of its numbered parts
(00_scope.md sections 6 and 7).
-/

namespace Sys2Proof

/-- One byte of a link or of the frame store. -/
abbrev Byte := BitVec 8
/-- A 16-bit field: tags, frame numbers, trigger numbers, lengths. -/
abbrev Half := BitVec 16
/-- A 32-bit field: counters, byte counts, check codes. -/
abbrev Word := BitVec 32
/-- A part time in microseconds, 48 bits (00_scope.md section 6). -/
abbrev Time := BitVec 48

/-- A downstream port D0-D7. -/
abbrev PortId := Fin 8
/-- A camera channel of a downstream port. -/
abbrev Channel := Fin 4
/-- A stream table entry. -/
abbrev EntryId := Fin 32
/-- A frame record. -/
abbrev RecordId := Fin 256
/-- A frame store page. -/
abbrev PageId := Fin 4096
/-- A trigger line TIN0-TIN3. -/
abbrev LineId := Fin 4
/-- A profile slot. -/
abbrev SlotId := Fin 4
/-- An uplink priority class. -/
abbrev ClassId := Fin 4

end Sys2Proof
end

