-- ==== Sys2Proof/Syntax.lean ====
section
/-!
DEFINITION. The commands of the part: one constructor of `Instr` per row of spec/opcode_table.json, and the
operand blocks they carry. A host operation carries its request's tag and its argument fields as raw
bytes, so that a field out of range can be sent and is refused as its rule says.
-/

namespace Sys2Proof

/-- A link of the part: a downstream port or the uplink. -/
inductive Link where
  | down (port : PortId)
  | up
  deriving DecidableEq, Repr

/-- The 14-byte image block of R36, field by field as sent. -/
structure ImageBlock where
  valid : Byte
  port : Byte
  channel : Byte
  tag : Byte
  forward : Byte
  retention : Byte
  ringDepth : Byte
  maxPages : Half
  priority : Byte
  stallTimeout : Half
  continuity : Byte
  correlated : Byte
  deriving DecidableEq, Repr

/-- The TRIG_CONFIG block of R132 without its port byte, 14 bytes, as sent. -/
structure TrigBlock where
  source : Byte
  line : Byte
  edge : Byte
  debounce : Half
  burstCount : Byte
  burstPeriod : Word
  gateLine : Byte
  gateLevel : Byte
  window : Half
  deriving DecidableEq, Repr

/-- The 4-byte SET_UPLINK block of R110, as sent. -/
structure UplinkBlock where
  segmentSize : Half
  replayClass : Byte
  backlog : Byte
  deriving DecidableEq, Repr

/-- A management operation with its argument block of an allowed length (R154, section 9.5). -/
inductive HostOp where
  | describe
  | resetPart (slot : Byte)
  | setPort (port enabled powered : Byte)
  | getPort (port : Byte)
  | portReset (port : Byte)
  | readEntry (entry : Byte)
  | writeEntry (entry : Byte) (block : ImageBlock)
  | listFrames (entry start : Byte)
  | hold (entry : Byte) (frame : Half)
  | release (entry : Byte) (frame : Half)
  | drop (entry count : Byte)
  | storeClear
  | setUplink (settings : Option UplinkBlock)
  | replay (entry : Byte) (first : Half) (count : Byte)
  | cancelReplay (id : Byte)
  | trigConfig (port : Byte) (block : TrigBlock)
  | trigStart (port : Byte)
  | trigStop (port : Byte)
  | trigNow (port : Byte)
  | trigStatus (port : Byte)
  | setNoticeMask (mask : Half)
  | readCounters (group index : Byte)
  | clearCounters (group index : Byte)
  | profileSave (slot : Byte)
  | profileLoad (slot : Byte)
  | bootSelect (slot : Byte)
  | profileInfo
  deriving DecidableEq, Repr

/-- The commands of the part, one constructor per row of spec/opcode_table.json. -/
inductive Instr where
  /-- HARD_RESET (R183). -/
  | hardReset
  /-- START_UP_LOAD_COMPLETES (R184). -/
  | startUpLoadCompletes
  /-- DOWNSTREAM_UNIT_RECEIVED (R17): the bytes of one unit arriving on a downstream port. -/
  | downstreamUnitReceived (port : PortId) (unit : List Byte)
  /-- UPLINK_UNIT_RECEIVED (R33): the bytes of one unit arriving on the uplink. -/
  | uplinkUnitReceived (unit : List Byte)
  /-- SILENCE_TIMER_EXPIRY (R19). -/
  | silenceTimerExpiry (link : Link)
  /-- HOLD_TIMER_EXPIRY (R21). -/
  | holdTimerExpiry (link : Link)
  /-- RAMP_EXPIRY (R23), with PGn as sampled. -/
  | rampExpiry (port : PortId) (pgHigh : Bool)
  /-- POWER_FAULT (R24): PGn goes low. -/
  | powerFault (port : PortId)
  /-- STALL_TIMER_EXPIRY (R70). -/
  | stallTimerExpiry (entry : EntryId)
  /-- UPLINK_GRANT (R104). -/
  | uplinkGrant
  /-- UPLINK_SEGMENT_COMPLETES (R107). -/
  | uplinkSegmentCompletes
  /-- DOWNSTREAM_TRANSMIT_START (R30): the downstream link is free to start a segment. -/
  | downstreamTransmitStart (port : PortId)
  /-- RAW_LINE_CHANGE (R133): a trigger line's raw level becomes `level`. -/
  | rawLineChange (line : LineId) (level : Bool)
  /-- DEBOUNCE_TIMER_EXPIRY (R133). -/
  | debounceTimerExpiry (port : PortId)
  /-- PERIOD_TIMER_EXPIRY (R136). -/
  | periodTimerExpiry (port : PortId)
  /-- WINDOW_EXPIRY (R143) of the pending trigger with this number. -/
  | windowExpiry (port : PortId) (number : Half)
  /-- REQUEST_TAKE (R153). -/
  | requestTake
  /-- REPLAY_TAKE (R118). -/
  | replayTake
  /-- DESCRIBE (R160). -/
  | describe (tag : Half)
  /-- RESET_PART (R158). -/
  | resetPart (tag : Half) (slot : Byte)
  /-- SET_PORT (R27). -/
  | setPort (tag : Half) (port enabled powered : Byte)
  /-- GET_PORT (R28). -/
  | getPort (tag : Half) (port : Byte)
  /-- PORT_RESET (R29). -/
  | portReset (tag : Half) (port : Byte)
  /-- READ_ENTRY (R52). -/
  | readEntry (tag : Half) (entry : Byte)
  /-- WRITE_ENTRY (R43). -/
  | writeEntry (tag : Half) (entry : Byte) (block : ImageBlock)
  /-- LIST_FRAMES (R94). -/
  | listFrames (tag : Half) (entry start : Byte)
  /-- HOLD (R90). -/
  | hold (tag : Half) (entry : Byte) (frame : Half)
  /-- RELEASE (R91). -/
  | release (tag : Half) (entry : Byte) (frame : Half)
  /-- DROP (R92). -/
  | drop (tag : Half) (entry count : Byte)
  /-- STORE_CLEAR (R93). -/
  | storeClear (tag : Half)
  /-- SET_UPLINK (R110), with an empty or a 4-byte argument block. -/
  | setUplink (tag : Half) (settings : Option UplinkBlock)
  /-- REPLAY (R116). -/
  | replay (tag : Half) (entry : Byte) (first : Half) (count : Byte)
  /-- CANCEL_REPLAY (R123). -/
  | cancelReplay (tag : Half) (id : Byte)
  /-- TRIG_CONFIG (R132). -/
  | trigConfig (tag : Half) (port : Byte) (block : TrigBlock)
  /-- TRIG_START (R135). -/
  | trigStart (tag : Half) (port : Byte)
  /-- TRIG_STOP (R138). -/
  | trigStop (tag : Half) (port : Byte)
  /-- TRIG_NOW (R140). -/
  | trigNow (tag : Half) (port : Byte)
  /-- TRIG_STATUS (R146). -/
  | trigStatus (tag : Half) (port : Byte)
  /-- SET_NOTICE_MASK (R165). -/
  | setNoticeMask (tag : Half) (mask : Half)
  /-- READ_COUNTERS (R169). -/
  | readCounters (tag : Half) (group index : Byte)
  /-- CLEAR_COUNTERS (R170). -/
  | clearCounters (tag : Half) (group index : Byte)
  /-- PROFILE_SAVE (R175). -/
  | profileSave (tag : Half) (slot : Byte)
  /-- PROFILE_LOAD (R177). -/
  | profileLoad (tag : Half) (slot : Byte)
  /-- BOOT_SELECT (R180). -/
  | bootSelect (tag : Half) (slot : Byte)
  /-- PROFILE_INFO (R181). -/
  | profileInfo (tag : Half)
  /-- PROFILE_SAVE_COMPLETES (R175), with the result of the verify. -/
  | profileSaveCompletes (verified : Bool)
  /-- BOOT_REVERT_COMPLETES (R176), with the result of the verify. -/
  | bootRevertCompletes (verified : Bool)
  /-- BOOT_SELECT_COMPLETES (R180), with the result of the verify. -/
  | bootSelectCompletes (verified : Bool)
  /-- PROFILE_LOAD_COMPLETES (R178). -/
  | profileLoadCompletes
  deriving DecidableEq, Repr

end Sys2Proof
end

