-- ==== Sys2Proof/Config.lean ====
section
/-!
DEFINITION. What is fixed for the part (capacities and fixed durations), and the free values: constants
without a body, which no proof can look into (log entry 6).
-/

namespace Sys2Proof.Config

/-- Bytes of one frame store page (R75). -/
def pageBytes : Nat := 4096
/-- Bytes of the whole frame store, 4096 pages (R75). -/
def storeBytes : Nat := 16777216
/-- Capacity of a downstream output queue (R30). -/
def outputCapacity : Nat := 4
/-- Capacity of a pending trigger list (R141). -/
def pendingCapacity : Nat := 8
/-- Capacity of the management request queue (R147). -/
def requestCapacity : Nat := 8
/-- Capacity of the management reply queue (R147). -/
def replyCapacity : Nat := 16
/-- Capacity of the notice queue (R162). -/
def noticeCapacity : Nat := 32
/-- Saturation value of the lost count (R163). -/
def lostMaximum : Nat := 65535
/-- Capacity of the replay queue (R113). -/
def replayCapacity : Nat := 16
/-- Good-check units that complete acquisition (R18). -/
def acquisitionRun : Nat := 8
/-- Bad-check units in a row that lose the link (R20). -/
def badCheckRun : Nat := 16

/-- The silence timer, 4 ms in microseconds (R19). -/
def silenceTime : Nat := 4000
/-- The hold timer, 2 ms in microseconds (R21). -/
def holdTime : Nat := 2000
/-- The power ramp, 20 ms in microseconds (R23). -/
def rampTime : Nat := 20000
/-- The unit of stall timeouts and trigger windows, 100 microseconds (R69, R141). -/
def tenthMilli : Nat := 100
/-- Bound of a save to slots 1-3, 80 ms (R174). -/
def saveBound : Nat := 80000
/-- Bound of a selector write, 20 ms (R174). -/
def selectBound : Nat := 20000
/-- Bound of a profile load, 10 ms (R174). -/
def loadBound : Nat := 10000
/-- Bound of the start-up load, 30 ms (R183). -/
def startUpBound : Nat := 30000

/-- FREE VALUE (log entry 6): which of several timers due at one moment expires first. -/
opaque freeIndex : Nat → Nat
/-- FREE VALUE (log entry 6): the level of PGn sampled when the clock itself raises a ramp expiry. -/
opaque freeLevel : Nat → Bool
/-- FREE VALUE (log entries 6 and 8): the level of PGn, n the second argument, as a step of the clock samples it at a port
whose power the part does not watch. -/
opaque freePower : Nat → Nat → Bool
/-- FREE VALUE (log entries 6 and 19): the result of a flash verify that the clock itself completes. -/
opaque freeVerify : Nat → Bool

end Sys2Proof.Config
end

