-- ==== Sys2Proof/Machine/State.lean ====
section
/-!
DEFINITION. The state of the part as plain data, block by block, the reasons a step could stop, and the part
right after reset. Every timer is held as the part time of its expiry, none when it is stopped.
-/

namespace Sys2Proof.Machine

open Sys2Proof

/-! ## Segments -/

/-- The segment kinds of R3. -/
inductive SegKind where
  | head | body | tail | trig | mreq | mrep | note | link
  deriving DecidableEq, Repr

/-- A segment the part sends: its header fields and its payload; the length field and the check code follow
from the payload (R1, R2). -/
structure Segment where
  kind : SegKind
  replay : Bool
  route : Byte
  tag : Half
  index : Half
  payload : List Byte
  deriving DecidableEq, Repr

/-- A TRIG segment waiting in an output queue (R11). -/
structure Trig where
  number : Half
  source : Byte
  line : Byte
  deriving DecidableEq, Repr

/-- A management request as received on U (R12). -/
structure Mreq where
  route : Byte
  tag : Half
  op : Byte
  args : List Byte
  deriving DecidableEq, Repr

/-- A management reply waiting for the uplink (R12). `resets` marks the reply whose transmission brings the
part reset (R159). -/
structure Reply where
  route : Byte
  tag : Half
  payload : List Byte
  resets : Bool
  deriving DecidableEq, Repr

/-! ## Link ports -/

/-- The states of a downstream port (chapter 2). -/
inductive PortState where
  | off | powering | acquiring | active | lost
  deriving DecidableEq, Repr

/-- The PORT_STATE reasons of R26. -/
inductive PortReason where
  | startUp | enabled | disabled | reconfigured | rampDone | powerFault
  | acquired | silence | badChecks | holdDone | portReset
  deriving DecidableEq, Repr

/-- The port-group counters, in reporting order (R168). -/
structure PortCounters where
  segIn : Word
  badCheck : Word
  malformed : Word
  unknownChannel : Word
  orphan : Word
  stale : Word
  deriving DecidableEq, Repr

/-- One downstream port (R16). The output queue's TRIGs stand ahead of its MREQs (R30). `late` has for each channel the
number of the frame that was open there when a profile load ended it, until the camera's next HEAD (R74; log entry 33). -/
structure Port where
  enabled : Bool
  powered : Bool
  state : PortState
  fault : Bool
  acqRun : Nat
  badRun : Nat
  ramp : Option Time
  silence : Option Time
  hold : Option Time
  outTrigs : List Trig
  outMreqs : List Mreq
  line : Option Segment
  late : Vector (Option Half) 4
  counters : PortCounters
  deriving DecidableEq, Repr

/-! ## Trigger block -/

/-- The configured trigger source (R132). -/
inductive GenSource where
  | none | line | burst
  deriving DecidableEq, Repr

/-- The configured edge (R132). -/
inductive EdgeSel where
  | rising | falling | both
  deriving DecidableEq, Repr

/-- A generator's configuration (R132). -/
structure TrigConfig where
  source : GenSource
  line : LineId
  edge : EdgeSel
  debounce : Nat
  burstCount : Byte
  burstPeriod : Nat
  gate : Option LineId
  gateLevel : Bool
  window : Nat
  deriving DecidableEq, Repr

/-- The generator states of R131. -/
inductive GenState where
  | idle | armed | running | paused
  deriving DecidableEq, Repr

/-- What issues a trigger (R11). -/
inductive TrigSource where
  | line | burst | request
  deriving DecidableEq, Repr

/-- A pending trigger (R141). -/
structure PendingTrigger where
  number : Half
  issued : Time
  deadline : Time
  outstanding : List EntryId
  deriving DecidableEq, Repr

/-- The trigger-group counters, in reporting order (R168). -/
structure TrigCounters where
  issued : Word
  matched : Word
  missed : Word
  overrun : Word
  suppressed : Word
  unsolicited : Word
  abandoned : Word
  deriving DecidableEq, Repr

/-- One trigger generator with its line tracker and pending list (R131). -/
structure Generator where
  config : TrigConfig
  state : GenState
  remaining : Byte
  period : Option Time
  level : Bool
  debounce : Option Time
  next : Half
  pendings : List PendingTrigger
  counters : TrigCounters
  deriving DecidableEq, Repr

/-! ## Stream table and reception -/

/-- The forward mode (R35). -/
inductive ForwardMode where
  | live | withhold
  deriving DecidableEq, Repr

/-- The retention mode (R35). -/
inductive Retention where
  | off | rolling | fill | oneShot
  deriving DecidableEq, Repr

/-- An entry image, the twelve fields of R35. -/
structure Image where
  valid : Bool
  port : PortId
  channel : Channel
  tag : Byte
  forward : ForwardMode
  retention : Retention
  ringDepth : Nat
  maxPages : Nat
  priority : ClassId
  stallTimeout : Nat
  continuity : Bool
  correlated : Bool
  deriving DecidableEq, Repr

/-- The assembly state with the open record, which is present exactly while FILLING (R54). -/
inductive Assembly where
  | idle
  | filling (record : RecordId)
  | discarding
  deriving DecidableEq, Repr

/-- A forwarding or replay cursor (R97, R114). `route` is the route every segment of the forwarding carries. -/
structure Cursor where
  segSize : Nat
  route : Byte
  bodies : Nat
  bytes : Nat
  tailGranted : Bool
  deriving DecidableEq, Repr

/-- The entry-group counters, in reporting order (R168). -/
structure EntryCounters where
  framesIn : Word
  framesDamaged : Word
  framesRefused : Word
  frameGaps : Word
  duplicateReplaced : Word
  forwarded : Word
  forwardSkipped : Word
  retained : Word
  retainSkipped : Word
  evictedDepth : Word
  evictedSpace : Word
  deriving DecidableEq, Repr

/-- One stream table entry with its runtime state (R34, R54, R97). -/
structure Entry where
  current : Image
  staged : Option Image
  assembly : Assembly
  expected : Option Half
  nextIndex : Nat
  stall : Option Time
  ring : List RecordId
  forwardQueue : List RecordId
  cursor : Option Cursor
  counters : EntryCounters
  deriving DecidableEq, Repr

/-! ## Frame store -/

/-- The attributes captured at a HEAD (R8, R59). -/
structure Attributes where
  width : Half
  height : Half
  pixel : Byte
  trigger : Option Half
  capture : Time
  announced : Word
  deriving DecidableEq, Repr

/-- The damage set (R10). -/
structure Damage where
  segmentLost : Bool
  truncated : Bool
  lengthMismatch : Bool
  cameraFault : Bool
  deriving DecidableEq, Repr

/-- The close reasons a record can hold (R71). -/
inductive CloseReason where
  | tail | unterminated | stalled | portLost | streamChanged
  deriving DecidableEq, Repr

/-- The states of a record (R76). -/
inductive RecordState where
  | free | filling | closed
  deriving DecidableEq, Repr

/-- One frame record with its four claims (R59, R77). -/
structure Record where
  entry : EntryId
  frame : Half
  tagAtHead : Byte
  attributes : Attributes
  headTime : Time
  state : RecordState
  damage : Damage
  close : Option CloseReason
  bodies : Nat
  bytes : Nat
  pages : List PageId
  held : Bool
  notRetainable : Bool
  receiving : Bool
  forward : Bool
  ring : Bool
  pin : Bool
  deriving DecidableEq, Repr

/-- The frame store (chapter 5). `mem` is the DRAM behind the pages, a canonical list of cells. -/
structure Store where
  records : Vector Record 256
  freeRecords : List RecordId
  freePages : List PageId
  reclaim : List RecordId
  mem : List Host.Cell
  reclaims : Word
  pageExhausted : Word
  recordExhausted : Word
  deriving DecidableEq, Repr

/-! ## Uplink -/

/-- The states of the uplink (R33). -/
inductive UplinkState where
  | acquiring | active | lost
  deriving DecidableEq, Repr

/-- The previous-loss item (R167). -/
inductive PrevLoss where
  | none | silence | badChecks
  deriving DecidableEq, Repr

/-- What the segment in transmission on the uplink belongs to. -/
inductive TxSource where
  | reply
  | notice
  | live (entry : EntryId)
  | replay
  | abortedTail
  | filler
  deriving DecidableEq, Repr

/-- The segment in transmission on the uplink (R104). -/
structure UplinkTx where
  source : TxSource
  segment : Segment
  deriving DecidableEq, Repr

/-- LINK filler in transmission (R15, R33). -/
def UplinkTx.filler : UplinkTx := ⟨.filler, ⟨.link, false, 0, 0, 0, []⟩⟩

/-- The uplink port, the three device-wide settings and the arbiter (R33, R98, R167). -/
structure Uplink where
  state : UplinkState
  acqRun : Nat
  badRun : Nat
  silence : Option Time
  hold : Option Time
  prevLoss : PrevLoss
  tx : Option UplinkTx
  segSize : Nat
  replayClass : ClassId
  backlog : Nat
  starts : Vector (Fin 33) 4
  segIn : Word
  badCheck : Word
  segOut : Word
  downSkipped : Word
  deriving DecidableEq, Repr

/-! ## Replay service -/

/-- The outcomes of a replayed frame (R117). -/
inductive FrameOutcome where
  | sent | sentDamaged | missing | streamGone | cancelled | aborted
  deriving DecidableEq, Repr

/-- A request of the replay queue (R113). Its position is the length of its outcome list. -/
structure ReplayRequest where
  id : Byte
  entry : EntryId
  first : Half
  count : Nat
  active : Bool
  outcomes : List FrameOutcome
  gone : Bool
  deriving DecidableEq, Repr

/-- The states of the replay engine (R114). -/
inductive EngineState where
  | idle | sending | closing
  deriving DecidableEq, Repr

/-- The replay queue and engine (R113, R114). -/
structure ReplayService where
  queue : List ReplayRequest
  engine : EngineState
  pinned : Option RecordId
  cursor : Option Cursor
  nextId : Byte
  deriving DecidableEq, Repr

/-! ## Management agent -/

/-- The agent's state; RESET_PENDING records the slot argument, none for FFh (R147, R158). -/
inductive AgentState where
  | ready
  | resetPending (slot : Option SlotId)
  deriving DecidableEq, Repr

/-- The long operations (R156). -/
inductive LongOp where
  | save | load | select
  deriving DecidableEq, Repr

/-- The management agent (R147). `reserved` is the place a take in progress holds in the reply queue (R153). -/
structure Agent where
  requests : List Mreq
  replies : List Reply
  reserved : Bool
  state : AgentState
  longOp : Option (LongOp × SlotId)
  received : Word
  refusedFull : Word
  dropped : Word
  deriving DecidableEq, Repr

/-! ## Notice unit -/

/-- The outcomes of a long operation (R166). -/
inductive ProfileOutcome where
  | ok | writeFailed | bootReverted
  deriving DecidableEq, Repr

/-- The reset causes (R160). -/
inductive ResetCause where
  | hard | part
  deriving DecidableEq, Repr

/-- The notice kinds with their bodies (R166). -/
inductive NoticeBody where
  | frameDamaged (entry : EntryId) (frame : Half) (damage : Damage) (reason : CloseReason) (bodies bytes : Nat)
  | frameGap (entry : EntryId) (expected received gap : Half)
  | storeExhausted (pages : Bool) (entry : EntryId) (frame : Half)
  | oneShotTaken (entry : EntryId) (frame : Half) (inRing : Bool)
  | replayDone (id : Byte) (entry : EntryId) (first : Half) (count : Nat) (outcomes : List FrameOutcome)
  | portState (port : PortId) (old new : PortState) (reason : PortReason)
  | uplinkState (prev : PrevLoss)
  | triggerMissed (port : PortId) (number : Half) (entry : EntryId) (window : Bool)
  | triggerOverrun (port : PortId) (source : TrigSource) (oldest : Half)
  | profileDone (op : LongOp) (slot : SlotId) (outcome : ProfileOutcome)
  | bootReport (cause : ResetCause) (slot : SlotId) (fallback : Bool) (selector : SlotId)
  | noticesLost (count : Nat)
  deriving DecidableEq, Repr

/-- A queued notice (R162). -/
structure Notice where
  seq : Half
  time : Time
  body : NoticeBody
  deriving DecidableEq, Repr

/-- The notice unit (R162); `mask` in the form of R165. -/
structure NoticeUnit where
  queue : List Notice
  lost : Nat
  seq : Half
  mask : Half
  deriving DecidableEq, Repr

/-! ## Profile store -/

/-- A profile: the settings of R172. -/
structure Profile where
  images : Vector Image 32
  ports : Vector (Bool × Bool) 8
  triggers : Vector TrigConfig 8
  segSize : Nat
  replayClass : ClassId
  backlog : Nat
  mask : Half
  deriving DecidableEq, Repr

/-- What a flash slot holds: nothing since manufacture, or an image with the check code stored behind it. The slot's
state is found from the two (R171; log entry 17). -/
inductive Slot where
  | empty
  | written (image : Profile) (check : Word)
  deriving DecidableEq, Repr

/-- The flash controller's states (R174). -/
inductive FlashState where
  | idle | saving | loading | selecting
  deriving DecidableEq, Repr

/-- The start-up record (R174). -/
structure StartUpRecord where
  cause : ResetCause
  slot : SlotId
  fallback : Bool
  deriving DecidableEq, Repr

/-- The profile store: the contents of the flash slots, the boot selector (none: unreadable), the controller, its staging buffer, the
start-up record, and the latest time of the completion awaited (R171, R173, R174). -/
structure ProfileStore where
  slots : Vector Slot 4
  selector : Option SlotId
  controller : FlashState
  staging : Option Profile
  record : StartUpRecord
  bound : Option Time
  deriving DecidableEq, Repr

/-! ## The whole part -/

/-- The state of the part. `pending` is the queue of commands waiting, first in first out; `fresh` numbers the free
values (log entry 6); `starting` says that the start-up load has not completed (R183). -/
structure State where
  pending : List Instr
  fresh : Nat
  partTime : Time
  starting : Bool
  tin : Vector Bool 4
  pg : Vector Bool 8
  ports : Vector Port 8
  gens : Vector Generator 8
  entries : Vector Entry 32
  store : Store
  uplink : Uplink
  replay : ReplayService
  agent : Agent
  notices : NoticeUnit
  flash : ProfileStore
  deriving DecidableEq, Repr

/-- The reasons a step faults: none. The spec names no event that stops the part. -/
inductive Fault where
  deriving DecidableEq, Repr

/-- The reasons a step is refused. -/
inductive Refusal where
  /-- Raised only by an arm of `exec` whose command has no meaning yet (none is left); safe. -/
  | notModelled (mnemonic : String)
  deriving DecidableEq, Repr

/-! ## Reset values -/

/-- A port at reset (R16): OFF, every run and counter 0; its two settings wait for the profile (log entry 9). -/
def Port.atReset : Port :=
  { enabled := false, powered := false, state := .off, fault := false, acqRun := 0, badRun := 0, ramp := none,
    silence := none, hold := none, outTrigs := [], outMreqs := [], line := none,
    late := Vector.replicate 4 none, counters := ⟨0, 0, 0, 0, 0, 0⟩ }

/-- The factory trigger configuration (R132). -/
def TrigConfig.factory : TrigConfig :=
  { source := .none, line := 0, edge := .rising, debounce := 50, burstCount := 1, burstPeriod := 10000,
    gate := none, gateLevel := true, window := 1000 }

/-- A generator at reset (R131); its configuration waits for the profile (log entry 10). -/
def Generator.atReset : Generator :=
  { config := .factory, state := .idle, remaining := 0, period := none, level := false, debounce := none,
    next := 0, pendings := [], counters := ⟨0, 0, 0, 0, 0, 0, 0⟩ }

/-- The default image of entry `e` (R35). -/
def Image.default (e : EntryId) : Image :=
  { valid := false, port := 0, channel := 0, tag := BitVec.ofNat 8 e.val, forward := .live, retention := .off,
    ringDepth := 4, maxPages := 256, priority := 2, stallTimeout := 1000, continuity := true, correlated := false }

/-- Entry `e` at reset (R37, R54, R98). -/
def Entry.atReset (e : EntryId) : Entry :=
  { current := .default e, staged := none, assembly := .idle, expected := none, nextIndex := 1, stall := none,
    ring := [], forwardQueue := [], cursor := none, counters := ⟨0, 0, 0, 0, 0, 0, 0, 0, 0, 0, 0⟩ }

/-- A free record: its fields take no value (R78; log entry 22). -/
def Record.blank : Record :=
  { entry := 0, frame := 0, tagAtHead := 0, attributes := ⟨0, 0, 0, none, 0, 0⟩, headTime := 0, state := .free,
    damage := ⟨false, false, false, false⟩, close := none, bodies := 0, bytes := 0, pages := [], held := false,
    notRetainable := false, receiving := false, forward := false, ring := false, pin := false }

/-- The frame store at reset (R75, R76, R79, R81). -/
def Store.atReset : Store :=
  { records := Vector.replicate 256 .blank, freeRecords := List.finRange 256, freePages := List.finRange 4096,
    reclaim := [], mem := [], reclaims := 0, pageExhausted := 0, recordExhausted := 0 }

/-- The uplink at reset: ACQUIRING, with LINK filler on the link (R33, R98, R167; log entry 21). -/
def Uplink.atReset : Uplink :=
  { state := .acquiring, acqRun := 0, badRun := 0, silence := none, hold := none, prevLoss := .none,
    tx := some .filler, segSize := 1024, replayClass := 3, backlog := 4, starts := Vector.replicate 4 0,
    segIn := 0, badCheck := 0, segOut := 0, downSkipped := 0 }

/-- The replay service at reset (R114). -/
def ReplayService.atReset : ReplayService :=
  { queue := [], engine := .idle, pinned := none, cursor := none, nextId := 1 }

/-- The management agent at reset (R147). -/
def Agent.atReset : Agent :=
  { requests := [], replies := [], reserved := false, state := .ready, longOp := none,
    received := 0, refusedFull := 0, dropped := 0 }

/-- The notice unit at reset (R162). -/
def NoticeUnit.atReset : NoticeUnit :=
  { queue := [], lost := 0, seq := 0, mask := 0x1FFE }

/-- The factory profile of slot 0 (R171). -/
def Profile.factory : Profile :=
  { images := Vector.ofFn Image.default, ports := Vector.replicate 8 (true, false),
    triggers := Vector.replicate 8 .factory, segSize := 1024, replayClass := 3, backlog := 4, mask := 0x1FFE }

/-- The check code of the factory profile, as stored behind it; Laws/Profile.lean shows that it is the one that R2
computes (R171, R172). -/
def Profile.factoryCheck : Word := 0x0AAEF0A5

/-- Slot 0 as manufactured (R171). -/
def Slot.factory : Slot := .written .factory Profile.factoryCheck

/-- The flash as manufactured (R171, R173), with the controller at the start-up load of slot 0 (R174, R183). -/
def ProfileStore.asManufactured : ProfileStore :=
  { slots := (Vector.replicate 4 Slot.empty).set 0 .factory, selector := some 0, controller := .loading,
    staging := none, record := ⟨.hard, 0, false⟩, bound := some (BitVec.ofNat 48 Config.startUpBound) }

/-- The part right after power-on, as manufactured: every block at its reset value and the start-up load under way
(R183; log entries 8 to 11, 17, 18). -/
def State.reset : State :=
  { pending := [], fresh := 0, partTime := 0, starting := true,
    tin := Vector.replicate 4 false, pg := Vector.replicate 8 false,
    ports := Vector.replicate 8 .atReset, gens := Vector.replicate 8 .atReset,
    entries := Vector.ofFn Entry.atReset, store := .atReset, uplink := .atReset, replay := .atReset,
    agent := .atReset, notices := .atReset, flash := .asManufactured }

end Sys2Proof.Machine
end

