-- ==== Sys2Proof/Machine/Ops.lean ====
section
/-!
DEFINITION. The named operations over the state's parts: reading and updating one numbered part, bytes and
fields, saturating counters, part time and timers, and the memory behind the frame store's pages.
-/

namespace Sys2Proof.Machine

open Sys2Proof

/-! ## One numbered part -/

/-- Downstream port `n`. -/
def State.port (s : State) (n : PortId) : Port := s.ports[n]
/-- The trigger generator of port `n`. -/
def State.gen (s : State) (n : PortId) : Generator := s.gens[n]
/-- Stream table entry `e`. -/
def State.entry (s : State) (e : EntryId) : Entry := s.entries[e]
/-- Frame record `r`. -/
def State.record (s : State) (r : RecordId) : Record := s.store.records[r]

/-- Update downstream port `n`. -/
def mapPort (n : PortId) (f : Port → Port) (s : State) : State :=
  { s with ports := s.ports.set n (f (s.port n)) }
/-- Update the generator of port `n`. -/
def mapGen (n : PortId) (f : Generator → Generator) (s : State) : State :=
  { s with gens := s.gens.set n (f (s.gen n)) }
/-- Update entry `e`. -/
def mapEntry (e : EntryId) (f : Entry → Entry) (s : State) : State :=
  { s with entries := s.entries.set e (f (s.entry e)) }
/-- Update the frame store. -/
def mapStore (f : Store → Store) (s : State) : State := { s with store := f s.store }
/-- Update record `r`. -/
def mapRecord (r : RecordId) (f : Record → Record) (s : State) : State :=
  { s with store := { s.store with records := s.store.records.set r (f (s.record r)) } }
/-- Update the uplink. -/
def mapUplink (f : Uplink → Uplink) (s : State) : State := { s with uplink := f s.uplink }
/-- Update the replay service. -/
def mapReplay (f : ReplayService → ReplayService) (s : State) : State := { s with replay := f s.replay }
/-- Update the management agent. -/
def mapAgent (f : Agent → Agent) (s : State) : State := { s with agent := f s.agent }
/-- Update the notice unit. -/
def mapNotices (f : NoticeUnit → NoticeUnit) (s : State) : State := { s with notices := f s.notices }
/-- Update the profile store. -/
def mapFlash (f : ProfileStore → ProfileStore) (s : State) : State := { s with flash := f s.flash }

/-- Do `f` for each member of `xs`, first to last. -/
def forEach {α : Type} (xs : List α) (f : α → State → State) (s : State) : State :=
  xs.foldl (fun t x => f x t) s

/-- Every downstream port in ascending order. -/
def allPorts : List PortId := List.finRange 8
/-- Every entry in ascending order. -/
def allEntries : List EntryId := List.finRange 32

/-! ## Bytes and fields: big-endian (00_scope.md section 6) -/

/-- A number as one byte. -/
def byteOf (n : Nat) : Byte := BitVec.ofNat 8 n
/-- A flag as one byte, 00h or 01h. -/
def flagByte (b : Bool) : List Byte := [if b then 1 else 0]
/-- The two bytes of a 16-bit field. -/
def halfBytes (x : Half) : List Byte := [x.extractLsb' 8 8, x.extractLsb' 0 8]
/-- The four bytes of a 32-bit field. -/
def wordBytes (x : Word) : List Byte :=
  [x.extractLsb' 24 8, x.extractLsb' 16 8, x.extractLsb' 8 8, x.extractLsb' 0 8]
/-- The six bytes of a 48-bit field. -/
def timeBytes (x : Time) : List Byte :=
  [x.extractLsb' 40 8, x.extractLsb' 32 8, x.extractLsb' 24 8, x.extractLsb' 16 8, x.extractLsb' 8 8,
   x.extractLsb' 0 8]
/-- A number as a 16-bit field. -/
def halfOf (n : Nat) : List Byte := halfBytes (BitVec.ofNat 16 n)
/-- A number as a 32-bit field. -/
def wordOf (n : Nat) : List Byte := wordBytes (BitVec.ofNat 32 n)

/-- The byte at offset `k`; 00h past the end. -/
def byteAt (bs : List Byte) (k : Nat) : Byte := bs.getD k 0
/-- The 16-bit field at offset `k`. -/
def halfAt (bs : List Byte) (k : Nat) : Half := byteAt bs k ++ byteAt bs (k + 1)
/-- The 32-bit field at offset `k`. -/
def wordAt (bs : List Byte) (k : Nat) : Word := halfAt bs k ++ halfAt bs (k + 2)
/-- The 48-bit field at offset `k`. -/
def timeAt (bs : List Byte) (k : Nat) : Time := halfAt bs k ++ wordAt bs (k + 2)

/-- A field as an index below `n`, none when it is out of range. -/
def indexBelow (n : Nat) {w : Nat} (x : BitVec w) : Option (Fin n) :=
  if h : x.toNat < n then some ⟨x.toNat, h⟩ else none

/-! ## Counters (R168) -/

/-- A 32-bit counter increased by `k`, saturating at FFFFFFFFh. -/
def bumpBy (k : Nat) (c : Word) : Word :=
  if c.toNat + k ≤ 0xFFFFFFFF then c + BitVec.ofNat 32 k else 0xFFFFFFFF
/-- A 32-bit counter increased by 1, saturating at FFFFFFFFh. -/
def bump (c : Word) : Word := bumpBy 1 c

/-- Update the port-group counters of port `n`. -/
def countPort (n : PortId) (f : PortCounters → PortCounters) : State → State :=
  mapPort n fun p => { p with counters := f p.counters }
/-- Update the trigger-group counters of port `n`. -/
def countTrig (n : PortId) (f : TrigCounters → TrigCounters) : State → State :=
  mapGen n fun g => { g with counters := f g.counters }
/-- Update the entry-group counters of entry `e`. -/
def countEntry (e : EntryId) (f : EntryCounters → EntryCounters) : State → State :=
  mapEntry e fun x => { x with counters := f x.counters }
/-- DROPPED of the management group increments. -/
def countDropped : State → State := mapAgent fun a => { a with dropped := bump a.dropped }

/-! ## Part time and timers -/

/-- The part time `d` microseconds from now (log entry 7). -/
def State.after (s : State) (d : Nat) : Time := s.partTime + BitVec.ofNat 48 d

/-- The deadline `d` has been reached at time `now`; the comparison is modulo 2^48 (log entry 7). -/
def reached (now d : Time) : Bool := (now - d).toNat < 2 ^ 47

/-- An expiry has come: part time is at its deadline at least (log entry 5). -/
def atDeadline (d : Time) (s : State) : State := if reached s.partTime d then s else { s with partTime := d }

/-- The clock advances by one microsecond. -/
def tick (s : State) : State := { s with partTime := s.partTime + 1 }

/-! ## The memory behind the pages (R75; log entry 11)

A list of (address, byte) in canonical form: addresses strictly rising and inside the store, and no
entry equal to what an unlisted address reads as. -/

namespace Memory

/-- What an address that is not listed reads as (log entry 11). -/
def unlisted : Byte := 0

/-- The canonical form. -/
def wf : List Host.Cell → Bool
  | [] => true
  | (a, b) :: m => a < Config.storeBytes && b != unlisted && m.all (fun c => a < c.1) && wf m

/-- The byte at address `a`. -/
def read : List Host.Cell → Nat → Byte
  | [], _ => unlisted
  | (a', b) :: m, a => if a = a' then b else read m a

/-- A new cell in front of `m`, unless it holds what an unlisted address reads as. -/
def cons (a : Nat) (b : Byte) (m : List Host.Cell) : List Host.Cell := if b = unlisted then m else (a, b) :: m

/-- Write one byte. -/
def write : List Host.Cell → Nat → Byte → List Host.Cell
  | [], a, b => cons a b []
  | (a', b') :: m, a, b =>
    if a < a' then cons a b ((a', b') :: m)
    else if a = a' then cons a b m
    else (a', b') :: write m a b

end Memory

/-- The address of byte `k` of a frame stored in `pages` (R75). -/
def frameAddress (pages : List PageId) (k : Nat) : Nat :=
  (pages.getD (k / Config.pageBytes) 0).val * Config.pageBytes + k % Config.pageBytes

/-- Write `bs` from byte `k` of a frame on (R66). -/
def storeBytes (pages : List PageId) : Nat → List Byte → List Host.Cell → List Host.Cell
  | _, [], m => m
  | k, b :: bs, m => storeBytes pages (k + 1) bs (Memory.write m (frameAddress pages k) b)

/-- The `count` stored bytes of a frame from byte `k` on (R75). -/
def loadBytes (m : List Host.Cell) (pages : List PageId) (k count : Nat) : List Byte :=
  (List.range count).map fun i => Memory.read m (frameAddress pages (k + i))

end Sys2Proof.Machine
end

