-- ==== Sys2Proof/Machine/Flags.lean ====
section
/-!
DEFINITION. The encodings of states, reasons, outcomes and flag sets (R10, R12, R27, R117, R166), the damage test
(R72), the notice mask (R165), and the bodies of notices as bytes (R166).
-/

namespace Sys2Proof.Machine

open Sys2Proof

/-- State values in results (R27). -/
def PortState.code : PortState → Byte
  | .off => 0 | .powering => 1 | .acquiring => 2 | .active => 3 | .lost => 4

/-- State values of the uplink (R28). -/
def UplinkState.code : UplinkState → Byte
  | .acquiring => 2 | .active => 3 | .lost => 4

/-- PORT_STATE reasons (R166). -/
def PortReason.code : PortReason → Byte
  | .startUp => 0 | .enabled => 1 | .disabled => 2 | .reconfigured => 3 | .rampDone => 4 | .powerFault => 5
  | .acquired => 6 | .silence => 7 | .badChecks => 8 | .holdDone => 9 | .portReset => 10

/-- The previous-loss values (R167). -/
def PrevLoss.code : PrevLoss → Byte
  | .none => 0 | .silence => 1 | .badChecks => 2

/-- The damage set byte (R10). -/
def Damage.code (d : Damage) : Byte :=
  byteOf (d.segmentLost.toNat + 2 * d.truncated.toNat + 4 * d.lengthMismatch.toNat + 8 * d.cameraFault.toNat)

/-- The empty damage set. -/
def Damage.none : Damage := ⟨false, false, false, false⟩

/-- The close reasons of a record (R10). -/
def CloseReason.code : CloseReason → Byte
  | .tail => 0 | .unterminated => 1 | .stalled => 2 | .portLost => 3 | .streamChanged => 4

/-- The close reason ABORTED, sent only in a replay TAIL (R10, R125). -/
def abortedCode : Byte := 5

/-- A close is damaged when the damage set is not empty or the reason is not TAIL (R72). -/
def damagedClose (d : Damage) (c : CloseReason) : Bool := d != Damage.none || c != .tail

/-- Trigger sources in a TRIG payload and in TRIGGER_OVERRUN (R11, R166). -/
def TrigSource.code : TrigSource → Byte
  | .line => 1 | .burst => 2 | .request => 3

/-- Configured sources (R132, R146). -/
def GenSource.code : GenSource → Byte
  | .none => 0 | .line => 1 | .burst => 2

/-- Configured edges (R132). -/
def EdgeSel.code : EdgeSel → Byte
  | .rising => 0 | .falling => 1 | .both => 2

/-- Generator states (R135, R146). -/
def GenState.code : GenState → Byte
  | .idle => 0 | .armed => 1 | .running => 2 | .paused => 3

/-- Replay outcomes (R117). -/
def FrameOutcome.code : FrameOutcome → Byte
  | .sent => 0 | .sentDamaged => 1 | .missing => 2 | .streamGone => 3 | .cancelled => 4 | .aborted => 5

/-- Operation codes of the long operations (R166). -/
def LongOp.code : LongOp → Byte
  | .save => 0x48 | .load => 0x49 | .select => 0x4A

/-- PROFILE_DONE outcomes (R166). -/
def ProfileOutcome.code : ProfileOutcome → Byte
  | .ok => 0 | .writeFailed => 1 | .bootReverted => 2

/-- Reset causes (R160). -/
def ResetCause.code : ResetCause → Byte
  | .hard => 0 | .part => 1

/-- Flash controller states (R160, R174). -/
def FlashState.code : FlashState → Byte
  | .idle => 0 | .saving => 1 | .loading => 2 | .selecting => 3

/-- Forward modes (R36). -/
def ForwardMode.code : ForwardMode → Byte
  | .live => 0 | .withhold => 1

/-- Retention modes (R36). -/
def Retention.code : Retention → Byte
  | .off => 0 | .rolling => 1 | .fill => 2 | .oneShot => 3

/-- Assembly states (R52). -/
def Assembly.code : Assembly → Byte
  | .idle => 0 | .filling _ => 1 | .discarding => 2

/-- Segment kinds (R3). -/
def SegKind.code : SegKind → Nat
  | .head => 1 | .body => 2 | .tail => 3 | .trig => 4 | .mreq => 5 | .mrep => 6 | .note => 7 | .link => 8

/-- Reply statuses (R12). -/
inductive Status where
  | ok | started | queueFull | badOperation | badArgument | notFound | busy | conflict | readOnly | portDown | badSlot
  deriving DecidableEq, Repr

/-- The status byte (R12). -/
def Status.code : Status → Byte
  | .ok => 0 | .started => 1 | .queueFull => 2 | .badOperation => 3 | .badArgument => 4 | .notFound => 5
  | .busy => 6 | .conflict => 7 | .readOnly => 8 | .portDown => 9 | .badSlot => 10

/-! ## Notices -/

/-- The notice kind (R13), which is also its bit in the mask (R165). -/
def NoticeBody.kind : NoticeBody → Nat
  | .frameDamaged .. => 1 | .frameGap .. => 2 | .storeExhausted .. => 3 | .oneShotTaken .. => 4
  | .replayDone .. => 5 | .portState .. => 6 | .uplinkState .. => 7 | .triggerMissed .. => 8
  | .triggerOverrun .. => 9 | .profileDone .. => 10 | .bootReport .. => 11 | .noticesLost .. => 12

/-- The kinds the mask can remove (R165). -/
def NoticeBody.maskable : NoticeBody → Bool
  | .replayDone .. | .profileDone .. | .bootReport .. | .noticesLost .. => false
  | .frameDamaged .. | .frameGap .. | .storeExhausted .. | .oneShotTaken .. => true
  | .portState .. | .uplinkState .. | .triggerMissed .. | .triggerOverrun .. => true

/-- The body of a notice as sent (R166). -/
def NoticeBody.bytes : NoticeBody → List Byte
  | .frameDamaged e f d c n b => byteOf e.val :: halfBytes f ++ [d.code, c.code] ++ halfOf n ++ wordOf b
  | .frameGap e x f d => byteOf e.val :: halfBytes x ++ halfBytes f ++ halfBytes d
  | .storeExhausted p e f => flagByte p ++ byteOf e.val :: halfBytes f
  | .oneShotTaken e f r => byteOf e.val :: halfBytes f ++ flagByte r
  | .replayDone i e f c os => i :: byteOf e.val :: halfBytes f ++ byteOf c :: os.map FrameOutcome.code
  | .portState n o w r => [byteOf n.val, o.code, w.code, r.code]
  | .uplinkState p => [UplinkState.code .active, p.code]
  | .triggerMissed n t e w => byteOf n.val :: halfBytes t ++ byteOf e.val :: flagByte w
  | .triggerOverrun n c t => byteOf n.val :: c.code :: halfBytes t
  | .profileDone o k r => [o.code, byteOf k.val, r.code]
  | .bootReport c k f b => c.code :: byteOf k.val :: flagByte f ++ [byteOf b.val]
  | .noticesLost n => halfOf n

/-- The bits of the maskable kinds (R165). -/
def maskableBits : Half := 0x03DE
/-- The bits of the unmaskable kinds, which read 1 (R165). -/
def unmaskableBits : Half := 0x1C20
/-- The bits that must be 0 (R165). -/
def reservedBits : Half := 0xE001

/-- The mask in force after the host writes `m` (R165). -/
def maskOf (m : Half) : Half := (m &&& maskableBits) ||| unmaskableBits

/-- The mask lets this notice be queued (R163). -/
def noticeEnabled (mask : Half) (b : NoticeBody) : Bool := !b.maskable || mask.getLsbD b.kind

end Sys2Proof.Machine
end

