-- ==== Sys2Proof/Machine/Segments.lean ====
section
/-!
DEFINITION. Segment formats (chapter 1): the check code, the reading of a received unit and its three classes,
well-formedness on each link, and the segments the part sends.
-/

namespace Sys2Proof.Machine

open Sys2Proof

/-! ## The check code (R2) -/

/-- One bit into the check code register (R2 step 3). -/
def crcBit (reg : Word) (bit : Bool) : Word :=
  if reg.msb != bit then (reg <<< 1) ^^^ 0x04C11DB7 else reg <<< 1

/-- One byte into the register, bit 7 first (R2 step 2). -/
def crcByte (reg : Word) (b : Byte) : Word :=
  [7, 6, 5, 4, 3, 2, 1, 0].foldl (fun r k => crcBit r (b.getLsbD k)) reg

/-- The check code of `bs` (R2). -/
def checkCode (bs : List Byte) : Word := ~~~ (bs.foldl crcByte 0xFFFFFFFF)

/-! ## Received units (R1) -/

/-- A received segment: header byte 0, route, tag, index, length field and payload, as they stand in the unit. -/
structure RawSegment where
  first : Byte
  route : Byte
  tag : Half
  index : Half
  length : Half
  payload : List Byte
  deriving DecidableEq, Repr

/-- The header and payload of a unit of at least 12 bytes (R1). -/
def rawSegment (unit : List Byte) : RawSegment :=
  { first := byteAt unit 0, route := byteAt unit 1, tag := halfAt unit 2, index := halfAt unit 4,
    length := halfAt unit 6, payload := (unit.drop 8).take (unit.length - 12) }

/-- The check code is right (R1, R2). -/
def goodCheck (unit : List Byte) : Bool :=
  12 ≤ unit.length && checkCode (unit.take (unit.length - 4)) == wordAt unit (unit.length - 4)

/-- The kind of header byte 0 (R3); none for 0 and 9 to 15. -/
def kindOf (first : Byte) : Option SegKind :=
  match (first.extractLsb' 0 4).toNat with
  | 1 => some .head | 2 => some .body | 3 => some .tail | 4 => some .trig
  | 5 => some .mreq | 6 => some .mrep | 7 => some .note | 8 => some .link
  | _ => none

/-- Conditions 1 and 3 of R14: the length field fits the unit and bits 7 to 4 of byte 0 are 0. -/
def headerWellFormed (g : RawSegment) : Bool :=
  g.length.toNat == g.payload.length && g.length.toNat ≤ 1024 && g.first.extractLsb' 4 4 == 0

/-- Conditions 2, 4, 5 and 6 of R14 on a downstream port (R4 to R8). -/
def kindWellFormedDown (k : SegKind) (g : RawSegment) : Bool :=
  match k with
  | .head => g.route.toNat < 4 && g.index == 0 && g.payload.length == 18
      && (byteAt g.payload 4).extractLsb' 4 4 == 0 && (byteAt g.payload 5).extractLsb' 1 7 == 0
  | .body => g.route.toNat < 4 && g.index != 0 && 1 ≤ g.payload.length
  | .tail => g.route.toNat < 4 && g.index != 0 && g.payload.length == 7
  | .mrep => g.index == 0 && 2 ≤ g.payload.length
  | .link => true
  | .trig | .mreq | .note => false

/-- Conditions 2, 4, 5 and 6 of R14 on the uplink (R4 to R7). -/
def kindWellFormedUp (k : SegKind) (g : RawSegment) : Bool :=
  match k with
  | .mreq => g.index == 0 && 1 ≤ g.payload.length
  | .link => true
  | .head | .body | .tail | .trig | .mrep | .note => false

/-- The attributes in a downstream HEAD's payload (R8). -/
def attributesOf (p : List Byte) : Attributes :=
  { width := halfAt p 0, height := halfAt p 2, pixel := byteAt p 4,
    trigger := if (byteAt p 5).getLsbD 0 then some (halfAt p 6) else none,
    capture := timeAt p 8, announced := wordAt p 14 }

/-- A well-formed segment as a downstream port hands it on (R6, R22). -/
inductive DownSegment where
  | head (channel : Channel) (frame : Half) (attributes : Attributes)
  | body (channel : Channel) (frame index : Half) (payload : List Byte)
  | tail (channel : Channel) (frame count : Half) (bytes : Word) (status : Byte)
  | mrep (tag : Half) (payload : List Byte)
  | link
  deriving DecidableEq, Repr

/-- A well-formed segment as the uplink hands it on (R33). -/
inductive UpSegment where
  | mreq (request : Mreq)
  | link
  deriving DecidableEq, Repr

/-- The three classes of received units (R1, R14). -/
inductive UnitClass (α : Type) where
  | badCheck
  | malformed
  | wellFormed (segment : α)
  deriving DecidableEq, Repr

/-- The channel in a frame segment's route byte (R5). -/
def channelOf (route : Byte) : Channel := ⟨route.toNat % 4, Nat.mod_lt _ (by decide)⟩

/-- What a well-formed downstream segment says. -/
def readDown (k : SegKind) (g : RawSegment) : DownSegment :=
  match k with
  | .head => .head (channelOf g.route) g.tag (attributesOf g.payload)
  | .body => .body (channelOf g.route) g.tag g.index g.payload
  | .tail => .tail (channelOf g.route) g.tag (halfAt g.payload 0) (wordAt g.payload 2) (byteAt g.payload 6)
  | .mrep => .mrep g.tag g.payload
  | .link | .trig | .mreq | .note => .link

/-- What a well-formed uplink segment says. -/
def readUp (k : SegKind) (g : RawSegment) : UpSegment :=
  match k with
  | .mreq => .mreq ⟨g.route, g.tag, byteAt g.payload 0, g.payload.drop 1⟩
  | .head | .body | .tail | .trig | .mrep | .note | .link => .link

/-- The class of a unit under a test and a reading of its kind (R1, R14). -/
def classify {α : Type} (test : SegKind → RawSegment → Bool) (reading : SegKind → RawSegment → α)
    (unit : List Byte) : UnitClass α :=
  if goodCheck unit then
    match kindOf (rawSegment unit).first with
    | some k =>
      if headerWellFormed (rawSegment unit) && test k (rawSegment unit) then .wellFormed (reading k (rawSegment unit))
      else .malformed
    | none => .malformed
  else .badCheck

/-- The class of a unit received on a downstream port. -/
def classifyDown : List Byte → UnitClass DownSegment := classify kindWellFormedDown readDown
/-- The class of a unit received on the uplink. -/
def classifyUp : List Byte → UnitClass UpSegment := classify kindWellFormedUp readUp

/-! ## Sent segments (R15) -/

/-- Header and payload of a sent segment (R1, R3). -/
def Segment.protectedBytes (g : Segment) : List Byte :=
  byteOf (g.kind.code + 128 * g.replay.toNat) :: g.route :: halfBytes g.tag ++ halfBytes g.index
    ++ halfOf g.payload.length ++ g.payload

/-- The unit that a sent segment is on its link (R1, R2). -/
def Segment.unit (g : Segment) : List Byte := g.protectedBytes ++ wordBytes (checkCode g.protectedBytes)

/-- LINK filler (R15). -/
def Segment.filler : Segment := ⟨.link, false, 0, 0, 0, []⟩

/-- The TRIG segment of a queued trigger (R11). -/
def Trig.segment (t : Trig) : Segment :=
  ⟨.trig, false, 0, t.number, 0, halfBytes t.number ++ [t.source, t.line]⟩

/-- The MREQ segment forwarded to a camera, as it was received (R12). -/
def Mreq.segment (m : Mreq) : Segment := ⟨.mreq, false, m.route, m.tag, 0, m.op :: m.args⟩

/-- The MREP segment of a queued reply (R12). -/
def Reply.segment (r : Reply) : Segment := ⟨.mrep, false, r.route, r.tag, 0, r.payload⟩

/-- The NOTE segment of a queued notice (R13). -/
def Notice.segment (n : Notice) : Segment :=
  ⟨.note, false, 0x0F, n.seq, 0, byteOf n.body.kind :: timeBytes n.time ++ n.body.bytes⟩

/-- The first 18 payload bytes of an uplink HEAD (R9). -/
def Attributes.bytes (a : Attributes) : List Byte :=
  halfBytes a.width ++ halfBytes a.height ++ [a.pixel] ++ flagByte a.trigger.isSome
    ++ halfBytes (a.trigger.getD 0) ++ timeBytes a.capture ++ wordBytes a.announced

/-- An uplink HEAD of record `r` (R9); `id` is 0 for a live forwarding. -/
def headSegment (replay : Bool) (route : Byte) (r : Record) (id : Byte) : Segment :=
  ⟨.head, replay, route, r.frame, 0, r.attributes.bytes ++ [id, byteOf r.entry.val]⟩

/-- An uplink BODY number `index` carrying `payload` (R102). -/
def bodySegment (replay : Bool) (route : Byte) (r : Record) (index : Nat) (payload : List Byte) : Segment :=
  ⟨.body, replay, route, r.frame, BitVec.ofNat 16 index, payload⟩

/-- An uplink TAIL after `bodies` body segments with `bytes` image bytes (R10, R102). -/
def tailSegment (replay : Bool) (route : Byte) (r : Record) (bodies bytes : Nat) (reason : Byte) : Segment :=
  ⟨.tail, replay, route, r.frame, BitVec.ofNat 16 (bodies + 1),
    halfOf bodies ++ wordOf bytes ++ [r.damage.code, reason]⟩

end Sys2Proof.Machine
end

