-- ==== Sys2Proof/Machine/Operands.lean ====
section
/-!
DEFINITION. Argument blocks: the operation table of R154 with its codes and lengths, read from and written to
bytes, and the range checks of the image block (R36, R40), the trigger block (R132) and the uplink block (R110),
with the way back to bytes.
-/

namespace Sys2Proof.Machine

open Sys2Proof

/-! ## Image blocks (R36) -/

/-- The image block in 14 bytes. -/
def imageBlockBytes (b : ImageBlock) : List Byte :=
  [b.valid, b.port, b.channel, b.tag, b.forward, b.retention, b.ringDepth] ++ halfBytes b.maxPages ++ [b.priority]
    ++ halfBytes b.stallTimeout ++ [b.continuity, b.correlated]

/-- The image block at offset `k` of an argument block. -/
def imageBlockAt (a : List Byte) (k : Nat) : ImageBlock :=
  { valid := byteAt a k, port := byteAt a (k + 1), channel := byteAt a (k + 2), tag := byteAt a (k + 3),
    forward := byteAt a (k + 4), retention := byteAt a (k + 5), ringDepth := byteAt a (k + 6),
    maxPages := halfAt a (k + 7), priority := byteAt a (k + 9), stallTimeout := halfAt a (k + 10),
    continuity := byteAt a (k + 12), correlated := byteAt a (k + 13) }

/-- A flag byte: 00h or 01h. -/
def flagOf (b : Byte) : Option Bool := if b = 0 then some false else if b = 1 then some true else none

/-- A forward byte (R36). -/
def forwardOf (b : Byte) : Option ForwardMode := if b = 0 then some .live else if b = 1 then some .withhold else none

/-- A retention byte (R36). -/
def retentionOf (b : Byte) : Option Retention :=
  if b = 0 then some .off else if b = 1 then some .rolling else if b = 2 then some .fill
  else if b = 3 then some .oneShot else none

/-- A number within bounds. -/
def within (lo hi n : Nat) : Option Nat := if lo ≤ n ∧ n ≤ hi then some n else none

/-- The image that a block encodes; none when a field is outside its encoding (R36, R40). -/
def imageOf (b : ImageBlock) : Option Image := do
  let valid ← flagOf b.valid
  let port ← indexBelow 8 b.port
  let channel ← indexBelow 4 b.channel
  let forward ← forwardOf b.forward
  let retention ← retentionOf b.retention
  let ringDepth ← within 1 64 b.ringDepth.toNat
  let maxPages ← within 1 1024 b.maxPages.toNat
  let priority ← indexBelow 4 b.priority
  let stallTimeout ← within 1 10000 b.stallTimeout.toNat
  let continuity ← flagOf b.continuity
  let correlated ← flagOf b.correlated
  return ⟨valid, port, channel, b.tag, forward, retention, ringDepth, maxPages, priority, stallTimeout, continuity,
    correlated⟩

/-- The block of an image (R36). -/
def blockOfImage (i : Image) : ImageBlock :=
  { valid := if i.valid then 1 else 0, port := byteOf i.port.val, channel := byteOf i.channel.val, tag := i.tag,
    forward := i.forward.code, retention := i.retention.code, ringDepth := byteOf i.ringDepth,
    maxPages := BitVec.ofNat 16 i.maxPages, priority := byteOf i.priority.val,
    stallTimeout := BitVec.ofNat 16 i.stallTimeout, continuity := if i.continuity then 1 else 0,
    correlated := if i.correlated then 1 else 0 }

/-- An image in 14 bytes (R36). -/
def imageBytes (i : Image) : List Byte := imageBlockBytes (blockOfImage i)

/-- The combinations R41 refuses: WITHHOLD with OFF or ONE_SHOT. -/
def combinationAllowed (i : Image) : Bool :=
  !(i.forward == .withhold && (i.retention == .off || i.retention == .oneShot))

/-! ## Trigger blocks (R132) -/

/-- The trigger block in 14 bytes. -/
def trigBlockBytes (b : TrigBlock) : List Byte :=
  [b.source, b.line, b.edge] ++ halfBytes b.debounce ++ [b.burstCount] ++ wordBytes b.burstPeriod
    ++ [b.gateLine, b.gateLevel] ++ halfBytes b.window

/-- The trigger block at offset `k` of an argument block. -/
def trigBlockAt (a : List Byte) (k : Nat) : TrigBlock :=
  { source := byteAt a k, line := byteAt a (k + 1), edge := byteAt a (k + 2), debounce := halfAt a (k + 3),
    burstCount := byteAt a (k + 5), burstPeriod := wordAt a (k + 6), gateLine := byteAt a (k + 10),
    gateLevel := byteAt a (k + 11), window := halfAt a (k + 12) }

/-- A source byte (R132). -/
def sourceOf (b : Byte) : Option GenSource :=
  if b = 0 then some .none else if b = 1 then some .line else if b = 2 then some .burst else none

/-- An edge byte (R132). -/
def edgeOf (b : Byte) : Option EdgeSel :=
  if b = 0 then some .rising else if b = 1 then some .falling else if b = 2 then some .both else none

/-- A gate line byte: FFh is no gate (R132). -/
def gateOf (b : Byte) : Option (Option LineId) := if b = 0xFF then some none else (indexBelow 4 b).map some

/-- The configuration that a block encodes; none when a field is outside its values (R132). -/
def trigConfigOf (b : TrigBlock) : Option TrigConfig := do
  let source ← sourceOf b.source
  let line ← indexBelow 4 b.line
  let edge ← edgeOf b.edge
  let debounce ← within 0 1000 b.debounce.toNat
  let burstCount ← within 1 255 b.burstCount.toNat
  let burstPeriod ← within 10 1000000 b.burstPeriod.toNat
  let gate ← gateOf b.gateLine
  let gateLevel ← flagOf b.gateLevel
  let window ← within 1 65535 b.window.toNat
  return ⟨source, line, edge, debounce, byteOf burstCount, burstPeriod, gate, gateLevel, window⟩

/-- The block of a configuration (R132). -/
def blockOfTrig (c : TrigConfig) : TrigBlock :=
  { source := c.source.code, line := byteOf c.line.val, edge := c.edge.code, debounce := BitVec.ofNat 16 c.debounce,
    burstCount := c.burstCount, burstPeriod := BitVec.ofNat 32 c.burstPeriod,
    gateLine := match c.gate with | some l => byteOf l.val | none => 0xFF,
    gateLevel := if c.gateLevel then 1 else 0, window := BitVec.ofNat 16 c.window }

/-! ## Uplink blocks (R110) -/

/-- The uplink block in 4 bytes. -/
def uplinkBlockBytes (b : UplinkBlock) : List Byte := halfBytes b.segmentSize ++ [b.replayClass, b.backlog]

/-- The settings that a block encodes; none when a field is outside its values (R110). -/
def uplinkSettingsOf (b : UplinkBlock) : Option (Nat × ClassId × Nat) := do
  let size ← if b.segmentSize = 256 ∨ b.segmentSize = 512 ∨ b.segmentSize = 1024 then some b.segmentSize.toNat else none
  let cls ← indexBelow 4 b.replayClass
  let backlog ← within 1 8 b.backlog.toNat
  return (size, cls, backlog)

/-! ## The operation table (R154, section 9.5) -/

/-- The code of an operation. -/
def opCode : HostOp → Byte
  | .describe => 0x01 | .resetPart _ => 0x02
  | .setPort .. => 0x10 | .getPort _ => 0x11 | .portReset _ => 0x12
  | .readEntry _ => 0x18 | .writeEntry .. => 0x19
  | .listFrames .. => 0x20 | .hold .. => 0x21 | .release .. => 0x22 | .drop .. => 0x23 | .storeClear => 0x24
  | .setUplink _ => 0x28
  | .replay .. => 0x30 | .cancelReplay _ => 0x31
  | .trigConfig .. => 0x38 | .trigStart _ => 0x39 | .trigStop _ => 0x3A | .trigNow _ => 0x3B | .trigStatus _ => 0x3C
  | .setNoticeMask _ => 0x40 | .readCounters .. => 0x41 | .clearCounters .. => 0x42
  | .profileSave _ => 0x48 | .profileLoad _ => 0x49 | .bootSelect _ => 0x4A | .profileInfo => 0x4B

/-- The argument block of an operation. -/
def opArgs : HostOp → List Byte
  | .describe | .storeClear | .profileInfo => []
  | .resetPart x | .getPort x | .portReset x | .readEntry x | .cancelReplay x => [x]
  | .trigStart x | .trigStop x | .trigNow x | .trigStatus x => [x]
  | .profileSave x | .profileLoad x | .bootSelect x => [x]
  | .setPort p e w => [p, e, w]
  | .writeEntry e b => e :: imageBlockBytes b
  | .listFrames x y | .drop x y | .readCounters x y | .clearCounters x y => [x, y]
  | .hold e f | .release e f => e :: halfBytes f
  | .setUplink none => []
  | .setUplink (some b) => uplinkBlockBytes b
  | .replay e f c => e :: halfBytes f ++ [c]
  | .trigConfig p b => p :: trigBlockBytes b
  | .setNoticeMask m => halfBytes m

/-- The argument lengths the agent accepts for a code (R154 step 3); none when the code is not in the table. -/
def argLengths (code : Byte) : Option (List Nat) :=
  match code.toNat with
  | 0x01 => some [0] | 0x02 => some [1]
  | 0x10 => some [3] | 0x11 => some [1] | 0x12 => some [1]
  | 0x18 => some [1] | 0x19 => some [15]
  | 0x20 => some [2] | 0x21 => some [3] | 0x22 => some [3] | 0x23 => some [2] | 0x24 => some [0]
  | 0x28 => some [0, 4]
  | 0x30 => some [4] | 0x31 => some [1]
  | 0x38 => some [15] | 0x39 => some [1] | 0x3A => some [1] | 0x3B => some [1] | 0x3C => some [1]
  | 0x40 => some [2] | 0x41 => some [2] | 0x42 => some [2]
  | 0x48 => some [1] | 0x49 => some [1] | 0x4A => some [1] | 0x4B => some [0]
  | _ => none

/-- The operation of a listed code whose argument block has an allowed length. -/
def readOp (code : Byte) (a : List Byte) : HostOp :=
  match code.toNat with
  | 0x02 => .resetPart (byteAt a 0)
  | 0x10 => .setPort (byteAt a 0) (byteAt a 1) (byteAt a 2)
  | 0x11 => .getPort (byteAt a 0)
  | 0x12 => .portReset (byteAt a 0)
  | 0x18 => .readEntry (byteAt a 0)
  | 0x19 => .writeEntry (byteAt a 0) (imageBlockAt a 1)
  | 0x20 => .listFrames (byteAt a 0) (byteAt a 1)
  | 0x21 => .hold (byteAt a 0) (halfAt a 1)
  | 0x22 => .release (byteAt a 0) (halfAt a 1)
  | 0x23 => .drop (byteAt a 0) (byteAt a 1)
  | 0x24 => .storeClear
  | 0x28 => .setUplink (if a.isEmpty then none else some ⟨halfAt a 0, byteAt a 2, byteAt a 3⟩)
  | 0x30 => .replay (byteAt a 0) (halfAt a 1) (byteAt a 3)
  | 0x31 => .cancelReplay (byteAt a 0)
  | 0x38 => .trigConfig (byteAt a 0) (trigBlockAt a 1)
  | 0x39 => .trigStart (byteAt a 0)
  | 0x3A => .trigStop (byteAt a 0)
  | 0x3B => .trigNow (byteAt a 0)
  | 0x3C => .trigStatus (byteAt a 0)
  | 0x40 => .setNoticeMask (halfAt a 0)
  | 0x41 => .readCounters (byteAt a 0) (byteAt a 1)
  | 0x42 => .clearCounters (byteAt a 0) (byteAt a 1)
  | 0x48 => .profileSave (byteAt a 0)
  | 0x49 => .profileLoad (byteAt a 0)
  | 0x4A => .bootSelect (byteAt a 0)
  | 0x4B => .profileInfo
  | _ => .describe

/-- The operation of a request, or the status of the agent's check that it fails (R154 steps 2 and 3). -/
def parseOp (code : Byte) (a : List Byte) : Except Status HostOp :=
  match argLengths code with
  | none => .error .badOperation
  | some ls => if a.length ∈ ls then .ok (readOp code a) else .error .badArgument

/-- The long operations (R156). -/
def isLong : HostOp → Bool
  | .profileSave _ | .profileLoad _ | .bootSelect _ => true
  | .describe | .resetPart _ | .setPort .. | .getPort _ | .portReset _ | .readEntry _ | .writeEntry .. => false
  | .listFrames .. | .hold .. | .release .. | .drop .. | .storeClear | .setUplink _ | .replay .. => false
  | .cancelReplay _ | .trigConfig .. | .trigStart _ | .trigStop _ | .trigNow _ | .trigStatus _ => false
  | .setNoticeMask _ | .readCounters .. | .clearCounters .. | .profileInfo => false

/-- The profile image of R172 in 582 bytes. -/
def Profile.bytes (p : Profile) : List Byte :=
  p.images.toList.flatMap imageBytes ++ p.ports.toList.flatMap (fun x => flagByte x.1 ++ flagByte x.2)
    ++ p.triggers.toList.flatMap (fun c => trigBlockBytes (blockOfTrig c))
    ++ uplinkBlockBytes ⟨BitVec.ofNat 16 p.segSize, byteOf p.replayClass.val, byteOf p.backlog⟩ ++ halfBytes p.mask

/-- The check code stored behind a profile image (R172). -/
def Profile.check (p : Profile) : Word := checkCode p.bytes

end Sys2Proof.Machine
end

