-- ==== Sys2Proof/Machine/Notices.lean ====
section
/-!
DEFINITION. The notice unit (chapter 10): the offer of a notice, a notice leaving the queue, and the counter groups
as READ_COUNTERS reports them.
-/

namespace Sys2Proof.Machine

open Sys2Proof

/-- The notice joins the tail of the queue with the current number and time (R163 step 3). -/
def pushNotice (b : NoticeBody) (s : State) : State :=
  mapNotices (fun u => { u with queue := u.queue ++ [⟨u.seq, s.partTime, b⟩], seq := u.seq + 1 }) s

/-- The notice is discarded and counted (R163 step 2). -/
def loseNotice : State → State :=
  mapNotices fun u => { u with lost := if u.lost < Config.lostMaximum then u.lost + 1 else Config.lostMaximum }

/-- A block offers a notice (R163): masked, lost to a full queue, or queued. -/
def offerNotice (b : NoticeBody) (s : State) : State :=
  if noticeEnabled s.notices.mask b then
    if s.notices.queue.length < Config.noticeCapacity then pushNotice b s else loseNotice s
  else s

/-- The queue holds a NOTICES_LOST notice (R164). -/
def holdsNoticesLost (q : List Notice) : Bool := q.any fun n => n.body.kind == 12

/-- The notice at the head has left; its place takes a NOTICES_LOST when notices were lost and none is queued (R164). -/
def noticeLeaves (s : State) : State :=
  let t := mapNotices (fun u => { u with queue := u.queue.drop 1 }) s
  if 0 < t.notices.lost ∧ holdsNoticesLost t.notices.queue = false then
    mapNotices (fun u => { u with lost := 0 }) (pushNotice (.noticesLost t.notices.lost) t)
  else t

end Sys2Proof.Machine
end

