-- ==== Sys2Proof/Machine/Retention.lean ====
section
/-!
DEFINITION. The frame store (chapter 5): claims and the freeing of records, rings and depth enforcement, the reclaim
list, the retention decision, and the supply of records and pages.
-/

namespace Sys2Proof.Machine

open Sys2Proof

/-! ## Claims (R77, R78, R81) -/

/-- The record holds no claim. -/
def Record.unclaimed (r : Record) : Bool := !(r.receiving || r.forward || r.ring || r.pin)

/-- The five conditions of R81. -/
def Record.reclaimable (r : Record) : Bool := r.ring && r.state == .closed && !r.held && !r.pin && !r.forward

/-- The record is freed (R78): its pages, then the record, join the tails of their free lists. -/
def freeRecord (r : RecordId) (s : State) : State :=
  mapRecord r (fun _ => .blank) (mapStore (fun st =>
    { st with freePages := st.freePages ++ (s.record r).pages, freeRecords := st.freeRecords ++ [r],
              reclaim := st.reclaim.erase r }) s)

/-- A record in use that is left with no claim is freed (R77, R78). -/
def freeIfUnclaimed (r : RecordId) (s : State) : State :=
  if (s.record r).state ≠ .free ∧ (s.record r).unclaimed = true then freeRecord r s else s

/-- The record's place on the reclaim list (R81): it joins the tail, stays, or leaves. -/
def placeOnReclaim (r : RecordId) (s : State) : State :=
  if (s.record r).reclaimable then
    if r ∈ s.store.reclaim then s else mapStore (fun st => { st with reclaim := st.reclaim ++ [r] }) s
  else mapStore (fun st => { st with reclaim := st.reclaim.erase r }) s

/-- The store re-examines a record whose claims or held flag have changed (R77). -/
def reexamine (r : RecordId) (s : State) : State := placeOnReclaim r (freeIfUnclaimed r s)

/-- The record leaves entry `e`'s ring, losing its ring claim and its held flag (R79). -/
def leaveRing (e : EntryId) (r : RecordId) (s : State) : State :=
  reexamine r (mapRecord r (fun x => { x with ring := false, held := false })
    (mapEntry e (fun x => { x with ring := x.ring.erase r }) s))

/-- The forward claim drops (R88). The record's queue is the caller's to change. -/
def dropForward (r : RecordId) (s : State) : State :=
  reexamine r (mapRecord r (fun x => { x with forward := false }) s)

/-- The ring member of entry `e` with frame number `n` (R79). -/
def ringMember (s : State) (e : EntryId) (n : Half) : Option RecordId :=
  (s.entry e).ring.find? fun r => (s.record r).frame == n

/-! ## Depth enforcement (R80) -/

/-- A ring member that enforcement may evict. -/
def evictable (s : State) (r : RecordId) : Bool := !(s.record r).held && !(s.record r).pin

/-- At most `k` evictions from the ring of entry `e`, oldest first (R80). -/
def evictions : Nat → EntryId → State → State
  | 0, _, s => s
  | k + 1, e, s =>
    if (s.entry e).current.ringDepth < (s.entry e).ring.length then
      match (s.entry e).ring.find? (evictable s) with
      | some r => evictions k e (leaveRing e r
          (countEntry e (fun c => { c with evictedDepth := bump c.evictedDepth }) s))
      | none => s
    else s

/-- Depth enforcement on the ring of entry `e` (R80). -/
def enforceDepth (e : EntryId) (s : State) : State := evictions (s.entry e).ring.length e s

/-! ## Supply (R84 to R86) -/

/-- The head of the reclaim list is taken back (R84); nothing when the list is empty. -/
def reclaimOldest (s : State) : State :=
  match s.store.reclaim with
  | [] => s
  | r :: _ =>
    leaveRing (s.record r).entry r
      (mapStore (fun st => { st with reclaims := bump st.reclaims })
        (countEntry (s.record r).entry (fun c => { c with evictedSpace := bump c.evictedSpace }) s))

/-- Take the head of the free record list. -/
def takeRecord (s : State) : State × Option RecordId :=
  match s.store.freeRecords with
  | [] => (s, none)
  | r :: rs => (mapStore (fun st => { st with freeRecords := rs }) s, some r)

/-- A record request (R85): granted, granted after one reclaim, or refused. -/
def requestRecord (s : State) : State × Option RecordId :=
  match takeRecord (if s.store.freeRecords.isEmpty then reclaimOldest s else s) with
  | (t, some r) => (t, some r)
  | (t, none) => (mapStore (fun st => { st with recordExhausted := bump st.recordExhausted }) t, none)

/-- Reclaim while no page is free and the reclaim list is not empty, at most `k` times (R86 step 2). -/
def reclaimForPage : Nat → State → State
  | 0, s => s
  | k + 1, s =>
    if s.store.freePages.isEmpty && !s.store.reclaim.isEmpty then reclaimForPage k (reclaimOldest s) else s

/-- A page request (R86). -/
def requestPage (s : State) : State × Option PageId :=
  let t := reclaimForPage s.store.reclaim.length s
  match t.store.freePages with
  | [] => (mapStore (fun st => { st with pageExhausted := bump st.pageExhausted }) t, none)
  | p :: ps => (mapStore (fun st => { st with freePages := ps }) t, some p)

/-! ## The retention decision (R82, R83) -/

/-- RETAIN_SKIPPED of entry `e` increments. -/
def countRetainSkipped (e : EntryId) : State → State :=
  countEntry e fun c => { c with retainSkipped := bump c.retainSkipped }

/-- The record joins the tail of entry `e`'s ring; RETAINED; depth enforcement (R82). -/
def retainRecord (e : EntryId) (r : RecordId) (s : State) : State :=
  enforceDepth e (countEntry e (fun c => { c with retained := bump c.retained })
    (mapRecord r (fun x => { x with ring := true }) (mapEntry e (fun x => { x with ring := x.ring ++ [r] }) s)))

/-- Retention OFF is written into entry `e`'s current image and ONE_SHOT_TAKEN is queued (R51, R83 steps 3 and 4). -/
def clearOneShot (e : EntryId) (r : RecordId) (frame : Half) (s : State) : State :=
  offerNotice (.oneShotTaken e frame ((s.entry e).ring.contains r))
    (mapEntry e (fun x => { x with current := { x.current with retention := .off } }) s)

/-- The retention decision for record `r` of entry `e` at its close (R82, R83). -/
def decideRetention (e : EntryId) (r : RecordId) (s : State) : State :=
  match (s.entry e).current.retention with
  | .off => s
  | .rolling => if (s.record r).notRetainable then countRetainSkipped e s else retainRecord e r s
  | .fill =>
    if !(s.record r).notRetainable && (s.entry e).ring.length < (s.entry e).current.ringDepth then retainRecord e r s
    else countRetainSkipped e s
  | .oneShot =>
    if (s.record r).notRetainable then countRetainSkipped e s
    else clearOneShot e r (s.record r).frame (retainRecord e r s)

/-- The close reaches the store as one action (R82): CLOSED, the receiving claim drops, the decision, the
re-examination. -/
def closeRecord (e : EntryId) (r : RecordId) (reason : CloseReason) (s : State) : State :=
  reexamine r (decideRetention e r
    (mapRecord r (fun x => { x with state := .closed, close := some reason, receiving := false }) s))

/-! ## The pin (R89) -/

/-- The record takes the pin claim and leaves the reclaim list. -/
def takePin (r : RecordId) (s : State) : State :=
  placeOnReclaim r (mapRecord r (fun x => { x with pin := true }) s)

/-- The unpin (R89): the claim drops, depth enforcement runs, the record is re-examined. -/
def unpin (r : RecordId) (s : State) : State :=
  reexamine r (enforceDepth (s.record r).entry (mapRecord r (fun x => { x with pin := false }) s))

/-! ## Several records at once -/

/-- The records leave entry `e`'s ring in the given order, with no eviction counter (R46, R92, R93). -/
def leaveRingAll (e : EntryId) (rs : List RecordId) : State → State := forEach rs (leaveRing e)

/-- Every entry's ring members in ascending entry index and ring order, joined to the reclaim list where they qualify
and are not on it (R81: "when one event brings several records to qualify"). -/
def joinQualified (s : State) : State :=
  forEach (allEntries.flatMap fun e => (s.entry e).ring) placeOnReclaim s

end Sys2Proof.Machine
end

