-- ==== Sys2Proof/Machine/Replies.lean ====
section
/-!
DEFINITION. The reply queue (R150 to R152) and the arrival of requests and camera replies (R148, R149, R151, R157),
with the forwarded request in a port's output queue (R31, R32).
-/

namespace Sys2Proof.Machine

open Sys2Proof

/-- A place is free for a joining reply: the one reserved by a take in progress does not count (R150, R153). -/
def replyRoom (s : State) : Bool := s.agent.replies.length + s.agent.reserved.toNat < Config.replyCapacity

/-- A reply joins the tail of the reply queue. -/
def pushReply (r : Reply) : State → State := mapAgent fun a => { a with replies := a.replies ++ [r] }

/-- A reply that the part originates (R12): route 0Fh, the request's tag and operation echo, status and result. -/
def partReply (tag : Half) (op : Byte) (status : Status) (result : List Byte) : Reply :=
  ⟨0x0F, tag, op :: status.code :: result, false⟩

/-- What an operation gives the agent (R154): its status, and the result block of a status OK or STARTED. -/
structure Answer where
  status : Status
  result : List Byte
  deriving DecidableEq, Repr

/-- The operation is refused with this status and changes nothing (R154). -/
def refuse (status : Status) (s : State) : State × Answer := (s, ⟨status, []⟩)

/-- The operation is done with status OK and this result block. -/
def accept (result : List Byte) (s : State) : State × Answer := (s, ⟨.ok, result⟩)

/-- The reply joins if it finds a free place; otherwise DROPPED increments (R149, R150). -/
def replyOrDrop (r : Reply) (s : State) : State := if replyRoom s then pushReply r s else countDropped s

/-- The PORT_DOWN reply to a request (R12): reason 00h not ACTIVE, 01h displaced. -/
def portDownReply (m : Mreq) (reason : Byte) : Reply := partReply m.tag m.op .portDown [reason]

/-- A forwarded request removed by a port reset draws PORT_DOWN 00h, or DROPPED (R25). -/
def refuseRemoved (m : Mreq) : State → State := replyOrDrop (portDownReply m 0)

/-- A forwarded request displaced by a TRIG draws PORT_DOWN 01h if there is room; DROPPED increments either way (R31). -/
def refuseDisplaced (m : Mreq) (s : State) : State :=
  countDropped (if replyRoom s then pushReply (portDownReply m 1) s else s)

/-- The number of segments in port `n`'s output queue (R30). -/
def outputLength (s : State) (n : PortId) : Nat := (s.port n).outTrigs.length + (s.port n).outMreqs.length

/-- A camera reply from port `n` joins the reply queue with its route replaced, or is dropped (R151). -/
def cameraReply (n : PortId) (tag : Half) (payload : List Byte) : State → State :=
  replyOrDrop ⟨byteOf n.val, tag, payload, false⟩

/-- A request to the camera on port `n` (R32, R157). -/
def forwardRequest (n : PortId) (m : Mreq) (s : State) : State :=
  if (s.port n).state ≠ .active then replyOrDrop (portDownReply m 0) s
  else if outputLength s n < Config.outputCapacity then
    mapPort n (fun p => { p with outMreqs := p.outMreqs ++ [m] }) s
  else replyOrDrop (partReply m.tag m.op .busy []) s

/-- A request that is to join the request queue (R149). -/
def joinRequests (m : Mreq) (s : State) : State :=
  if s.agent.requests.length < Config.requestCapacity then
    mapAgent (fun a => { a with requests := a.requests ++ [m] }) s
  else if replyRoom s then
    mapAgent (fun a => { a with refusedFull := bump a.refusedFull }) (pushReply (partReply m.tag m.op .queueFull []) s)
  else countDropped s

/-- A well-formed MREQ handed to the agent (R148); the take that its joining may bring is the caller's. -/
def requestArrives (m : Mreq) (s : State) : State :=
  let t := mapAgent (fun a => { a with received := bump a.received }) s
  match indexBelow 8 m.route with
  | some n => forwardRequest n m t
  | none => joinRequests m t

/-- Port `n`'s output queue is emptied; each removed MREQ is answered in queue order (R25, R30, R152). -/
def flushOutput (n : PortId) (s : State) : State :=
  forEach (s.port n).outMreqs refuseRemoved (mapPort n (fun p => { p with outTrigs := [], outMreqs := [] }) s)

end Sys2Proof.Machine
end

