-- ==== Sys2Proof/Machine/Trigger.lean ====
section
/-!
DEFINITION. The trigger block (chapter 8): issue of a trigger, the pending list, head reports, line trackers and
gates, and the removals that stream and port changes bring.
-/

namespace Sys2Proof.Machine

open Sys2Proof

/-! ## Issue (R139) -/

/-- The result of an attempt to issue a trigger (R140). -/
inductive IssueResult where
  | issued (number : Half)
  | suppressed
  | overrun
  deriving DecidableEq, Repr

/-- A TRIG is offered to port `n`'s output queue (R31): the state after it, and whether it was accepted. -/
def offerTrig (n : PortId) (t : Trig) (s : State) : State × Bool :=
  if outputLength s n < Config.outputCapacity then
    (mapPort n (fun p => { p with outTrigs := p.outTrigs ++ [t] }) s, true)
  else
    match (s.port n).outMreqs.getLast? with
    | some m =>
      (refuseDisplaced m
        (mapPort n (fun p => { p with outTrigs := p.outTrigs ++ [t], outMreqs := p.outMreqs.dropLast }) s), true)
    | none => (s, false)

/-- The correlated entries on port `n`, in ascending order (R139 step 5). -/
def correlatedOn (s : State) (n : PortId) : List EntryId :=
  allEntries.filter fun e =>
    (s.entry e).current.valid && (s.entry e).current.port == n && (s.entry e).current.correlated

/-- The pending entry of trigger `number`, issued now on port `n` (R141). -/
def newPending (n : PortId) (number : Half) (s : State) : PendingTrigger :=
  { number := number, issued := s.partTime,
    deadline := s.after ((s.gen n).config.window * Config.tenthMilli), outstanding := correlatedOn s n }

/-- The trigger is issued: number, counter and pending entry (R139 steps 4 and 5). -/
def recordIssue (n : PortId) (s : State) : State :=
  mapGen n (fun g =>
    { g with next := g.next + 1, counters := { g.counters with issued := bump g.counters.issued },
             pendings := if (correlatedOn s n).isEmpty then g.pendings
                         else g.pendings ++ [newPending n g.next s] }) s

/-- SUPPRESSED of port `n` increments. -/
def countSuppressed (n : PortId) : State → State := countTrig n fun c => { c with suppressed := bump c.suppressed }

/-- An attempt to issue a trigger on port `n` (R139). -/
def attemptIssue (n : PortId) (source : TrigSource) (line : Byte) (s : State) : State × IssueResult :=
  if (s.port n).state ≠ .active then (countSuppressed n s, .suppressed)
  else if Config.pendingCapacity ≤ (s.gen n).pendings.length then
    (offerNotice (.triggerOverrun n source (((s.gen n).pendings.head?.map (·.number)).getD 0))
      (countTrig n (fun c => { c with overrun := bump c.overrun }) s), .overrun)
  else
    match offerTrig n ⟨(s.gen n).next, source.code, line⟩ s with
    | (t, true) => (recordIssue n t, .issued (s.gen n).next)
    | (t, false) => (countSuppressed n t, .suppressed)

/-! ## Head reports (R142) -/

/-- Remove entry `e` from a pending entry's outstanding set. -/
def PendingTrigger.strike (e : EntryId) (p : PendingTrigger) : PendingTrigger :=
  { p with outstanding := p.outstanding.filter (· != e) }

/-- Keep the pending entries whose outstanding set is not empty. -/
def dropEmpty (ps : List PendingTrigger) : List PendingTrigger := ps.filter fun p => !p.outstanding.isEmpty

/-- Entry `e` is reported missed for trigger `number` of port `n` (R142, R143). -/
def reportMissed (n : PortId) (number : Half) (window : Bool) (e : EntryId) (s : State) : State :=
  offerNotice (.triggerMissed n number e window) (countTrig n (fun c => { c with missed := bump c.missed }) s)

/-- The pending entry answers trigger `number` for entry `e`. -/
def PendingTrigger.answers (number : Half) (e : EntryId) (p : PendingTrigger) : Bool :=
  p.number == number && p.outstanding.contains e

/-- The pending list after entry `e` has answered the entry at position `k`: `e` is struck from it and from every
older one (R142 steps 3 and 4). -/
def strikeUpTo (e : EntryId) (k : Nat) (ps : List PendingTrigger) : List PendingTrigger :=
  dropEmpty ((ps.take (k + 1)).map (PendingTrigger.strike e)) ++ ps.drop (k + 1)

/-- A head of entry `e` with trigger number `number` is matched against port `n`'s pending list (R142). -/
def matchHead (n : PortId) (e : EntryId) (number : Half) (s : State) : State :=
  match (s.gen n).pendings.findIdx? (PendingTrigger.answers number e) with
  | none => countTrig n (fun c => { c with unsolicited := bump c.unsolicited }) s
  | some k =>
    let skipped := ((s.gen n).pendings.take k).filter fun p => p.outstanding.contains e
    let t := countTrig n (fun c => { c with matched := bump c.matched }) s
    let u := mapGen n (fun g => { g with pendings := strikeUpTo e k g.pendings }) t
    forEach (skipped.map (·.number)) (fun m => reportMissed n m false e) u

/-- A head report (R60, R142): ignored without a trigger number or when entry `e` is not correlated. -/
def reportHead (n : PortId) (e : EntryId) (trigger : Option Half) (s : State) : State :=
  match trigger with
  | some number => if (s.entry e).current.correlated then matchHead n e number s else s
  | none => s

/-- The entry indexes still outstanding, in ascending order (R143). -/
def PendingTrigger.unanswered (p : PendingTrigger) : List EntryId := allEntries.filter p.outstanding.contains

/-- The window of the pending trigger `p` of port `n` expires (R143). -/
def expireWindow (n : PortId) (p : PendingTrigger) (s : State) : State :=
  mapGen n (fun g => { g with pendings := g.pendings.erase p })
    (forEach p.unanswered (reportMissed n p.number true) (atDeadline p.deadline s))

/-! ## Removals (R144, R145) -/

/-- Entry `e` leaves every outstanding set on every port; emptied pending entries go (R145). -/
def leavePending (e : EntryId) : State → State :=
  forEach allPorts fun n =>
    mapGen n fun g => { g with pendings := dropEmpty (g.pendings.map (PendingTrigger.strike e)) }

/-- The generator of port `n` enters IDLE and its pending list is emptied into ABANDONED (R144). -/
def abandonTriggers (n : PortId) : State → State :=
  mapGen n fun g =>
    { g with state := .idle, period := none, pendings := [],
             counters := { g.counters with abandoned := bumpBy g.pendings.length g.counters.abandoned } }

/-! ## Line trackers (R133, R134, R137) -/

/-- The line that a configuration watches (R133). -/
def TrigConfig.watched (c : TrigConfig) : Option LineId :=
  match c.source with
  | .none => none
  | .line => some c.line
  | .burst => c.gate

/-- The raw level of the watched line; low when nothing is watched. -/
def rawLevel (s : State) (c : TrigConfig) : Bool :=
  match c.watched with
  | some l => s.tin[l]
  | none => false

/-- The tracker of port `n` starts or restarts on the line it watches (R133). -/
def restartTracker (n : PortId) (s : State) : State :=
  mapGen n (fun g => { g with level := rawLevel s g.config, debounce := none }) s

/-- A rising (true) or falling (false) edge matches the configured edge (R134). -/
def EdgeSel.takes (sel : EdgeSel) (rising : Bool) : Bool :=
  match sel with
  | .rising => rising
  | .falling => !rising
  | .both => true

/-- A line edge at port `n`'s generator with source LINE (R134). -/
def lineEdge (n : PortId) (rising : Bool) (s : State) : State :=
  if (s.gen n).state = .armed ∧ (s.gen n).config.edge.takes rising = true then
    (attemptIssue n .line (byteOf (s.gen n).config.line.val) s).1
  else s

/-- A gate edge at port `n`'s generator with source BURST (R137): the debounced level is now `level`. R132 has the edge
field used by whichever line the generator watches, and R137 gives it no part at a gate; the model's choice is that the
gate level alone decides (log entry 34). -/
def gateEdge (n : PortId) (level : Bool) (s : State) : State :=
  if (s.gen n).state = .running ∧ level ≠ (s.gen n).config.gateLevel then
    mapGen n (fun g => { g with state := .paused, period := none }) s
  else if (s.gen n).state = .paused ∧ level = (s.gen n).config.gateLevel then
    mapGen n (fun g => { g with state := .running, period := some (s.after g.config.burstPeriod) }) s
  else s

/-- The debounce timer of port `n` expires: the debounced level becomes the raw level, and an edge is reported (R133). -/
def settleLine (n : PortId) (s : State) : State :=
  let level := rawLevel s (s.gen n).config
  let t := mapGen n (fun g => { g with level := level, debounce := none }) s
  if level = (s.gen n).level then t
  else
    match (s.gen n).config.source with
    | .line => lineEdge n level t
    | .burst => gateEdge n level t
    | .none => t

/-- Port `n`'s tracker sees a change of the raw level of line `l` (R133). -/
def trackLine (l : LineId) (n : PortId) (s : State) : State :=
  if (s.gen n).config.watched = some l then
    if s.tin[l] = (s.gen n).level then mapGen n (fun g => { g with debounce := none }) s
    else if (s.gen n).config.debounce = 0 then settleLine n s
    else mapGen n (fun g => { g with debounce := some (s.after g.config.debounce) }) s
  else s

/-! ## The commands of the trigger block -/

/-- RAW_LINE_CHANGE (R133; log entries 8, 23): until the start-up load completes no tracker runs. -/
def rawLineChange (l : LineId) (level : Bool) (s : State) : State :=
  if s.tin[l] = level then s
  else
    let t := { s with tin := s.tin.set l level }
    if s.starting then t else forEach allPorts (trackLine l) t

/-- DEBOUNCE_TIMER_EXPIRY (R133). -/
def debounceExpiry (n : PortId) (s : State) : State :=
  match (s.gen n).debounce with
  | some d => settleLine n (atDeadline d s)
  | none => s

/-- After an attempt of a burst: remaining and the period timer (R136). -/
def countDown (n : PortId) (s : State) : State :=
  mapGen n (fun g =>
    if g.remaining = 0xFF then { g with period := some (s.after g.config.burstPeriod) }
    else if g.remaining.toNat ≤ 1 then { g with remaining := 0, period := none, state := .idle }
    else { g with remaining := g.remaining - 1, period := some (s.after g.config.burstPeriod) }) s

/-- PERIOD_TIMER_EXPIRY (R136). -/
def periodExpiry (n : PortId) (s : State) : State :=
  match (s.gen n).state, (s.gen n).period with
  | .running, some d => countDown n (attemptIssue n .burst 0xFF (atDeadline d s)).1
  | _, _ => s

/-- WINDOW_EXPIRY (R143) of the pending trigger numbered `number`. -/
def windowExpiry (n : PortId) (number : Half) (s : State) : State :=
  match (s.gen n).pendings.find? (fun p => p.number == number) with
  | some p => expireWindow n p s
  | none => s

end Sys2Proof.Machine
end

