-- ==== Sys2Proof/Machine/Replay.lean ====
section
/-!
DEFINITION. The replay service (chapter 7): the engine's advance through a request, the end of requests, loss of the
uplink, stream-gone marks, and the operations REPLAY and CANCEL_REPLAY.
-/

namespace Sys2Proof.Machine

open Sys2Proof

/-! ## The head request -/

/-- Update the head request of the replay queue. -/
def mapHead (f : ReplayRequest → ReplayRequest) : State → State :=
  mapReplay fun v => { v with queue := match v.queue with | q :: qs => f q :: qs | [] => [] }

/-- The next frame's outcome is decided and the position advances by 1 (R117). -/
def ReplayRequest.settle (o : FrameOutcome) (q : ReplayRequest) : ReplayRequest :=
  { q with outcomes := q.outcomes ++ [o] }

/-- Every frame without an outcome gets this one (R123 to R126). -/
def ReplayRequest.fill (o : FrameOutcome) (q : ReplayRequest) : ReplayRequest :=
  { q with outcomes := q.outcomes ++ List.replicate (q.count - q.outcomes.length) o }

/-- The frame number of the next frame to be decided (R113). -/
def ReplayRequest.frame (q : ReplayRequest) : Half := q.first + BitVec.ofNat 16 q.outcomes.length

/-- The REPLAY_DONE notice of a request (R117, R122). -/
def ReplayRequest.done (q : ReplayRequest) : NoticeBody := .replayDone q.id q.entry q.first q.count q.outcomes

/-! ## The engine (R118 to R122) -/

/-- The pin granted for record `r` (R119): it is the pinned record and the engine is SENDING. -/
def startSending (r : RecordId) (s : State) : State :=
  mapReplay (fun v => { v with engine := .sending, pinned := some r, cursor := none }) (takePin r s)

/-- The engine advances through the head request by at most `k` frames, until a pin is granted or the position
reaches the count (R119). -/
def advance : Nat → State → State
  | 0, s => s
  | k + 1, s =>
    match s.replay.queue with
    | [] => s
    | q :: _ =>
      if q.count ≤ q.outcomes.length then s
      else if q.gone then advance k (mapHead (.settle .streamGone) s)
      else
        match ringMember s q.entry q.frame with
        | none => advance k (mapHead (.settle .missing) s)
        | some r => startSending r s

/-- The head request ends (R122): REPLAY_DONE, the request leaves, the engine is IDLE. -/
def endHead (s : State) : State :=
  match s.replay.queue with
  | [] => s
  | q :: qs =>
    mapReplay (fun v => { v with queue := qs, engine := .idle, pinned := none, cursor := none })
      (offerNotice q.done s)

/-- The three conditions of a take (R118). -/
def replayDue (s : State) : Bool :=
  s.replay.engine == .idle && s.uplink.state == .active && !s.replay.queue.isEmpty

/-- The engine makes the head request ACTIVE and advances through it from position 0 (R118). -/
def takeHead (s : State) : State :=
  match s.replay.queue with
  | [] => s
  | q :: _ => advance q.count (mapHead (fun x => { x with active := true }) s)

/-- The engine takes requests while the conditions hold, at most `k` of them: a request whose frames are all
STREAM_GONE or MISSING ends at its take (R118, R119). -/
def takeRequests : Nat → State → State
  | 0, s => s
  | k + 1, s =>
    if replayDue s then
      let t := takeHead s
      if t.replay.pinned.isSome then t else takeRequests k (endHead t)
    else s

/-- The takes that an event brings about (R118; log entry 2). -/
def replayTakes (s : State) : State := takeRequests s.replay.queue.length s

/-- The pinned record is given up and unpinned (R121 steps 2 and 3). -/
def releasePin (s : State) : State :=
  match s.replay.pinned with
  | some r => unpin r (mapReplay (fun v => { v with pinned := none, cursor := none }) s)
  | none => s

/-- After a frame has ended: the engine advances, or the request ends and the next is taken (R121 step 4). -/
def continueHead (s : State) : State :=
  match s.replay.queue with
  | [] => s
  | q :: _ =>
    let t := advance q.count s
    if t.replay.pinned.isSome then t else replayTakes (endHead t)

/-- SENT or SENT_DAMAGED by the record (R117). -/
def sentOutcome (r : Record) : FrameOutcome :=
  if r.damage == Damage.none && r.close == some .tail then .sent else .sentDamaged

/-- The outcome of the pinned frame when its own TAIL has left. -/
def pinnedOutcome (s : State) : FrameOutcome :=
  match s.replay.pinned with
  | some r => sentOutcome (s.record r)
  | none => .sent

/-- The pinned frame gets `first`, the rest `rest`; the record is unpinned and the request ends (R124, R125). -/
def finishHead (first rest : FrameOutcome) (s : State) : State :=
  replayTakes (endHead (releasePin (mapHead (fun q => (q.settle first).fill rest) s)))

/-- The record's own replay TAIL has left (R121; in CLOSING, R125). -/
def replayTailLeaves (s : State) : State :=
  match s.replay.engine with
  | .closing => finishHead (pinnedOutcome s) .cancelled s
  | .idle | .sending => continueHead (releasePin (mapHead (.settle (pinnedOutcome s)) s))

/-- The ABORTED TAIL has left (R125). -/
def abortedTailLeaves : State → State := finishHead .aborted .cancelled

/-- The unpin at uplink loss: as R89, but the records that qualify for the reclaim list join it later, all together
(R81; log entry 15). -/
def unpinQuietly (r : RecordId) (s : State) : State :=
  freeIfUnclaimed r (enforceDepth (s.record r).entry (mapRecord r (fun x => { x with pin := false }) s))

/-- The uplink's loss ends the ACTIVE request (R126). -/
def abortReplay (s : State) : State :=
  if s.replay.engine = .idle then s
  else
    let t := mapHead (.fill .aborted) s
    endHead (match s.replay.pinned with | some r => unpinQuietly r t | none => t)

/-- An identity change of entry `e` marks its requests (R127). -/
def markGone (e : EntryId) : State → State :=
  mapReplay fun v => { v with queue := v.queue.map fun q => if q.entry = e then { q with gone := true } else q }

/-! ## REPLAY (R115, R116) -/

/-- The replay id counter's next value (R115). -/
def nextReplayId (i : Byte) : Byte := if i = 0xFF then 1 else i + 1

/-- The first id from `i` on that no queued request holds (R115); at most `k` steps. -/
def freeReplayId : Nat → List ReplayRequest → Byte → Byte
  | 0, _, i => i
  | k + 1, q, i => if q.any (fun x => x.id == i) then freeReplayId k q (nextReplayId i) else i

/-- The id given at the next acceptance. -/
def givenReplayId (s : State) : Byte := freeReplayId 16 s.replay.queue s.replay.nextId

/-- The accepted request joins the tail of the queue (R116). -/
def joinReplayQueue (e : EntryId) (first : Half) (count : Nat) (s : State) : State :=
  mapReplay (fun v =>
    { v with queue := v.queue ++ [⟨givenReplayId s, e, first, count, false, [], false⟩],
             nextId := nextReplayId (givenReplayId s) }) s

/-- REPLAY (R116), with the take that its acceptance may bring (R118). -/
def opReplay (entry : Byte) (first : Half) (count : Byte) (s : State) : State × Answer :=
  match indexBelow 32 entry, within 1 16 count.toNat with
  | some e, some n =>
    if !(s.entry e).current.valid then refuse .notFound s
    else if Config.replayCapacity ≤ s.replay.queue.length then refuse .busy s
    else accept [givenReplayId s, byteOf (s.replay.queue.length + 1)] (replayTakes (joinReplayQueue e first n s))
  | _, _ => refuse .badArgument s

/-! ## CANCEL_REPLAY (R123, R124) -/

/-- A WAITING request is withdrawn from its place (R123). -/
def withdraw (q : ReplayRequest) (s : State) : State :=
  mapReplay (fun v => { v with queue := v.queue.erase q }) (offerNotice (q.fill .cancelled).done s)

/-- The ACTIVE request is cancelled (R124, R125): the state after, and the state it was found in. -/
def cancelActive (s : State) : State × Byte :=
  match s.replay.engine with
  | .closing => (s, 2)
  | .idle | .sending =>
    match s.replay.cursor with
    | none => (finishHead .aborted .cancelled s, 1)
    | some _ => (mapReplay (fun v => { v with engine := .closing }) s, 1)

/-- CANCEL_REPLAY (R123, R124). -/
def opCancelReplay (id : Byte) (s : State) : State × Answer :=
  match s.replay.queue.find? (fun q => q.id == id) with
  | none => refuse .notFound s
  | some q =>
    if q.active then accept [id, (cancelActive s).2] (cancelActive s).1
    else accept [id, 0] (withdraw q s)

end Sys2Proof.Machine
end

