-- ==== Sys2Proof/Machine/Table.lean ====
section
/-!
DEFINITION. The stream table (chapter 3): lookup, activation of an image with its effects, and the operations
READ_ENTRY and WRITE_ENTRY.
-/

namespace Sys2Proof.Machine

open Sys2Proof

/-! ## Lookup (R38) -/

/-- The entry whose valid current image binds the pair (R38). -/
def lookup (s : State) (n : PortId) (c : Channel) : Option EntryId :=
  allEntries.find? fun e =>
    (s.entry e).current.valid && (s.entry e).current.port == n && (s.entry e).current.channel == c

/-! ## Activation (R45 to R50) -/

/-- The identity differs: valid, port or channel (R46). -/
def identityDiffers (a b : Image) : Bool := a.valid != b.valid || a.port != b.port || a.channel != b.channel

/-- Retention, ring depth or priority class differs (R49). -/
def policyDiffers (a b : Image) : Bool :=
  a.retention != b.retention || a.ringDepth != b.ringDepth || a.priority != b.priority

/-- The records of the forward queue that an identity change leaves in it: a head being sent (R47). -/
def beingSent (x : Entry) : List RecordId := if x.cursor.isSome then x.forwardQueue.take 1 else []

/-- The records of the forward queue that an identity change removes (R47). -/
def notBegun (x : Entry) : List RecordId := if x.cursor.isSome then x.forwardQueue.drop 1 else x.forwardQueue

/-- The forward queue is emptied but for a frame being sent (R47). -/
def emptyForward (e : EntryId) (s : State) : State :=
  forEach (notBegun (s.entry e)) dropForward
    (mapEntry e (fun x => { x with forwardQueue := beingSent x }) s)

/-- The old stream of entry `e` ends (R46): ring, forward queue, expected number, outstanding sets, replays. -/
def endStream (e : EntryId) (s : State) : State :=
  markGone e (leavePending e (mapEntry e (fun x => { x with expected := none })
    (emptyForward e (leaveRingAll e (s.entry e).ring s))))

/-- The new image replaces the current one and the staged image becomes absent (R45). -/
def installImage (e : EntryId) (i : Image) : State → State :=
  mapEntry e fun x => { x with current := i, staged := none }

/-- The effects of an activation of `new` over `old` (R46 to R50). -/
def applyDifferences (e : EntryId) (old new : Image) (s : State) : State :=
  if identityDiffers old new then endStream e s
  else
    let t := if policyDiffers old new then enforceDepth e s else s
    if old.correlated && !new.correlated then leavePending e t else t

/-- An activation of image `i` at entry `e` (R45). -/
def activate (e : EntryId) (i : Image) (s : State) : State :=
  applyDifferences e (s.entry e).current i (installImage e i s)

/-- At a return to IDLE a staged image activates (R44). -/
def activateStaged (e : EntryId) (s : State) : State :=
  match (s.entry e).staged with
  | some i => activate e i s
  | none => s

/-! ## WRITE_ENTRY (R39 to R43) -/

/-- Two images bind the same pair or the same tag (R42). -/
def collides (a b : Image) : Bool := (a.port == b.port && a.channel == b.channel) || a.tag == b.tag

/-- The valid images of an entry, current and staged (R42). -/
def validImages (x : Entry) : List Image := (x.current :: x.staged.toList).filter (·.valid)

/-- The image collides with a valid image of another entry (R42). -/
def conflicts (s : State) (e : EntryId) (i : Image) : Bool :=
  i.valid && allEntries.any fun f => f != e && (validImages (s.entry f)).any (collides i)

/-- The accepted image is activated at an IDLE entry and staged otherwise (R43). -/
def disposeImage (e : EntryId) (i : Image) (s : State) : State × Answer :=
  match (s.entry e).assembly with
  | .idle => accept [byteOf e.val, 0] (activate e i s)
  | .filling _ | .discarding => accept [byteOf e.val, 1] (mapEntry e (fun x => { x with staged := some i }) s)

/-- WRITE_ENTRY (R40, R41, R42, R43). -/
def opWriteEntry (entry : Byte) (block : ImageBlock) (s : State) : State × Answer :=
  match indexBelow 32 entry, imageOf block with
  | some e, some i =>
    if !combinationAllowed i then refuse .badArgument s
    else if conflicts s e i then refuse .conflict s
    else disposeImage e i s
  | _, _ => refuse .badArgument s

/-! ## READ_ENTRY (R52) -/

/-- The 15 bytes that report a staged image (R52). -/
def stagedBytes (i : Option Image) : List Byte :=
  match i with
  | some i => 1 :: imageBytes i
  | none => List.replicate 15 0

/-- The three bytes that report the expected frame number (R52). -/
def expectedBytes (n : Option Half) : List Byte :=
  match n with
  | some n => 1 :: halfBytes n
  | none => [0, 0, 0]

/-- The result block of READ_ENTRY (R52). -/
def entryReport (e : EntryId) (x : Entry) : List Byte :=
  byteOf e.val :: imageBytes x.current ++ stagedBytes x.staged ++ [x.assembly.code] ++ expectedBytes x.expected
    ++ halfOf x.ring.length ++ [byteOf x.forwardQueue.length]

/-- READ_ENTRY (R52). -/
def opReadEntry (entry : Byte) (s : State) : State × Answer :=
  match indexBelow 32 entry with
  | some e => accept (entryReport e (s.entry e)) s
  | none => refuse .badArgument s

end Sys2Proof.Machine
end

