-- ==== Sys2Proof/Machine/Reception.lean ====
section
/-!
DEFINITION. Frame reception (chapter 4): HEAD, BODY and TAIL at an entry's assembly, the stall timer, and the close of a
frame. The forward claim offered at a HEAD (R99) stands here too.
-/

namespace Sys2Proof.Machine

open Sys2Proof

/-! ## The assembly -/

/-- The stall timer starts or restarts at the length the current image gives (R69). -/
def startStall (e : EntryId) (s : State) : State :=
  mapEntry e (fun x => { x with stall := some (s.after (x.current.stallTimeout * Config.tenthMilli)) }) s

/-- The entry returns to IDLE (R71 step 4): no open record, timer stopped, next index 1. -/
def assemblyIdle (e : EntryId) : State → State :=
  mapEntry e fun x => { x with assembly := .idle, stall := none, nextIndex := 1 }

/-! ## Closing a frame (R71, R72) -/

/-- FRAMES_IN, and at a damaged close FRAMES_DAMAGED with its notice, for the record as it closed (R72). -/
def countClose (e : EntryId) (x : Record) (reason : CloseReason) (s : State) : State :=
  let t := countEntry e (fun c => { c with framesIn := bump c.framesIn }) s
  if damagedClose x.damage reason then
    offerNotice (.frameDamaged e x.frame x.damage reason x.bodies x.bytes)
      (countEntry e (fun c => { c with framesDamaged := bump c.framesDamaged }) t)
  else t

/-- The open record `r` of entry `e` closes, effects 1 to 4 (R71). -/
def closeOpen (e : EntryId) (r : RecordId) (reason : CloseReason) (s : State) : State :=
  assemblyIdle e (countClose e (s.record r) reason (closeRecord e r reason s))

/-- Entry `e`'s assembly is ended: an open frame closes for `reason`, discarding ends; no activation (R64, R71, R74). -/
def endAssembly (e : EntryId) (reason : CloseReason) (s : State) : State :=
  match (s.entry e).assembly with
  | .idle => s
  | .filling r => closeOpen e r reason s
  | .discarding => assemblyIdle e s

/-- Entry `e` returns to IDLE and a staged image activates (R44, R71 step 5). -/
def returnToIdle (e : EntryId) (reason : CloseReason) (s : State) : State :=
  activateStaged e (endAssembly e reason s)

/-! ## HEAD (R56 to R64) -/

/-- The continuity check (R57). -/
def checkContinuity (e : EntryId) (n : Half) (s : State) : State :=
  match (s.entry e).expected with
  | some x =>
    if (s.entry e).current.continuity && n != x then
      offerNotice (.frameGap e x n (n - x))
        (countEntry e (fun c => { c with frameGaps := bumpBy (n - x).toNat c.frameGaps }) s)
    else s
  | none => s

/-- The expected frame number becomes one above `n` (R56 step 1). -/
def expectAfter (e : EntryId) (n : Half) : State → State := mapEntry e fun x => { x with expected := some (n + 1) }

/-- The duplicate check (R58): the state after it, and whether the new frame is marked not-retainable. -/
def checkDuplicate (e : EntryId) (n : Half) (s : State) : State × Bool :=
  match ringMember s e n with
  | some r =>
    if (s.record r).held || (s.record r).pin then (s, true)
    else (leaveRing e r (countEntry e (fun c => { c with duplicateReplaced := bump c.duplicateReplaced }) s), false)
  | none => (s, false)

/-- The record as filled in at the HEAD (R59). -/
def recordAtHead (e : EntryId) (n : Half) (a : Attributes) (notRetainable : Bool) (s : State) : Record :=
  { Record.blank with
    entry := e, frame := n, tagAtHead := (s.entry e).current.tag, attributes := a, headTime := s.partTime,
    state := .filling, notRetainable := notRetainable, receiving := true }

/-- FORWARD_SKIPPED of entry `e` increments. -/
def countForwardSkipped (e : EntryId) : State → State :=
  countEntry e fun c => { c with forwardSkipped := bump c.forwardSkipped }

/-- A new record is offered a forward claim (R61, R99). -/
def offerForward (e : EntryId) (r : RecordId) (s : State) : State :=
  match (s.entry e).current.forward with
  | .withhold => s
  | .live =>
    if s.uplink.state ≠ .active then
      mapUplink (fun u => { u with downSkipped := bump u.downSkipped }) (countForwardSkipped e s)
    else if s.uplink.backlog ≤ (s.entry e).forwardQueue.length then countForwardSkipped e s
    else
      mapRecord r (fun x => { x with forward := true })
        (mapEntry e (fun x => { x with forwardQueue := x.forwardQueue ++ [r] }) s)

/-- The frame opens in the granted record (R59, R61). -/
def openFrame (e : EntryId) (r : RecordId) (n : Half) (a : Attributes) (notRetainable : Bool) (s : State) : State :=
  offerForward e r (startStall e
    (mapEntry e (fun x => { x with assembly := .filling r, nextIndex := 1 })
      (mapRecord r (fun _ => recordAtHead e n a notRetainable s) s)))

/-- No record could be had (R62). -/
def refuseFrame (e : EntryId) (n : Half) (s : State) : State :=
  offerNotice (.storeExhausted false e n)
    (countEntry e (fun c => { c with framesRefused := bump c.framesRefused })
      (startStall e (mapEntry e (fun x => { x with assembly := .discarding, nextIndex := 1 }) s)))

/-- Steps 3 and 4 of R56: the record request, then the grant or the refusal. -/
def seekRecord (e : EntryId) (n : Half) (a : Attributes) (notRetainable : Bool) (s : State) : State :=
  match requestRecord s with
  | (t, some r) => openFrame e r n a notRetainable t
  | (t, none) => refuseFrame e n t

/-- A HEAD taken by entry `e` in IDLE, arrived on port `n` (R56, R60). -/
def headTaken (e : EntryId) (n : PortId) (frame : Half) (a : Attributes) (s : State) : State :=
  let d := checkDuplicate e frame (expectAfter e frame (checkContinuity e frame s))
  reportHead n e a.trigger (seekRecord e frame a d.2 d.1)

/-- UNKNOWN_CHANNEL of port `n` increments (R22, R63). -/
def countUnknown (n : PortId) : State → State := countPort n fun c => { c with unknownChannel := bump c.unknownChannel }
/-- SEG_ORPHAN of port `n` increments (R67). -/
def countOrphan (n : PortId) : State → State := countPort n fun c => { c with orphan := bump c.orphan }
/-- SEG_STALE of port `n` increments (R65). -/
def countStale (n : PortId) : State → State := countPort n fun c => { c with stale := bump c.stale }

/-- A HEAD that has ended the state it met is looked up again (R63 step 3, R64). -/
def headAgain (n : PortId) (c : Channel) (frame : Half) (a : Attributes) (s : State) : State :=
  match lookup s n c with
  | some e => headTaken e n frame a s
  | none => countUnknown n s

/-- A HEAD at the entry that its first lookup found (R56, R63, R64). -/
def headAt (e : EntryId) (n : PortId) (c : Channel) (frame : Half) (a : Attributes) (s : State) : State :=
  match (s.entry e).assembly with
  | .idle => headTaken e n frame a s
  | .filling _ | .discarding => headAgain n c frame a (returnToIdle e .unterminated s)

/-! ## BODY (R65 to R67) -/

/-- The record's damage set takes TRUNCATED (R66). -/
def markTruncated (r : RecordId) : State → State :=
  mapRecord r fun x => { x with damage := { x.damage with truncated := true } }

/-- The payload is written behind the stored bytes of record `r`, whose page list is now `pages` (R66, R75). -/
def writePayload (r : RecordId) (pages : List PageId) (payload : List Byte) (s : State) : State :=
  mapStore (fun st => { st with mem := storeBytes pages (s.record r).bytes payload st.mem })
    (mapRecord r (fun x => { x with pages := pages, bytes := x.bytes + payload.length }) s)

/-- The payload fits on the pages the record has (R66 step 1). -/
def payloadFits (x : Record) (payload : List Byte) : Bool :=
  x.bytes + payload.length ≤ x.pages.length * Config.pageBytes

/-- The payload of an accepted BODY is appended whole or not at all (R66). -/
def appendPayload (e : EntryId) (r : RecordId) (payload : List Byte) (s : State) : State :=
  if (s.record r).damage.truncated then s
  else if payloadFits (s.record r) payload then writePayload r (s.record r).pages payload s
  else if (s.entry e).current.maxPages ≤ (s.record r).pages.length then markTruncated r s
  else
    match requestPage s with
    | (t, some p) => writePayload r ((t.record r).pages ++ [p]) payload t
    | (t, none) => offerNotice (.storeExhausted true e (t.record r).frame) (markTruncated r t)

/-- An accepted BODY (R65): SEGMENT_LOST on a skip, counted, appended, next index, timer. -/
def acceptBody (e : EntryId) (r : RecordId) (i : Nat) (payload : List Byte) (s : State) : State :=
  let lost := decide ((s.entry e).nextIndex < i)
  startStall e (mapEntry e (fun x => { x with nextIndex := i + 1 })
    (appendPayload e r payload
      (mapRecord r (fun x => { x with
        bodies := x.bodies + 1,
        damage := { x.damage with segmentLost := x.damage.segmentLost || lost } }) s)))

/-- A BODY at the entry that lookup found (R65, R67). -/
def bodyAt (e : EntryId) (n : PortId) (index : Half) (payload : List Byte) (s : State) : State :=
  match (s.entry e).assembly with
  | .idle => countOrphan n s
  | .filling r =>
    if index.toNat < (s.entry e).nextIndex then countStale n s else acceptBody e r index.toNat payload s
  | .discarding => startStall e (countOrphan n s)

/-! ## TAIL (R67, R68) -/

/-- The tests that mark LENGTH_MISMATCH (R68). -/
def lengthMismatch (x : Record) (nextIndex : Nat) (count : Half) (bytes : Word) : Bool :=
  count.toNat != nextIndex - 1 || (!x.damage.truncated && bytes.toNat != x.bytes)
    || (x.attributes.announced != 0 && x.attributes.announced != bytes)

/-- The TAIL is checked against the open record (R68). -/
def checkTail (e : EntryId) (r : RecordId) (count : Half) (bytes : Word) (status : Byte) (s : State) : State :=
  mapRecord r (fun x => { x with damage := { x.damage with
    lengthMismatch := x.damage.lengthMismatch || lengthMismatch x (s.entry e).nextIndex count bytes,
    cameraFault := x.damage.cameraFault || status != 0 } }) s

/-- A TAIL at the entry that lookup found (R67, R68). -/
def tailAt (e : EntryId) (n : PortId) (count : Half) (bytes : Word) (status : Byte) (s : State) : State :=
  match (s.entry e).assembly with
  | .idle => countOrphan n s
  | .filling r => returnToIdle e .tail (checkTail e r count bytes status s)
  | .discarding => returnToIdle e .tail s

/-! ## The stall timer (R70) -/

/-- STALL_TIMER_EXPIRY (R70; log entries 1 and 5). -/
def stallExpiry (e : EntryId) (s : State) : State :=
  match (s.entry e).stall with
  | some d => returnToIdle e .stalled (atDeadline d s)
  | none => s

end Sys2Proof.Machine
end

