-- ==== Sys2Proof/Machine/Ports.lean ====
section
/-!
DEFINITION. The downstream ports (chapter 2): received units, timers, power, the port reset, the transmitter, and the
operations SET_PORT, GET_PORT and PORT_RESET.
-/

namespace Sys2Proof.Machine

open Sys2Proof

/-! ## State changes -/

/-- The receiver is on (R17). -/
def PortState.receiving : PortState → Bool
  | .off | .powering => false
  | .acquiring | .active | .lost => true

/-- PENn: asserted while the port is powered and not OFF (R16; log entry 24). -/
def Port.powerEnable (p : Port) : Bool := p.powered && p.state != .off

/-- A fresh timer of length `d` when `on`, and stopped otherwise. -/
def timerIf (on : Bool) (d : Nat) (s : State) : Option Time := if on then some (s.after d) else none

/-- A run after a state change: 0 when it starts over, else kept. -/
def runAfter (zero : Bool) (run : Nat) : Nat := if zero then 0 else run

/-- Port `p` in state `st`: the state's timer runs and the others are stopped (R18, R19, R21, R23); a port that leaves
ACTIVE has both runs 0 (R16), one that enters ACQUIRING has both 0, one that enters ACTIVE a bad-check run of 0 (R18,
R20; log entry 12); the transmitter of OFF and POWERING is silent (R30). -/
def Port.enter (st : PortState) (s : State) (p : Port) : Port :=
  { p with
    state := st
    ramp := timerIf (st == .powering) Config.rampTime s
    silence := timerIf (st == .active) Config.silenceTime s
    hold := timerIf (st == .lost) Config.holdTime s
    acqRun := runAfter (st == .acquiring || p.state == .active) p.acqRun
    badRun := runAfter (st == .acquiring || st == .active || p.state == .active) p.badRun
    line := if st.receiving then p.line else none }

/-- Port `n` enters state `st`, with a PORT_STATE notice (R26). -/
def enterPort (n : PortId) (st : PortState) (reason : PortReason) (s : State) : State :=
  offerNotice (.portState n (s.port n).state st reason) (mapPort n (Port.enter st s) s)

/-- Port `n` enters state `st`; the notice is queued when its state changes (R26, R27). -/
def movePort (n : PortId) (st : PortState) (reason : PortReason) (s : State) : State :=
  if (s.port n).state = st then mapPort n (Port.enter st s) s else enterPort n st reason s

/-- Port `n`'s power fault flag becomes `b`. -/
def setFault (n : PortId) (b : Bool) : State → State := mapPort n fun p => { p with fault := b }

/-! ## The port reset (R25) -/

/-- The valid entries whose current image names port `n`, in ascending order (R34, R73). -/
def entriesOn (s : State) (n : PortId) : List EntryId :=
  allEntries.filter fun e => (s.entry e).current.valid && (s.entry e).current.port == n

/-- The effects outside the port of leaving ACTIVE (R25; log entry 13): frames, then triggers, then output queue. -/
def portResetEffects (n : PortId) (s : State) : State :=
  flushOutput n (abandonTriggers n (forEach (entriesOn s n) (fun e => returnToIdle e .portLost) s))

/-- If port `n` is ACTIVE, the effects of R25. -/
def leaveActive (n : PortId) (s : State) : State := if (s.port n).state = .active then portResetEffects n s else s

/-- Port `n` leaves ACTIVE, or another state, for `st`. -/
def exitPort (n : PortId) (st : PortState) (reason : PortReason) (s : State) : State :=
  enterPort n st reason (leaveActive n s)

/-! ## Timers and power -/

/-- The silence timer of port `n` expires (R19). -/
def portSilence (n : PortId) (s : State) : State :=
  match (s.port n).state, (s.port n).silence with
  | .active, some d => exitPort n .lost .silence (atDeadline d s)
  | _, _ => s

/-- The hold timer of port `n` expires (R21). -/
def portHold (n : PortId) (s : State) : State :=
  match (s.port n).state, (s.port n).hold with
  | .lost, some d => enterPort n .acquiring .holdDone (atDeadline d s)
  | _, _ => s

/-- PGn is now at this level (log entry 8); Clock.lean samples the pins that no command names. -/
def setPowerGood (n : PortId) (high : Bool) (s : State) : State := { s with pg := s.pg.set n high }

/-- RAMP_EXPIRY (R23) with PGn as sampled. -/
def rampEnds (n : PortId) (high : Bool) (s : State) : State :=
  match (s.port n).state, (s.port n).ramp with
  | .powering, some d =>
    let t := setPowerGood n high (atDeadline d s)
    if high then enterPort n .acquiring .rampDone t else enterPort n .off .powerFault (setFault n true t)
  | _, _ => s

/-- POWER_FAULT (R24): PGn goes low. -/
def powerFails (n : PortId) (s : State) : State :=
  let t := setPowerGood n false s
  if (s.port n).powered && (s.port n).state.receiving then setFault n true (exitPort n .off .powerFault t) else t

/-! ## Received units (R17, R18, R20, R22) -/

/-- Step 1 and 2 of R17: SEG_IN, and the silence timer restarts in ACTIVE. -/
def countUnit (n : PortId) (s : State) : State :=
  mapPort n (fun p => { p with
    counters := { p.counters with segIn := bump p.counters.segIn },
    silence := if p.state = .active then some (s.after Config.silenceTime) else p.silence }) s

/-- A bad-check unit (R17 step 3, R20). -/
def badUnit (n : PortId) (s : State) : State :=
  let t := mapPort n (fun p => { p with
    counters := { p.counters with badCheck := bump p.counters.badCheck },
    acqRun := if p.state = .acquiring then 0 else p.acqRun,
    badRun := if p.state = .active then p.badRun + 1 else p.badRun }) s
  if (t.port n).state = .active ∧ Config.badCheckRun ≤ (t.port n).badRun then exitPort n .lost .badChecks t else t

/-- A good-check unit moves the runs (R17 step 4, R18). -/
def goodUnit (n : PortId) (s : State) : State :=
  let t := mapPort n (fun p => { p with
    badRun := 0, acqRun := if p.state = .acquiring then p.acqRun + 1 else p.acqRun }) s
  if (t.port n).state = .acquiring ∧ Config.acquisitionRun ≤ (t.port n).acqRun then enterPort n .active .acquired t
  else t

/-- A frame segment passes to the entry that lookup finds; without one, `unbound` (R22, R38). -/
def toEntry (n : PortId) (c : Channel) (unbound : State → State) (f : EntryId → State → State) (s : State) : State :=
  match lookup s n c with
  | some e => f e s
  | none => unbound s

/-- A HEAD on channel `c` of port `n`: the rest of the camera's earlier frame is over (R74; log entry 33). -/
def forgetLate (n : PortId) (c : Channel) : State → State := mapPort n fun p => { p with late := p.late.set c none }

/-- A BODY or TAIL of frame `frame` whose pair no entry binds counts in UNKNOWN_CHANNEL (R22, R38), and as an
orphan too when its frame was open at a profile load, "whether or not the loaded image still binds the pair" (R74). That
both rules are carried out, where each names one counter, is the model's choice (log entry 33). -/
def countUnbound (n : PortId) (c : Channel) (frame : Half) (s : State) : State :=
  let t := countUnknown n s
  if (s.port n).late[c] = some frame then countOrphan n t else t

/-- A well-formed segment received on port `n` in ACTIVE (R22). -/
def disposeDown (n : PortId) (g : DownSegment) (s : State) : State :=
  match g with
  | .head c frame a => toEntry n c (countUnknown n) (fun e => headAt e n c frame a) (forgetLate n c s)
  | .body c frame index payload => toEntry n c (countUnbound n c frame) (fun e => bodyAt e n index payload) s
  | .tail c frame count bytes status => toEntry n c (countUnbound n c frame) (fun e => tailAt e n count bytes status) s
  | .mrep tag payload => cameraReply n tag payload s
  | .link => s

/-- DOWNSTREAM_UNIT_RECEIVED (R17). -/
def downUnit (n : PortId) (unit : List Byte) (s : State) : State :=
  if (s.port n).state.receiving then
    match classifyDown unit with
    | .badCheck => badUnit n (countUnit n s)
    | .malformed => countPort n (fun c => { c with malformed := bump c.malformed }) (goodUnit n (countUnit n s))
    | .wellFormed g =>
      if (s.port n).state = .active then disposeDown n g (goodUnit n (countUnit n s)) else goodUnit n (countUnit n s)
  else s

/-! ## The transmitter (R30) -/

/-- In ACTIVE the front of the output queue begins to leave, or LINK filler. -/
def Port.startSegment (p : Port) : Port :=
  match p.outTrigs, p.outMreqs with
  | t :: ts, _ => { p with outTrigs := ts, line := some t.segment }
  | [], m :: ms => { p with outMreqs := ms, line := some m.segment }
  | [], [] => { p with line := some .filler }

/-- DOWNSTREAM_TRANSMIT_START (R30; log entry 20): nothing in OFF and POWERING, filler in ACQUIRING and LOST. -/
def transmitStart (n : PortId) : State → State :=
  mapPort n fun p =>
    match p.state with
    | .off | .powering => p
    | .acquiring | .lost => { p with line := some .filler }
    | .active => p.startSegment

/-! ## Operations -/

/-- The state in which an enabled port starts (R16, R27, R29). -/
def startState (powered : Bool) : PortState := if powered then .powering else .acquiring

/-- The settings reach an enabled port that is not OFF (R27, last two rows). -/
def reconfigurePort (n : PortId) (old powered : Bool) (s : State) : State :=
  if old = powered then s else movePort n (startState powered) .reconfigured (leaveActive n s)

/-- Port `n` takes the two settings (R27); the same action serves a profile load (R178 step 5). -/
def applyPortSettings (n : PortId) (enabled powered : Bool) (s : State) : State :=
  let t := mapPort n (fun p => { p with enabled := enabled, powered := powered }) s
  if !enabled then setFault n false (movePort n .off .disabled (leaveActive n t))
  else if (s.port n).state = .off then setFault n false (movePort n (startState powered) .enabled t)
  else reconfigurePort n (s.port n).powered powered t

/-- SET_PORT (R27; log entry 16). -/
def opSetPort (port enabled powered : Byte) (s : State) : State × Answer :=
  if port = 0x0F then refuse .readOnly s
  else
    match indexBelow 8 port, flagOf enabled, flagOf powered with
    | some n, some e, some p =>
      accept [((applyPortSettings n e p s).port n).state.code] (applyPortSettings n e p s)
    | _, _, _ => refuse .badArgument s

/-- The pending target of R28. -/
def PortState.target (st : PortState) : PortState := if st = .powering then .acquiring else st

/-- The result block of GET_PORT for a downstream port (R28). -/
def portReport (n : PortId) (p : Port) (powerGood : Bool) : List Byte :=
  byteOf n.val :: flagByte p.enabled ++ flagByte p.powered ++ [p.state.code, p.state.target.code] ++ flagByte p.fault
    ++ flagByte powerGood ++ [byteOf p.acqRun, byteOf p.badRun, byteOf p.outTrigs.length, byteOf p.outMreqs.length]
    ++ wordBytes p.counters.segIn ++ wordBytes p.counters.badCheck ++ wordBytes p.counters.malformed
    ++ wordBytes p.counters.unknownChannel ++ wordBytes p.counters.orphan ++ wordBytes p.counters.stale

/-- The result block of GET_PORT for the uplink (R28). -/
def uplinkReport (u : Uplink) : List Byte :=
  [0x0F, 1, 0, u.state.code, u.state.code, 0, 0, byteOf u.acqRun, byteOf u.badRun, 0, 0]
    ++ wordBytes u.segIn ++ wordBytes u.badCheck ++ wordBytes u.segOut ++ wordBytes u.downSkipped
    ++ wordBytes 0 ++ wordBytes 0

/-- GET_PORT (R28). -/
def opGetPort (port : Byte) (s : State) : State × Answer :=
  if port = 0x0F then accept (uplinkReport s.uplink) s
  else
    match indexBelow 8 port with
    | some n => accept (portReport n (s.port n) s.pg[n]) s
    | none => refuse .badArgument s

/-- Timers stopped, runs 0, output queue empty, fault flag cleared (R29). -/
def Port.cleared (p : Port) : Port :=
  { p with ramp := none, silence := none, hold := none, acqRun := 0, badRun := 0, outTrigs := [], outMreqs := [],
           fault := false }

/-- PORT_RESET's effects on port `n` (R29). -/
def resetPort (n : PortId) (s : State) : State :=
  let t := mapPort n Port.cleared (leaveActive n s)
  if (s.port n).enabled then enterPort n (startState (s.port n).powered) .portReset t
  else mapPort n (Port.enter .off t) t

/-- PORT_RESET (R29). -/
def opPortReset (port : Byte) (s : State) : State × Answer :=
  if port = 0x0F then refuse .readOnly s
  else
    match indexBelow 8 port with
    | some n => accept [((resetPort n s).port n).state.code] (resetPort n s)
    | none => refuse .badArgument s

end Sys2Proof.Machine
end

