-- ==== Sys2Proof/Machine/Profile.lean ====
section
/-!
DEFINITION. The profile store (chapter 11): the states of slots, snapshots, the loaded image applied to the part, flash work and its
completions, resets and start-up.
-/

namespace Sys2Proof.Machine

open Sys2Proof

/-! ## The states of slots (R171) -/

/-- The image of a slot that is VALID: its stored check code is the one that R2 computes over the image (R171). -/
def Slot.profile? : Slot → Option Profile
  | .empty => none
  | .written p c => if Profile.check p = c then some p else none

/-- The state of a slot, as found by its check code: EMPTY, VALID or INVALID (R171). -/
def Slot.code : Slot → Byte
  | .empty => 0
  | .written p c => if Profile.check p = c then 1 else 2

/-- A slot with image `p` whose save was verified (R175). -/
def Slot.finished (p : Profile) : Slot := .written p (Profile.check p)

/-- A slot whose save of image `p` is under way, was cut off or failed its verify: its stored check is invalidated and
does not match (R175 step 2; log entry 17). -/
def Slot.unfinished (p : Profile) : Slot := .written p (~~~ Profile.check p)

/-! ## Snapshots and loads (R172, R175, R178) -/

/-- The configuration in force (R175 step 1). -/
def snapshot (s : State) : Profile :=
  { images := Vector.ofFn fun e => (s.entry e).current
    ports := Vector.ofFn fun n => ((s.port n).enabled, (s.port n).powered)
    triggers := Vector.ofFn fun n => (s.gen n).config
    segSize := s.uplink.segSize, replayClass := s.uplink.replayClass, backlog := s.uplink.backlog
    mask := s.notices.mask }

/-- The number of the frame that is open on channel `c` of port `n`. -/
def openFrameOn (s : State) (n : PortId) (c : Channel) : Option Half :=
  allEntries.findSome? fun e =>
    match (s.entry e).assembly with
    | .filling r =>
      if (s.entry e).current.port = n ∧ (s.entry e).current.channel = c then some (s.record r).frame else none
    | .idle | .discarding => none

/-- The ports of `t` after a load in state `s`: the frames then open are marked late on their channels, an earlier mark
stays elsewhere (R74; log entry 33). -/
def markLate (s t : State) : State :=
  { t with ports := Vector.ofFn fun n => { t.port n with
      late := Vector.ofFn fun c => (openFrameOn s n c).or (t.port n).late[c] } }

/-- Steps 1 and 2 of R178: open frames close STREAM_CHANGED and are late from then on, discarding ends, staged images are
discarded (R74). R178 and R74 give no order among the entries; the model's choice is ascending entry index (log
entry 13). -/
def endAllFrames (s : State) : State :=
  forEach allEntries (fun e => mapEntry e fun x => { x with staged := none })
    (markLate s (forEach allEntries (fun e => endAssembly e .streamChanged) s))

/-- Step 3 of R178: every generator stops and every pending list is emptied (R144). -/
def stopAllGenerators : State → State := forEach allPorts abandonTriggers

/-- Step 4 of R178: every loaded image becomes current as an activation (R53). R178 gives no order among the entries; the
model's choice is ascending entry index (log entry 13). -/
def loadImages (p : Profile) : State → State := forEach allEntries fun e => activate e p.images[e]

/-- Step 5 of R178: port `n` takes loaded settings that differ from its own. -/
def loadPort (p : Profile) (n : PortId) (s : State) : State :=
  if p.ports[n] = ((s.port n).enabled, (s.port n).powered) then s
  else applyPortSettings n p.ports[n].1 p.ports[n].2 s

/-- Step 6 of R178: port `n`'s generator takes its loaded configuration and its tracker restarts (R133). -/
def loadTrigger (p : Profile) (n : PortId) (s : State) : State :=
  restartTracker n (mapGen n (fun g => { g with config := p.triggers[n] }) s)

/-- Step 7 of R178: uplink settings and notice mask. -/
def loadDevice (p : Profile) (s : State) : State :=
  mapNotices (fun u => { u with mask := maskOf p.mask })
    (mapUplink (fun u => { u with segSize := p.segSize, replayClass := p.replayClass, backlog := p.backlog }) s)

/-- Steps 1 to 4 of R178. -/
def loadStreams (p : Profile) (s : State) : State := loadImages p (stopAllGenerators (endAllFrames s))

/-- Steps 6 and 7 of R178. -/
def loadSettings (p : Profile) (s : State) : State := loadDevice p (forEach allPorts (loadTrigger p) s)

/-- The loaded image applies to the running part, steps 1 to 7 (R178). -/
def applyProfile (p : Profile) (s : State) : State :=
  loadSettings p (forEach allPorts (loadPort p) (loadStreams p s))

/-! ## The flash controller (R174) -/

/-- The selector as read: slot 0 when unreadable (R173). -/
def ProfileStore.selected (f : ProfileStore) : SlotId := f.selector.getD 0

/-- A long operation is accepted: recorded in flight, the controller at work, its bound running (R156, R174). -/
def beginLong (op : LongOp) (k : SlotId) (c : FlashState) (bound : Nat) (s : State) : State :=
  mapFlash (fun f => { f with controller := c, bound := some (s.after bound) })
    (mapAgent (fun a => { a with longOp := some (op, k) }) s)

/-- A long operation ends: PROFILE_DONE, none in flight, the controller IDLE (R156, R174). -/
def endLong (op : LongOp) (k : SlotId) (outcome : ProfileOutcome) (s : State) : State :=
  mapFlash (fun f => { f with controller := .idle, staging := none, bound := none })
    (mapAgent (fun a => { a with longOp := none }) (offerNotice (.profileDone op k outcome) s))

/-- Status STARTED with the slot as result (R174). -/
def started (k : SlotId) (s : State) : State × Answer := (s, ⟨.started, [byteOf k.val]⟩)

/-- PROFILE_SAVE to a slot 1 to 3 is accepted (R175). -/
def beginSave (k : SlotId) (s : State) : State :=
  mapFlash (fun f => { f with staging := some (snapshot s), slots := f.slots.set k (.unfinished (snapshot s)) })
    (beginLong .save k .saving Config.saveBound s)

/-- PROFILE_SAVE (R175, R176). -/
def opProfileSave (slot : Byte) (s : State) : State × Answer :=
  match indexBelow 4 slot with
  | none => refuse .badArgument s
  | some k => started k (if k = 0 then beginLong .save 0 .selecting Config.selectBound s else beginSave k s)

/-- PROFILE_LOAD (R177). -/
def opProfileLoad (slot : Byte) (s : State) : State × Answer :=
  match indexBelow 4 slot with
  | none => refuse .badArgument s
  | some k =>
    if (s.flash.slots[k]).profile?.isSome then started k (beginLong .load k .loading Config.loadBound s)
    else refuse .badSlot s

/-- BOOT_SELECT (R180). -/
def opBootSelect (slot : Byte) (s : State) : State × Answer :=
  match indexBelow 4 slot with
  | none => refuse .badArgument s
  | some k =>
    if (s.flash.slots[k]).profile?.isSome then started k (beginLong .select k .selecting Config.selectBound s)
    else refuse .badSlot s

/-- The slot of the long operation in flight, FFh when none (R181). -/
def slotInFlight (a : Agent) : Byte :=
  match a.longOp with
  | some (_, k) => byteOf k.val
  | none => 0xFF

/-- PROFILE_INFO (R181). -/
def opProfileInfo (s : State) : State × Answer :=
  accept ([s.flash.slots[0].code, s.flash.slots[1].code, s.flash.slots[2].code, s.flash.slots[3].code,
      byteOf s.flash.selected.val] ++ flagByte s.flash.selector.isSome
      ++ [s.flash.controller.code, slotInFlight s.agent]) s

/-! ## Completions (R175, R176, R178, R180) -/

/-- The slot after a save of the staged image: VALID or INVALID by the verify (R175). -/
def savedSlot (verified : Bool) (staging : Option Profile) : Slot :=
  match staging with
  | some p => if verified then .finished p else .unfinished p
  | none => .unfinished .factory

/-- OK or WRITE_FAILED by the verify (R175, R180). -/
def verifyOutcome (verified : Bool) : ProfileOutcome := if verified then .ok else .writeFailed

/-- The save to slot `k` completes (R175). -/
def finishSave (k : SlotId) (verified : Bool) (s : State) : State :=
  endLong .save k (verifyOutcome verified)
    (mapFlash (fun f => { f with slots := f.slots.set k (savedSlot verified f.staging) }) s)

/-- The selector write naming `k` completes (R173). -/
def writeSelector (k : SlotId) (verified : Bool) : State → State :=
  mapFlash fun f => { f with selector := if verified then some k else none }

/-- PROFILE_SAVE_COMPLETES: a save to slots 1 to 3 (R175). -/
def saveCompletes (verified : Bool) (s : State) : State :=
  match s.agent.longOp with
  | some (.save, k) => if k = 0 then s else finishSave k verified s
  | some (.load, _) | some (.select, _) | none => s

/-- BOOT_REVERT_COMPLETES: a save to slot 0 (R176). -/
def revertCompletes (verified : Bool) (s : State) : State :=
  match s.agent.longOp with
  | some (.save, k) => if k = 0 then endLong .save 0 .bootReverted (writeSelector 0 verified s) else s
  | some (.load, _) | some (.select, _) | none => s

/-- BOOT_SELECT_COMPLETES (R180). -/
def selectCompletes (verified : Bool) (s : State) : State :=
  match s.agent.longOp with
  | some (.select, k) => endLong .select k (verifyOutcome verified) (writeSelector k verified s)
  | some (.load, _) | some (.save, _) | none => s

/-- PROFILE_LOAD_COMPLETES (R178). -/
def loadCompletes (s : State) : State :=
  match s.agent.longOp with
  | some (.load, k) =>
    endLong .load k .ok (match (s.flash.slots[k]).profile? with | some p => applyProfile p s | none => s)
  | some (.select, _) | some (.save, _) | none => s

/-! ## Resets (R182, R183) -/

/-- What a reset leaves of the flash work in flight (R182). -/
def cutFlash (a : Agent) (f : ProfileStore) : ProfileStore :=
  match a.longOp with
  | some (.save, k) => if k = 0 then { f with selector := none } else { f with slots := f.slots.set k (savedSlot false f.staging) }
  | some (.select, _) => { f with selector := none }
  | some (.load, _) | none => f

/-- The start-up record for a chosen slot, with the fall-back to slot 0: start-up reads the slot and finds it VALID by its
check code, or not (R171, R183). -/
def chooseSlot (cause : ResetCause) (chosen : SlotId) (slots : Vector Slot 4) : StartUpRecord :=
  if (slots[chosen]).profile?.isSome then ⟨cause, chosen, false⟩ else ⟨cause, 0, true⟩

/-- The profile store at a reset: flash as the cut left it, the start-up load under way (R174, R183; log entry 18). -/
def flashAtReset (cause : ResetCause) (slot : Option SlotId) (f : ProfileStore) : ProfileStore :=
  { slots := f.slots, selector := f.selector, controller := .loading, staging := none,
    record := chooseSlot cause (slot.getD f.selected) f.slots,
    bound := some (BitVec.ofNat 48 Config.startUpBound) }

/-- A hard or part reset (R183): every block at its reset value. The pins, the DRAM bytes (log entry 11) and the flash
are not reset, nor are the model's own queue and counter. -/
def resetAll (cause : ResetCause) (slot : Option SlotId) (s : State) : State :=
  { State.reset with
    pending := s.pending, fresh := s.fresh, tin := s.tin, pg := s.pg,
    store := { Store.atReset with mem := s.store.mem },
    flash := flashAtReset cause slot (cutFlash s.agent s.flash) }

/-- HARD_RESET (R183). -/
def hardReset : State → State := resetAll .hard none

/-- The part reset that a RESET_PART asked for (R159). -/
def partReset (s : State) : State :=
  match s.agent.state with
  | .resetPending slot => resetAll .part slot s
  | .ready => s

/-! ## Start-up (R184) -/

/-- Port `n` takes its loaded settings and starts (R16, R184 step 2). -/
def startPort (p : Profile) (n : PortId) (s : State) : State :=
  let t := mapPort n (fun x => { x with enabled := p.ports[n].1, powered := p.ports[n].2 }) s
  if p.ports[n].1 then enterPort n (startState p.ports[n].2) .startUp t else t

/-- The BOOT_REPORT notice (R184 step 4). -/
def bootReport (f : ProfileStore) : NoticeBody := .bootReport f.record.cause f.record.slot f.record.fallback f.selected

/-- The image of the slot that start-up loads; the factory profile stands for a slot that is not VALID, which start-up
never chooses (R183). -/
def startUpImage (f : ProfileStore) : Profile := (f.slots[f.record.slot]).profile?.getD .factory

/-- The start-up load of profile `p` completes (R184). -/
def startUpWith (p : Profile) (s : State) : State :=
  let t := forEach allPorts (startPort p) (loadSettings p (loadStreams p s))
  mapFlash (fun f => { f with controller := .idle, bound := none })
    (offerNotice (bootReport t.flash) { t with starting := false })

/-- START_UP_LOAD_COMPLETES (R184). -/
def startUpCompletes (s : State) : State := if s.starting then startUpWith (startUpImage s.flash) s else s

end Sys2Proof.Machine
end

