-- ==== Sys2Proof/Machine/Management.lean ====
section
/-!
DEFINITION. The management agent (chapter 9): the remaining operations, their dispatch, the execution of a request, and
the take. DESCRIBE, RESET_PART, the store operations (R90 to R94), SET_UPLINK (R110), the trigger operations (R132 to
R146), the mask (R165) and the counters (R169, R170) stand here.
-/

namespace Sys2Proof.Machine

open Sys2Proof

/-! ## DESCRIBE and RESET_PART -/

/-- DESCRIBE (R160). -/
def opDescribe (s : State) : State × Answer :=
  accept ([0x0A, 0x31, 0x08, 0x24, 0x01, 0x08, 0x04, 0x20, 0x10, 0x00, 0x10, 0x00, 0x01, 0x00, 0x10, 0x08, 0x04,
      s.flash.record.cause.code, byteOf s.flash.record.slot.val] ++ flagByte s.flash.record.fallback
      ++ [byteOf s.flash.selected.val, s.flash.controller.code] ++ timeBytes s.partTime) s

/-- The slot argument of RESET_PART: FFh for the boot selector's slot (R158). -/
def resetSlot (slot : Byte) : Option (Option SlotId) := if slot = 0xFF then some none else (indexBelow 4 slot).map some

/-- RESET_PART (R158): the agent enters RESET_PENDING; the reset itself follows the reply. -/
def opResetPart (slot : Byte) (s : State) : State × Answer :=
  match resetSlot slot with
  | some k => accept [slot] (mapAgent (fun a => { a with state := .resetPending k }) s)
  | none => refuse .badArgument s

/-! ## Operations on the frame store -/

/-- HOLD (R90). -/
def opHold (entry : Byte) (frame : Half) (s : State) : State × Answer :=
  match indexBelow 32 entry with
  | none => refuse .badArgument s
  | some e =>
    match ringMember s e frame with
    | none => refuse .notFound s
    | some r =>
      accept (flagByte (s.record r).held) (placeOnReclaim r (mapRecord r (fun x => { x with held := true }) s))

/-- The state after a RELEASE of ring member `r` of entry `e` (R91). -/
def releaseRecord (e : EntryId) (r : RecordId) (s : State) : State :=
  reexamine r (enforceDepth e (mapRecord r (fun x => { x with held := false }) s))

/-- RELEASE (R91). -/
def opRelease (entry : Byte) (frame : Half) (s : State) : State × Answer :=
  match indexBelow 32 entry with
  | none => refuse .badArgument s
  | some e =>
    match ringMember s e frame with
    | none => refuse .notFound s
    | some r =>
      let t := releaseRecord e r s
      accept (flagByte (s.record r).held ++ flagByte ((t.entry e).ring.contains r)) t

/-- DROP (R92). -/
def opDrop (entry count : Byte) (s : State) : State × Answer :=
  match indexBelow 32 entry, within 1 64 count.toNat with
  | some e, some n =>
    let oldest := (s.entry e).ring.take n
    accept [byteOf e.val, byteOf oldest.length] (leaveRingAll e oldest s)
  | _, _ => refuse .badArgument s

/-- The number of records in all rings. -/
def ringTotal (s : State) : Nat := (allEntries.map fun e => (s.entry e).ring.length).sum

/-- Every ring is emptied, entries in ascending index (R93). -/
def clearRings : State → State := forEach allEntries fun e t => leaveRingAll e (t.entry e).ring t

/-- STORE_CLEAR (R93). -/
def opStoreClear (s : State) : State × Answer := accept (halfOf (ringTotal s)) (clearRings s)

/-- The 16-byte summary of a ring member (R94). -/
def summaryBytes (x : Record) : List Byte :=
  halfBytes x.frame ++ [(x.close.map CloseReason.code).getD 0, x.damage.code] ++ flagByte x.held ++ flagByte x.pin
    ++ wordOf x.bytes ++ timeBytes x.headTime

/-- The result block of LIST_FRAMES (R94). -/
def framesReport (s : State) (e : EntryId) (start : Nat) : List Byte :=
  let listed := ((s.entry e).ring.drop start).take 32
  byteOf e.val :: halfOf (s.entry e).ring.length ++ [byteOf start, byteOf listed.length]
    ++ listed.flatMap fun r => summaryBytes (s.record r)

/-- LIST_FRAMES (R94). -/
def opListFrames (entry start : Byte) (s : State) : State × Answer :=
  match indexBelow 32 entry, within 0 63 start.toNat with
  | some e, some k => accept (framesReport s e k) s
  | _, _ => refuse .badArgument s

/-! ## SET_UPLINK (R110) -/

/-- The three settings in force, as SET_UPLINK reports them (R110). -/
def settingsReport (u : Uplink) : List Byte :=
  uplinkBlockBytes ⟨BitVec.ofNat 16 u.segSize, byteOf u.replayClass.val, byteOf u.backlog⟩

/-- The three settings are stored (R110). -/
def storeSettings (size : Nat) (cls : ClassId) (backlog : Nat) : State → State :=
  mapUplink fun u => { u with segSize := size, replayClass := cls, backlog := backlog }

/-- SET_UPLINK (R110). -/
def opSetUplink (settings : Option UplinkBlock) (s : State) : State × Answer :=
  match settings with
  | none => accept (settingsReport s.uplink) s
  | some b =>
    match uplinkSettingsOf b with
    | some (size, cls, backlog) =>
      let t := storeSettings size cls backlog s
      accept (settingsReport t.uplink) t
    | none => refuse .badArgument s

/-! ## Trigger operations -/

/-- TRIG_CONFIG (R132). -/
def opTrigConfig (port : Byte) (block : TrigBlock) (s : State) : State × Answer :=
  match indexBelow 8 port, trigConfigOf block with
  | some n, some c =>
    if (s.gen n).state ≠ .idle then refuse .busy s
    else accept [GenState.code .idle] (restartTracker n (mapGen n (fun g => { g with config := c }) s))
  | _, _ => refuse .badArgument s

/-- The gate of a BURST generator is active, or there is none (R135). -/
def gateOpen (g : Generator) : Bool :=
  match g.config.gate with
  | some _ => g.level == g.config.gateLevel
  | none => true

/-- The generator as TRIG_START leaves it (R135). -/
def startGenerator (s : State) (g : Generator) : Generator :=
  match g.config.source with
  | .none => g
  | .line => { g with state := .armed }
  | .burst =>
    if gateOpen g then
      { g with state := .running, remaining := g.config.burstCount, period := some (s.after g.config.burstPeriod) }
    else { g with state := .paused, remaining := g.config.burstCount, period := none }

/-- TRIG_START (R135). -/
def opTrigStart (port : Byte) (s : State) : State × Answer :=
  match indexBelow 8 port with
  | none => refuse .badArgument s
  | some n =>
    if (s.gen n).config.source = .none then refuse .badArgument s
    else if (s.gen n).state ≠ .idle then refuse .busy s
    else accept [(startGenerator s (s.gen n)).state.code] (mapGen n (startGenerator s) s)

/-- TRIG_STOP (R138). -/
def opTrigStop (port : Byte) (s : State) : State × Answer :=
  match indexBelow 8 port with
  | none => refuse .badArgument s
  | some n =>
    accept [(s.gen n).state.code, (s.gen n).remaining]
      (mapGen n (fun g => { g with state := .idle, period := none }) s)

/-- The result of TRIG_NOW (R140): the number given, or the next number unchanged. -/
def issueReport (next : Half) (r : IssueResult) : List Byte :=
  match r with
  | .issued number => 0 :: halfBytes number
  | .suppressed => 1 :: halfBytes next
  | .overrun => 2 :: halfBytes next

/-- TRIG_NOW (R140). -/
def opTrigNow (port : Byte) (s : State) : State × Answer :=
  match indexBelow 8 port with
  | none => refuse .badArgument s
  | some n =>
    accept (issueReport (s.gen n).next (attemptIssue n .request 0xFF s).2) (attemptIssue n .request 0xFF s).1

/-- An outstanding set as four bytes, bit k for entry k (R146). -/
def outstandingBytes (es : List EntryId) : List Byte :=
  wordBytes (es.foldl (fun w e => w ||| BitVec.ofNat 32 (2 ^ e.val)) 0)

/-- The time left to a deadline in 100 microsecond units, rounded down (R146). -/
def windowLeft (now deadline : Time) : Nat :=
  if reached now deadline then 0 else (deadline - now).toNat / Config.tenthMilli

/-- The 14 bytes that report a pending entry (R146). -/
def pendingBytes (now : Time) (p : PendingTrigger) : List Byte :=
  halfBytes p.number ++ timeBytes p.issued ++ halfOf (windowLeft now p.deadline) ++ outstandingBytes p.outstanding

/-- The watched level that TRIG_STATUS reports (R146). -/
def watchedLevel (g : Generator) : Bool := g.config.watched.isSome && g.level

/-- The result block of TRIG_STATUS (R146). -/
def triggerReport (n : PortId) (g : Generator) (now : Time) : List Byte :=
  [byteOf n.val, g.state.code, g.config.source.code] ++ flagByte (watchedLevel g) ++ [g.remaining]
    ++ halfBytes g.next ++ [byteOf g.pendings.length] ++ g.pendings.flatMap (pendingBytes now)

/-- TRIG_STATUS (R146). -/
def opTrigStatus (port : Byte) (s : State) : State × Answer :=
  match indexBelow 8 port with
  | none => refuse .badArgument s
  | some n => accept (triggerReport n (s.gen n) s.partTime) s

/-! ## SET_NOTICE_MASK (R165) -/

/-- SET_NOTICE_MASK (R165). -/
def opSetNoticeMask (mask : Half) (s : State) : State × Answer :=
  if mask &&& reservedBits ≠ 0 then refuse .badArgument s
  else accept (halfBytes (maskOf mask)) (mapNotices (fun u => { u with mask := maskOf mask }) s)

/-! ## Counters (R168 to R170) -/

/-- A group instance of R168. -/
inductive CounterGroup where
  | port (n : PortId)
  | entry (e : EntryId)
  | store
  | uplink
  | trigger (n : PortId)
  | management
  deriving DecidableEq, Repr

/-- The instance that a group and an index byte name (R169). -/
def counterGroup (group index : Byte) : Option CounterGroup :=
  match group.toNat with
  | 0 => (indexBelow 8 index).map .port
  | 1 => (indexBelow 32 index).map .entry
  | 2 => if index = 0 then some .store else none
  | 3 => if index = 0 then some .uplink else none
  | 4 => (indexBelow 8 index).map .trigger
  | 5 => if index = 0 then some .management else none
  | _ => none

/-- The port group in reporting order (R168). -/
def PortCounters.values (c : PortCounters) : List Word :=
  [c.segIn, c.badCheck, c.malformed, c.unknownChannel, c.orphan, c.stale]

/-- The entry group in reporting order (R168). -/
def EntryCounters.values (c : EntryCounters) : List Word :=
  [c.framesIn, c.framesDamaged, c.framesRefused, c.frameGaps, c.duplicateReplaced, c.forwarded, c.forwardSkipped,
   c.retained, c.retainSkipped, c.evictedDepth, c.evictedSpace]

/-- The trigger group in reporting order (R168). -/
def TrigCounters.values (c : TrigCounters) : List Word :=
  [c.issued, c.matched, c.missed, c.overrun, c.suppressed, c.unsolicited, c.abandoned]

/-- A gauge as a reported value (R168). -/
def gauge (n : Nat) : Word := BitVec.ofNat 32 n

/-- The values of a group instance in reporting order, gauges included (R168, R169). -/
def groupValues (s : State) : CounterGroup → List Word
  | .port n => (s.port n).counters.values
  | .entry e => (s.entry e).counters.values
  | .store => [s.store.reclaims, s.store.pageExhausted, s.store.recordExhausted, gauge s.store.freePages.length,
      gauge s.store.freeRecords.length, gauge s.store.reclaim.length]
  | .uplink => [s.uplink.segIn, s.uplink.badCheck, s.uplink.segOut, s.uplink.downSkipped]
  | .trigger n => (s.gen n).counters.values
  | .management => [s.agent.received, s.agent.refusedFull, s.agent.dropped]

/-- Every counter of the instance becomes 0; gauges are not cleared (R170). -/
def clearGroup (g : CounterGroup) (s : State) : State :=
  match g with
  | .port n => countPort n (fun _ => ⟨0, 0, 0, 0, 0, 0⟩) s
  | .entry e => countEntry e (fun _ => ⟨0, 0, 0, 0, 0, 0, 0, 0, 0, 0, 0⟩) s
  | .store => mapStore (fun st => { st with reclaims := 0, pageExhausted := 0, recordExhausted := 0 }) s
  | .uplink => mapUplink (fun u => { u with segIn := 0, badCheck := 0, segOut := 0, downSkipped := 0 }) s
  | .trigger n => countTrig n (fun _ => ⟨0, 0, 0, 0, 0, 0, 0⟩) s
  | .management => mapAgent (fun a => { a with received := 0, refusedFull := 0, dropped := 0 }) s

/-- The result block of READ_COUNTERS (R169). -/
def countersReport (group index : Byte) (values : List Word) : List Byte :=
  group :: index :: byteOf values.length :: values.flatMap wordBytes

/-- READ_COUNTERS (R169). -/
def opReadCounters (group index : Byte) (s : State) : State × Answer :=
  match counterGroup group index with
  | some g => accept (countersReport group index (groupValues s g)) s
  | none => refuse .badArgument s

/-- CLEAR_COUNTERS (R170). -/
def opClearCounters (group index : Byte) (s : State) : State × Answer :=
  match counterGroup group index with
  | some g => accept (countersReport group index (groupValues s g)) (clearGroup g s)
  | none => refuse .badArgument s

/-! ## Dispatch (R154) -/

/-- The owning block's part of an operation (R154). -/
def operate (op : HostOp) (s : State) : State × Answer :=
  match op with
  | .describe => opDescribe s
  | .resetPart slot => opResetPart slot s
  | .setPort port enabled powered => opSetPort port enabled powered s
  | .getPort port => opGetPort port s
  | .portReset port => opPortReset port s
  | .readEntry entry => opReadEntry entry s
  | .writeEntry entry block => opWriteEntry entry block s
  | .listFrames entry start => opListFrames entry start s
  | .hold entry frame => opHold entry frame s
  | .release entry frame => opRelease entry frame s
  | .drop entry count => opDrop entry count s
  | .storeClear => opStoreClear s
  | .setUplink settings => opSetUplink settings s
  | .replay entry first count => opReplay entry first count s
  | .cancelReplay id => opCancelReplay id s
  | .trigConfig port block => opTrigConfig port block s
  | .trigStart port => opTrigStart port s
  | .trigStop port => opTrigStop port s
  | .trigNow port => opTrigNow port s
  | .trigStatus port => opTrigStatus port s
  | .setNoticeMask mask => opSetNoticeMask mask s
  | .readCounters group index => opReadCounters group index s
  | .clearCounters group index => opClearCounters group index s
  | .profileSave slot => opProfileSave slot s
  | .profileLoad slot => opProfileLoad slot s
  | .bootSelect slot => opBootSelect slot s
  | .profileInfo => opProfileInfo s

/-! ## Execution (R152 to R154, R158) -/

/-- The place for the request's own reply is reserved, or given back (R153). -/
def setReserved (b : Bool) : State → State := mapAgent fun a => { a with reserved := b }

/-- RESET_PART, whose OK reply brings the part reset (R158). -/
def isResetPart : HostOp → Bool
  | .resetPart _ => true
  | .describe | .setPort .. | .getPort _ | .portReset _ | .readEntry _ | .writeEntry .. => false
  | .listFrames .. | .hold .. | .release .. | .drop .. | .storeClear | .setUplink _ | .replay .. => false
  | .cancelReplay _ | .trigConfig .. | .trigStart _ | .trigStop _ | .trigNow _ | .trigStatus _ => false
  | .setNoticeMask _ | .readCounters .. | .clearCounters .. | .profileInfo => false
  | .profileSave _ | .profileLoad _ | .bootSelect _ => false

/-- The reply of an executed request (R154). -/
def ownReply (tag : Half) (op : Byte) (resets : Bool) (a : Answer) : Reply :=
  ⟨0x0F, tag, op :: a.status.code :: a.result, resets⟩

/-- The request's own reply joins last, in its reserved place (R152). -/
def placeReply (r : Reply) (s : State) : State := pushReply r (setReserved false s)

/-- The operation is answered: BUSY while a long operation is in flight (R154 step 4, R156), else by its block. -/
def answer (op : HostOp) (s : State) : State × Answer :=
  if isLong op && s.agent.longOp.isSome then refuse .busy s else operate op s

/-- An OK answer to RESET_PART brings the part reset with its reply (R158). -/
def bringsReset (op : HostOp) (a : Answer) : Bool := isResetPart op && a.status == .ok

/-- The execution of an operation that passed the agent's first checks (R154), before an immediate reset. -/
def executed (tag : Half) (op : HostOp) (s : State) : State :=
  let a := answer op (setReserved true s)
  placeReply (ownReply tag (opCode op) (bringsReset op a.2) a.2) a.1

/-- The part reset takes place at once when U is not ACTIVE at the execution (R158 step 3). -/
def resetIfDown (s : State) : State :=
  if s.agent.state ≠ .ready ∧ s.uplink.state ≠ .active then partReset s else s

/-- The execution of an operation (R154, R158). -/
def executeOp (tag : Half) (op : HostOp) (s : State) : State := resetIfDown (executed tag op s)

/-- A request that a check of the agent refuses (R154 steps 1 to 3). -/
def refuseRequest (m : Mreq) (status : Status) (s : State) : State :=
  placeReply (ownReply m.tag m.op false ⟨status, []⟩) s

/-- A request is executed (R154). -/
def executeRequest (m : Mreq) (s : State) : State :=
  if m.route ≠ 0x0F then refuseRequest m .badArgument s
  else
    match parseOp m.op m.args with
    | .error status => refuseRequest m status s
    | .ok op => executeOp m.tag op s

/-- The agent may take a request: READY, started, and a place in the reply queue (R153). -/
def agentFree (s : State) : Bool :=
  !s.starting && s.agent.state == .ready && s.agent.replies.length < Config.replyCapacity

/-- The oldest request is taken and executed (R153). -/
def takeRequest (s : State) : State :=
  match s.agent.requests with
  | [] => s
  | m :: ms => executeRequest m (mapAgent (fun a => { a with requests := ms }) s)

/-- The agent takes requests while it may, at most `k` (R153). -/
def agentRun : Nat → State → State
  | 0, s => s
  | k + 1, s => if agentFree s && !s.agent.requests.isEmpty then agentRun k (takeRequest s) else s

/-- The takes that an event brings about (R153; log entry 2). -/
def agentTakes (s : State) : State := agentRun s.agent.requests.length s

/-- An operation row of the table: the execution of such a request, when the agent may take one (log entry 3). -/
def hostRequest (tag : Half) (op : HostOp) (s : State) : State := if agentFree s then executeOp tag op s else s

end Sys2Proof.Machine
end

