-- ==== Sys2Proof/Machine/Uplink.lean ====
section
/-!
DEFINITION. The uplink (chapters 2 and 6): what each source offers, the arbiter's grant, the completion of a segment,
received units, and the uplink entering and leaving ACTIVE.
-/

namespace Sys2Proof.Machine

open Sys2Proof

/-! ## What a forwarding offers next (R101, R120, R125) -/

/-- The next segment of a forwarding. -/
inductive Offer where
  | head
  | body (length : Nat)
  | tail
  | abortedTail
  deriving DecidableEq, Repr

/-- The next segment of a stored frame under a cursor, when it is ready (R101). -/
def cutNext (c : Option Cursor) (closed : Bool) (stored : Nat) : Option Offer :=
  match c with
  | none => some .head
  | some c =>
    if c.tailGranted then none
    else if c.segSize ≤ stored - c.bytes then some (.body c.segSize)
    else if !closed then none
    else if c.bytes < stored then some (.body (stored - c.bytes))
    else some .tail

/-- What entry `e` offers (R101). -/
def liveOffer (s : State) (e : EntryId) : Option Offer :=
  match (s.entry e).forwardQueue with
  | [] => none
  | r :: _ => cutNext (s.entry e).cursor ((s.record r).state == .closed) (s.record r).bytes

/-- What the engine offers in CLOSING: one ABORTED TAIL (R125). -/
def closingOffer (c : Option Cursor) : Option Offer :=
  match c with
  | some c => if c.tailGranted then none else some .abortedTail
  | none => none

/-- What the replay engine offers (R120, R125). -/
def replayOffer (s : State) : Option Offer :=
  match s.replay.engine, s.replay.pinned with
  | .sending, some r => cutNext s.replay.cursor true (s.record r).bytes
  | .closing, some _ => closingOffer s.replay.cursor
  | _, _ => none

/-! ## Members and rotation (R105, R106) -/

/-- The entry at a member position; none for position 32, the replay engine (R106). -/
def positionEntry (p : Fin 33) : Option EntryId := if h : p.val < 32 then some ⟨p.val, h⟩ else none

/-- What position `p` offers as a member of class `c` (R105). -/
def memberOffer (s : State) (c : ClassId) (p : Fin 33) : Option Offer :=
  match positionEntry p with
  | some e => if (s.entry e).current.priority = c then liveOffer s e else none
  | none => if s.uplink.replayClass = c then replayOffer s else none

/-- The member of class `c` to be served: the first from the class's start on, wrapping (R106). -/
def nextMember (s : State) (c : ClassId) : Option (Fin 33) :=
  ((List.finRange 33).map fun k => s.uplink.starts[c] + k).find? fun p => (memberOffer s c p).isSome

/-- The class and member to be served, classes in order (R104). -/
def nextFrameSource (s : State) : Option (ClassId × Fin 33) :=
  (List.finRange 4).findSome? fun c => (nextMember s c).map fun p => (c, p)

/-! ## The grant (R102 to R104, R120, R125) -/

/-- The transmitter starts a segment. -/
def transmit (x : TxSource) (g : Segment) : State → State := mapUplink fun u => { u with tx := some ⟨x, g⟩ }

/-- The cursor at the grant of a HEAD (R103). -/
def newCursor (size : Nat) (route : Byte) : Cursor := ⟨size, route, 0, 0, false⟩

/-- The cursor after the grant of segment `o` (R102). -/
def Cursor.after (c : Cursor) (o : Offer) : Cursor :=
  match o with
  | .head => c
  | .body n => { c with bodies := c.bodies + 1, bytes := c.bytes + n }
  | .tail | .abortedTail => { c with tailGranted := true }

/-- The segment `o` of a forwarding of record `r` under cursor `c` (R9, R10, R102, R120, R125). -/
def cutSegment (replay : Bool) (id : Byte) (r : Record) (mem : List Host.Cell) (c : Cursor) (o : Offer) : Segment :=
  match o with
  | .head => headSegment replay c.route r id
  | .body n => bodySegment replay c.route r (c.bodies + 1) (loadBytes mem r.pages c.bytes n)
  | .tail => tailSegment replay c.route r c.bodies c.bytes ((r.close.map CloseReason.code).getD 0)
  | .abortedTail => tailSegment replay c.route r c.bodies c.bytes abortedCode

/-- Grant segment `o` of the head record `r` of entry `e` (R102). -/
def grantLive (e : EntryId) (r : RecordId) (o : Offer) (s : State) : State :=
  let c := (s.entry e).cursor.getD (newCursor s.uplink.segSize (s.record r).tagAtHead)
  transmit (.live e) (cutSegment false 0 (s.record r) s.store.mem c o)
    (mapEntry e (fun x => { x with cursor := some (c.after o) }) s)

/-- The replay id and entry of the head request. -/
def headRequest (s : State) : Byte × EntryId :=
  match s.replay.queue with
  | q :: _ => (q.id, q.entry)
  | [] => (0, 0)

/-- What a granted replay segment belongs to: the ABORTED TAIL is told apart (R125). -/
def replaySource (o : Offer) : TxSource :=
  match o with
  | .abortedTail => .abortedTail
  | .head | .body _ | .tail => .replay

/-- Grant segment `o` of the pinned record `r` (R120, R125). -/
def grantReplay (r : RecordId) (o : Offer) (s : State) : State :=
  let c := s.replay.cursor.getD (newCursor s.uplink.segSize (s.entry (headRequest s).2).current.tag)
  transmit (replaySource o) (cutSegment true (headRequest s).1 (s.record r) s.store.mem c o)
    (mapReplay (fun v => { v with cursor := some (c.after o) }) s)

/-- Grant the segment that position `p` offers. -/
def grantPosition (p : Fin 33) (o : Offer) (s : State) : State :=
  match positionEntry p with
  | some e =>
    match (s.entry e).forwardQueue with
    | r :: _ => grantLive e r o s
    | [] => s
  | none =>
    match s.replay.pinned with
    | some r => grantReplay r o s
    | none => s

/-- A grant in class `c`: the class's start moves behind the granted position (R106). -/
def grantMember (c : ClassId) (p : Fin 33) (s : State) : State :=
  match memberOffer s c p with
  | some o => mapUplink (fun u => { u with starts := u.starts.set c (p + 1) }) (grantPosition p o s)
  | none => s

/-- The grant when neither a reply nor a notice waits: a frame segment, or LINK filler (R104). -/
def grantFrame (s : State) : State :=
  match nextFrameSource s with
  | some (c, p) => grantMember c p s
  | none => transmit .filler .filler s

/-- The arbiter's choice (R104). -/
def arbitrate (s : State) : State :=
  match s.agent.replies, s.notices.queue with
  | r :: _, _ => transmit .reply r.segment s
  | [], m :: _ => transmit .notice m.segment s
  | [], [] => grantFrame s

/-- UPLINK_GRANT (R104): made when the uplink is ACTIVE and its transmitter free. -/
def grant (s : State) : State := if s.uplink.state = .active ∧ s.uplink.tx = none then arbitrate s else s

/-! ## A segment completes (R102, R107, R121, R125, R159) -/

/-- The reply at the head has left (R107): the part reset it brings, or the take that its place allows. -/
def replyLeaves (s : State) : State :=
  let t := mapAgent (fun a => { a with replies := a.replies.drop 1 }) s
  if (s.agent.replies.head?.map (·.resets)).getD false then partReset t else agentTakes t

/-- The TAIL of a live forwarding of entry `e` has left (R102). -/
def forwardTailLeaves (e : EntryId) (s : State) : State :=
  match (s.entry e).forwardQueue with
  | [] => s
  | r :: rs =>
    countEntry e (fun c => { c with forwarded := bump c.forwarded })
      (dropForward r (mapEntry e (fun x => { x with forwardQueue := rs, cursor := none }) s))

/-- What is on the link once a segment has ended: outside ACTIVE the next LINK filler, which is sent continuously
there (R33); in ACTIVE nothing until a grant (R104). -/
def Uplink.rest (u : Uplink) : Option UplinkTx := if u.state = .active then none else some .filler

/-- The segment has ended: SEG_OUT counts every segment but LINK (R33), and the transmitter is free, or sends filler. -/
def freeTransmitter (x : UplinkTx) : State → State :=
  mapUplink fun u => { u with tx := u.rest, segOut := if x.segment.kind = .link then u.segOut else bump u.segOut }

/-- What the completion of segment `x` brings about. -/
def segmentLeft (x : UplinkTx) (s : State) : State :=
  match x.source with
  | .reply => replyLeaves s
  | .notice => noticeLeaves s
  | .live e => if x.segment.kind = .tail then forwardTailLeaves e s else s
  | .replay => if x.segment.kind = .tail then replayTailLeaves s else s
  | .abortedTail => abortedTailLeaves s
  | .filler => s

/-- UPLINK_SEGMENT_COMPLETES (R107). -/
def segmentCompletes (s : State) : State :=
  match s.uplink.tx with
  | some x => segmentLeft x (freeTransmitter x s)
  | none => s

/-! ## Leaving and entering ACTIVE (R33, R108, R126, R167) -/

/-- The uplink in LOST: hold timer started, transmission cut off, LINK filler from then on, the reason kept (R21, R33,
R167). -/
def loseLink (why : PrevLoss) (s : State) : State :=
  mapUplink (fun u => { u with
    state := .lost, silence := none, hold := some (s.after Config.holdTime), prevLoss := why, tx := some .filler }) s

/-- A forward claim drops at the loss; the records that qualify for the reclaim list join it later, all together
(R81, R108; log entry 15). -/
def dropForwardQuietly (r : RecordId) (s : State) : State :=
  freeIfUnclaimed r (mapRecord r (fun x => { x with forward := false }) s)

/-- Entry `e`'s forward queue is emptied in queue order (R108). -/
def cutForward (e : EntryId) (s : State) : State :=
  forEach (s.entry e).forwardQueue dropForwardQuietly
    (mapEntry e (fun x => { x with forwardQueue := [], cursor := none }) s)

/-- The part reset that a loss brings while the agent is RESET_PENDING (R159). -/
def resetIfPending (s : State) : State := if s.agent.state ≠ .ready then partReset s else s

/-- The uplink leaves ACTIVE (R33, R108, R126, R159; log entry 15). -/
def leaveUplink (why : PrevLoss) (s : State) : State :=
  resetIfPending (joinQualified (abortReplay (forEach allEntries cutForward (loseLink why s))))

/-- The uplink enters ACTIVE (R18, R118, R167). The filler under way goes on to its end, and the transmitter is free then
(R104). R163 lets UPLINK_STATE and the REPLAY_DONE of requests that end at the take be offered in either order; the
model's choice is UPLINK_STATE first (log entry 13). -/
def enterUplink (s : State) : State :=
  let t := mapUplink (fun u => { u with
    state := .active, badRun := 0, silence := some (s.after Config.silenceTime) }) s
  replayTakes (mapUplink (fun u => { u with prevLoss := .none }) (offerNotice (.uplinkState s.uplink.prevLoss) t))

/-- The uplink's silence timer expires (R19). -/
def uplinkSilence (s : State) : State :=
  match s.uplink.state, s.uplink.silence with
  | .active, some d => leaveUplink .silence (atDeadline d s)
  | _, _ => s

/-- The uplink's hold timer expires (R21). -/
def uplinkHold (s : State) : State :=
  match s.uplink.state, s.uplink.hold with
  | .lost, some d =>
    mapUplink (fun u => { u with state := .acquiring, hold := none, acqRun := 0, badRun := 0 }) (atDeadline d s)
  | _, _ => s

/-! ## Received units (R17, R33) -/

/-- A bad-check unit on U (R17 step 3, R20). -/
def badUpUnit (s : State) : State :=
  let t := mapUplink (fun u => { u with
    badCheck := bump u.badCheck,
    acqRun := if u.state = .acquiring then 0 else u.acqRun,
    badRun := if u.state = .active then u.badRun + 1 else u.badRun }) s
  if t.uplink.state = .active ∧ Config.badCheckRun ≤ t.uplink.badRun then leaveUplink .badChecks t else t

/-- A good-check unit on U moves the runs (R17 step 4, R18). -/
def goodUpUnit (s : State) : State :=
  let t := mapUplink (fun u => { u with
    badRun := 0, acqRun := if u.state = .acquiring then u.acqRun + 1 else u.acqRun }) s
  if t.uplink.state = .acquiring ∧ Config.acquisitionRun ≤ t.uplink.acqRun then enterUplink t else t

/-- SEG_IN, and the silence timer restarts in ACTIVE (R17 steps 1 and 2). -/
def countUpUnit (s : State) : State :=
  mapUplink (fun u => { u with
    segIn := bump u.segIn,
    silence := if u.state = .active then some (s.after Config.silenceTime) else u.silence }) s

/-- A well-formed segment received on U in ACTIVE (R33, R148, R153). -/
def disposeUp (g : UpSegment) (s : State) : State :=
  match g with
  | .mreq m => agentTakes (requestArrives m s)
  | .link => s

/-- Before the start-up load completes a unit is counted and nothing else (R17). -/
def countEarly (unit : List Byte) : State → State :=
  mapUplink fun u => { u with
    segIn := bump u.segIn, badCheck := if goodCheck unit then u.badCheck else bump u.badCheck }

/-- UPLINK_UNIT_RECEIVED (R17, R33). -/
def upUnit (unit : List Byte) (s : State) : State :=
  if s.starting then countEarly unit s
  else
    match classifyUp unit with
    | .badCheck => badUpUnit (countUpUnit s)
    | .malformed => goodUpUnit (countUpUnit s)
    | .wellFormed g =>
      if s.uplink.state = .active then disposeUp g (goodUpUnit (countUpUnit s)) else goodUpUnit (countUpUnit s)

end Sys2Proof.Machine
end

