-- ==== Sys2Proof/Machine/Clock.lean ====
section
/-!
DEFINITION. The clock (log entry 4): which timed events are due, and what the part does on a step with no command
waiting.
-/

namespace Sys2Proof.Machine

open Sys2Proof

/-- The command, when the timer runs and has reached its deadline. -/
def whenDue (now : Time) (timer : Option Time) (c : Instr) : List Instr :=
  match timer with
  | some d => if reached now d then [c] else []
  | none => []

/-- The events due on port `n`'s link; the ramp expiry samples a free level (log entry 6). -/
def duePort (s : State) (n : PortId) : List Instr :=
  whenDue s.partTime (s.port n).silence (.silenceTimerExpiry (.down n))
    ++ whenDue s.partTime (s.port n).hold (.holdTimerExpiry (.down n))
    ++ whenDue s.partTime (s.port n).ramp (.rampExpiry n (Config.freeLevel s.fresh))

/-- The events due at port `n`'s trigger generator. -/
def dueTrigger (s : State) (n : PortId) : List Instr :=
  whenDue s.partTime (s.gen n).debounce (.debounceTimerExpiry n)
    ++ whenDue s.partTime (s.gen n).period (.periodTimerExpiry n)
    ++ (s.gen n).pendings.flatMap fun p => whenDue s.partTime (some p.deadline) (.windowExpiry n p.number)

/-- The stall expiry of entry `e`, when due. -/
def dueStall (s : State) (e : EntryId) : List Instr := whenDue s.partTime (s.entry e).stall (.stallTimerExpiry e)

/-- The events due on the uplink. -/
def dueUplink (s : State) : List Instr :=
  whenDue s.partTime s.uplink.silence (.silenceTimerExpiry .up) ++ whenDue s.partTime s.uplink.hold (.holdTimerExpiry .up)

/-- The completion that the flash controller's work ends with; a verify has a free result (log entry 19). -/
def flashCompletion (s : State) : Instr :=
  if s.starting then .startUpLoadCompletes
  else
    match s.agent.longOp with
    | some (.save, k) =>
      if k = 0 then .bootRevertCompletes (Config.freeVerify s.fresh) else .profileSaveCompletes (Config.freeVerify s.fresh)
    | some (.select, _) => .bootSelectCompletes (Config.freeVerify s.fresh)
    | some (.load, _) | none => .profileLoadCompletes

/-- The completion awaited, when its latest time has come (R174, R183). -/
def dueFlash (s : State) : List Instr := whenDue s.partTime s.flash.bound (flashCompletion s)

/-- Every timed event that is due. -/
def dueEvents (s : State) : List Instr :=
  dueFlash s ++ dueUplink s ++ allPorts.flatMap (duePort s) ++ allPorts.flatMap (dueTrigger s)
    ++ allEntries.flatMap (dueStall s)

/-- Which of the due events is taken: any of them (R179 and 00_scope.md section 6, "either order"; log entry 6). -/
def pickDue (s : State) : Option Instr :=
  match dueEvents s with
  | [] => none
  | [c] => some c
  | c :: cs => (c :: cs)[Config.freeIndex s.fresh % (c :: cs).length]?

/-- PGn of port `n` is watched: its port is powered and has its receiver on, so a change of its level is a POWER_FAULT
(R24). -/
def watchesPower (s : State) (n : PortId) : Bool := (s.port n).powered && (s.port n).state.receiving

/-- The levels of PG0-PG7 as now sampled (R28): a watched pin keeps its level, every other one is at a free level (log
entry 8). -/
def samplePower (s : State) : Vector Bool 8 :=
  Vector.ofFn fun n => if watchesPower s n then s.pg[n] else Config.freePower s.fresh n.val

/-- The clock advances by one microsecond and the power-good pins are sampled (log entries 4 and 8). -/
def clockTick (s : State) : State := { tick s with pg := samplePower s, fresh := s.fresh + 1 }

/-- A step with no command waiting (log entry 4): a due event becomes the waiting command, or the clock advances. -/
def idle (s : State) : State :=
  match pickDue s with
  | some c => { s with pending := [c], fresh := s.fresh + 1 }
  | none => clockTick s

end Sys2Proof.Machine
end

