-- ==== Sys2Proof/Machine/Events.lean ====
section
/-!
DEFINITION. The meanings of the events: resets, units received, timers, power, transmitters, trigger lines, takes, and
flash completions. Each is the effect of its command on everything but the queue.
-/

namespace Sys2Proof.Machine

open Sys2Proof

/-- A step's answer: the next state. -/
abbrev Result := Host.Outcome State Fault Refusal

/-- HARD_RESET (R183). -/
def execHardReset (s : State) : Result := .next (hardReset s)

/-- START_UP_LOAD_COMPLETES (R184). -/
def execStartUpLoadCompletes (s : State) : Result := .next (startUpCompletes s)

/-- DOWNSTREAM_UNIT_RECEIVED (R17 to R22). -/
def execDownstreamUnitReceived (port : PortId) (unit : List Byte) (s : State) : Result := .next (downUnit port unit s)

/-- UPLINK_UNIT_RECEIVED (R33). -/
def execUplinkUnitReceived (unit : List Byte) (s : State) : Result := .next (upUnit unit s)

/-- SILENCE_TIMER_EXPIRY (R19) of a port or the uplink. -/
def execSilenceTimerExpiry (link : Link) (s : State) : Result :=
  match link with
  | .down port => .next (portSilence port s)
  | .up => .next (uplinkSilence s)

/-- HOLD_TIMER_EXPIRY (R21) of a port or the uplink. -/
def execHoldTimerExpiry (link : Link) (s : State) : Result :=
  match link with
  | .down port => .next (portHold port s)
  | .up => .next (uplinkHold s)

/-- RAMP_EXPIRY (R23). -/
def execRampExpiry (port : PortId) (pgHigh : Bool) (s : State) : Result := .next (rampEnds port pgHigh s)

/-- POWER_FAULT (R24). -/
def execPowerFault (port : PortId) (s : State) : Result := .next (powerFails port s)

/-- STALL_TIMER_EXPIRY (R70). -/
def execStallTimerExpiry (entry : EntryId) (s : State) : Result := .next (stallExpiry entry s)

/-- UPLINK_GRANT (R104). -/
def execUplinkGrant (s : State) : Result := .next (grant s)

/-- UPLINK_SEGMENT_COMPLETES (R107). -/
def execUplinkSegmentCompletes (s : State) : Result := .next (segmentCompletes s)

/-- DOWNSTREAM_TRANSMIT_START (R30). -/
def execDownstreamTransmitStart (port : PortId) (s : State) : Result := .next (transmitStart port s)

/-- RAW_LINE_CHANGE (R133). -/
def execRawLineChange (line : LineId) (level : Bool) (s : State) : Result := .next (rawLineChange line level s)

/-- DEBOUNCE_TIMER_EXPIRY (R133). -/
def execDebounceTimerExpiry (port : PortId) (s : State) : Result := .next (debounceExpiry port s)

/-- PERIOD_TIMER_EXPIRY (R136). -/
def execPeriodTimerExpiry (port : PortId) (s : State) : Result := .next (periodExpiry port s)

/-- WINDOW_EXPIRY (R143). -/
def execWindowExpiry (port : PortId) (number : Half) (s : State) : Result := .next (windowExpiry port number s)

/-- REQUEST_TAKE (R153; log entry 2). -/
def execRequestTake (s : State) : Result := .next (agentTakes s)

/-- REPLAY_TAKE (R118; log entry 2). -/
def execReplayTake (s : State) : Result := .next (replayTakes s)

/-- PROFILE_SAVE_COMPLETES (R175). -/
def execProfileSaveCompletes (verified : Bool) (s : State) : Result := .next (saveCompletes verified s)

/-- BOOT_REVERT_COMPLETES (R176). -/
def execBootRevertCompletes (verified : Bool) (s : State) : Result := .next (revertCompletes verified s)

/-- BOOT_SELECT_COMPLETES (R180). -/
def execBootSelectCompletes (verified : Bool) (s : State) : Result := .next (selectCompletes verified s)

/-- PROFILE_LOAD_COMPLETES (R178). -/
def execProfileLoadCompletes (s : State) : Result := .next (loadCompletes s)

end Sys2Proof.Machine
end

