-- ==== Sys2Proof/Machine/Requests.lean ====
section
/-!
DEFINITION. The meanings of the 27 operation rows: each is the execution of one such request by the management agent
(R154; log entry 3).
-/

namespace Sys2Proof.Machine

open Sys2Proof

/-- DESCRIBE (R160). -/
def execDescribe (tag : Half) (s : State) : Result := .next (hostRequest tag .describe s)

/-- RESET_PART (R158). -/
def execResetPart (tag : Half) (slot : Byte) (s : State) : Result := .next (hostRequest tag (.resetPart slot) s)

/-- SET_PORT (R27). -/
def execSetPort (tag : Half) (port enabled powered : Byte) (s : State) : Result :=
  .next (hostRequest tag (.setPort port enabled powered) s)

/-- GET_PORT (R28). -/
def execGetPort (tag : Half) (port : Byte) (s : State) : Result := .next (hostRequest tag (.getPort port) s)

/-- PORT_RESET (R29). -/
def execPortReset (tag : Half) (port : Byte) (s : State) : Result := .next (hostRequest tag (.portReset port) s)

/-- READ_ENTRY (R52). -/
def execReadEntry (tag : Half) (entry : Byte) (s : State) : Result := .next (hostRequest tag (.readEntry entry) s)

/-- WRITE_ENTRY (R43). -/
def execWriteEntry (tag : Half) (entry : Byte) (block : ImageBlock) (s : State) : Result :=
  .next (hostRequest tag (.writeEntry entry block) s)

/-- LIST_FRAMES (R94). -/
def execListFrames (tag : Half) (entry start : Byte) (s : State) : Result :=
  .next (hostRequest tag (.listFrames entry start) s)

/-- HOLD (R90). -/
def execHold (tag : Half) (entry : Byte) (frame : Half) (s : State) : Result :=
  .next (hostRequest tag (.hold entry frame) s)

/-- RELEASE (R91). -/
def execRelease (tag : Half) (entry : Byte) (frame : Half) (s : State) : Result :=
  .next (hostRequest tag (.release entry frame) s)

/-- DROP (R92). -/
def execDrop (tag : Half) (entry count : Byte) (s : State) : Result := .next (hostRequest tag (.drop entry count) s)

/-- STORE_CLEAR (R93). -/
def execStoreClear (tag : Half) (s : State) : Result := .next (hostRequest tag .storeClear s)

/-- SET_UPLINK (R110). -/
def execSetUplink (tag : Half) (settings : Option UplinkBlock) (s : State) : Result :=
  .next (hostRequest tag (.setUplink settings) s)

/-- REPLAY (R116). -/
def execReplay (tag : Half) (entry : Byte) (first : Half) (count : Byte) (s : State) : Result :=
  .next (hostRequest tag (.replay entry first count) s)

/-- CANCEL_REPLAY (R123). -/
def execCancelReplay (tag : Half) (id : Byte) (s : State) : Result := .next (hostRequest tag (.cancelReplay id) s)

/-- TRIG_CONFIG (R132). -/
def execTrigConfig (tag : Half) (port : Byte) (block : TrigBlock) (s : State) : Result :=
  .next (hostRequest tag (.trigConfig port block) s)

/-- TRIG_START (R135). -/
def execTrigStart (tag : Half) (port : Byte) (s : State) : Result := .next (hostRequest tag (.trigStart port) s)

/-- TRIG_STOP (R138). -/
def execTrigStop (tag : Half) (port : Byte) (s : State) : Result := .next (hostRequest tag (.trigStop port) s)

/-- TRIG_NOW (R140). -/
def execTrigNow (tag : Half) (port : Byte) (s : State) : Result := .next (hostRequest tag (.trigNow port) s)

/-- TRIG_STATUS (R146). -/
def execTrigStatus (tag : Half) (port : Byte) (s : State) : Result := .next (hostRequest tag (.trigStatus port) s)

/-- SET_NOTICE_MASK (R165). -/
def execSetNoticeMask (tag : Half) (mask : Half) (s : State) : Result :=
  .next (hostRequest tag (.setNoticeMask mask) s)

/-- READ_COUNTERS (R169). -/
def execReadCounters (tag : Half) (group index : Byte) (s : State) : Result :=
  .next (hostRequest tag (.readCounters group index) s)

/-- CLEAR_COUNTERS (R170). -/
def execClearCounters (tag : Half) (group index : Byte) (s : State) : Result :=
  .next (hostRequest tag (.clearCounters group index) s)

/-- PROFILE_SAVE (R175). -/
def execProfileSave (tag : Half) (slot : Byte) (s : State) : Result := .next (hostRequest tag (.profileSave slot) s)

/-- PROFILE_LOAD (R177). -/
def execProfileLoad (tag : Half) (slot : Byte) (s : State) : Result := .next (hostRequest tag (.profileLoad slot) s)

/-- BOOT_SELECT (R180). -/
def execBootSelect (tag : Half) (slot : Byte) (s : State) : Result := .next (hostRequest tag (.bootSelect slot) s)

/-- PROFILE_INFO (R181). -/
def execProfileInfo (tag : Half) (s : State) : Result := .next (hostRequest tag .profileInfo s)

end Sys2Proof.Machine
end

