-- ==== Sys2Proof/Machine/Dispatch.lean ====
section
/-!
DEFINITION. The meaning of every command, arm by arm.
-/

namespace Sys2Proof.Machine

open Sys2Proof

/-- The effect of a command on everything but the queue. -/
def exec (i : Instr) (s : State) : Host.Outcome State Fault Refusal :=
  match i with
  | .hardReset => Sys2Proof.Machine.execHardReset s
  | .startUpLoadCompletes => Sys2Proof.Machine.execStartUpLoadCompletes s
  | .downstreamUnitReceived port unit => Sys2Proof.Machine.execDownstreamUnitReceived port unit s
  | .uplinkUnitReceived unit => Sys2Proof.Machine.execUplinkUnitReceived unit s
  | .silenceTimerExpiry link => Sys2Proof.Machine.execSilenceTimerExpiry link s
  | .holdTimerExpiry link => Sys2Proof.Machine.execHoldTimerExpiry link s
  | .rampExpiry port pgHigh => Sys2Proof.Machine.execRampExpiry port pgHigh s
  | .powerFault port => Sys2Proof.Machine.execPowerFault port s
  | .stallTimerExpiry entry => Sys2Proof.Machine.execStallTimerExpiry entry s
  | .uplinkGrant => Sys2Proof.Machine.execUplinkGrant s
  | .uplinkSegmentCompletes => Sys2Proof.Machine.execUplinkSegmentCompletes s
  | .downstreamTransmitStart port => Sys2Proof.Machine.execDownstreamTransmitStart port s
  | .rawLineChange line level => Sys2Proof.Machine.execRawLineChange line level s
  | .debounceTimerExpiry port => Sys2Proof.Machine.execDebounceTimerExpiry port s
  | .periodTimerExpiry port => Sys2Proof.Machine.execPeriodTimerExpiry port s
  | .windowExpiry port number => Sys2Proof.Machine.execWindowExpiry port number s
  | .requestTake => Sys2Proof.Machine.execRequestTake s
  | .replayTake => Sys2Proof.Machine.execReplayTake s
  | .describe tag => Sys2Proof.Machine.execDescribe tag s
  | .resetPart tag slot => Sys2Proof.Machine.execResetPart tag slot s
  | .setPort tag port enabled powered => Sys2Proof.Machine.execSetPort tag port enabled powered s
  | .getPort tag port => Sys2Proof.Machine.execGetPort tag port s
  | .portReset tag port => Sys2Proof.Machine.execPortReset tag port s
  | .readEntry tag entry => Sys2Proof.Machine.execReadEntry tag entry s
  | .writeEntry tag entry block => Sys2Proof.Machine.execWriteEntry tag entry block s
  | .listFrames tag entry start => Sys2Proof.Machine.execListFrames tag entry start s
  | .hold tag entry frame => Sys2Proof.Machine.execHold tag entry frame s
  | .release tag entry frame => Sys2Proof.Machine.execRelease tag entry frame s
  | .drop tag entry count => Sys2Proof.Machine.execDrop tag entry count s
  | .storeClear tag => Sys2Proof.Machine.execStoreClear tag s
  | .setUplink tag settings => Sys2Proof.Machine.execSetUplink tag settings s
  | .replay tag entry first count => Sys2Proof.Machine.execReplay tag entry first count s
  | .cancelReplay tag id => Sys2Proof.Machine.execCancelReplay tag id s
  | .trigConfig tag port block => Sys2Proof.Machine.execTrigConfig tag port block s
  | .trigStart tag port => Sys2Proof.Machine.execTrigStart tag port s
  | .trigStop tag port => Sys2Proof.Machine.execTrigStop tag port s
  | .trigNow tag port => Sys2Proof.Machine.execTrigNow tag port s
  | .trigStatus tag port => Sys2Proof.Machine.execTrigStatus tag port s
  | .setNoticeMask tag mask => Sys2Proof.Machine.execSetNoticeMask tag mask s
  | .readCounters tag group index => Sys2Proof.Machine.execReadCounters tag group index s
  | .clearCounters tag group index => Sys2Proof.Machine.execClearCounters tag group index s
  | .profileSave tag slot => Sys2Proof.Machine.execProfileSave tag slot s
  | .profileLoad tag slot => Sys2Proof.Machine.execProfileLoad tag slot s
  | .bootSelect tag slot => Sys2Proof.Machine.execBootSelect tag slot s
  | .profileInfo tag => Sys2Proof.Machine.execProfileInfo tag s
  | .profileSaveCompletes verified => Sys2Proof.Machine.execProfileSaveCompletes verified s
  | .bootRevertCompletes verified => Sys2Proof.Machine.execBootRevertCompletes verified s
  | .bootSelectCompletes verified => Sys2Proof.Machine.execBootSelectCompletes verified s
  | .profileLoadCompletes => Sys2Proof.Machine.execProfileLoadCompletes s

end Sys2Proof.Machine
end

