-- ==== Sys2Proof/Safety.lean ====
section
/-!
DEFINITION. The laws of the part that every step keeps (the capacities of its queues, the canonical form of the frame
store's bytes, the laws of the store, of the replay queue and of bindings, the factory profile in slot 0), and the words
that statements about commands use: when the agent may take a request, a reply at the tail of the reply queue, what
leaving ACTIVE, the close of a frame, an identity change, the loss of the uplink and a reset leave.
-/

namespace Sys2Proof.Machine

open Sys2Proof

/-- The output queue holds at most 4 segments (R30). -/
def Port.queueLaw (p : Port) : Prop := p.outTrigs.length + p.outMreqs.length ≤ 4

/-- The pending trigger list holds at most 8 entries (R141). -/
def Generator.pendingLaw (g : Generator) : Prop := g.pendings.length ≤ 8

/-- The notice is a NOTICES_LOST. -/
def Notice.isLost (n : Notice) : Bool := n.body.kind == 12

/-- The notice queue holds at most 32 notices, of which at most one is a NOTICES_LOST notice (R162); the lost count
is at most 65535 (R163). -/
def NoticeUnit.queueLaw (u : NoticeUnit) : Prop :=
  u.queue.length ≤ 32 ∧ (u.queue.filter Notice.isLost).length ≤ 1 ∧ u.lost ≤ 65535

/-- The request queue holds at most 8 requests; the reply queue, a reserved place counted, at most 16 (R147, R153). -/
def Agent.queueLaw (a : Agent) : Prop := a.requests.length ≤ 8 ∧ a.replies.length + a.reserved.toNat ≤ 16

/-- The replay queue holds at most 16 requests (R113). -/
def ReplayService.queueLaw (v : ReplayService) : Prop := v.queue.length ≤ 16

/-- Every queue is within its capacity. -/
def State.queuesLaw (s : State) : Prop :=
  (∀ n, (s.port n).queueLaw) ∧ (∀ n, (s.gen n).pendingLaw) ∧ s.notices.queueLaw ∧ s.agent.queueLaw
    ∧ s.replay.queueLaw

/-- The bytes behind the pages are in canonical form (R75; log entry 11). -/
def State.memoryLaw (s : State) : Prop := Memory.wf s.store.mem = true

/-- Slot 0 holds the factory profile and its check code (R171). -/
def State.factoryLaw (s : State) : Prop := s.flash.slots[0] = .factory

/-- Each of the 4096 pages is on the free page list or in the page list of exactly one record, once (R75). -/
def State.pageLaw (s : State) : Prop :=
  (s.store.freePages ++ (List.finRange 256).flatMap fun r => (s.record r).pages).Perm (List.finRange 4096)

/-- A record is on the free record list, once, exactly when it is free, and exactly when it holds no claim; its fields
then have no value. The receiving claim is held exactly while FILLING, by one record of an entry at most; ring and pin
claims only while CLOSED (R76 to R78). -/
structure State.recordLaw (s : State) : Prop where
  freeOnce : s.store.freeRecords.Nodup
  free : ∀ r, r ∈ s.store.freeRecords ↔ (s.record r).state = .free
  unclaimed : ∀ r, (s.record r).state = .free ↔ (s.record r).unclaimed = true
  blank : ∀ r, (s.record r).state = .free → s.record r = .blank
  filling : ∀ r, (s.record r).receiving = true ↔ (s.record r).state = .filling
  closed : ∀ r, (s.record r).ring = true ∨ (s.record r).pin = true → (s.record r).state = .closed
  oneOpen : ∀ q r, (s.record q).receiving = true → (s.record r).receiving = true →
    (s.record q).entry = (s.record r).entry → q = r

/-- Each claim is held by the records that its place holds: the open record of an entry's assembly, the members of its
forward queue, the engine's pinned record (R77, R89, R114). -/
structure State.claimLaw (s : State) : Prop where
  assembly : ∀ e r, (s.entry e).assembly = .filling r ↔ (s.record r).receiving = true ∧ (s.record r).entry = e
  forward : ∀ e r, r ∈ (s.entry e).forwardQueue ↔ (s.record r).forward = true ∧ (s.record r).entry = e
  forwardOnce : ∀ e, (s.entry e).forwardQueue.Nodup
  pin : ∀ r, s.replay.pinned = some r ↔ (s.record r).pin = true

/-- An entry's ring holds every record that holds a ring claim for it, each once, no two with one frame number; an open
frame whose number a member carries is marked not-retainable; only members are held (R58, R79, R90). A ring of more
records than its depth holds held and pinned records alone (R80). -/
structure State.ringLaw (s : State) : Prop where
  member : ∀ e r, r ∈ (s.entry e).ring ↔ (s.record r).ring = true ∧ (s.record r).entry = e
  once : ∀ e, (s.entry e).ring.Nodup
  frames : ∀ e, ∀ q ∈ (s.entry e).ring, ∀ r ∈ (s.entry e).ring, (s.record q).frame = (s.record r).frame → q = r
  guarded : ∀ r, (s.record r).receiving = true → (s.record r).notRetainable = true
    ∨ ∀ q ∈ (s.entry (s.record r).entry).ring, (s.record q).frame ≠ (s.record r).frame
  held : ∀ r, (s.record r).held = true → (s.record r).ring = true
  depth : ∀ e, (s.entry e).ring.length ≤ (s.entry e).current.ringDepth
    ∨ ∀ r ∈ (s.entry e).ring, (s.record r).held = true ∨ (s.record r).pin = true

/-- The reclaim list holds each record that is CLOSED, in its ring, not held, not pinned and without a forward claim,
once, and no other (R81). -/
def State.reclaimLaw (s : State) : Prop :=
  s.store.reclaim.Nodup ∧ ∀ r, r ∈ s.store.reclaim ↔ (s.record r).reclaimable = true

/-- The engine is IDLE, nothing is pinned, no cursor is held and no request is ACTIVE; or it is SENDING or CLOSING, one
record is pinned, the head request alone is ACTIVE and one of its frames at least has no outcome. A request names 1 to 16
frames and has no more outcomes than frames, none while WAITING; no two have one id (R113 to R115). -/
structure ReplayService.requestLaw (v : ReplayService) : Prop where
  ids : (v.queue.map (·.id)).Nodup
  counts : ∀ q ∈ v.queue, 1 ≤ q.count ∧ q.count ≤ 16 ∧ q.outcomes.length ≤ q.count
  waiting : ∀ q ∈ v.queue, q.active = false → q.outcomes = []
  behind : ∀ q ∈ v.queue.tail, q.active = false
  idle : v.engine = .idle → v.pinned = none ∧ v.cursor = none ∧ ∀ q ∈ v.queue, q.active = false
  busy : v.engine ≠ .idle → v.pinned ≠ none
    ∧ ∃ q ∈ v.queue.head?, q.active = true ∧ q.outcomes.length < q.count

/-- No two images bind the same pair or tag, of those with valid 1 (R42). -/
def Profile.bindingLaw (p : Profile) : Prop :=
  ∀ e f : EntryId, e ≠ f → p.images[e].valid = true → p.images[f].valid = true →
    collides p.images[e] p.images[f] = false

/-- No two images of different entries, current or staged, with valid 1, bind the same pair or tag; nor do the images of
a VALID slot or of the staging buffer among themselves (R42, R53). -/
structure State.bindingLaw (s : State) : Prop where
  table : ∀ e f : EntryId, e ≠ f → ∀ i ∈ validImages (s.entry e), ∀ j ∈ validImages (s.entry f), collides i j = false
  slots : ∀ (k : SlotId) (p : Profile), s.flash.slots[k].profile? = some p → p.bindingLaw
  staging : ∀ p, s.flash.staging = some p → p.bindingLaw

/-- A segment of a replay is in transmission only while a request is ACTIVE and its cursor is present (R114, R120). -/
def State.sendingLaw (s : State) : Prop :=
  ∀ x, s.uplink.tx = some x → x.source = .replay ∨ x.source = .abortedTail →
    s.replay.engine ≠ .idle ∧ s.replay.cursor ≠ none

/-- The laws of the frame store and of the replay queue. -/
structure State.storeLaw (s : State) : Prop where
  pages : s.pageLaw
  records : s.recordLaw
  claims : s.claimLaw
  rings : s.ringLaw
  reclaim : s.reclaimLaw
  requests : s.replay.requestLaw
  sending : s.sendingLaw

/-- No place is reserved in the reply queue: a place is reserved only inside an execution (R153). -/
def State.atRest (s : State) : Prop := s.agent.reserved = false

/-- The agent may take a request: the start-up load has completed, it is READY, and the reply queue holds fewer than 16
replies (R17, R153). -/
def State.mayTake (s : State) : Prop :=
  s.starting = false ∧ s.agent.state = .ready ∧ s.agent.replies.length < 16 ∧ s.atRest

/-- `s` with a reply of the part at the tail of the reply queue: route 0Fh, the request's tag, operation echo, status and
result block (R12, R154). -/
def State.withReply (s : State) (tag : Half) (op status : Byte) (result : List Byte) : State :=
  { s with agent := { s.agent with replies := s.agent.replies ++ [⟨0x0F, tag, op :: status :: result, false⟩] } }

/-- The last reply of the reply queue is the part's reply to this request. -/
def State.lastReply (s : State) (tag : Half) (op status : Byte) (result : List Byte) : Prop :=
  s.agent.replies.getLast? = some ⟨0x0F, tag, op :: status :: result, false⟩

/-- `s` with port `n` replaced. -/
def State.setPort (s : State) (n : PortId) (p : Port) : State := { s with ports := s.ports.set n p }
/-- `s` with the generator of port `n` replaced. -/
def State.setGen (s : State) (n : PortId) (g : Generator) : State := { s with gens := s.gens.set n g }
/-- `s` with entry `e` replaced. -/
def State.setEntry (s : State) (e : EntryId) (x : Entry) : State := { s with entries := s.entries.set e x }
/-- `s` with record `r` replaced. -/
def State.setRecord (s : State) (r : RecordId) (x : Record) : State :=
  { s with store := { s.store with records := s.store.records.set r x } }

/-- Entry `e` is on port `n` (R34). -/
def State.onPort (s : State) (n : PortId) (e : EntryId) : Prop :=
  (s.entry e).current.valid = true ∧ (s.entry e).current.port = n

/-- What leaving ACTIVE leaves of port `n`'s surroundings (R25). Every entry that was on the port is IDLE: a FILLING frame
has closed with PORT_LOST and counts in FRAMES_IN, its record closed or freed; DISCARDING has ended; an IDLE entry is
unchanged; and the others are unchanged. The generator is IDLE with its remaining count and configuration kept; its
pending list is empty, and where no entry on the port held a staged image, which could have shortened the list first,
ABANDONED has increased by the number of entries removed and the other counters are kept. The port's output queue is
empty. No other port, no other generator's state, nor the uplink, the replay engine's pin, the flash or the bytes of the
store are touched. -/
def State.portReset (s t : State) (n : PortId) : Prop :=
  (∀ e, ¬ s.onPort n e → t.entry e = s.entry e)
    ∧ (∀ e, s.onPort n e → (t.entry e).assembly = .idle
        ∧ ((s.entry e).assembly ≠ .idle → (t.entry e).stall = none)
        ∧ ((s.entry e).assembly = .idle → (s.entry e).staged = none → t.entry e = s.entry e)
        ∧ ((s.entry e).assembly = .discarding →
            (t.entry e).counters.framesIn = (s.entry e).counters.framesIn)
        ∧ ∀ r, (s.entry e).assembly = .filling r →
            (t.entry e).counters.framesIn = bump (s.entry e).counters.framesIn
            ∧ ((t.record r).state = .free ∨ (t.record r).state = .closed ∧ (t.record r).close = some .portLost))
    ∧ (t.gen n).state = .idle ∧ (t.gen n).period = none ∧ (t.gen n).remaining = (s.gen n).remaining
    ∧ (t.gen n).config = (s.gen n).config ∧ (t.gen n).pendings = []
    ∧ ((∀ e, s.onPort n e → (s.entry e).staged = none) → (t.gen n).counters = { (s.gen n).counters with
        abandoned := bumpBy (s.gen n).pendings.length (s.gen n).counters.abandoned })
    ∧ (t.port n).outTrigs = [] ∧ (t.port n).outMreqs = []
    ∧ (∀ m, m ≠ n → t.port m = s.port m ∧ (t.gen m).state = (s.gen m).state)
    ∧ t.uplink = s.uplink ∧ t.flash = s.flash ∧ t.replay.pinned = s.replay.pinned
    ∧ t.store.mem = s.store.mem

/-- What becomes of the requests in port `n`'s output queue when it is emptied (R25): each draws a PORT_DOWN reply with
reason 00h in queue order while the reply queue has a place, `room` of them, and the rest count in DROPPED; replies of
the same event that follow stand in `after`. Nothing else of the agent changes. -/
def State.removedAnswered (s t : State) (n : PortId) (room : Nat) (after : List Reply) : Prop :=
  t.agent = { s.agent with
    replies := s.agent.replies
      ++ ((s.port n).outMreqs.take room).map (fun m => ⟨0x0F, m.tag, [m.op, 0x09, 0x00], false⟩) ++ after
    dropped := bump^[(s.port n).outMreqs.length - room] s.agent.dropped }

/-! ## Notices of one event -/

/-- The notices that the closes of open frames for `c` offer, entry `e`'s in `closes e`, where of the entries that are
FILLING in `s` those in `es` close (R72, R83): a FRAME_DAMAGED each, `c` not being TAIL, behind a ONE_SHOT_TAKEN where
the frame ends a one-shot. Under the law of claims, by which no record is open at two entries, the frame ends a one-shot
exactly when its retention mode is ONE_SHOT and it is retainable, and FRAME_DAMAGED says what the record holds. -/
def State.closeNotices (s : State) (c : CloseReason) (es : EntryId → Prop) (closes : EntryId → List NoticeBody) : Prop :=
  ∀ e, (∀ r, es e → (s.entry e).assembly = .filling r → ∃ one k d b y,
      closes e = one ++ [.frameDamaged e k d c b y] ∧ (one = [] ∨ ∃ i, one = [.oneShotTaken e k i])
      ∧ (s.claimLaw → (one ≠ [] ↔ (s.entry e).current.retention = .oneShot ∧ (s.record r).notRetainable = false)
          ∧ k = (s.record r).frame ∧ d = (s.record r).damage ∧ b = (s.record r).bodies ∧ y = (s.record r).bytes))
    ∧ (¬ (es e ∧ ∃ r, (s.entry e).assembly = .filling r) → closes e = [])

/-- The notices of an event in which the open frames of the entries on port `n` close with PORT_LOST: theirs in ascending
entry index, and `last` behind them (R25, R26; the order is log entry 13). -/
def State.portNotices (s t : State) (n : PortId) (last : List NoticeBody) : Prop :=
  ∃ closes, s.closeNotices .portLost (s.onPort n) closes
    ∧ t.notices = (forEach (allEntries.flatMap closes ++ last) offerNotice s).notices

/-! ## Profile loads -/

/-- The state of port `n` after a load of profile `p` (R27, R178 step 5): the same where its settings are; a disabled
port is OFF; an enabled one starts when it was OFF or its powered setting changes, and stays otherwise. -/
def State.loadedState (s : State) (p : Profile) (n : PortId) : PortState :=
  if p.ports[n] = ((s.port n).enabled, (s.port n).powered) then (s.port n).state
  else if p.ports[n].1 = false then .off
  else if (s.port n).state ≠ .off ∧ p.ports[n].2 = (s.port n).powered then (s.port n).state
  else if p.ports[n].2 then .powering else .acquiring

/-- The PORT_STATE notice of port `n` at a load of profile `p`, when its state changes (R26, R27). -/
def State.loadedNotice (s : State) (p : Profile) (n : PortId) : List NoticeBody :=
  if s.loadedState p n = (s.port n).state then []
  else [.portState n (s.port n).state (s.loadedState p n)
    (if p.ports[n].1 = false then .disabled else if (s.port n).state = .off then .enabled else .reconfigured)]

/-- The requests that a load of profile `p` removes from port `n`'s output queue, because it leaves ACTIVE (R25, R178). -/
def State.loadRemoves (s : State) (p : Profile) (n : PortId) : List Mreq :=
  if (s.port n).state = .active ∧ s.loadedState p n ≠ .active then (s.port n).outMreqs else []

/-! ## Frames -/

/-- What the close of entry `e`'s open record `r` for `reason` leaves, `s` being the state with the record as it closes
(R71, R72, R82, R83). FRAMES_IN counts, and FRAMES_DAMAGED when the damage set is not empty or the reason is not TAIL;
the record is CLOSED with the reason and its damage set, or is freed; a record that is not retained and has no other
claim is freed, its pages and then itself at the tails of their free lists. The retention decision by mode: OFF keeps the
ring and counts nothing; a record marked not-retainable, or a FILL ring at its depth, keeps the ring and counts
RETAIN_SKIPPED; otherwise RETAINED counts and the record joins the ring's tail, stated for a ring below its depth, and
for ROLLING also for a ring at its depth, from which its oldest member, neither held nor pinned, is evicted. ONE_SHOT
then becomes OFF with its notice. A damaged close offers FRAME_DAMAGED, after that notice. -/
def State.frameClosed (s t : State) (e : EntryId) (r : RecordId) (reason : CloseReason) : Prop :=
  let x := s.record r
  let i := (s.entry e).current
  let ring := (s.entry e).ring
  let c := (s.entry e).counters
  let damaged := x.damage ≠ ⟨false, false, false, false⟩ ∨ reason ≠ .tail
  let notice := NoticeBody.frameDamaged e x.frame x.damage reason x.bodies x.bytes
  let kept := i.retention = .off ∨ x.notRetainable = true ∨ i.retention = .fill ∧ i.ringDepth ≤ ring.length
  (t.entry e).counters.framesIn = bump c.framesIn
    ∧ (damaged → (t.entry e).counters.framesDamaged = bump c.framesDamaged)
    ∧ (¬ damaged → (t.entry e).counters.framesDamaged = c.framesDamaged)
    ∧ ((t.record r).state = .free
        ∨ (t.record r).state = .closed ∧ (t.record r).close = some reason ∧ (t.record r).damage = x.damage
          ∧ (t.record r).receiving = false)
    ∧ (kept → (t.entry e).ring = ring ∧ (t.entry e).current = i ∧ (t.entry e).counters.retained = c.retained
        ∧ (t.entry e).counters.retainSkipped = (if i.retention = .off then c.retainSkipped else bump c.retainSkipped)
        ∧ (damaged → t.notices = (offerNotice notice s).notices) ∧ (¬ damaged → t.notices = s.notices)
        ∧ (x.forward = true ∨ x.pin = true ∨ x.ring = true → t.record r
            = { x with state := .closed, close := some reason, receiving := false })
        ∧ (x.forward = false → x.pin = false → x.ring = false → t.record r = Record.blank
          ∧ t.store.freePages = s.store.freePages ++ x.pages
          ∧ t.store.freeRecords = s.store.freeRecords ++ [r]))
    ∧ (¬ kept → (t.entry e).counters.retained = bump c.retained
        ∧ (t.entry e).counters.retainSkipped = c.retainSkipped
        ∧ (t.entry e).current
          = { i with retention := if i.retention = .oneShot then Retention.off else i.retention }
        ∧ (ring.length < i.ringDepth → (t.entry e).ring = ring ++ [r]
          ∧ t.record r = { x with state := .closed, close := some reason, receiving := false, ring := true }
          ∧ (x.held = false → x.pin = false → x.forward = false → r ∈ t.store.reclaim)
          ∧ (i.retention ≠ .oneShot →
            (damaged → t.notices = (offerNotice notice s).notices) ∧ (¬ damaged → t.notices = s.notices))
          ∧ (i.retention = .oneShot →
            (damaged → t.notices = (offerNotice notice (offerNotice (.oneShotTaken e x.frame true) s)).notices)
            ∧ (¬ damaged → t.notices = (offerNotice (.oneShotTaken e x.frame true) s).notices)))
        ∧ (∀ o ∈ ring.head?, i.retention = .rolling → ring.length = i.ringDepth → r ≠ o →
          (s.record o).held = false → (s.record o).pin = false →
          (t.entry e).ring = ring.tail ++ [r] ∧ (t.entry e).counters.evictedDepth = bump c.evictedDepth))

/-- A pending list without entry `e`: it is in no outstanding set, and pending entries left with an empty set are gone
(R145). -/
def strikePending (e : EntryId) (ps : List PendingTrigger) : List PendingTrigger :=
  (ps.map fun p => { p with outstanding := p.outstanding.filter (· ≠ e) }).filter fun p => p.outstanding ≠ []

/-- What an identity change leaves of entry `e`'s old stream (R46, R47, R127, R145): the ring is empty and its members
have lost their ring claims and held flags; the forward queue holds no record but a head that is being sent, and the
records that left it have lost their forward claims; the expected number is absent; the entry is in no outstanding set,
and pending entries left empty are gone; its replay requests are marked stream-gone; and no counter has moved. -/
def State.streamEnded (s t : State) (e : EntryId) : Prop :=
  (t.entry e).ring = [] ∧ (∀ r ∈ (s.entry e).ring, (t.record r).ring = false ∧ (t.record r).held = false)
    ∧ (t.entry e).forwardQueue = (if (s.entry e).cursor = none then [] else (s.entry e).forwardQueue.take 1)
    ∧ (∀ r ∈ (s.entry e).forwardQueue.drop (if (s.entry e).cursor = none then 0 else 1),
        (t.record r).forward = false)
    ∧ (t.entry e).cursor = (s.entry e).cursor ∧ (t.entry e).expected = none
    ∧ (∀ n, t.gen n = { s.gen n with pendings := strikePending e (s.gen n).pendings })
    ∧ t.replay = { s.replay with
        queue := s.replay.queue.map fun q => if q.entry = e then { q with gone := true } else q }
    ∧ (t.entry e).counters = (s.entry e).counters

/-! ## The uplink -/

/-- Position `p` of class `c` has its turn at a grant: the uplink is ACTIVE with its transmitter free, no reply and no
notice waits, no member of a class above `c` is ready, and no member of `c` from the class's start up to `p` is
(R104, R106). -/
def State.turn (s : State) (c : ClassId) (p : Fin 33) : Prop :=
  s.uplink.state = .active ∧ s.uplink.tx = none ∧ s.agent.replies = [] ∧ s.notices.queue = []
    ∧ (∀ c' < c, ∀ q, memberOffer s c' q = none)
    ∧ ∀ k < p - s.uplink.starts[c], memberOffer s c (s.uplink.starts[c] + k) = none

/-- `s` with `x` in transmission and class `c`'s start behind position `p` (R106). -/
def State.granted (s : State) (c : ClassId) (p : Fin 33) (x : UplinkTx) : State :=
  { s with uplink := { s.uplink with starts := s.uplink.starts.set c (p + 1), tx := some x } }

/-- What the loss of the uplink leaves (R33, R108, R126): LOST for the reason given, with its hold timer running, the
transmission cut off and LINK filler in its place; every forward queue and cursor empty. An ACTIVE replay request ends
with every frame that had no outcome ABORTED and a REPLAY_DONE notice, and the engine is IDLE; an IDLE engine leaves the
replay service and the notices unchanged. The assemblies, the images, the agent with its queues, the ports, the
generators and the bytes of the store do not change. -/
def State.uplinkLost (s t : State) (why : PrevLoss) : Prop :=
  t.uplink.state = .lost ∧ t.uplink.hold = some (s.after 2000) ∧ t.uplink.silence = none
    ∧ t.uplink.tx = some ⟨.filler, ⟨.link, false, 0, 0, 0, []⟩⟩ ∧ t.uplink.prevLoss = why
    ∧ t.uplink.segOut = s.uplink.segOut
    ∧ (∀ e, (t.entry e).forwardQueue = [] ∧ (t.entry e).cursor = none)
    ∧ (∀ e, (t.entry e).assembly = (s.entry e).assembly ∧ (t.entry e).current = (s.entry e).current)
    ∧ t.agent = s.agent ∧ t.ports = s.ports ∧ t.gens = s.gens ∧ t.store.mem = s.store.mem
    ∧ (∀ q ∈ s.replay.queue.head?, s.replay.engine ≠ .idle →
        t.replay = { s.replay with queue := s.replay.queue.tail, engine := .idle, pinned := none, cursor := none }
        ∧ t.notices = (offerNotice (.replayDone q.id q.entry q.first q.count
            (q.outcomes ++ List.replicate (q.count - q.outcomes.length) .aborted)) s).notices)
    ∧ (s.replay.engine = .idle → t.replay = s.replay ∧ t.notices = s.notices)

/-! ## Resets -/

/-- What a hard or part reset leaves (R182, R183): every block at its reset value and the start-up load under way; the
pins, the DRAM bytes, the queue of commands and the free-value count kept (log entries 8 and 11); flash as the cut of
the work in flight left it; and the start-up record with the slot chosen, `choice` or the one the selector names, and
slot 0 with the fallback flag where that slot is not VALID (log entry 18). -/
def State.wholeReset (s t : State) (cause : ResetCause) (choice : Option SlotId) : Prop :=
  t.partTime = 0 ∧ t.starting = true ∧ t.tin = s.tin ∧ t.pg = s.pg ∧ t.pending = s.pending ∧ t.fresh = s.fresh
    ∧ (∀ n, t.port n = Port.atReset ∧ t.gen n = Generator.atReset) ∧ (∀ e, t.entry e = Entry.atReset e)
    ∧ t.store = { Store.atReset with mem := s.store.mem } ∧ t.uplink = Uplink.atReset
    ∧ t.replay = ReplayService.atReset ∧ t.agent = Agent.atReset ∧ t.notices = NoticeUnit.atReset
    ∧ t.flash.controller = .loading ∧ t.flash.staging = none ∧ t.flash.record.cause = cause
    ∧ (∀ k : SlotId, k ≠ 0 → s.agent.longOp = some (.save, k) → (t.flash.slots[k]).code = 0x02
        ∧ (∀ j : SlotId, j ≠ k → t.flash.slots[j] = s.flash.slots[j]) ∧ t.flash.selector = s.flash.selector)
    ∧ (s.agent.longOp = some (.save, 0) ∨ (∃ k, s.agent.longOp = some (.select, k)) →
        t.flash.slots = s.flash.slots ∧ t.flash.selector = none)
    ∧ (s.agent.longOp = none ∨ (∃ k, s.agent.longOp = some (.load, k)) →
        t.flash.slots = s.flash.slots ∧ t.flash.selector = s.flash.selector)
    ∧ ((t.flash.slots[choice.getD (t.flash.selector.getD 0)]).code = 0x01 →
        t.flash.record.slot = choice.getD (t.flash.selector.getD 0) ∧ t.flash.record.fallback = false)
    ∧ ((t.flash.slots[choice.getD (t.flash.selector.getD 0)]).code ≠ 0x01 →
        t.flash.record.slot = 0 ∧ t.flash.record.fallback = true)

/-! ## Operations as commands -/

/-- The command that is the execution of operation `op` under a request's tag. -/
def commandOf (tag : Half) : HostOp → Instr
  | .describe => .describe tag
  | .resetPart k => .resetPart tag k
  | .setPort a b c => .setPort tag a b c
  | .getPort a => .getPort tag a
  | .portReset a => .portReset tag a
  | .readEntry a => .readEntry tag a
  | .writeEntry a b => .writeEntry tag a b
  | .listFrames a b => .listFrames tag a b
  | .hold a b => .hold tag a b
  | .release a b => .release tag a b
  | .drop a b => .drop tag a b
  | .storeClear => .storeClear tag
  | .setUplink b => .setUplink tag b
  | .replay a b c => .replay tag a b c
  | .cancelReplay a => .cancelReplay tag a
  | .trigConfig a b => .trigConfig tag a b
  | .trigStart a => .trigStart tag a
  | .trigStop a => .trigStop tag a
  | .trigNow a => .trigNow tag a
  | .trigStatus a => .trigStatus tag a
  | .setNoticeMask m => .setNoticeMask tag m
  | .readCounters a b => .readCounters tag a b
  | .clearCounters a b => .clearCounters tag a b
  | .profileSave k => .profileSave tag k
  | .profileLoad k => .profileLoad tag k
  | .bootSelect k => .bootSelect tag k
  | .profileInfo => .profileInfo tag

end Sys2Proof.Machine
end

