-- ==== Sys2Proof/Certificates/Slice0/Obligations.lean ====
section
/-!
DEFINITION. The statements for the provers. A clause that rests on a choice of the model names its log entry.
-/

open Sys2Proof Sys2Proof.Machine

/-! ## The machine and its laws -/

/-- Right after reset part time is 0, every port is OFF with its runs at 0, the uplink is ACQUIRING, no entry is
valid and every assembly is IDLE, all 4096 pages and 256 records are free in ascending order, every queue and list is
empty (output queues, pending triggers, rings, forward queues, the reclaim list, replay requests, requests, replies,
notices), the agent is READY, the notice sequence number is 0000h and the controller is LOADING. -/
def Obligations.ResetLeavesSpecValues : Prop :=
  State.reset.partTime = 0 ∧ State.reset.starting = true
    ∧ (∀ n, (State.reset.port n).state = .off ∧ (State.reset.port n).acqRun = 0 ∧ (State.reset.port n).badRun = 0
        ∧ (State.reset.port n).outTrigs = [] ∧ (State.reset.port n).outMreqs = []
        ∧ (State.reset.gen n).pendings = [])
    ∧ State.reset.uplink.state = .acquiring
    ∧ (∀ e, (State.reset.entry e).current = Image.default e ∧ (State.reset.entry e).assembly = .idle
        ∧ (State.reset.entry e).ring = [] ∧ (State.reset.entry e).forwardQueue = [])
    ∧ State.reset.store.freePages = List.finRange 4096 ∧ State.reset.store.freeRecords = List.finRange 256
    ∧ State.reset.store.reclaim = []
    ∧ State.reset.replay.queue = [] ∧ State.reset.agent.requests = [] ∧ State.reset.agent.replies = []
    ∧ State.reset.agent.state = .ready
    ∧ State.reset.notices.queue = [] ∧ State.reset.notices.seq = 0 ∧ State.reset.flash.controller = .loading

/-- A step of a state with `c` in front of its queue is `exec c` on the state with the queue's rest. -/
def Obligations.StepRunsFrontCommand : Prop :=
  ∀ (c : Instr) (s : State), step { s with pending := c :: s.pending } = exec c s

/-- On an empty queue (log entry 4): with no timed event due, part time advances by 1 microsecond, the count of free
values moves on, the PGn pins that the part does not watch (their port is not powered with its receiver on) may take any
level (log entries 6 and 8), and nothing else changes; with one due, its command becomes the waiting command; with
several, one of them does, for every choice of the free value (log entry 6). -/
def Obligations.EmptyQueueLetsTimePass : Prop :=
  ∀ s : State, s.pending = [] →
    (dueEvents s = [] → ∃ pg : Vector Bool 8,
        step s = .next { s with partTime := s.partTime + 1, fresh := s.fresh + 1, pg := pg }
          ∧ ∀ n : PortId, (s.port n).powered = true → (s.port n).state.receiving = true → pg[n] = s.pg[n])
      ∧ (dueEvents s ≠ [] → ∃ c ∈ dueEvents s, step s = .next { s with pending := [c], fresh := s.fresh + 1 })

/-- Every command is answered with a next state in every state: the spec names no event that stops the part, and that a
command whose conditions do not hold, or that meets a state no run reaches, is answered too is the model's choice (log
entries 1 and 31). In a state with no reply place reserved (`atRest`), no command touches the queue of waiting commands
(log entry 28) or the count of free values (log entry 6), which are the model's own fields. -/
def Obligations.CommandsAnswerNext : Prop :=
  ∀ (c : Instr) (s : State), ∃ t, exec c s = .next t ∧ (s.atRest → t.pending = s.pending ∧ t.fresh = s.fresh)

/-- Every step keeps every queue within its capacity: 4 segments in an output queue, 8 pending triggers, 32 notices of
which at most one is a NOTICES_LOST, 8 requests, 16 replies, 16 replay requests. -/
def Obligations.StepsKeepQueueCapacities : Prop :=
  ∀ s t : State, s.atRest → s.queuesLaw → step s = .next t → t.queuesLaw ∧ t.atRest

/-- Every step keeps the frame store's bytes in canonical form (the model's form: log entry 11), and, where no pair and no
tag is bound twice (the law of bindings, which every step keeps too), the laws of the store and of the replay queue
(`storeLaw`): each of the 4096 pages is on the free page list or in the page list of one record, once; a record is on the
free record list, once, exactly when it is free, and exactly when it holds no claim; each claim is held by the records in
its place; a ring holds the records with a ring claim for its entry, each once, no two of one frame number, and more than
its depth only when all are held or pinned; the reclaim list holds the records that meet the five conditions, each once;
replay requests have distinct ids, 1 to 16 frames and no more outcomes than frames, and only the head one is ACTIVE,
exactly while the engine is not IDLE, with one record pinned and a frame without an outcome. -/
def Obligations.StepsKeepStoreLaws : Prop :=
  ∀ s t : State, s.atRest → step s = .next t →
    (s.memoryLaw → t.memoryLaw) ∧ (s.bindingLaw → s.storeLaw → t.storeLaw) ∧ t.atRest

/-- Every step keeps the factory profile in slot 0, and keeps the law of bindings: no two images with valid 1 of different
entries, current or staged, bind the same pair or the same tag, nor do the images of a VALID slot or of a save's staging
buffer among themselves. -/
def Obligations.StepsKeepBindingsAndFactorySlot : Prop :=
  ∀ s t : State, s.atRest → step s = .next t →
    (s.factoryLaw → t.factoryLaw) ∧ (s.bindingLaw → t.bindingLaw) ∧ t.atRest

/-- The laws that every step keeps hold at reset: queue capacities, the canonical form of the store's bytes, the store's
and the replay queue's laws, the law of bindings and the factory profile in slot 0; and no reply place is reserved. -/
def Obligations.LawsHoldAtReset : Prop :=
  State.reset.queuesLaw ∧ State.reset.memoryLaw ∧ State.reset.storeLaw ∧ State.reset.bindingLaw ∧ State.reset.factoryLaw
    ∧ State.reset.atRest

/-! ## Encodings -/

/-- Every operation is read back from its code and its argument block. -/
def Obligations.OperationsReadBack : Prop := ∀ op : HostOp, parseOp (opCode op) (opArgs op) = .ok op

/-- Every request of at most 1023 argument bytes, sent as an MREQ unit with its check code, is read back whole from
the unit received on the uplink. -/
def Obligations.RequestUnitsReadBack : Prop :=
  ∀ m : Mreq, m.args.length ≤ 1023 → classifyUp m.segment.unit = .wellFormed (.mreq m)

/-- Every image whose fields lie in their ranges is read back from its 14-byte block, and every trigger configuration
from its block. -/
def Obligations.SettingsReadBack : Prop :=
  (∀ i : Image, 1 ≤ i.ringDepth → i.ringDepth ≤ 64 → 1 ≤ i.maxPages → i.maxPages ≤ 1024 → 1 ≤ i.stallTimeout →
      i.stallTimeout ≤ 10000 → imageOf (imageBlockAt (imageBytes i) 0) = some i)
    ∧ ∀ c : TrigConfig, c.debounce ≤ 1000 → c.burstCount ≠ 0 → 10 ≤ c.burstPeriod → c.burstPeriod ≤ 1000000 →
      1 ≤ c.window → c.window ≤ 65535 → trigConfigOf (trigBlockAt (trigBlockBytes (blockOfTrig c)) 0) = some c

/-! ## Units received -/

/-- A unit that arrives while the receiver is off, in OFF or POWERING, changes nothing. -/
def Obligations.ReceiverOffIgnoresUnits : Prop :=
  ∀ (n : PortId) (unit : List Byte) (s : State), (s.port n).state = .off ∨ (s.port n).state = .powering →
    exec (.downstreamUnitReceived n unit) s = .next s

/-- Units in ACQUIRING: a bad-check unit counts in SEG_IN and SEG_BAD_CHECK and sets the acquisition run to 0; a
good-check unit, well-formed or malformed, counts in SEG_IN, a malformed one in SEG_MALFORMED too, and increments the
acquisition run; the eighth in a row takes the port to ACTIVE with its silence timer started, and a PORT_STATE notice of
reason ACQUIRED is offered; a well-formed segment in it is discarded. In ACTIVE: a bad-check unit counts, restarts the
silence timer and increments the bad-check run, stated below the sixteenth in a row; a malformed unit and a LINK segment
count, restart the timer and set the bad-check run to 0. In LOST units count, a good-check one with the bad-check run
set to 0. Nothing else changes. -/
def Obligations.UnitsMoveCountersAndRuns : Prop :=
  ∀ (n : PortId) (unit : List Byte) (s : State),
    let p := s.port n
    let good := { p.counters with segIn := bump p.counters.segIn }
    let malformed := { good with malformed := bump p.counters.malformed }
    let bad := { good with badCheck := bump p.counters.badCheck }
    (p.state = .acquiring →
      (classifyDown unit = .badCheck → exec (.downstreamUnitReceived n unit) s = .next (s.setPort n { p with
        acqRun := 0, counters := bad }))
      ∧ (p.acqRun < 7 →
        (∀ g, classifyDown unit = .wellFormed g → exec (.downstreamUnitReceived n unit) s = .next (s.setPort n { p with
          acqRun := p.acqRun + 1, badRun := 0, counters := good }))
        ∧ (classifyDown unit = .malformed → exec (.downstreamUnitReceived n unit) s = .next (s.setPort n { p with
          acqRun := p.acqRun + 1, badRun := 0, counters := malformed })))
      ∧ (p.acqRun = 7 →
        let active := { p with
          state := .active, acqRun := 8, badRun := 0, ramp := none, silence := some (s.after 4000), hold := none }
        (∀ g, classifyDown unit = .wellFormed g → exec (.downstreamUnitReceived n unit) s = .next
          (offerNotice (.portState n .acquiring .active .acquired) (s.setPort n { active with counters := good })))
        ∧ (classifyDown unit = .malformed → exec (.downstreamUnitReceived n unit) s = .next
          (offerNotice (.portState n .acquiring .active .acquired)
            (s.setPort n { active with counters := malformed })))))
    ∧ (p.state = .active →
      (p.badRun < 15 → classifyDown unit = .badCheck →
        exec (.downstreamUnitReceived n unit) s = .next (s.setPort n { p with
          badRun := p.badRun + 1, silence := some (s.after 4000), counters := bad }))
      ∧ (classifyDown unit = .malformed → exec (.downstreamUnitReceived n unit) s = .next (s.setPort n { p with
        badRun := 0, silence := some (s.after 4000), counters := malformed }))
      ∧ (classifyDown unit = .wellFormed .link → exec (.downstreamUnitReceived n unit) s = .next (s.setPort n { p with
        badRun := 0, silence := some (s.after 4000), counters := good })))
    ∧ (p.state = .lost →
      (classifyDown unit = .badCheck → exec (.downstreamUnitReceived n unit) s = .next (s.setPort n { p with
        counters := bad }))
      ∧ (∀ g, classifyDown unit = .wellFormed g → exec (.downstreamUnitReceived n unit) s = .next (s.setPort n { p with
        badRun := 0, counters := good }))
      ∧ (classifyDown unit = .malformed → exec (.downstreamUnitReceived n unit) s = .next (s.setPort n { p with
        badRun := 0, counters := malformed })))

/-- The sixteenth bad-check unit in a row, and the silence timer, take a port from ACTIVE to LOST with its hold timer
started, its silence timer stopped, both runs 0 (log entry 12), its settings kept and the effects of a port reset, the
requests in its output queue answered or counted. The notices are those of the frames that close, in ascending entry
index, and behind them the PORT_STATE of the change, from ACTIVE to LOST, with reason BAD_CHECKS or SILENCE (the order is
log entry 13). At the timer's expiry part time is at the deadline at least (log entry 5). -/
def Obligations.BadChecksAndSilenceLosePort : Prop :=
  ∀ (n : PortId) (s : State), (s.port n).state = .active →
    (∀ unit : List Byte, (s.port n).badRun = 15 → classifyDown unit = .badCheck →
      ∃ t, exec (.downstreamUnitReceived n unit) s = .next t ∧ (t.port n).state = .lost
        ∧ (t.port n).hold = some (s.after 2000) ∧ (t.port n).silence = none ∧ (t.port n).acqRun = 0
        ∧ (t.port n).badRun = 0 ∧ (t.port n).enabled = (s.port n).enabled ∧ (t.port n).powered = (s.port n).powered
        ∧ (t.port n).counters = { (s.port n).counters with
            segIn := bump (s.port n).counters.segIn, badCheck := bump (s.port n).counters.badCheck }
        ∧ s.portReset t n ∧ s.removedAnswered t n (16 - (s.agent.replies.length + s.agent.reserved.toNat)) []
        ∧ s.portNotices t n [.portState n .active .lost .badChecks])
    ∧ (∀ d, (s.port n).silence = some d →
      ∃ t, exec (.silenceTimerExpiry (.down n)) s = .next t ∧ (t.port n).state = .lost
        ∧ (t.port n).hold = some ((atDeadline d s).after 2000) ∧ (t.port n).silence = none ∧ (t.port n).acqRun = 0
        ∧ (t.port n).badRun = 0 ∧ (t.port n).enabled = (s.port n).enabled ∧ (t.port n).powered = (s.port n).powered
        ∧ (t.port n).counters = (s.port n).counters ∧ s.portReset t n
        ∧ s.removedAnswered t n (16 - (s.agent.replies.length + s.agent.reserved.toNat)) []
        ∧ (atDeadline d s).portNotices t n [.portState n .active .lost .silence])

/-- A frame segment of a pair that no entry binds counts in UNKNOWN_CHANNEL, and a BODY or TAIL of a frame that was open
at a profile load in SEG_ORPHAN as well, until a HEAD on the pair ends that (R22 and R74: log entry 33). A BODY or TAIL
at an IDLE entry counts in SEG_ORPHAN; a BODY in DISCARDING counts there and restarts the stall timer; a BODY below the
next body index of a FILLING entry counts in SEG_STALE. A camera's management reply joins the reply queue with its route
replaced by the port number, tag and payload kept, or counts in DROPPED when the queue has no place. Besides, the arrival port changes as at any good-check unit, and nothing else. -/
def Obligations.SegmentsWithoutPlaceAreCounted : Prop :=
  ∀ (n : PortId) (unit : List Byte) (g : DownSegment) (c : Channel) (s : State), (s.port n).state = .active →
    classifyDown unit = .wellFormed g →
    let p := s.port n
    let arrived := { p with
      badRun := 0, silence := some (s.after 4000), counters := { p.counters with segIn := bump p.counters.segIn } }
    let orphan := { arrived with counters := { arrived.counters with orphan := bump p.counters.orphan } }
    let unknown := { arrived with
      counters := { arrived.counters with unknownChannel := bump p.counters.unknownChannel } }
    ((∃ k a, g = .head c k a) → lookup s n c = none →
      exec (.downstreamUnitReceived n unit) s = .next (s.setPort n { unknown with late := p.late.set c none }))
    ∧ (∀ k, (∃ i x, g = .body c k i x) ∨ (∃ m b x, g = .tail c k m b x) → lookup s n c = none →
      (p.late[c] ≠ some k → exec (.downstreamUnitReceived n unit) s = .next (s.setPort n unknown))
      ∧ (p.late[c] = some k → exec (.downstreamUnitReceived n unit) s = .next (s.setPort n { unknown with
        counters := { unknown.counters with orphan := bump p.counters.orphan } })))
    ∧ (∀ e k, (∃ i x, g = .body c k i x) ∨ (∃ m b x, g = .tail c k m b x) → lookup s n c = some e →
      (s.entry e).assembly = .idle → exec (.downstreamUnitReceived n unit) s = .next (s.setPort n orphan))
    ∧ (∀ e k i x, g = .body c k i x → lookup s n c = some e → (s.entry e).assembly = .discarding →
      exec (.downstreamUnitReceived n unit) s = .next ((s.setPort n orphan).setEntry e { s.entry e with
        stall := some (s.after ((s.entry e).current.stallTimeout * 100)) }))
    ∧ (∀ e r k i x, g = .body c k i x → lookup s n c = some e → (s.entry e).assembly = .filling r →
      i.toNat < (s.entry e).nextIndex →
      exec (.downstreamUnitReceived n unit) s = .next (s.setPort n { arrived with
        counters := { arrived.counters with stale := bump p.counters.stale } }))
    ∧ (∀ tag payload, g = .mrep tag payload →
      (s.agent.replies.length + s.agent.reserved.toNat < 16 →
        exec (.downstreamUnitReceived n unit) s = .next { s.setPort n arrived with
          agent := { s.agent with replies := s.agent.replies ++ [⟨byteOf n.val, tag, payload, false⟩] } })
      ∧ (16 ≤ s.agent.replies.length + s.agent.reserved.toNat →
        exec (.downstreamUnitReceived n unit) s = .next { s.setPort n arrived with
          agent := { s.agent with dropped := bump s.agent.dropped } }))

/-- A HEAD at an IDLE entry. In every case the expected number is one above, the next body index 1, the stall timer runs,
and the arrival port changes as at any good-check unit, no frame of the channel being late any more (log entry 33);
a number other than the expected one counts its gap in FRAME_GAPS when continuity is checked, and offers FRAME_GAP
first; a head with a trigger number at a correlated entry is matched against the arrival port's pending list. With a
record free and no ring member of its number the frame opens in the record at the head of the free record list: the entry
is FILLING, the record holds the receiving claim and what the HEAD says, and it joins the forward queue when the entry is
LIVE, the uplink ACTIVE and the queue below the backlog (else FORWARD_SKIPPED counts, and DOWN_SKIPPED with the uplink not
ACTIVE). A ring member of its number leaves the ring and counts in DUPLICATE_REPLACED; one that is held or pinned stays
and the new frame is not-retainable. With no record to be had the entry is DISCARDING, FRAMES_REFUSED and
RECORD_EXHAUSTED count and STORE_EXHAUSTED is offered. A HEAD in DISCARDING, stated for no staged image, does what it
does at the entry made IDLE. A HEAD in FILLING, stated for no staged image and another number than the ring and the open
frame hold, closes the open frame UNTERMINATED first. -/
def Obligations.HeadOpensFrame : Prop :=
  ∀ (n : PortId) (unit : List Byte) (c : Channel) (k : Half) (a : Attributes) (e : EntryId) (s : State),
    (s.port n).state = .active → classifyDown unit = .wellFormed (.head c k a) → lookup s n c = some e →
    ((s.entry e).assembly = .idle →
      ∃ t, exec (.downstreamUnitReceived n unit) s = .next t ∧ (t.entry e).nextIndex = 1
      ∧ (t.entry e).expected = some (k + 1)
      ∧ (t.entry e).stall = some (s.after ((s.entry e).current.stallTimeout * 100))
      ∧ (t.entry e).current = (s.entry e).current
      ∧ t.port n = { s.port n with
          badRun := 0, silence := some (s.after 4000), late := (s.port n).late.set c none
          counters := { (s.port n).counters with segIn := bump (s.port n).counters.segIn } }
      ∧ (∀ m, m ≠ n → t.port m = s.port m ∧ t.gen m = s.gen m)
      ∧ t.store.mem = s.store.mem ∧ t.agent = s.agent ∧ t.replay = s.replay ∧ t.flash = s.flash
      -- the continuity check
      ∧ (∀ x, (s.entry e).expected = some x → (s.entry e).current.continuity = true → k ≠ x →
          (t.entry e).counters.frameGaps = bumpBy (k - x).toNat (s.entry e).counters.frameGaps
          ∧ (s.store.freeRecords ≠ [] → a.trigger = none →
              t.notices = (offerNotice (.frameGap e x k (k - x)) s).notices))
      ∧ ((s.entry e).expected = none ∨ (s.entry e).expected = some k ∨ (s.entry e).current.continuity = false →
          (t.entry e).counters.frameGaps = (s.entry e).counters.frameGaps
          ∧ (s.store.freeRecords ≠ [] → a.trigger = none → t.notices = s.notices))
      -- the head report
      ∧ (a.trigger = none ∨ (s.entry e).current.correlated = false → t.gen n = s.gen n)
      ∧ (∀ g, a.trigger = some g → (s.entry e).current.correlated = true →
          ((∀ p ∈ (s.gen n).pendings, ¬ (p.number = g ∧ e ∈ p.outstanding)) → t.gen n = { s.gen n with
            counters := { (s.gen n).counters with unsolicited := bump (s.gen n).counters.unsolicited } })
          ∧ ∀ older p newer, (s.gen n).pendings = older ++ p :: newer → p.number = g → e ∈ p.outstanding →
            (∀ q ∈ older, ¬ (q.number = g ∧ e ∈ q.outstanding)) →
            t.gen n = { s.gen n with
              pendings := strikePending e (older ++ [p]) ++ newer
              counters := { (s.gen n).counters with
                matched := bump (s.gen n).counters.matched
                missed := bump^[(older.filter fun q => e ∈ q.outstanding).length] (s.gen n).counters.missed } })
      -- a record is free
      ∧ (∀ r rs, s.store.freeRecords = r :: rs →
          (t.entry e).assembly = .filling r ∧ (t.record r).state = .filling ∧ (t.record r).receiving = true
          ∧ (t.record r).entry = e ∧ (t.record r).frame = k ∧ (t.record r).attributes = a
          ∧ (t.record r).tagAtHead = (s.entry e).current.tag ∧ (t.record r).headTime = s.partTime
          ∧ (t.record r).pages = [] ∧ (t.record r).bytes = 0 ∧ (t.record r).bodies = 0
          ∧ (t.record r).damage = ⟨false, false, false, false⟩
          ∧ (t.entry e).forwardQueue = (s.entry e).forwardQueue
            ++ (if (s.entry e).current.forward = .live ∧ s.uplink.state = .active
                ∧ (s.entry e).forwardQueue.length < s.uplink.backlog then [r] else [])
          ∧ (t.entry e).counters.forwardSkipped = (if (s.entry e).current.forward = .live
              ∧ ¬ (s.uplink.state = .active ∧ (s.entry e).forwardQueue.length < s.uplink.backlog)
            then bump (s.entry e).counters.forwardSkipped else (s.entry e).counters.forwardSkipped)
          ∧ t.uplink = { s.uplink with downSkipped :=
              if (s.entry e).current.forward = .live ∧ s.uplink.state ≠ .active then bump s.uplink.downSkipped
              else s.uplink.downSkipped }
          ∧ (∀ f, f ≠ e → t.entry f = s.entry f)
          ∧ (ringMember s e k = none → (t.record r).notRetainable = false ∧ (t.entry e).ring = (s.entry e).ring
            ∧ t.store.freeRecords = rs ∧ (∀ x, x ≠ r → t.record x = s.record x)
            ∧ t.store.freePages = s.store.freePages ∧ t.store.reclaim = s.store.reclaim)
          ∧ (∀ d, ringMember s e k = some d →
            ((s.record d).held = false ∧ (s.record d).pin = false → (t.record r).notRetainable = false
              ∧ (t.entry e).ring = (s.entry e).ring.erase d
              ∧ (t.entry e).counters.duplicateReplaced = bump (s.entry e).counters.duplicateReplaced)
            ∧ ((s.record d).held = true ∨ (s.record d).pin = true → (t.record r).notRetainable = true
              ∧ (t.entry e).ring = (s.entry e).ring
              ∧ (t.entry e).counters.duplicateReplaced = (s.entry e).counters.duplicateReplaced)))
      -- no record can be had
      ∧ (s.store.freeRecords = [] → s.store.reclaim = [] → ringMember s e k = none →
          (t.entry e).assembly = .discarding
          ∧ (t.entry e).counters.framesRefused = bump (s.entry e).counters.framesRefused
          ∧ (t.entry e).ring = (s.entry e).ring ∧ (t.entry e).forwardQueue = (s.entry e).forwardQueue
          ∧ t.store = { s.store with recordExhausted := bump s.store.recordExhausted }
          ∧ t.uplink = s.uplink ∧ (∀ f, f ≠ e → t.entry f = s.entry f)
          ∧ (a.trigger = none → (s.entry e).expected = none →
              t.notices = (offerNotice (.storeExhausted false e k) s).notices)))
    ∧ ((s.entry e).assembly = .discarding → (s.entry e).staged = none →
      exec (.downstreamUnitReceived n unit) s = exec (.downstreamUnitReceived n unit) (s.setEntry e { s.entry e with
        assembly := .idle, stall := none, nextIndex := 1 }))
    ∧ (∀ o r rs, (s.entry e).assembly = .filling o → (s.entry e).staged = none → s.store.freeRecords = r :: rs →
      r ≠ o → (s.record o).frame ≠ k → ringMember s e k = none → (s.entry e).ring.Nodup → o ∉ (s.entry e).ring →
      ∃ t, exec (.downstreamUnitReceived n unit) s = .next t ∧ (t.entry e).assembly = .filling r
        ∧ (t.entry e).nextIndex = 1 ∧ (t.entry e).expected = some (k + 1)
        ∧ (t.record r).state = .filling ∧ (t.record r).entry = e ∧ (t.record r).frame = k
        ∧ (t.record r).attributes = a ∧ (t.record r).receiving = true ∧ (t.record r).notRetainable = false
        ∧ (t.entry e).counters.framesIn = bump (s.entry e).counters.framesIn
        ∧ (t.entry e).counters.framesDamaged = bump (s.entry e).counters.framesDamaged
        ∧ ((t.record o).state = .free
            ∨ (t.record o).state = .closed ∧ (t.record o).close = some .unterminated))

/-- A BODY at a FILLING entry with the awaited index or a later one counts in the record, the next index moves on behind
it, the stall timer restarts, and a skipped index marks SEGMENT_LOST. Its payload: dropped when the frame is TRUNCATED
already; appended when it fits on the pages the frame has; with a page more when the frame is below its page limit and a
page is free, taken from the head of the free page list; else dropped with TRUNCATED, silently at the page limit, and with
PAGE_EXHAUSTED counted and STORE_EXHAUSTED offered when no page is free and nothing can be reclaimed. An appended payload
is read back from the store at the frame's offsets, and every other address of the store reads as before. No other
record, entry or port changes, nor a generator, the uplink, the agent or the replay service. Stated for a frame whose
pages are distinct, over a store in canonical form. -/
def Obligations.BodyPayloadIsStored : Prop :=
  ∀ (n : PortId) (unit : List Byte) (c : Channel) (k i : Half) (payload : List Byte) (e : EntryId) (r : RecordId)
    (s : State), (s.port n).state = .active → classifyDown unit = .wellFormed (.body c k i payload) →
    lookup s n c = some e → (s.entry e).assembly = .filling r → (s.entry e).nextIndex ≤ i.toNat → s.memoryLaw →
    let x := s.record r
    let lost := x.damage.segmentLost || decide ((s.entry e).nextIndex < i.toNat)
    let frame := fun t : State => (t.record r).bodies = x.bodies + 1 ∧ (t.entry e).nextIndex = i.toNat + 1
      ∧ (t.entry e).assembly = .filling r
      ∧ (t.entry e).stall = some (s.after ((s.entry e).current.stallTimeout * 100))
      ∧ (∀ y, y ≠ r → t.record y = s.record y) ∧ (∀ f, f ≠ e → t.entry f = s.entry f)
      ∧ (∀ m, m ≠ n → t.port m = s.port m) ∧ t.gens = s.gens ∧ t.uplink = s.uplink ∧ t.agent = s.agent
      ∧ t.replay = s.replay
    let stored := fun (t : State) (pages : List PageId) => (t.record r).bytes = x.bytes + payload.length
      ∧ (t.record r).damage = { x.damage with segmentLost := lost } ∧ (t.record r).pages = pages
      ∧ loadBytes t.store.mem pages x.bytes payload.length = payload
      ∧ (∀ y, (∀ j < payload.length, y ≠ frameAddress pages (x.bytes + j)) →
          Memory.read t.store.mem y = Memory.read s.store.mem y)
      ∧ t.notices = s.notices
    let dropped := fun t : State => (t.record r).bytes = x.bytes ∧ (t.record r).pages = x.pages
      ∧ (t.record r).damage = { x.damage with segmentLost := lost, truncated := true } ∧ t.store.mem = s.store.mem
    (x.damage.truncated = true → ∃ t, exec (.downstreamUnitReceived n unit) s = .next t ∧ frame t ∧ dropped t
        ∧ t.notices = s.notices ∧ t.store.freePages = s.store.freePages)
    ∧ (x.damage.truncated = false → x.bytes + payload.length ≤ x.pages.length * 4096 → x.pages.Nodup →
        ∃ t, exec (.downstreamUnitReceived n unit) s = .next t ∧ frame t ∧ stored t x.pages
          ∧ t.store.freePages = s.store.freePages)
    ∧ (x.damage.truncated = false → x.pages.length * 4096 < x.bytes + payload.length →
        ((s.entry e).current.maxPages ≤ x.pages.length →
          ∃ t, exec (.downstreamUnitReceived n unit) s = .next t ∧ frame t ∧ dropped t ∧ t.notices = s.notices
            ∧ t.store.freePages = s.store.freePages)
        ∧ (∀ p ps, x.pages.length < (s.entry e).current.maxPages → s.store.freePages = p :: ps →
          x.bytes + payload.length ≤ (x.pages.length + 1) * 4096 → (x.pages ++ [p]).Nodup →
          ∃ t, exec (.downstreamUnitReceived n unit) s = .next t ∧ frame t ∧ stored t (x.pages ++ [p])
            ∧ t.store.freePages = ps)
        ∧ (x.pages.length < (s.entry e).current.maxPages → s.store.freePages = [] → s.store.reclaim = [] →
          ∃ t, exec (.downstreamUnitReceived n unit) s = .next t ∧ frame t ∧ dropped t
            ∧ t.store.pageExhausted = bump s.store.pageExhausted
            ∧ t.notices = (offerNotice (.storeExhausted true e x.frame) s).notices))

/-- A TAIL at a FILLING entry that holds no staged image, and the expiry of the stall timer there, return the entry to
IDLE with next body index 1 and its stall timer stopped, and close the frame (`frameClosed`: the record, FRAMES_IN and
FRAMES_DAMAGED, the retention decision, the notices): with reason TAIL, LENGTH_MISMATCH marked when the camera's body
count is not the next index less 1, its byte count not the stored one in a frame that is not TRUNCATED, or the announced
count neither 0 nor its byte count, and CAMERA_FAULT when its status is not 0; with reason STALLED, part time at the
deadline at least (log entry 5). No other entry changes, and no byte of the store. At the stall timer's expiry the
current image keeps its identity and its tag. With a staged image the same two events make it the current one. At a
DISCARDING entry without a staged image they end the discarding and change nothing else of the entry. -/
def Obligations.FrameEndsReturnToIdle : Prop :=
  ∀ (e : EntryId) (s : State),
    (∀ r, (s.entry e).assembly = .filling r → (s.entry e).staged = none →
      (∀ (n : PortId) (unit : List Byte) (c : Channel) (k count : Half) (bytes : Word) (status : Byte),
        (s.port n).state = .active → classifyDown unit = .wellFormed (.tail c k count bytes status) →
        lookup s n c = some e →
        ∃ t, exec (.downstreamUnitReceived n unit) s = .next t ∧ (t.entry e).assembly = .idle
          ∧ (t.entry e).nextIndex = 1 ∧ (t.entry e).stall = none
          ∧ (t.entry e).counters.framesIn = bump (s.entry e).counters.framesIn
          ∧ (s.setRecord r { s.record r with damage := { (s.record r).damage with
              lengthMismatch := (s.record r).damage.lengthMismatch
                || (decide (count.toNat ≠ (s.entry e).nextIndex - 1)
                  || (!(s.record r).damage.truncated && decide (bytes.toNat ≠ (s.record r).bytes))
                  || (decide ((s.record r).attributes.announced ≠ 0)
                    && decide ((s.record r).attributes.announced ≠ bytes)))
              cameraFault := (s.record r).damage.cameraFault || decide (status ≠ 0) } }).frameClosed t e r .tail
          ∧ (∀ f, f ≠ e → t.entry f = s.entry f) ∧ (∀ m, m ≠ n → t.port m = s.port m) ∧ t.gens = s.gens
          ∧ t.uplink = s.uplink ∧ t.agent = s.agent ∧ t.replay = s.replay ∧ t.store.mem = s.store.mem)
      ∧ (∀ d, (s.entry e).stall = some d →
        ∃ t, exec (.stallTimerExpiry e) s = .next t ∧ (t.entry e).assembly = .idle ∧ (t.entry e).nextIndex = 1
          ∧ (t.entry e).stall = none ∧ (t.entry e).counters.framesIn = bump (s.entry e).counters.framesIn
          ∧ (atDeadline d s).frameClosed t e r .stalled
          ∧ (t.entry e).current.valid = (s.entry e).current.valid
          ∧ (t.entry e).current.port = (s.entry e).current.port
          ∧ (t.entry e).current.channel = (s.entry e).current.channel
          ∧ (t.entry e).current.tag = (s.entry e).current.tag ∧ (∀ f, f ≠ e → t.entry f = s.entry f)
          ∧ t.ports = s.ports ∧ t.gens = s.gens ∧ t.uplink = s.uplink ∧ t.agent = s.agent ∧ t.replay = s.replay
          ∧ t.store.mem = s.store.mem))
    ∧ (∀ i, (s.entry e).assembly ≠ .idle → (s.entry e).staged = some i →
      (∀ (n : PortId) (unit : List Byte) (c : Channel) (k count : Half) (bytes : Word) (status : Byte),
        (s.port n).state = .active → classifyDown unit = .wellFormed (.tail c k count bytes status) →
        lookup s n c = some e →
        ∃ t, exec (.downstreamUnitReceived n unit) s = .next t ∧ (t.entry e).assembly = .idle
          ∧ (t.entry e).nextIndex = 1 ∧ (t.entry e).stall = none ∧ (t.entry e).current = i
          ∧ (t.entry e).staged = none ∧ (∀ f, f ≠ e → t.entry f = s.entry f))
      ∧ (∀ d, (s.entry e).stall = some d →
        ∃ t, exec (.stallTimerExpiry e) s = .next t ∧ (t.entry e).assembly = .idle ∧ (t.entry e).nextIndex = 1
          ∧ (t.entry e).stall = none ∧ (t.entry e).current = i ∧ (t.entry e).staged = none
          ∧ (∀ f, f ≠ e → t.entry f = s.entry f)))
    ∧ ((s.entry e).assembly = .discarding → (s.entry e).staged = none →
      (∀ (n : PortId) (unit : List Byte) (c : Channel) (k count : Half) (bytes : Word) (status : Byte),
        (s.port n).state = .active → classifyDown unit = .wellFormed (.tail c k count bytes status) →
        lookup s n c = some e →
        exec (.downstreamUnitReceived n unit) s = .next ((s.setPort n { s.port n with
          badRun := 0, silence := some (s.after 4000),
          counters := { (s.port n).counters with segIn := bump (s.port n).counters.segIn } }).setEntry e
            { s.entry e with assembly := .idle, stall := none, nextIndex := 1 }))
      ∧ (∀ d, (s.entry e).stall = some d →
        exec (.stallTimerExpiry e) s = .next ((atDeadline d s).setEntry e { s.entry e with
          assembly := .idle, stall := none, nextIndex := 1 })))

/-! ## Ports: timers, power, transmitter -/

/-- The hold timer takes a LOST link to ACQUIRING with both runs at 0: a port with a PORT_STATE notice of reason
HOLD_DONE, the uplink without one. Part time is at the timer's deadline at least (`atDeadline`: log entry 5). -/
def Obligations.HoldTimerStartsAcquisition : Prop :=
  (∀ (n : PortId) (d : Time) (s : State), (s.port n).state = .lost → (s.port n).hold = some d →
    exec (.holdTimerExpiry (.down n)) s = .next (offerNotice (.portState n .lost .acquiring .holdDone)
      ((atDeadline d s).setPort n { s.port n with
        state := .acquiring, acqRun := 0, badRun := 0, ramp := none, silence := none, hold := none })))
    ∧ ∀ (d : Time) (s : State), s.uplink.state = .lost → s.uplink.hold = some d →
      exec (.holdTimerExpiry .up) s = .next { atDeadline d s with
        uplink := { s.uplink with state := .acquiring, hold := none, acqRun := 0, badRun := 0 } }

/-- At the end of the ramp PGn is sampled: high takes the port to ACQUIRING (RAMP_DONE), low to OFF with the power
fault flag set (POWER_FAULT), part time at the deadline at least (log entry 5) and the transmitter of OFF silent (log
entry 20). PGn going low takes a powered port in ACQUIRING, ACTIVE or LOST to OFF with its timers stopped, the power
fault flag set, PENn deasserted and its settings kept; a port that was ACTIVE has the effects of a port reset, the
requests in its output queue answered or counted. The PORT_STATE of the change to OFF has reason POWER_FAULT; it is
offered behind the notices of the frames that close, which only a port that was ACTIVE has (the order is log entry 13).
(The level that PGn is left at is log entry 8.) -/
def Obligations.PowerGoodDecidesPort : Prop :=
  (∀ (n : PortId) (d : Time) (s : State), (s.port n).state = .powering → (s.port n).ramp = some d →
      exec (.rampExpiry n true) s = .next (offerNotice (.portState n .powering .acquiring .rampDone)
        ({ atDeadline d s with pg := s.pg.set n true }.setPort n { s.port n with
          state := .acquiring, acqRun := 0, badRun := 0, ramp := none, silence := none, hold := none }))
      ∧ exec (.rampExpiry n false) s = .next (offerNotice (.portState n .powering .off .powerFault)
        ({ atDeadline d s with pg := s.pg.set n false }.setPort n { s.port n with
          state := .off, fault := true, ramp := none, silence := none, hold := none, line := none })))
    ∧ ∀ (n : PortId) (s : State), (s.port n).powered = true → (s.port n).state.receiving = true →
        ∃ t, exec (.powerFault n) s = .next t ∧ (t.port n).state = .off ∧ (t.port n).fault = true
          ∧ (t.port n).enabled = (s.port n).enabled ∧ (t.port n).powered = true ∧ (t.port n).powerEnable = false
          ∧ (t.port n).ramp = none ∧ (t.port n).silence = none ∧ (t.port n).hold = none ∧ t.pg = s.pg.set n false
          ∧ ((s.port n).state = .active → s.portReset t n
            ∧ s.removedAnswered t n (16 - (s.agent.replies.length + s.agent.reserved.toNat)) []
            ∧ s.portNotices t n [.portState n .active .off .powerFault])
          ∧ ((s.port n).state ≠ .active →
            t.notices = (offerNotice (.portState n (s.port n).state .off .powerFault) s).notices)

/-- When the downstream link is free in ACTIVE the first TRIG begins to leave, without one the first MREQ, and without
either LINK filler; in ACQUIRING and LOST LINK filler; in OFF and POWERING nothing. What begins to leave leaves the
queue, and nothing else changes. -/
def Obligations.TransmitterStartsFrontSegment : Prop :=
  ∀ (n : PortId) (s : State),
    (∀ t ts, (s.port n).state = .active → (s.port n).outTrigs = t :: ts →
      exec (.downstreamTransmitStart n) s = .next (s.setPort n { s.port n with
        outTrigs := ts,
        line := some ⟨.trig, false, 0, t.number, 0, halfBytes t.number ++ [t.source, t.line]⟩ }))
    ∧ (∀ m ms, (s.port n).state = .active → (s.port n).outTrigs = [] → (s.port n).outMreqs = m :: ms →
      exec (.downstreamTransmitStart n) s = .next (s.setPort n { s.port n with
        outMreqs := ms, line := some ⟨.mreq, false, m.route, m.tag, 0, m.op :: m.args⟩ }))
    ∧ ((s.port n).state = .active → (s.port n).outTrigs = [] → (s.port n).outMreqs = [] →
      exec (.downstreamTransmitStart n) s = .next (s.setPort n { s.port n with
        line := some ⟨.link, false, 0, 0, 0, []⟩ }))
    ∧ ((s.port n).state = .acquiring ∨ (s.port n).state = .lost →
      exec (.downstreamTransmitStart n) s = .next (s.setPort n { s.port n with
        line := some ⟨.link, false, 0, 0, 0, []⟩ }))
    ∧ ((s.port n).state = .off ∨ (s.port n).state = .powering → exec (.downstreamTransmitStart n) s = .next s)

/-! ## Port operations -/

/-- SET_PORT: 0Fh draws READ_ONLY whatever the other bytes are (log entry 16) and every other byte out of range
BAD_ARGUMENT, with no change; an OFF port that is enabled enters POWERING with its ramp started, or ACQUIRING; an enabled
port that is not OFF and keeps its powered setting does not change; one whose powered setting changes enters POWERING
with a new ramp, or ACQUIRING, with its other timers stopped, and a PORT_STATE notice of reason RECONFIGURED when its
state changes; a disabled port is OFF with its timers stopped and its fault flag cleared. A port that was ACTIVE and
does not stay has the effects of a port reset, the requests in its output queue answered or counted before the reply. A
change of state offers PORT_STATE with reason ENABLED, RECONFIGURED or DISABLED, behind the notices of the frames that
close, which only a port that was ACTIVE has (the order is log entry 13); a port that keeps its state offers none. -/
def Obligations.SetPortActsByState : Prop :=
  ∀ (tag : Half) (s : State), s.mayTake →
    (∀ b c, exec (.setPort tag 0x0F b c) s = .next (s.withReply tag 0x10 0x08 []))
    ∧ (∀ a b c : Byte, a ≠ 0x0F → (8 ≤ a.toNat ∨ 2 ≤ b.toNat ∨ 2 ≤ c.toNat) →
      exec (.setPort tag a b c) s = .next (s.withReply tag 0x10 0x04 []))
    ∧ (∀ n : PortId, (s.port n).state = .off →
      exec (.setPort tag (byteOf n.val) 1 1) s = .next ((offerNotice (.portState n .off .powering .enabled)
        (s.setPort n { s.port n with
          enabled := true, powered := true, state := .powering, fault := false, ramp := some (s.after 20000),
          silence := none, hold := none, line := none })).withReply tag 0x10 0x00 [0x01])
      ∧ exec (.setPort tag (byteOf n.val) 1 0) s = .next ((offerNotice (.portState n .off .acquiring .enabled)
        (s.setPort n { s.port n with
          enabled := true, powered := false, state := .acquiring, fault := false, acqRun := 0, badRun := 0,
          ramp := none, silence := none, hold := none })).withReply tag 0x10 0x00 [0x02]))
    ∧ (∀ n : PortId, (s.port n).state ≠ .off →
      exec (.setPort tag (byteOf n.val) 1 (if (s.port n).powered then 1 else 0)) s = .next ((s.setPort n
        { s.port n with enabled := true }).withReply tag 0x10 0x00 [(s.port n).state.code]))
    ∧ (∀ (n : PortId) (p : Bool) (st : PortState), (s.port n).state ≠ .off → (s.port n).powered = !p →
      st = (if p then PortState.powering else .acquiring) →
      ∃ t, exec (.setPort tag (byteOf n.val) 1 (if p then 1 else 0)) s = .next t ∧ (t.port n).state = st
        ∧ (t.port n).enabled = true ∧ (t.port n).powered = p ∧ (t.port n).fault = (s.port n).fault
        ∧ (t.port n).ramp = (if p then some (s.after 20000) else none) ∧ (t.port n).silence = none
        ∧ (t.port n).hold = none ∧ (t.port n).counters = (s.port n).counters
        ∧ t.lastReply tag 0x10 0x00 [st.code]
        ∧ ((s.port n).state ≠ .active → (∀ m, m ≠ n → t.port m = s.port m) ∧ t.entries = s.entries ∧ t.gens = s.gens
          ∧ ((s.port n).state = st → t.notices = s.notices)
          ∧ ((s.port n).state ≠ st → t.notices
            = (offerNotice (.portState n (s.port n).state st .reconfigured) s).notices))
        ∧ ((s.port n).state = .active → s.portReset t n
          ∧ s.removedAnswered t n (15 - s.agent.replies.length) [⟨0x0F, tag, [0x10, 0x00, st.code], false⟩]
          ∧ s.portNotices t n [.portState n .active st .reconfigured]))
    ∧ (∀ (n : PortId) (c : Byte), c.toNat < 2 → ∃ t, exec (.setPort tag (byteOf n.val) 0 c) s = .next t
      ∧ (t.port n).state = .off ∧ (t.port n).enabled = false ∧ (t.port n).fault = false ∧ (t.port n).ramp = none
      ∧ (t.port n).silence = none ∧ (t.port n).hold = none ∧ t.lastReply tag 0x10 0x00 [0x00]
      ∧ ((s.port n).state = .active → s.portReset t n
        ∧ s.removedAnswered t n (15 - s.agent.replies.length) [⟨0x0F, tag, [0x10, 0x00, 0x00], false⟩]
        ∧ s.portNotices t n [.portState n .active .off .disabled])
      ∧ ((s.port n).state = .off → t.notices = s.notices)
      ∧ ((s.port n).state ≠ .active → (s.port n).state ≠ .off →
        t.notices = (offerNotice (.portState n (s.port n).state .off .disabled) s).notices))

/-- GET_PORT reports a port or the uplink in a 35-byte block and changes nothing else; other values draw
BAD_ARGUMENT. -/
def Obligations.GetPortReports : Prop :=
  ∀ (tag : Half) (s : State), s.mayTake →
    (∀ n : PortId, exec (.getPort tag (byteOf n.val)) s = .next (s.withReply tag 0x11 0x00
      ([byteOf n.val, if (s.port n).enabled then 1 else 0, if (s.port n).powered then 1 else 0, (s.port n).state.code,
        if (s.port n).state = .powering then 0x02 else (s.port n).state.code, if (s.port n).fault then 1 else 0,
        if s.pg[n] then 1 else 0, byteOf (s.port n).acqRun, byteOf (s.port n).badRun,
        byteOf (s.port n).outTrigs.length, byteOf (s.port n).outMreqs.length]
        ++ wordBytes (s.port n).counters.segIn ++ wordBytes (s.port n).counters.badCheck
        ++ wordBytes (s.port n).counters.malformed ++ wordBytes (s.port n).counters.unknownChannel
        ++ wordBytes (s.port n).counters.orphan ++ wordBytes (s.port n).counters.stale)))
    ∧ exec (.getPort tag 0x0F) s = .next (s.withReply tag 0x11 0x00
      ([0x0F, 1, 0, s.uplink.state.code, s.uplink.state.code, 0, 0, byteOf s.uplink.acqRun, byteOf s.uplink.badRun,
        0, 0] ++ wordBytes s.uplink.segIn ++ wordBytes s.uplink.badCheck ++ wordBytes s.uplink.segOut
        ++ wordBytes s.uplink.downSkipped ++ [0, 0, 0, 0] ++ [0, 0, 0, 0]))
    ∧ (∀ a : Byte, a ≠ 0x0F → 8 ≤ a.toNat → exec (.getPort tag a) s = .next (s.withReply tag 0x11 0x04 []))

/-- PORT_RESET: 0Fh draws READ_ONLY and other values out of range BAD_ARGUMENT. A disabled port stays OFF; an enabled one
enters POWERING with a new ramp, or ACQUIRING. In each case the other timers are stopped, the runs 0, the output queue
empty, the fault flag cleared and the counters kept, and a port that was ACTIVE has the effects of a port reset, the
requests in its output queue answered or counted before the reply. An enabled port offers PORT_STATE with reason
PORT_RESET, also when its state is the same as before, behind the notices of the frames that close, which only a port
that was ACTIVE has (the order is log entry 13); a disabled one offers none. -/
def Obligations.PortResetRestartsPort : Prop :=
  ∀ (tag : Half) (s : State), s.mayTake →
    exec (.portReset tag 0x0F) s = .next (s.withReply tag 0x12 0x08 [])
    ∧ (∀ a : Byte, a ≠ 0x0F → 8 ≤ a.toNat → exec (.portReset tag a) s = .next (s.withReply tag 0x12 0x04 []))
    ∧ ∀ n : PortId, ∃ t, exec (.portReset tag (byteOf n.val)) s = .next t
      ∧ (t.port n).state
        = (if (s.port n).enabled then (if (s.port n).powered then PortState.powering else .acquiring) else .off)
      ∧ (t.port n).ramp = (if (s.port n).enabled && (s.port n).powered then some (s.after 20000) else none)
      ∧ (t.port n).silence = none ∧ (t.port n).hold = none ∧ (t.port n).acqRun = 0 ∧ (t.port n).badRun = 0
      ∧ (t.port n).outTrigs = [] ∧ (t.port n).outMreqs = [] ∧ (t.port n).fault = false
      ∧ (t.port n).counters = (s.port n).counters ∧ t.lastReply tag 0x12 0x00 [(t.port n).state.code]
      ∧ ((s.port n).state = .active → s.portReset t n
        ∧ s.removedAnswered t n (15 - s.agent.replies.length)
          [⟨0x0F, tag, [0x12, 0x00, (t.port n).state.code], false⟩])
      ∧ (let last := if (s.port n).enabled then
            [NoticeBody.portState n (s.port n).state (t.port n).state .portReset] else []
        ((s.port n).state = .active → s.portNotices t n last)
        ∧ ((s.port n).state ≠ .active → t.notices = (forEach last offerNotice s).notices))

/-! ## Stream table operations -/

/-- READ_ENTRY reports an entry in a 37-byte block and changes nothing else; an index above 1Fh draws BAD_ARGUMENT. -/
def Obligations.ReadEntryReports : Prop :=
  ∀ (tag : Half) (s : State), s.mayTake →
    (∀ e : EntryId, exec (.readEntry tag (byteOf e.val)) s = .next (s.withReply tag 0x18 0x00
      ([byteOf e.val] ++ imageBytes (s.entry e).current
        ++ (match (s.entry e).staged with | some i => [1] ++ imageBytes i | none => List.replicate 15 0)
        ++ [(s.entry e).assembly.code]
        ++ (match (s.entry e).expected with | some k => [1] ++ halfBytes k | none => [0, 0, 0])
        ++ halfOf (s.entry e).ring.length ++ [byteOf (s.entry e).forwardQueue.length])))
    ∧ ∀ a : Byte, 32 ≤ a.toNat → exec (.readEntry tag a) s = .next (s.withReply tag 0x18 0x04 [])

/-- WRITE_ENTRY makes the range check first, then the combination check, then the conflict check, each refusal changing
nothing. An accepted image becomes current at an IDLE entry (result 00h), where no other entry's images or assembly
change, and is staged at any other (result 01h), where nothing else changes. The effects of the activation: an identity
change (valid, port or channel) ends the old stream (`streamEnded`); without one, a change of retention, ring depth or
priority enforces the depth on the ring and no such change leaves the store and the entry's runtime state alone; the
expected number, the forward queue, the replay requests and the counters but EVICTED_DEPTH stay; and correlation turned
off takes the entry out of every outstanding set, where otherwise the generators stay. The conflict check: a valid image
collides when a valid current or staged image of another entry has its port and channel, or its tag. -/
def Obligations.WriteEntryChecksThenInstalls : Prop :=
  (∀ (tag : Half) (b : ImageBlock) (s : State), s.mayTake →
      (∀ a : Byte, (32 ≤ a.toNat ∨ imageOf b = none) →
        exec (.writeEntry tag a b) s = .next (s.withReply tag 0x19 0x04 []))
      ∧ ∀ (e : EntryId) (i : Image), imageOf b = some i →
        (i.forward = .withhold ∧ (i.retention = .off ∨ i.retention = .oneShot) →
          exec (.writeEntry tag (byteOf e.val) b) s = .next (s.withReply tag 0x19 0x04 []))
        ∧ (¬ (i.forward = .withhold ∧ (i.retention = .off ∨ i.retention = .oneShot)) →
          (conflicts s e i = true →
            exec (.writeEntry tag (byteOf e.val) b) s = .next (s.withReply tag 0x19 0x07 []))
          ∧ (conflicts s e i = false → (s.entry e).assembly ≠ .idle →
            exec (.writeEntry tag (byteOf e.val) b) s = .next
              ((s.setEntry e { s.entry e with staged := some i }).withReply tag 0x19 0x00 [byteOf e.val, 0x01]))
          ∧ (conflicts s e i = false → (s.entry e).assembly = .idle →
            ∃ t, exec (.writeEntry tag (byteOf e.val) b) s = .next t ∧ (t.entry e).current = i
              ∧ (t.entry e).staged = none ∧ (t.entry e).assembly = .idle
              ∧ (∀ f, f ≠ e → t.entry f = s.entry f)
              ∧ t.lastReply tag 0x19 0x00 [byteOf e.val, 0x00] ∧ t.ports = s.ports ∧ t.uplink = s.uplink
              ∧ t.flash = s.flash ∧ t.notices = s.notices ∧ t.store.mem = s.store.mem
              ∧ (let old := (s.entry e).current
                let identity := i.valid ≠ old.valid ∨ i.port ≠ old.port ∨ i.channel ≠ old.channel
                let policy := i.retention ≠ old.retention ∨ i.ringDepth ≠ old.ringDepth ∨ i.priority ≠ old.priority
                (identity → s.streamEnded t e)
                ∧ (¬ identity → (t.entry e).expected = (s.entry e).expected
                  ∧ (t.entry e).forwardQueue = (s.entry e).forwardQueue ∧ (t.entry e).cursor = (s.entry e).cursor
                  ∧ t.replay = s.replay
                  ∧ (old.correlated = true → i.correlated = false →
                      ∀ n, t.gen n = { s.gen n with pendings := strikePending e (s.gen n).pendings })
                  ∧ (old.correlated = false ∨ i.correlated = true → t.gens = s.gens)
                  ∧ (policy → ((t.entry e).ring.length ≤ i.ringDepth
                        ∨ ∀ r ∈ (t.entry e).ring, (t.record r).held = true ∨ (t.record r).pin = true)
                      ∧ (t.entry e).ring.Sublist (s.entry e).ring
                      ∧ (t.entry e).counters = { (s.entry e).counters with evictedDepth :=
                          bump^[(s.entry e).ring.length - (t.entry e).ring.length] (s.entry e).counters.evictedDepth })
                  ∧ (¬ policy → t.entry e = { s.entry e with current := i, staged := none }
                      ∧ t.store = s.store))))))
    ∧ ∀ (s : State) (e : EntryId) (i : Image),
        conflicts s e i = true ↔ i.valid = true ∧ ∃ f, f ≠ e ∧ ∃ j,
          (j = (s.entry f).current ∨ (s.entry f).staged = some j) ∧ j.valid = true
            ∧ ((i.port = j.port ∧ i.channel = j.channel) ∨ i.tag = j.tag)

/-! ## Frame store operations -/

/-- HOLD sets the held flag of the ring member named, takes it off the reclaim list and reports the flag as it was;
without such a member it answers NOT_FOUND and an index above 1Fh BAD_ARGUMENT. Nothing else changes. -/
def Obligations.HoldKeepsFrame : Prop :=
  ∀ (tag : Half) (k : Half) (s : State), s.mayTake →
    (∀ a : Byte, 32 ≤ a.toNat → exec (.hold tag a k) s = .next (s.withReply tag 0x21 0x04 []))
    ∧ ∀ e : EntryId,
      (ringMember s e k = none → exec (.hold tag (byteOf e.val) k) s = .next (s.withReply tag 0x21 0x05 []))
      ∧ ∀ r, ringMember s e k = some r →
        exec (.hold tag (byteOf e.val) k) s = .next (({ s with store := { s.store with
          records := s.store.records.set r { s.record r with held := true },
          reclaim := s.store.reclaim.erase r } } : State).withReply tag 0x21 0x00
            [if (s.record r).held then 1 else 0])

/-- RELEASE clears the held flag of the ring member named and runs depth enforcement: afterwards the ring is within its
depth or every member is held or pinned. A CLOSED record that is still in the ring, not pinned and without a forward
claim, is then on the reclaim list, at its tail if it was not on it before (stated for a ring without repeats). The reply
gives the flag as it was and whether the record is still in the ring. Without such a member it answers NOT_FOUND and
changes nothing else, and an index above 1Fh draws BAD_ARGUMENT. -/
def Obligations.ReleaseEnforcesDepth : Prop :=
  ∀ (tag : Half) (k : Half) (s : State), s.mayTake →
    (∀ a : Byte, 32 ≤ a.toNat → exec (.release tag a k) s = .next (s.withReply tag 0x22 0x04 []))
    ∧ ∀ e : EntryId,
      (ringMember s e k = none → exec (.release tag (byteOf e.val) k) s = .next (s.withReply tag 0x22 0x05 []))
      ∧ ∀ r, ringMember s e k = some r →
        ∃ t, exec (.release tag (byteOf e.val) k) s = .next t ∧ (t.record r).held = false
          ∧ t.lastReply tag 0x22 0x00 [if (s.record r).held then 1 else 0, if r ∈ (t.entry e).ring then 1 else 0]
          ∧ ((t.entry e).ring.length ≤ (s.entry e).current.ringDepth
              ∨ ∀ x ∈ (t.entry e).ring, (t.record x).held = true ∨ (t.record x).pin = true)
          ∧ (r ∈ (t.entry e).ring → (s.entry e).ring.Nodup → (s.record r).state = .closed →
              (s.record r).ring = true → (s.record r).pin = false → (s.record r).forward = false →
              r ∈ t.store.reclaim ∧ (r ∉ s.store.reclaim → t.store.reclaim.getLast? = some r))
          ∧ (∀ f, f ≠ e → t.entry f = s.entry f) ∧ t.ports = s.ports ∧ t.gens = s.gens ∧ t.uplink = s.uplink
          ∧ t.replay = s.replay ∧ t.notices = s.notices ∧ t.store.mem = s.store.mem

/-- DROP removes the oldest `count` members of the ring, or all of them, and reports how many; a count of 00h or above
40h draws BAD_ARGUMENT. No entry but the one named changes, and of that one only the ring. STORE_CLEAR empties every
ring, changes nothing else of any entry, and reports the number of records removed. -/
def Obligations.DropAndClearRemoveFrames : Prop :=
  (∀ (tag : Half) (e : EntryId) (count : Byte) (s : State), s.mayTake →
      (count.toNat = 0 ∨ 64 < count.toNat →
        exec (.drop tag (byteOf e.val) count) s = .next (s.withReply tag 0x23 0x04 []))
      ∧ (1 ≤ count.toNat → count.toNat ≤ 64 →
        ∃ t, exec (.drop tag (byteOf e.val) count) s = .next t
          ∧ t.entry e = { s.entry e with ring := (s.entry e).ring.drop count.toNat }
          ∧ (∀ f, f ≠ e → t.entry f = s.entry f)
          ∧ t.lastReply tag 0x23 0x00 [byteOf e.val, byteOf (min count.toNat (s.entry e).ring.length)]
          ∧ t.notices = s.notices ∧ t.replay = s.replay ∧ t.uplink = s.uplink ∧ t.store.mem = s.store.mem))
    ∧ ∀ (tag : Half) (s : State), s.mayTake →
        ∃ t, exec (.storeClear tag) s = .next t ∧ (∀ e, t.entry e = { s.entry e with ring := [] })
          ∧ t.lastReply tag 0x24 0x00 (halfOf ((List.finRange 32).map fun e => (s.entry e).ring.length).sum)
          ∧ t.notices = s.notices ∧ t.replay = s.replay ∧ t.uplink = s.uplink ∧ t.ports = s.ports ∧ t.gens = s.gens
          ∧ t.store.mem = s.store.mem

/-- LIST_FRAMES reports up to 32 ring members from `start` on, oldest first, 16 bytes each, and changes nothing else; a
start above 3Fh or an index above 1Fh draws BAD_ARGUMENT. -/
def Obligations.ListFramesReports : Prop :=
  ∀ (tag : Half) (s : State), s.mayTake →
    (∀ a b : Byte, (32 ≤ a.toNat ∨ 64 ≤ b.toNat) →
      exec (.listFrames tag a b) s = .next (s.withReply tag 0x20 0x04 []))
    ∧ ∀ (e : EntryId) (b : Byte), b.toNat < 64 →
      exec (.listFrames tag (byteOf e.val) b) s = .next (s.withReply tag 0x20 0x00
        ([byteOf e.val] ++ halfOf (s.entry e).ring.length ++ [b]
          ++ [byteOf (((s.entry e).ring.drop b.toNat).take 32).length]
          ++ (((s.entry e).ring.drop b.toNat).take 32).flatMap fun r =>
            halfBytes (s.record r).frame
              ++ [match (s.record r).close with | some c => c.code | none => 0, (s.record r).damage.code,
                if (s.record r).held then 1 else 0, if (s.record r).pin then 1 else 0]
              ++ wordOf (s.record r).bytes ++ timeBytes (s.record r).headTime))

/-- A record request is granted the head of the free record list; with the list empty the oldest record of the reclaim
list, CLOSED and with no claim but the ring's, is taken back first; with nothing to take back it is refused and
counted. A page request is granted the head of the free page list; with the list empty the oldest record of the reclaim
list is taken back first, and where it holds pages its first is granted and the rest are free; with nothing to take back
it is refused and counted. -/
def Obligations.RecordRequestOrder : Prop :=
  ∀ s : State,
    (∀ r rs, s.store.freeRecords = r :: rs →
      requestRecord s = ({ s with store := { s.store with freeRecords := rs } }, some r))
    ∧ (s.store.freeRecords = [] → s.store.reclaim = [] →
      requestRecord s = ({ s with store := { s.store with
        recordExhausted := bump s.store.recordExhausted } }, none))
    ∧ (∀ r rs, s.store.freeRecords = [] → s.store.reclaim = r :: rs → (s.record r).state = .closed →
      (s.record r).receiving = false → (s.record r).forward = false → (s.record r).pin = false →
      ∃ t, requestRecord s = (t, some r) ∧ t.store.freeRecords = [] ∧ t.store.reclaims = bump s.store.reclaims
        ∧ t.store.freePages = s.store.freePages ++ (s.record r).pages
        ∧ (t.entry (s.record r).entry).ring = (s.entry (s.record r).entry).ring.erase r)
    ∧ (∀ p ps, s.store.freePages = p :: ps →
      requestPage s = ({ s with store := { s.store with freePages := ps } }, some p))
    ∧ (s.store.freePages = [] → s.store.reclaim = [] →
      requestPage s = ({ s with store := { s.store with pageExhausted := bump s.store.pageExhausted } }, none))
    ∧ (∀ r rs p ps, s.store.freePages = [] → s.store.reclaim = r :: rs → (s.record r).state = .closed →
      (s.record r).receiving = false → (s.record r).forward = false → (s.record r).pin = false →
      (s.record r).pages = p :: ps →
      ∃ t, requestPage s = (t, some p) ∧ t.store.freePages = ps
        ∧ t.store.freeRecords = s.store.freeRecords ++ [r] ∧ t.store.reclaims = bump s.store.reclaims
        ∧ (t.entry (s.record r).entry).ring = (s.entry (s.record r).entry).ring.erase r
        ∧ (t.entry (s.record r).entry).counters.evictedSpace
          = bump (s.entry (s.record r).entry).counters.evictedSpace)

/-! ## Uplink -/

/-- The arbiter serves the reply queue first and then the notice queue; with both empty and no member of any class
ready it starts LINK filler. Nothing but the transmitter changes. Outside ACTIVE, and while a segment is being sent, it
grants nothing. -/
def Obligations.GrantServesQueuesFirst : Prop :=
  ∀ s : State,
    (s.uplink.state = .active → s.uplink.tx = none →
      (∀ r rs, s.agent.replies = r :: rs → exec .uplinkGrant s = .next { s with uplink := { s.uplink with
        tx := some ⟨.reply, ⟨.mrep, false, r.route, r.tag, 0, r.payload⟩⟩ } })
      ∧ (∀ m ms, s.agent.replies = [] → s.notices.queue = m :: ms →
        exec .uplinkGrant s = .next { s with uplink := { s.uplink with
          tx := some ⟨.notice, ⟨.note, false, 0x0F, m.seq, 0,
            byteOf m.body.kind :: timeBytes m.time ++ m.body.bytes⟩⟩ } })
      ∧ (s.agent.replies = [] → s.notices.queue = [] → (∀ c p, memberOffer s c p = none) →
        exec .uplinkGrant s = .next { s with uplink := { s.uplink with
          tx := some ⟨.filler, ⟨.link, false, 0, 0, 0, []⟩⟩ } }))
    ∧ (s.uplink.state ≠ .active ∨ s.uplink.tx ≠ none → exec .uplinkGrant s = .next s)

/-- A frame grant: in the first class that has a ready member, the first ready position from the class's start on is
granted, and the start moves behind it. The granted segment of an entry's head record: its HEAD carries the record's tag
at head, frame number, attributes and entry, and the cursor captures the segment size in force; a BODY of a whole
segment as soon as so many bytes are stored, or of the rest of a CLOSED record, numbered on and read from the store; the
TAIL of a CLOSED record that is sent whole, with the bodies and bytes sent, the damage set and the close reason. The
replay engine's position 32 in its class is granted the same segments of the pinned record, marked REPLAY, its HEAD with
the tag in force of the request's entry and the replay id; in CLOSING it is granted one TAIL of reason ABORTED. -/
def Obligations.GrantRotatesWithinClass : Prop :=
  (∀ (s : State) (c : ClassId) (p : Fin 33) (e : EntryId) (r : RecordId) (rs : List RecordId), s.turn c p →
      p.val = e.val → (s.entry e).current.priority = c → (s.entry e).forwardQueue = r :: rs →
      let x := s.record r
      ((s.entry e).cursor = none →
        exec .uplinkGrant s = .next ((s.setEntry e { s.entry e with
            cursor := some ⟨s.uplink.segSize, x.tagAtHead, 0, 0, false⟩ }).granted c p
          ⟨.live e, ⟨.head, false, x.tagAtHead, x.frame, 0, x.attributes.bytes ++ [0, byteOf x.entry.val]⟩⟩))
      ∧ ∀ k, (s.entry e).cursor = some k → k.tailGranted = false →
        (∀ len, (len = k.segSize ∧ k.segSize ≤ x.bytes - k.bytes)
            ∨ (len = x.bytes - k.bytes ∧ 0 < len ∧ len < k.segSize ∧ x.state = .closed) →
          exec .uplinkGrant s = .next ((s.setEntry e { s.entry e with
              cursor := some { k with bodies := k.bodies + 1, bytes := k.bytes + len } }).granted c p
            ⟨.live e, ⟨.body, false, k.route, x.frame, BitVec.ofNat 16 (k.bodies + 1),
              loadBytes s.store.mem x.pages k.bytes len⟩⟩))
        ∧ (∀ why, x.state = .closed → x.close = some why → x.bytes ≤ k.bytes → 0 < k.segSize →
          exec .uplinkGrant s = .next ((s.setEntry e { s.entry e with
              cursor := some { k with tailGranted := true } }).granted c p
            ⟨.live e, ⟨.tail, false, k.route, x.frame, BitVec.ofNat 16 (k.bodies + 1),
              halfOf k.bodies ++ wordOf k.bytes ++ [x.damage.code, why.code]⟩⟩)))
    ∧ ∀ (s : State) (c : ClassId) (q : ReplayRequest) (qs : List ReplayRequest) (r : RecordId), s.turn c 32 →
        s.uplink.replayClass = c → s.replay.queue = q :: qs → s.replay.pinned = some r →
        let x := s.record r
        (s.replay.engine = .sending → s.replay.cursor = none →
          exec .uplinkGrant s = .next (({ s with replay := { s.replay with
              cursor := some ⟨s.uplink.segSize, (s.entry q.entry).current.tag, 0, 0, false⟩ } } : State).granted c 32
            ⟨.replay, ⟨.head, true, (s.entry q.entry).current.tag, x.frame, 0,
              x.attributes.bytes ++ [q.id, byteOf x.entry.val]⟩⟩))
        ∧ ∀ k, s.replay.cursor = some k → k.tailGranted = false →
          (∀ len, s.replay.engine = .sending → ((len = k.segSize ∧ k.segSize ≤ x.bytes - k.bytes)
              ∨ (len = x.bytes - k.bytes ∧ 0 < len ∧ len < k.segSize)) →
            exec .uplinkGrant s = .next (({ s with replay := { s.replay with
                cursor := some { k with bodies := k.bodies + 1, bytes := k.bytes + len } } } : State).granted c 32
              ⟨.replay, ⟨.body, true, k.route, x.frame, BitVec.ofNat 16 (k.bodies + 1),
                loadBytes s.store.mem x.pages k.bytes len⟩⟩))
          ∧ (∀ why, s.replay.engine = .sending → x.close = some why → x.bytes ≤ k.bytes → 0 < k.segSize →
            exec .uplinkGrant s = .next (({ s with replay := { s.replay with
                cursor := some { k with tailGranted := true } } } : State).granted c 32
              ⟨.replay, ⟨.tail, true, k.route, x.frame, BitVec.ofNat 16 (k.bodies + 1),
                halfOf k.bodies ++ wordOf k.bytes ++ [x.damage.code, why.code]⟩⟩))
          ∧ (s.replay.engine = .closing →
            exec .uplinkGrant s = .next (({ s with replay := { s.replay with
                cursor := some { k with tailGranted := true } } } : State).granted c 32
              ⟨.abortedTail, ⟨.tail, true, k.route, x.frame, BitVec.ofNat 16 (k.bodies + 1),
                halfOf k.bodies ++ wordOf k.bytes ++ [x.damage.code, 0x05]⟩⟩))

/-- When a segment completes in ACTIVE the transmitter is free and SEG_OUT counts it unless it is LINK; outside ACTIVE the
next LINK filler follows (log entry 21). A reply other than RESET_PART's leaves its queue, and requests waiting are taken
as REQUEST_TAKE takes them; RESET_PART's reply brings the part reset. A notice leaves its queue; with notices lost and
no NOTICES_LOST behind it, one with the lost count joins in its place. A live TAIL takes its record from the forward
queue, drops its forward claim, clears the cursor and counts FORWARDED; a live or replay HEAD or BODY does nothing
further. A replay TAIL gives the pinned frame SENT, or SENT_DAMAGED when the record is damaged: the last frame ends the
request with REPLAY_DONE and an IDLE engine, stated for a queue of one request; before it the engine pins the next
frame, stated where that is a ring member and the unpin evicts nothing; in CLOSING the rest is CANCELLED. An ABORTED TAIL
gives the frame ABORTED and the rest CANCELLED. -/
def Obligations.CompletedSegmentLeaves : Prop :=
  ∀ (s : State) (g : Segment),
    (s.uplink.state ≠ .active → s.uplink.tx = some ⟨.filler, ⟨.link, false, 0, 0, 0, []⟩⟩ →
      exec .uplinkSegmentCompletes s = .next s)
    ∧ (s.uplink.state = .active → g.kind = .link → s.uplink.tx = some ⟨.filler, g⟩ →
      exec .uplinkSegmentCompletes s = .next { s with uplink := { s.uplink with tx := none } })
    ∧ (∀ r rs, s.uplink.state = .active → g.kind = .mrep → s.uplink.tx = some ⟨.reply, g⟩ →
      s.agent.replies = r :: rs →
      (r.resets = false → exec .uplinkSegmentCompletes s = exec .requestTake { s with
        uplink := { s.uplink with tx := none, segOut := bump s.uplink.segOut },
        agent := { s.agent with replies := rs } })
      ∧ (r.resets = false → s.agent.requests = [] → exec .uplinkSegmentCompletes s = .next { s with
        uplink := { s.uplink with tx := none, segOut := bump s.uplink.segOut },
        agent := { s.agent with replies := rs } })
      ∧ (∀ k, r.resets = true → s.agent.state = .resetPending k →
        ∃ t, exec .uplinkSegmentCompletes s = .next t ∧ s.wholeReset t .part k))
    ∧ (∀ m ms, s.uplink.state = .active → g.kind = .note → s.uplink.tx = some ⟨.notice, g⟩ →
      s.notices.queue = m :: ms →
      (s.notices.lost = 0 ∨ (∃ x ∈ ms, x.isLost = true) → exec .uplinkSegmentCompletes s = .next { s with
        uplink := { s.uplink with tx := none, segOut := bump s.uplink.segOut },
        notices := { s.notices with queue := ms } })
      ∧ (0 < s.notices.lost → (∀ x ∈ ms, x.isLost = false) → exec .uplinkSegmentCompletes s = .next { s with
        uplink := { s.uplink with tx := none, segOut := bump s.uplink.segOut },
        notices := { s.notices with
          queue := ms ++ [⟨s.notices.seq, s.partTime, .noticesLost s.notices.lost⟩],
          seq := s.notices.seq + 1, lost := 0 } }))
    ∧ (∀ e, s.uplink.state = .active → g.kind = .head ∨ g.kind = .body →
      s.uplink.tx = some ⟨.live e, g⟩ ∨ s.uplink.tx = some ⟨.replay, g⟩ →
      exec .uplinkSegmentCompletes s = .next { s with
        uplink := { s.uplink with tx := none, segOut := bump s.uplink.segOut } })
    ∧ (∀ e r rs, s.uplink.state = .active → g.kind = .tail → s.uplink.tx = some ⟨.live e, g⟩ →
      (s.entry e).forwardQueue = r :: rs →
      ∃ t, exec .uplinkSegmentCompletes s = .next t
        ∧ t.uplink = { s.uplink with tx := none, segOut := bump s.uplink.segOut }
        ∧ t.entry e = { s.entry e with
            forwardQueue := rs, cursor := none,
            counters := { (s.entry e).counters with forwarded := bump (s.entry e).counters.forwarded } }
        ∧ (∀ f, f ≠ e → t.entry f = s.entry f) ∧ (t.record r).forward = false ∧ t.agent = s.agent
        ∧ t.notices = s.notices ∧ t.store.mem = s.store.mem)
    ∧ (∀ q qs r o, s.uplink.state = .active → g.kind = .tail → s.replay.queue = q :: qs →
      s.replay.pinned = some r →
      o = (if (s.record r).damage = ⟨false, false, false, false⟩ ∧ (s.record r).close = some .tail
        then FrameOutcome.sent else .sentDamaged) →
      (s.uplink.tx = some ⟨.replay, g⟩ → s.replay.engine = .sending → qs = [] → q.outcomes.length + 1 = q.count →
        ∃ t, exec .uplinkSegmentCompletes s = .next t
          ∧ t.replay = { s.replay with queue := [], engine := .idle, pinned := none, cursor := none }
          ∧ t.notices = (offerNotice (.replayDone q.id q.entry q.first q.count (q.outcomes ++ [o])) s).notices
          ∧ (t.record r).pin = false ∧ t.uplink = { s.uplink with tx := none, segOut := bump s.uplink.segOut })
      ∧ (∀ r', s.uplink.tx = some ⟨.replay, g⟩ → s.replay.engine = .sending → q.gone = false →
        q.outcomes.length + 1 < q.count → (s.record r).ring = true →
        (s.entry (s.record r).entry).ring.length ≤ (s.entry (s.record r).entry).current.ringDepth →
        ringMember s q.entry (q.first + BitVec.ofNat 16 (q.outcomes.length + 1)) = some r' → r' ≠ r →
        ∃ t, exec .uplinkSegmentCompletes s = .next t
          ∧ t.replay = { s.replay with
              queue := { q with outcomes := q.outcomes ++ [o] } :: qs, pinned := some r', cursor := none }
          ∧ t.notices = s.notices ∧ (t.record r).pin = false ∧ (t.record r').pin = true
          ∧ t.entries = s.entries ∧ t.uplink = { s.uplink with tx := none, segOut := bump s.uplink.segOut })
      ∧ (s.uplink.tx = some ⟨.replay, g⟩ → s.replay.engine = .closing → qs = [] →
        ∃ t, exec .uplinkSegmentCompletes s = .next t
          ∧ t.replay = { s.replay with queue := [], engine := .idle, pinned := none, cursor := none }
          ∧ t.notices = (offerNotice (.replayDone q.id q.entry q.first q.count (q.outcomes ++ o
              :: List.replicate (q.count - q.outcomes.length - 1) .cancelled)) s).notices
          ∧ (t.record r).pin = false)
      ∧ (s.uplink.tx = some ⟨.abortedTail, g⟩ → s.replay.engine = .closing → qs = [] →
        ∃ t, exec .uplinkSegmentCompletes s = .next t
          ∧ t.replay = { s.replay with queue := [], engine := .idle, pinned := none, cursor := none }
          ∧ t.notices = (offerNotice (.replayDone q.id q.entry q.first q.count (q.outcomes ++ .aborted
              :: List.replicate (q.count - q.outcomes.length - 1) .cancelled)) s).notices
          ∧ (t.record r).pin = false))

/-- The uplink's silence timer takes it from ACTIVE to LOST, part time at the deadline at least (log entry 5), with the
effects of a loss (`uplinkLost`): the hold timer runs, the transmission is cut off and LINK filler follows, every forward
queue and cursor is emptied, the reason is kept, an ACTIVE replay request ends with every frame left ABORTED. The
assemblies, the images, the agent with its request and reply queues, the ports, the generators and the bytes of the store
do not change. That is stated for an agent that is READY; one that is RESET_PENDING brings the part reset. -/
def Obligations.SilenceLosesUplink : Prop :=
  ∀ (d : Time) (s : State), s.uplink.state = .active → s.uplink.silence = some d →
    (s.agent.state = .ready →
      ∃ t, exec (.silenceTimerExpiry .up) s = .next t ∧ (atDeadline d s).uplinkLost t .silence)
    ∧ ∀ k, s.agent.state = .resetPending k →
      ∃ t, exec (.silenceTimerExpiry .up) s = .next t ∧ s.wholeReset t .part k

/-- A unit on U before the start-up load completes counts in SEG_IN, and in SEG_BAD_CHECK when its check is bad, and
does nothing else. After it, in ACQUIRING: a bad-check unit counts and sets the run to 0, a good-check unit, well-formed
or malformed, counts and increments it, and the eighth in a row takes U to ACTIVE with its silence timer started and an
UPLINK_STATE notice of the reason of the last loss, then the replay take that this allows (log entry 13). In ACTIVE: a
bad-check unit counts, restarts the silence timer and increments the bad-check run, the sixteenth in a row loses the
link (`uplinkLost`), stated for an agent that is READY; a malformed unit and a LINK unit count in SEG_IN alone, restart
the timer and set the bad-check run to 0. In LOST units only count, a good-check one with the bad-check run 0. In ACTIVE
a request to a camera whose port is ACTIVE with room joins that port's output queue and
counts in REQUESTS; a port that is not ACTIVE draws PORT_DOWN with reason 00h and a full output queue BUSY, each only
while the reply queue has a place, and else DROPPED counts: stated for an empty request queue of the agent. A request to
the part is executed at once by an agent that may take it with no other waiting; it joins the request queue, stated for
an agent that is RESET_PENDING, with fewer than 8 waiting, and else draws QUEUE_FULL, or counts in DROPPED. -/
def Obligations.UplinkUnitsReachAgent : Prop :=
  ∀ (unit : List Byte) (s : State),
    (s.starting = true → exec (.uplinkUnitReceived unit) s = .next { s with uplink := { s.uplink with
      segIn := bump s.uplink.segIn,
      badCheck := if goodCheck unit then s.uplink.badCheck else bump s.uplink.badCheck } })
    ∧ (s.starting = false → s.uplink.state = .acquiring →
      (classifyUp unit = .badCheck → exec (.uplinkUnitReceived unit) s = .next { s with uplink := { s.uplink with
        segIn := bump s.uplink.segIn, badCheck := bump s.uplink.badCheck, acqRun := 0 } })
      ∧ (classifyUp unit ≠ .badCheck → s.uplink.acqRun < 7 →
        exec (.uplinkUnitReceived unit) s = .next { s with uplink := { s.uplink with
          segIn := bump s.uplink.segIn, acqRun := s.uplink.acqRun + 1, badRun := 0 } })
      ∧ (classifyUp unit ≠ .badCheck → s.uplink.acqRun = 7 →
        let t := { offerNotice (.uplinkState s.uplink.prevLoss) s with
          uplink := { s.uplink with
            segIn := bump s.uplink.segIn, state := .active, acqRun := 8, badRun := 0,
            silence := some (s.after 4000), prevLoss := .none } }
        exec (.uplinkUnitReceived unit) s = exec .replayTake t
        ∧ (s.replay.queue = [] → exec (.uplinkUnitReceived unit) s = .next t)))
    ∧ (s.starting = false → s.uplink.state = .active →
      (classifyUp unit = .badCheck → s.uplink.badRun < 15 →
        exec (.uplinkUnitReceived unit) s = .next { s with uplink := { s.uplink with
          segIn := bump s.uplink.segIn, badCheck := bump s.uplink.badCheck, badRun := s.uplink.badRun + 1,
          silence := some (s.after 4000) } })
      ∧ (classifyUp unit = .malformed ∨ classifyUp unit = .wellFormed .link →
        exec (.uplinkUnitReceived unit) s = .next { s with uplink := { s.uplink with
          segIn := bump s.uplink.segIn, badRun := 0, silence := some (s.after 4000) } }))
    ∧ (s.starting = false → s.uplink.state = .lost →
      (classifyUp unit = .badCheck → exec (.uplinkUnitReceived unit) s = .next { s with uplink := { s.uplink with
        segIn := bump s.uplink.segIn, badCheck := bump s.uplink.badCheck } })
      ∧ (classifyUp unit ≠ .badCheck → exec (.uplinkUnitReceived unit) s = .next { s with uplink := { s.uplink with
        segIn := bump s.uplink.segIn, badRun := 0 } }))
    ∧ (s.starting = false → s.uplink.state = .active → s.uplink.badRun = 15 → classifyUp unit = .badCheck →
      s.agent.state = .ready →
      ∃ t, exec (.uplinkUnitReceived unit) s = .next t ∧ s.uplinkLost t .badChecks
        ∧ t.uplink.badCheck = bump s.uplink.badCheck)
    ∧ (∀ (m : Mreq) (n : PortId), s.starting = false → s.uplink.state = .active →
      classifyUp unit = .wellFormed (.mreq m) → m.route = byteOf n.val → s.agent.requests = [] →
      let up := { s.uplink with segIn := bump s.uplink.segIn, badRun := 0, silence := some (s.after 4000) }
      let full := 16 ≤ s.agent.replies.length + s.agent.reserved.toNat
      ((s.port n).state = .active → (s.port n).outTrigs.length + (s.port n).outMreqs.length < 4 →
        exec (.uplinkUnitReceived unit) s = .next { s.setPort n { s.port n with
            outMreqs := (s.port n).outMreqs ++ [m] } with
          uplink := up, agent := { s.agent with received := bump s.agent.received } })
      ∧ ((s.port n).state ≠ .active → ¬ full →
        exec (.uplinkUnitReceived unit) s = .next { s with
          uplink := up
          agent := { s.agent with
            received := bump s.agent.received
            replies := s.agent.replies ++ [⟨0x0F, m.tag, [m.op, 0x09, 0x00], false⟩] } })
      ∧ ((s.port n).state = .active → 4 ≤ (s.port n).outTrigs.length + (s.port n).outMreqs.length → ¬ full →
        exec (.uplinkUnitReceived unit) s = .next { s with
          uplink := up
          agent := { s.agent with
            received := bump s.agent.received
            replies := s.agent.replies ++ [⟨0x0F, m.tag, [m.op, 0x06], false⟩] } })
      ∧ ((s.port n).state ≠ .active ∨ 4 ≤ (s.port n).outTrigs.length + (s.port n).outMreqs.length → full →
        exec (.uplinkUnitReceived unit) s = .next { s with
          uplink := up
          agent := { s.agent with received := bump s.agent.received, dropped := bump s.agent.dropped } }))
    ∧ (∀ m : Mreq, s.starting = false → s.uplink.state = .active → classifyUp unit = .wellFormed (.mreq m) →
      8 ≤ m.route.toNat →
      let up := { s.uplink with segIn := bump s.uplink.segIn, badRun := 0, silence := some (s.after 4000) }
      let full := 16 ≤ s.agent.replies.length + s.agent.reserved.toNat
      (∀ op, s.mayTake → s.agent.requests = [] → m.route = 0x0F → parseOp m.op m.args = .ok op →
        exec (.uplinkUnitReceived unit) s = exec (commandOf m.tag op) { s with
          uplink := up, agent := { s.agent with received := bump s.agent.received } })
      ∧ (s.agent.state ≠ .ready → s.agent.requests.length < 8 →
        exec (.uplinkUnitReceived unit) s = .next { s with
          uplink := up
          agent := { s.agent with
            received := bump s.agent.received, requests := s.agent.requests ++ [m] } })
      ∧ (s.agent.state ≠ .ready → 8 ≤ s.agent.requests.length → ¬ full →
        exec (.uplinkUnitReceived unit) s = .next { s with
          uplink := up
          agent := { s.agent with
            received := bump s.agent.received, refusedFull := bump s.agent.refusedFull
            replies := s.agent.replies ++ [⟨0x0F, m.tag, [m.op, 0x02], false⟩] } })
      ∧ (8 ≤ s.agent.requests.length → 16 ≤ s.agent.replies.length →
        exec (.uplinkUnitReceived unit) s = .next { s with
          uplink := up
          agent := { s.agent with received := bump s.agent.received, dropped := bump s.agent.dropped } }))

/-- SET_UPLINK with an empty block reports the three settings and changes nothing else; a valid block stores them; a
field outside its values draws BAD_ARGUMENT. -/
def Obligations.SetUplinkStoresSettings : Prop :=
  ∀ (tag : Half) (s : State), s.mayTake →
    exec (.setUplink tag none) s = .next (s.withReply tag 0x28 0x00
      (halfOf s.uplink.segSize ++ [byteOf s.uplink.replayClass.val, byteOf s.uplink.backlog]))
    ∧ ∀ b : UplinkBlock,
      (∀ c : ClassId, (b.segmentSize = 256 ∨ b.segmentSize = 512 ∨ b.segmentSize = 1024) →
        b.replayClass = byteOf c.val → 1 ≤ b.backlog.toNat → b.backlog.toNat ≤ 8 →
        exec (.setUplink tag (some b)) s = .next (({ s with uplink := { s.uplink with
          segSize := b.segmentSize.toNat, replayClass := c, backlog := b.backlog.toNat } } : State).withReply tag
            0x28 0x00 (halfBytes b.segmentSize ++ [b.replayClass, b.backlog])))
      ∧ ((b.segmentSize ≠ 256 ∧ b.segmentSize ≠ 512 ∧ b.segmentSize ≠ 1024) ∨ 4 ≤ b.replayClass.toNat
          ∨ b.backlog.toNat = 0 ∨ 8 < b.backlog.toNat →
        exec (.setUplink tag (some b)) s = .next (s.withReply tag 0x28 0x04 []))

/-! ## Replay -/

/-- REPLAY: bytes out of range draw BAD_ARGUMENT, an entry that is not valid NOT_FOUND, a full queue BUSY. An accepted
request joins the tail WAITING with the next free id: no queued request holds it, and the counter's next value after 255
is 1. While the engine is not IDLE, or the uplink not ACTIVE, nothing else happens but the reply. With the engine IDLE
and the uplink ACTIVE the head request is taken in the same event, as REPLAY_TAKE takes it from the joined queue
(log entry 2), and the reply, with the queue's length at the joining, follows; stated too for a queue that was empty and
a first frame in the ring, which is then pinned. -/
def Obligations.ReplayJoinsQueue : Prop :=
  (∀ (tag : Half) (k : Half) (s : State), s.mayTake →
      (∀ a b : Byte, (32 ≤ a.toNat ∨ b.toNat = 0 ∨ 16 < b.toNat) →
        exec (.replay tag a k b) s = .next (s.withReply tag 0x30 0x04 []))
      ∧ ∀ (e : EntryId) (b : Byte), 1 ≤ b.toNat → b.toNat ≤ 16 →
        ((s.entry e).current.valid = false →
          exec (.replay tag (byteOf e.val) k b) s = .next (s.withReply tag 0x30 0x05 []))
        ∧ ((s.entry e).current.valid = true → 16 ≤ s.replay.queue.length →
          exec (.replay tag (byteOf e.val) k b) s = .next (s.withReply tag 0x30 0x06 []))
        ∧ ((s.entry e).current.valid = true → s.replay.queue.length < 16 →
          (s.replay.engine ≠ .idle ∨ s.uplink.state ≠ .active) →
          exec (.replay tag (byteOf e.val) k b) s = .next (({ s with replay := { s.replay with
            queue := s.replay.queue ++ [⟨givenReplayId s, e, k, b.toNat, false, [], false⟩],
            nextId := nextReplayId (givenReplayId s) } } : State).withReply tag 0x30 0x00
              [givenReplayId s, byteOf (s.replay.queue.length + 1)]))
        ∧ ((s.entry e).current.valid = true → s.replay.queue.length < 16 → s.replay.engine = .idle →
          s.uplink.state = .active →
          (∃ u, exec .replayTake { s with replay := { s.replay with
              queue := s.replay.queue ++ [⟨givenReplayId s, e, k, b.toNat, false, [], false⟩],
              nextId := nextReplayId (givenReplayId s) } } = .next u
            ∧ exec (.replay tag (byteOf e.val) k b) s = .next (u.withReply tag 0x30 0x00
              [givenReplayId s, byteOf (s.replay.queue.length + 1)]))
          ∧ ∀ r, s.replay.queue = [] → ringMember s e k = some r →
            exec (.replay tag (byteOf e.val) k b) s = .next (({ s with
              replay := { s.replay with
                queue := [⟨givenReplayId s, e, k, b.toNat, true, [], false⟩]
                nextId := nextReplayId (givenReplayId s)
                engine := .sending, pinned := some r, cursor := none }
              store := { s.store with
                records := s.store.records.set r { s.record r with pin := true }
                reclaim := s.store.reclaim.erase r } } : State).withReply tag 0x30 0x00 [givenReplayId s, 1])))
    ∧ (∀ s : State, s.replay.queue.length < 16 → s.replay.nextId ≠ 0 →
        givenReplayId s ≠ 0 ∧ ∀ q ∈ s.replay.queue, q.id ≠ givenReplayId s)
        ∧ nextReplayId 0xFF = 1 ∧ ∀ i : Byte, i ≠ 0xFF → nextReplayId i = i + 1

/-- CANCEL_REPLAY: an id that no request holds draws NOT_FOUND. A WAITING request, with no outcome yet, leaves the queue
with every outcome CANCELLED and a REPLAY_DONE notice. An ACTIVE request whose HEAD has been granted puts a SENDING
engine in CLOSING, and in CLOSING nothing changes. One whose HEAD has not been granted ends at once: the pinned frame
ABORTED, the rest CANCELLED, the record unpinned and the engine IDLE, stated for a queue of one request. -/
def Obligations.CancelReplayByState : Prop :=
  ∀ (tag : Half) (id : Byte) (s : State), s.mayTake →
    (s.replay.queue.find? (fun q => q.id == id) = none →
      exec (.cancelReplay tag id) s = .next (s.withReply tag 0x31 0x05 []))
    ∧ ∀ q, s.replay.queue.find? (fun q => q.id == id) = some q →
      (q.active = false → q.outcomes = [] →
        exec (.cancelReplay tag id) s = .next (({ offerNotice (.replayDone id q.entry q.first q.count
            (List.replicate q.count .cancelled)) s with
          replay := { s.replay with queue := s.replay.queue.erase q } } : State).withReply tag 0x31 0x00 [id, 0x00]))
      ∧ (q.active = true → s.replay.engine = .sending → s.replay.cursor ≠ none →
        exec (.cancelReplay tag id) s = .next (({ s with replay := { s.replay with
          engine := .closing } } : State).withReply tag 0x31 0x00 [id, 0x01]))
      ∧ (q.active = true → s.replay.engine = .closing →
        exec (.cancelReplay tag id) s = .next (s.withReply tag 0x31 0x00 [id, 0x02]))
      ∧ (∀ r, q.active = true → s.replay.engine = .sending → s.replay.cursor = none → s.replay.queue = [q] →
        s.replay.pinned = some r →
        ∃ t, exec (.cancelReplay tag id) s = .next t
          ∧ t.replay = { s.replay with queue := [], engine := .idle, pinned := none, cursor := none }
          ∧ t.notices = (offerNotice (.replayDone id q.entry q.first q.count (q.outcomes ++ .aborted
              :: List.replicate (q.count - q.outcomes.length - 1) .cancelled)) s).notices
          ∧ (t.record r).pin = false ∧ t.lastReply tag 0x31 0x00 [id, 0x01])

/-- REPLAY_TAKE: with the engine IDLE and the uplink ACTIVE the head request becomes ACTIVE. Its frames that are no ring
members, up to the first that is one, have outcome MISSING; that first one's record is pinned, leaves the reclaim list,
and the engine is SENDING with no cursor. A request without a ring member among its frames ends with every outcome
MISSING, and one marked stream-gone with every outcome STREAM_GONE: REPLAY_DONE is offered, it leaves the queue, and the
taking goes on with the next request, if there is one. With the engine not IDLE, or the uplink not ACTIVE, nothing
changes. -/
def Obligations.ReplayTakeServesHead : Prop :=
  ∀ (s : State) (q : ReplayRequest) (qs : List ReplayRequest), s.replay.queue = q :: qs →
    (s.replay.engine = .idle → s.uplink.state = .active → q.outcomes = [] → 0 < q.count →
      let missing := fun j : Nat => ringMember s q.entry (q.first + BitVec.ofNat 16 j) = none
      (∀ k r, q.gone = false → k < q.count → (∀ j < k, missing j) →
        ringMember s q.entry (q.first + BitVec.ofNat 16 k) = some r →
        exec .replayTake s = .next { s with
          replay := { s.replay with
            queue := { q with active := true, outcomes := List.replicate k .missing } :: qs
            engine := .sending, pinned := some r, cursor := none },
          store := { s.store with
            records := s.store.records.set r { s.record r with pin := true },
            reclaim := s.store.reclaim.erase r } })
      ∧ (∀ o, q.gone = true ∧ o = FrameOutcome.streamGone
          ∨ q.gone = false ∧ (∀ j < q.count, missing j) ∧ o = .missing → s.replay.pinned = none →
        let t := { offerNotice (.replayDone q.id q.entry q.first q.count (List.replicate q.count o)) s with
          replay := { s.replay with queue := qs, engine := .idle, pinned := none, cursor := none } }
        exec .replayTake s = exec .replayTake t ∧ (qs = [] → exec .replayTake s = .next t)))
    ∧ (s.replay.engine ≠ .idle ∨ s.uplink.state ≠ .active → exec .replayTake s = .next s)

/-! ## Triggers -/

/-- A change of a trigger line's level: of the generators that watch it, one with a debounce above 0 whose debounced level
now differs starts its debounce timer, one whose level now agrees stops it, and one with a debounce of 0 whose level
differs takes the level at once (log entry 23); a generator that does not watch it does not change. When the debounce
timer expires the debounced level becomes the raw level of the watched line and the timer is stopped, part time at the
deadline at least (log entry 5). Without a change of level, or at a generator that is IDLE, nothing else changes. With
one: at an ARMED generator a configured edge is an attempt to issue a trigger of source LINE, stated where it is
issued, and any other edge does nothing; at a burst whose gate becomes inactive RUNNING becomes PAUSED with its period
timer stopped, and PAUSED becomes RUNNING with the timer started when the gate becomes active, whatever edge is configured (log entry 34). -/
def Obligations.DebounceFollowsLine : Prop :=
  (∀ (l : LineId) (level : Bool) (s : State),
      (s.tin[l] = level → exec (.rawLineChange l level) s = .next s)
      ∧ (s.tin[l] ≠ level → s.starting = true → exec (.rawLineChange l level) s = .next { s with
          tin := s.tin.set l level })
      ∧ (s.tin[l] ≠ level → s.starting = false →
        ∃ t, exec (.rawLineChange l level) s = .next t ∧ t.tin = s.tin.set l level
          ∧ (∀ n, (s.gen n).config.watched ≠ some l → t.gen n = s.gen n)
          ∧ (∀ n, (s.gen n).config.watched = some l → level = (s.gen n).level →
              t.gen n = { s.gen n with debounce := none })
          ∧ (∀ n, (s.gen n).config.watched = some l → level ≠ (s.gen n).level → (s.gen n).config.debounce ≠ 0 →
              t.gen n = { s.gen n with debounce := some (s.after (s.gen n).config.debounce) })
          ∧ (∀ n, (s.gen n).config.watched = some l → level ≠ (s.gen n).level → (s.gen n).config.debounce = 0 →
              (t.gen n).level = level ∧ (t.gen n).debounce = none ∧ (t.gen n).config = (s.gen n).config
              ∧ ((s.gen n).state = .idle → t.gen n = { s.gen n with level := level, debounce := none }))
          ∧ ((∀ n, (s.gen n).config.watched = some l → (s.gen n).config.debounce ≠ 0) →
              t.ports = s.ports ∧ t.notices = s.notices ∧ t.agent = s.agent)
          ∧ t.entries = s.entries ∧ t.store = s.store ∧ t.partTime = s.partTime))
    ∧ ∀ (n : PortId) (d : Time) (s : State), (s.gen n).debounce = some d →
        let g := s.gen n
        let level := rawLevel s g.config
        let settled := { g with level := level, debounce := none }
        let u := atDeadline d s
        (∃ t, exec (.debounceTimerExpiry n) s = .next t ∧ (t.gen n).level = level
          ∧ (t.gen n).debounce = none ∧ (t.gen n).config = g.config ∧ (∀ m, m ≠ n → t.gen m = s.gen m)
          ∧ (∀ m, m ≠ n → t.port m = s.port m) ∧ t.entries = s.entries ∧ t.store = s.store)
        ∧ (level = g.level ∨ g.state = .idle → exec (.debounceTimerExpiry n) s = .next (u.setGen n settled))
        ∧ (level ≠ g.level → g.config.source = .line → g.state = .armed →
          (g.config.edge = .rising ∧ level = false ∨ g.config.edge = .falling ∧ level = true →
            exec (.debounceTimerExpiry n) s = .next (u.setGen n settled))
          ∧ (g.config.edge = .both ∨ g.config.edge = .rising ∧ level = true
              ∨ g.config.edge = .falling ∧ level = false → (s.port n).state = .active → g.pendings.length < 8 →
            (s.port n).outTrigs.length + (s.port n).outMreqs.length < 4 →
            exec (.debounceTimerExpiry n) s = .next ((u.setPort n { s.port n with
                outTrigs := (s.port n).outTrigs ++ [⟨g.next, 0x01, byteOf g.config.line.val⟩] }).setGen n { settled with
              next := g.next + 1,
              counters := { g.counters with issued := bump g.counters.issued },
              pendings := g.pendings ++ (if correlatedOn s n = [] then [] else
                [⟨g.next, u.partTime, u.after (g.config.window * 100), correlatedOn s n⟩]) })))
        ∧ (level ≠ g.level → g.config.source = .burst →
          (g.state = .running → level ≠ g.config.gateLevel → exec (.debounceTimerExpiry n) s = .next (u.setGen n
            { settled with state := .paused, period := none }))
          ∧ (g.state = .paused → level = g.config.gateLevel → exec (.debounceTimerExpiry n) s = .next (u.setGen n
            { settled with state := .running, period := some (u.after g.config.burstPeriod) })))

/-- At an expiry of the period timer of a RUNNING burst, part time at the deadline at least (log entry 5), an issue is
attempted with source 02h and line FFh. On a port that is not ACTIVE it is SUPPRESSED and counted; with the pending list
full it is OVERRUN, counted and noticed; with room in the output queue the TRIG joins it, the number advances, ISSUED
counts, and a pending entry with the deadline one window ahead is appended when a correlated entry is on the port; into
a full queue it displaces the MREQ accepted last, which draws PORT_DOWN 01h while the reply queue has a place and counts
in DROPPED; a queue of 4 TRIGs refuses it, and it is SUPPRESSED. Whatever becomes of the attempt, the timer restarting
from the expiry (log entry 29): with remaining FFh the timer restarts; with remaining 1 the generator is IDLE with its
timer stopped; else remaining, stated for a number above 0, goes down by 1 and the timer restarts. Nothing else
changes. -/
def Obligations.PeriodExpiryCountsDown : Prop :=
  ∀ (n : PortId) (d : Time) (s : State), (s.gen n).state = .running → (s.gen n).period = some d →
    let g := s.gen n
    let p := s.port n
    let u := atDeadline d s
    let pending := g.pendings ++ (if correlatedOn s n = [] then [] else
      [⟨g.next, u.partTime, u.after (g.config.window * 100), correlatedOn s n⟩])
    ∃ t, exec (.periodTimerExpiry n) s = .next t ∧ (∀ m, m ≠ n → t.gen m = s.gen m) ∧ t.entries = s.entries
      ∧ t.store = s.store ∧ (∀ m, m ≠ n → t.port m = s.port m) ∧ t.uplink = s.uplink ∧ t.replay = s.replay
      ∧ t.partTime = u.partTime ∧ t.flash = s.flash ∧ t.tin = s.tin ∧ t.pg = s.pg ∧ t.starting = s.starting
      ∧ t.pending = s.pending ∧ t.fresh = s.fresh
      ∧ (g.remaining = 0xFF → (t.gen n).remaining = 0xFF ∧ (t.gen n).state = .running
          ∧ (t.gen n).period = some (u.after g.config.burstPeriod))
      ∧ (g.remaining = 1 → (t.gen n).remaining = 0 ∧ (t.gen n).state = .idle ∧ (t.gen n).period = none)
      ∧ (1 < g.remaining.toNat → g.remaining.toNat < 0xFF →
          (t.gen n).remaining = g.remaining - 1 ∧ (t.gen n).state = .running
          ∧ (t.gen n).period = some (u.after g.config.burstPeriod))
      -- the attempt: what it leaves of the generator besides the countdown
      ∧ (let attempted := fun x : Generator => t.gen n = { x with
            remaining := (t.gen n).remaining, state := (t.gen n).state, period := (t.gen n).period }
        let issued := attempted { g with
          next := g.next + 1, pendings := pending, counters := { g.counters with issued := bump g.counters.issued } }
        let suppressed := attempted { g with
          counters := { g.counters with suppressed := bump g.counters.suppressed } }
        (p.state ≠ .active → suppressed ∧ t.port n = p ∧ t.agent = s.agent ∧ t.notices = s.notices)
        ∧ (∀ q qs, p.state = .active → g.pendings = q :: qs → 7 ≤ qs.length →
          attempted { g with counters := { g.counters with overrun := bump g.counters.overrun } } ∧ t.port n = p
          ∧ t.agent = s.agent ∧ t.notices = (offerNotice (.triggerOverrun n .burst q.number) u).notices)
        ∧ (p.state = .active → g.pendings.length < 8 → p.outTrigs.length + p.outMreqs.length < 4 →
          issued ∧ t.port n = { p with outTrigs := p.outTrigs ++ [⟨g.next, 0x02, 0xFF⟩] } ∧ t.agent = s.agent
          ∧ t.notices = s.notices)
        ∧ (∀ m, p.state = .active → g.pendings.length < 8 → 4 ≤ p.outTrigs.length + p.outMreqs.length →
          p.outMreqs.getLast? = some m →
          issued ∧ t.port n = { p with
            outTrigs := p.outTrigs ++ [⟨g.next, 0x02, 0xFF⟩], outMreqs := p.outMreqs.dropLast }
          ∧ t.notices = s.notices ∧ t.agent = { s.agent with
            dropped := bump s.agent.dropped
            replies := s.agent.replies ++ (if s.agent.replies.length + s.agent.reserved.toNat < 16
              then [⟨0x0F, m.tag, [m.op, 0x09, 0x01], false⟩] else []) })
        ∧ (p.state = .active → g.pendings.length < 8 → 4 ≤ p.outTrigs.length → p.outMreqs = [] →
          suppressed ∧ t.port n = p ∧ t.agent = s.agent ∧ t.notices = s.notices))

/-- At a window's expiry, part time at the deadline at least (log entry 5), each entry index still outstanding draws a
TRIGGER_MISSED notice of reason WINDOW with the port, the trigger number and that index, in ascending entry index, and
MISSED counts once for each; the pending entry leaves the list, and the generator's other fields do not change. -/
def Obligations.WindowExpiryReportsMissed : Prop :=
  ∀ (n : PortId) (k : Half) (p : PendingTrigger) (s : State),
    (s.gen n).pendings.find? (fun p => p.number == k) = some p →
    let missed := (List.finRange 32).filter fun e => e ∈ p.outstanding
    ∃ t, exec (.windowExpiry n k) s = .next t
      ∧ t.gen n = { s.gen n with
          pendings := (s.gen n).pendings.erase p,
          counters := { (s.gen n).counters with missed := bump^[missed.length] (s.gen n).counters.missed } }
      ∧ t.notices = (forEach (missed.map fun e => .triggerMissed n k e true) offerNotice
          (atDeadline p.deadline s)).notices
      ∧ (∀ m, m ≠ n → t.gen m = s.gen m) ∧ t.ports = s.ports ∧ t.entries = s.entries ∧ t.store = s.store
      ∧ t.agent = s.agent ∧ t.partTime = (atDeadline p.deadline s).partTime

/-- TRIG_CONFIG: a field out of range draws BAD_ARGUMENT, a generator that is not IDLE BUSY; otherwise the configuration
is stored and the line tracker restarts on the line it now watches. -/
def Obligations.TrigConfigStoresWhenIdle : Prop :=
  ∀ (tag : Half) (b : TrigBlock) (s : State), s.mayTake →
    (∀ a : Byte, (8 ≤ a.toNat ∨ trigConfigOf b = none) →
      exec (.trigConfig tag a b) s = .next (s.withReply tag 0x38 0x04 []))
    ∧ ∀ (n : PortId) (c : TrigConfig), trigConfigOf b = some c →
      ((s.gen n).state ≠ .idle →
        exec (.trigConfig tag (byteOf n.val) b) s = .next (s.withReply tag 0x38 0x06 []))
      ∧ ((s.gen n).state = .idle →
        exec (.trigConfig tag (byteOf n.val) b) s = .next ((s.setGen n { s.gen n with
          config := c, level := rawLevel s c, debounce := none }).withReply tag 0x38 0x00 [0x00]))

/-- TRIG_START: a port out of range or source NONE draws BAD_ARGUMENT, a generator that is not IDLE BUSY. A LINE
generator becomes ARMED; a BURST generator loads remaining and becomes RUNNING with its period timer started, or PAUSED
with it stopped when a gate is inactive. -/
def Obligations.TrigStartBySource : Prop :=
  ∀ (tag : Half) (s : State), s.mayTake →
    (∀ a : Byte, 8 ≤ a.toNat → exec (.trigStart tag a) s = .next (s.withReply tag 0x39 0x04 []))
    ∧ ∀ n : PortId,
      ((s.gen n).config.source = .none →
        exec (.trigStart tag (byteOf n.val)) s = .next (s.withReply tag 0x39 0x04 []))
      ∧ ((s.gen n).config.source ≠ .none → (s.gen n).state ≠ .idle →
        exec (.trigStart tag (byteOf n.val)) s = .next (s.withReply tag 0x39 0x06 []))
      ∧ ((s.gen n).config.source = .line → (s.gen n).state = .idle →
        exec (.trigStart tag (byteOf n.val)) s = .next ((s.setGen n { s.gen n with
          state := .armed }).withReply tag 0x39 0x00 [0x01]))
      ∧ ((s.gen n).config.source = .burst → (s.gen n).state = .idle →
        (∀ l, (s.gen n).config.gate = some l → (s.gen n).level = (s.gen n).config.gateLevel) →
        exec (.trigStart tag (byteOf n.val)) s = .next ((s.setGen n { s.gen n with
          state := .running, remaining := (s.gen n).config.burstCount,
          period := some (s.after (s.gen n).config.burstPeriod) }).withReply tag 0x39 0x00 [0x02]))
      ∧ (∀ l, (s.gen n).config.source = .burst → (s.gen n).state = .idle → (s.gen n).config.gate = some l →
        (s.gen n).level ≠ (s.gen n).config.gateLevel →
        exec (.trigStart tag (byteOf n.val)) s = .next ((s.setGen n { s.gen n with
          state := .paused, remaining := (s.gen n).config.burstCount, period := none }).withReply tag 0x39 0x00
            [0x03]))

/-- TRIG_STOP: a port out of range draws BAD_ARGUMENT. From any state the period timer stops and the generator is IDLE;
remaining and the pending list are kept, and the reply gives the state before and remaining. -/
def Obligations.TrigStopEntersIdle : Prop :=
  ∀ (tag : Half) (s : State), s.mayTake →
    (∀ a : Byte, 8 ≤ a.toNat → exec (.trigStop tag a) s = .next (s.withReply tag 0x3A 0x04 []))
    ∧ ∀ n : PortId, exec (.trigStop tag (byteOf n.val)) s = .next ((s.setGen n { s.gen n with
        state := .idle, period := none }).withReply tag 0x3A 0x00 [(s.gen n).state.code, (s.gen n).remaining])

/-- TRIG_NOW: a port out of range draws BAD_ARGUMENT. On a port that is not ACTIVE the trigger is SUPPRESSED and counted;
with the pending list full it is OVERRUN, counted and noticed. On an ACTIVE port with room in its output queue it is
issued: the TRIG joins the queue, the next number advances, ISSUED counts, and a pending entry with the deadline one
window ahead is appended when a correlated entry is on the port. Into a full output queue that holds an MREQ it is issued
too, and displaces the MREQ accepted last, which draws PORT_DOWN with reason 01h while the reply queue has a place besides
the reply of the request itself, and counts in DROPPED either way; a queue of 4 TRIGs refuses it, and it is
SUPPRESSED. -/
def Obligations.TrigNowIssues : Prop :=
  ∀ (tag : Half) (s : State), s.mayTake →
    (∀ a : Byte, 8 ≤ a.toNat → exec (.trigNow tag a) s = .next (s.withReply tag 0x3B 0x04 []))
    ∧ ∀ n : PortId,
      ((s.port n).state ≠ .active →
        exec (.trigNow tag (byteOf n.val)) s = .next ((s.setGen n { s.gen n with
          counters := { (s.gen n).counters with suppressed := bump (s.gen n).counters.suppressed } }).withReply tag
            0x3B 0x00 (0x01 :: halfBytes (s.gen n).next)))
      ∧ (∀ p ps, (s.port n).state = .active → (s.gen n).pendings = p :: ps → 7 ≤ ps.length →
        exec (.trigNow tag (byteOf n.val)) s = .next ((offerNotice (.triggerOverrun n .request p.number)
          (s.setGen n { s.gen n with
            counters := { (s.gen n).counters with overrun := bump (s.gen n).counters.overrun } })).withReply tag
              0x3B 0x00 (0x02 :: halfBytes (s.gen n).next)))
      ∧ ((s.port n).state = .active → (s.gen n).pendings.length < 8 →
        (s.port n).outTrigs.length + (s.port n).outMreqs.length < 4 →
        exec (.trigNow tag (byteOf n.val)) s = .next (((s.setPort n { s.port n with
            outTrigs := (s.port n).outTrigs ++ [⟨(s.gen n).next, 0x03, 0xFF⟩] }).setGen n { s.gen n with
            next := (s.gen n).next + 1,
            counters := { (s.gen n).counters with issued := bump (s.gen n).counters.issued },
            pendings := (s.gen n).pendings ++ (if correlatedOn s n = [] then [] else
              [⟨(s.gen n).next, s.partTime, s.after ((s.gen n).config.window * 100), correlatedOn s n⟩]) }).withReply
            tag 0x3B 0x00 (0x00 :: halfBytes (s.gen n).next)))
      ∧ (∀ m, (s.port n).state = .active → (s.gen n).pendings.length < 8 →
        4 ≤ (s.port n).outTrigs.length + (s.port n).outMreqs.length → (s.port n).outMreqs.getLast? = some m →
        exec (.trigNow tag (byteOf n.val)) s = .next (({ (s.setPort n { s.port n with
            outTrigs := (s.port n).outTrigs ++ [⟨(s.gen n).next, 0x03, 0xFF⟩],
            outMreqs := (s.port n).outMreqs.dropLast }).setGen n { s.gen n with
            next := (s.gen n).next + 1,
            counters := { (s.gen n).counters with issued := bump (s.gen n).counters.issued },
            pendings := (s.gen n).pendings ++ (if correlatedOn s n = [] then [] else
              [⟨(s.gen n).next, s.partTime, s.after ((s.gen n).config.window * 100), correlatedOn s n⟩]) } with
          agent := { s.agent with
            dropped := bump s.agent.dropped
            replies := s.agent.replies ++ (if s.agent.replies.length < 15
              then [⟨0x0F, m.tag, [m.op, 0x09, 0x01], false⟩] else []) } } : State).withReply
            tag 0x3B 0x00 (0x00 :: halfBytes (s.gen n).next)))
      ∧ ((s.port n).state = .active → (s.gen n).pendings.length < 8 → 4 ≤ (s.port n).outTrigs.length →
        (s.port n).outMreqs = [] →
        exec (.trigNow tag (byteOf n.val)) s = .next ((s.setGen n { s.gen n with
          counters := { (s.gen n).counters with suppressed := bump (s.gen n).counters.suppressed } }).withReply tag
            0x3B 0x00 (0x01 :: halfBytes (s.gen n).next)))

/-- TRIG_STATUS reports a generator and its pending list, 8 bytes and 14 for each pending entry, and changes nothing
else; a port out of range draws BAD_ARGUMENT. -/
def Obligations.TrigStatusReports : Prop :=
  ∀ (tag : Half) (s : State), s.mayTake →
    (∀ a : Byte, 8 ≤ a.toNat → exec (.trigStatus tag a) s = .next (s.withReply tag 0x3C 0x04 []))
    ∧ ∀ n : PortId, exec (.trigStatus tag (byteOf n.val)) s = .next (s.withReply tag 0x3C 0x00
        ([byteOf n.val, (s.gen n).state.code, (s.gen n).config.source.code,
          if (s.gen n).config.watched ≠ none ∧ (s.gen n).level = true then 1 else 0, (s.gen n).remaining]
          ++ halfBytes (s.gen n).next ++ [byteOf (s.gen n).pendings.length]
          ++ (s.gen n).pendings.flatMap fun p => halfBytes p.number ++ timeBytes p.issued
            ++ halfOf (windowLeft s.partTime p.deadline) ++ outstandingBytes p.outstanding))

/-! ## Notices and counters -/

/-- The offer of a notice: masked, nothing changes; into a full queue, the lost count alone grows, up to 65535;
otherwise the notice joins the tail with the part time and the sequence number, which advances. -/
def Obligations.NoticeOfferThreeWays : Prop :=
  ∀ (b : NoticeBody) (s : State),
    (b.maskable = true → s.notices.mask.getLsbD b.kind = false → offerNotice b s = s)
    ∧ (b.maskable = false ∨ s.notices.mask.getLsbD b.kind = true →
      (32 ≤ s.notices.queue.length → s.notices.lost ≤ 65535 → offerNotice b s = { s with
        notices := { s.notices with lost := min (s.notices.lost + 1) 65535 } })
      ∧ (s.notices.queue.length < 32 → offerNotice b s = { s with notices := { s.notices with
          queue := s.notices.queue ++ [⟨s.notices.seq, s.partTime, b⟩], seq := s.notices.seq + 1 } }))

/-- SET_NOTICE_MASK: a reserved bit draws BAD_ARGUMENT; otherwise the eight maskable bits are taken as written, the four
unmaskable ones read 1, and the reply gives the mask in force. -/
def Obligations.NoticeMaskKeepsUnmaskable : Prop :=
  ∀ (tag m : Half) (s : State), s.mayTake →
    (m &&& 0xE001 ≠ 0 → exec (.setNoticeMask tag m) s = .next (s.withReply tag 0x40 0x04 []))
    ∧ (m &&& 0xE001 = 0 → exec (.setNoticeMask tag m) s = .next (({ s with
        notices := { s.notices with mask := m ||| 0x1C20 } } : State).withReply tag 0x40 0x00
          (halfBytes (m ||| 0x1C20))))

/-- READ_COUNTERS reports each of the six groups in catalogue order and changes nothing else; CLEAR_COUNTERS gives the
same block and sets the counters of that instance alone to 0, never a gauge; a group or index out of range draws
BAD_ARGUMENT from both. -/
def Obligations.CountersReadAndCleared : Prop :=
  ∀ (tag : Half) (g i : Byte) (s : State), s.mayTake →
    (6 ≤ g.toNat ∨ (g = 0 ∧ 8 ≤ i.toNat) ∨ (g = 1 ∧ 32 ≤ i.toNat) ∨ (g = 2 ∧ i ≠ 0) ∨ (g = 3 ∧ i ≠ 0)
        ∨ (g = 4 ∧ 8 ≤ i.toNat) ∨ (g = 5 ∧ i ≠ 0) →
      exec (.readCounters tag g i) s = .next (s.withReply tag 0x41 0x04 [])
      ∧ exec (.clearCounters tag g i) s = .next (s.withReply tag 0x42 0x04 []))
    ∧ ∀ (vs : List Word) (t : State),
      ((∃ n : PortId, g = 0 ∧ i = byteOf n.val
          ∧ vs = [(s.port n).counters.segIn, (s.port n).counters.badCheck, (s.port n).counters.malformed,
            (s.port n).counters.unknownChannel, (s.port n).counters.orphan, (s.port n).counters.stale]
          ∧ t = s.setPort n { s.port n with counters := ⟨0, 0, 0, 0, 0, 0⟩ })
        ∨ (∃ e : EntryId, g = 1 ∧ i = byteOf e.val
          ∧ vs = [(s.entry e).counters.framesIn, (s.entry e).counters.framesDamaged,
            (s.entry e).counters.framesRefused, (s.entry e).counters.frameGaps,
            (s.entry e).counters.duplicateReplaced, (s.entry e).counters.forwarded,
            (s.entry e).counters.forwardSkipped, (s.entry e).counters.retained, (s.entry e).counters.retainSkipped,
            (s.entry e).counters.evictedDepth, (s.entry e).counters.evictedSpace]
          ∧ t = s.setEntry e { s.entry e with counters := ⟨0, 0, 0, 0, 0, 0, 0, 0, 0, 0, 0⟩ })
        ∨ (g = 2 ∧ i = 0
          ∧ vs = [s.store.reclaims, s.store.pageExhausted, s.store.recordExhausted,
            BitVec.ofNat 32 s.store.freePages.length, BitVec.ofNat 32 s.store.freeRecords.length,
            BitVec.ofNat 32 s.store.reclaim.length]
          ∧ t = { s with store := { s.store with reclaims := 0, pageExhausted := 0, recordExhausted := 0 } })
        ∨ (g = 3 ∧ i = 0 ∧ vs = [s.uplink.segIn, s.uplink.badCheck, s.uplink.segOut, s.uplink.downSkipped]
          ∧ t = { s with uplink := { s.uplink with segIn := 0, badCheck := 0, segOut := 0, downSkipped := 0 } })
        ∨ (∃ n : PortId, g = 4 ∧ i = byteOf n.val
          ∧ vs = [(s.gen n).counters.issued, (s.gen n).counters.matched, (s.gen n).counters.missed,
            (s.gen n).counters.overrun, (s.gen n).counters.suppressed, (s.gen n).counters.unsolicited,
            (s.gen n).counters.abandoned]
          ∧ t = s.setGen n { s.gen n with counters := ⟨0, 0, 0, 0, 0, 0, 0⟩ })
        ∨ (g = 5 ∧ i = 0 ∧ vs = [s.agent.received, s.agent.refusedFull, s.agent.dropped]
          ∧ t = { s with agent := { s.agent with received := 0, refusedFull := 0, dropped := 0 } })) →
      exec (.readCounters tag g i) s = .next (s.withReply tag 0x41 0x00
        (g :: i :: byteOf vs.length :: vs.flatMap wordBytes))
      ∧ exec (.clearCounters tag g i) s = .next (t.withReply tag 0x42 0x00
        (g :: i :: byteOf vs.length :: vs.flatMap wordBytes))

/-! ## Management -/

/-- DESCRIBE reports the part in a 28-byte block and changes nothing else. -/
def Obligations.DescribeReports : Prop :=
  ∀ (tag : Half) (s : State), s.mayTake →
    exec (.describe tag) s = .next (s.withReply tag 0x01 0x00
      ([0x0A, 0x31, 0x08, 0x24, 0x01, 0x08, 0x04, 0x20, 0x10, 0x00, 0x10, 0x00, 0x01, 0x00, 0x10, 0x08, 0x04,
        s.flash.record.cause.code, byteOf s.flash.record.slot.val, if s.flash.record.fallback then 1 else 0,
        byteOf (s.flash.selector.getD 0).val, s.flash.controller.code] ++ timeBytes s.partTime))

/-- RESET_PART: an argument other than 00h to 03h or FFh draws BAD_ARGUMENT. While U is ACTIVE the reply joins and the
agent is RESET_PENDING with the slot. While U is not ACTIVE the part reset takes place at once: every block is at its
reset value (`wholeReset`), the start-up load of the slot is under way with cause PART, set in the start-up record at the
reset (log entry 18), and flash is as the cut of a long operation in flight left it; with none in flight every slot and
the selector are kept. -/
def Obligations.ResetPartWaitsForItsReply : Prop :=
  ∀ (tag : Half) (s : State), s.mayTake →
    (∀ a : Byte, 4 ≤ a.toNat → a ≠ 0xFF → exec (.resetPart tag a) s = .next (s.withReply tag 0x02 0x04 []))
    ∧ (∀ (a : Byte) (k : Option SlotId), (a = 0xFF ∧ k = none ∨ ∃ j : SlotId, a = byteOf j.val ∧ k = some j) →
      (s.uplink.state = .active →
        exec (.resetPart tag a) s = .next { s with agent := { s.agent with
          state := .resetPending k,
          replies := s.agent.replies ++ [⟨0x0F, tag, [0x02, 0x00, a], true⟩] } })
      ∧ (s.uplink.state ≠ .active →
        ∃ t, exec (.resetPart tag a) s = .next t ∧ s.wholeReset t .part k
          ∧ (s.agent.longOp = none → t.flash.slots = s.flash.slots ∧ t.flash.selector = s.flash.selector)))

/-- REQUEST_TAKE. With no request waiting, or the reply queue full, nothing changes. With the agent free the oldest request
leaves the queue and is answered: a route other than 0Fh BAD_ARGUMENT, a code that is not listed BAD_OPERATION, a wrong
length BAD_ARGUMENT, and any of the 27 operations as its own row says of the state without that request; then the taking
goes on from the state so reached. With one request waiting that answer is the whole. -/
def Obligations.RequestTakeExecutesOldest : Prop :=
  ∀ s : State, (s.agent.requests = [] ∨ 16 ≤ s.agent.replies.length → exec .requestTake s = .next s)
    ∧ ∀ (m : Mreq) (ms : List Mreq), s.agent.requests = m :: ms → s.mayTake →
      let rest : State := { s with agent := { s.agent with requests := ms } }
      (m.route ≠ 0x0F → exec .requestTake s = exec .requestTake (rest.withReply m.tag m.op 0x04 []))
      ∧ (m.route = 0x0F → argLengths m.op = none →
        exec .requestTake s = exec .requestTake (rest.withReply m.tag m.op 0x03 []))
      ∧ (∀ ls, m.route = 0x0F → argLengths m.op = some ls → m.args.length ∉ ls →
        exec .requestTake s = exec .requestTake (rest.withReply m.tag m.op 0x04 []))
      ∧ (∀ op, m.route = 0x0F → m.op = opCode op → m.args = opArgs op →
        ∃ u, exec (commandOf m.tag op) rest = .next u ∧ exec .requestTake s = exec .requestTake u)
      ∧ (ms = [] →
        (m.route ≠ 0x0F → exec .requestTake s = .next (rest.withReply m.tag m.op 0x04 []))
        ∧ (m.route = 0x0F → argLengths m.op = none →
          exec .requestTake s = .next (rest.withReply m.tag m.op 0x03 []))
        ∧ (∀ ls, m.route = 0x0F → argLengths m.op = some ls → m.args.length ∉ ls →
          exec .requestTake s = .next (rest.withReply m.tag m.op 0x04 []))
        ∧ ∀ op, m.route = 0x0F → m.op = opCode op → m.args = opArgs op →
          exec .requestTake s = exec (commandOf m.tag op) rest)

/-! ## Profiles, resets and start-up -/

/-- While a long operation is in flight the three long operations are answered BUSY and change nothing. With none in
flight: a slot above 03h draws BAD_ARGUMENT from each of the three; PROFILE_SAVE to slots 1 to 3 snapshots the
configuration in force, makes the slot INVALID (it holds the image under a stored check that does not match, the
complement of the image's: log entry 17) and starts SAVING; to slot 0 it starts SELECTING without a snapshot;
PROFILE_LOAD and BOOT_SELECT of a slot that is not VALID draw BAD_SLOT and of a VALID one start LOADING and SELECTING.
Each accepted one answers STARTED with the slot. A slot that holds nothing is EMPTY, one whose stored check code matches
its image VALID, any other INVALID. -/
def Obligations.LongOperationsStart : Prop :=
  (∀ (tag : Half) (slot : Byte) (s : State), s.mayTake → s.agent.longOp ≠ none →
      exec (.profileSave tag slot) s = .next (s.withReply tag 0x48 0x06 [])
      ∧ exec (.profileLoad tag slot) s = .next (s.withReply tag 0x49 0x06 [])
      ∧ exec (.bootSelect tag slot) s = .next (s.withReply tag 0x4A 0x06 []))
    ∧ ∀ (tag : Half) (s : State), s.mayTake → s.agent.longOp = none →
        (∀ a : Byte, 4 ≤ a.toNat → exec (.profileSave tag a) s = .next (s.withReply tag 0x48 0x04 [])
          ∧ exec (.profileLoad tag a) s = .next (s.withReply tag 0x49 0x04 [])
          ∧ exec (.bootSelect tag a) s = .next (s.withReply tag 0x4A 0x04 []))
        ∧ exec (.profileSave tag 0) s = .next (({ s with
            agent := { s.agent with longOp := some (.save, 0) },
            flash := { s.flash with controller := .selecting, bound := some (s.after 20000) } } : State).withReply tag
              0x48 0x01 [0x00])
        ∧ ∀ k : SlotId,
          ((s.flash.slots[k]).code = (match s.flash.slots[k] with
              | .empty => 0x00 | .written p c => if Profile.check p = c then 0x01 else 0x02))
          ∧ (k ≠ 0 → ∃ p : Profile, exec (.profileSave tag (byteOf k.val)) s = .next (({ s with
              agent := { s.agent with longOp := some (.save, k) },
              flash := { s.flash with
                controller := .saving, bound := some (s.after 80000), staging := some p,
                slots := s.flash.slots.set k (.written p (~~~ Profile.check p)) } } : State).withReply tag 0x48 0x01 [byteOf k.val])
            ∧ (∀ e : EntryId, p.images[e] = (s.entry e).current)
            ∧ (∀ n : PortId, p.ports[n] = ((s.port n).enabled, (s.port n).powered) ∧ p.triggers[n] = (s.gen n).config)
            ∧ p.segSize = s.uplink.segSize ∧ p.replayClass = s.uplink.replayClass ∧ p.backlog = s.uplink.backlog
            ∧ p.mask = s.notices.mask)
          ∧ ((s.flash.slots[k]).code ≠ 0x01 →
            exec (.profileLoad tag (byteOf k.val)) s = .next (s.withReply tag 0x49 0x0A [])
            ∧ exec (.bootSelect tag (byteOf k.val)) s = .next (s.withReply tag 0x4A 0x0A []))
          ∧ ((s.flash.slots[k]).code = 0x01 →
            exec (.profileLoad tag (byteOf k.val)) s = .next (({ s with
              agent := { s.agent with longOp := some (.load, k) },
              flash := { s.flash with controller := .loading, bound := some (s.after 10000) } } : State).withReply tag
                0x49 0x01 [byteOf k.val])
            ∧ exec (.bootSelect tag (byteOf k.val)) s = .next (({ s with
              agent := { s.agent with longOp := some (.select, k) },
              flash := { s.flash with controller := .selecting, bound := some (s.after 20000) } } : State).withReply tag
                0x4A 0x01 [byteOf k.val]))

/-- PROFILE_INFO reports the slot states, the selector, whether it is readable, the controller state and the slot in
flight in an 8-byte block, and changes nothing else. -/
def Obligations.ProfileInfoReports : Prop :=
  ∀ (tag : Half) (s : State), s.mayTake →
    exec (.profileInfo tag) s = .next (s.withReply tag 0x4B 0x00
      [s.flash.slots[0].code, s.flash.slots[1].code, s.flash.slots[2].code, s.flash.slots[3].code,
        byteOf (s.flash.selector.getD 0).val, if s.flash.selector = none then 0 else 1, s.flash.controller.code,
        match s.agent.longOp with | some (_, k) => byteOf k.val | none => 0xFF])

/-- A save to slots 1 to 3 completes: the staged image is in the slot, with its check code, so VALID, and OK when the
verify matches, with a check that does not match it, so INVALID, and WRITE_FAILED when not (log entry 17). A save to slot 0 completes: the selector names slot 0, or is unreadable, with BOOT_REVERTED. A
selection completes: the selector names the slot, or is unreadable. In each case PROFILE_DONE is offered, the controller
is IDLE and no long operation is in flight. (That completion empties the staging buffer is log entry 25.) -/
def Obligations.FlashWorkCompletes : Prop :=
  ∀ (k : SlotId) (v : Bool) (s : State),
    (∀ p, k ≠ 0 → s.agent.longOp = some (.save, k) → s.flash.staging = some p →
      exec (.profileSaveCompletes v) s = .next { offerNotice (.profileDone .save k (if v then .ok else .writeFailed)) s
        with
        agent := { s.agent with longOp := none },
        flash := { s.flash with
          slots := s.flash.slots.set k (.written p (if v then Profile.check p else ~~~ Profile.check p)), controller := .idle, staging := none,
          bound := none } })
    ∧ (s.agent.longOp = some (.save, 0) →
      exec (.bootRevertCompletes v) s = .next { offerNotice (.profileDone .save 0 .bootReverted) s with
        agent := { s.agent with longOp := none },
        flash := { s.flash with
          selector := if v then some 0 else none, controller := .idle, staging := none, bound := none } })
    ∧ (s.agent.longOp = some (.select, k) →
      exec (.bootSelectCompletes v) s = .next { offerNotice (.profileDone .select k
          (if v then .ok else .writeFailed)) s with
        agent := { s.agent with longOp := none },
        flash := { s.flash with
          selector := if v then some k else none, controller := .idle, staging := none, bound := none } })

/-- A profile load completes. Every loaded image is current, nothing is staged and every assembly is IDLE: an open frame
has closed STREAM_CHANGED, counted in FRAMES_IN and FRAMES_DAMAGED, its record closed or freed, its number late on its
channel (log entry 33; stated for an open frame alone on its pair); an identity change leaves an empty ring, no expected
number and the entry's replay requests stream-gone; else the expected number is kept, and an IDLE entry whose loaded
image is the current one keeps all. Every generator is IDLE with its loaded configuration, its
pending list emptied into ABANDONED and its tracker restarted. A port whose settings change acts as at SET_PORT
(`loadedState`): timers, fault flag, and, leaving ACTIVE, its output queue with a reply or DROPPED for each request, in
ascending port order; any other port keeps all. The uplink settings and the mask are the loaded ones, the controller is
IDLE and no long operation is in flight. The notices: those of the frames that close in ascending entry index (log
entry 13), PORT_STATE of the ports that change state in ascending port order, then PROFILE_DONE with outcome OK. -/
def Obligations.ProfileLoadApplies : Prop :=
  ∀ (k : SlotId) (p : Profile) (s : State), s.agent.longOp = some (.load, k) →
    s.flash.slots[k] = .written p (Profile.check p) →
    let room := 16 - (s.agent.replies.length + s.agent.reserved.toNat)
    let removed := allPorts.flatMap (s.loadRemoves p)
    ∃ t, exec .profileLoadCompletes s = .next t
      ∧ (∀ e : EntryId, (t.entry e).current = p.images[e] ∧ (t.entry e).staged = none
          ∧ (t.entry e).assembly = .idle
          ∧ (∀ r, (s.entry e).assembly = .filling r →
            (t.entry e).counters.framesIn = bump (s.entry e).counters.framesIn
            ∧ (t.entry e).counters.framesDamaged = bump (s.entry e).counters.framesDamaged
            ∧ ((t.record r).state = .free
              ∨ (t.record r).state = .closed ∧ (t.record r).close = some .streamChanged))
          ∧ ((∀ r, (s.entry e).assembly ≠ .filling r) →
            (t.entry e).counters.framesIn = (s.entry e).counters.framesIn
            ∧ (t.entry e).counters.framesDamaged = (s.entry e).counters.framesDamaged)
          ∧ (identityDiffers (s.entry e).current p.images[e] = true →
            (t.entry e).ring = [] ∧ (t.entry e).expected = none)
          ∧ (identityDiffers (s.entry e).current p.images[e] = false →
            (t.entry e).expected = (s.entry e).expected)
          ∧ ((s.entry e).assembly = .idle → p.images[e] = (s.entry e).current →
            t.entry e = { s.entry e with staged := none }))
      ∧ t.replay = { s.replay with
          queue := s.replay.queue.map fun q =>
            if identityDiffers (s.entry q.entry).current p.images[q.entry] then { q with gone := true } else q }
      ∧ (∀ n : PortId, t.gen n = { s.gen n with
          config := p.triggers[n], state := .idle, period := none, pendings := [],
          level := rawLevel s p.triggers[n], debounce := none,
          counters := { (s.gen n).counters with
            abandoned := bumpBy (s.gen n).pendings.length (s.gen n).counters.abandoned } })
      ∧ (∀ n : PortId, let old := s.port n
          ((t.port n).enabled, (t.port n).powered) = p.ports[n] ∧ (t.port n).state = s.loadedState p n
          ∧ (t.port n).counters = old.counters
          ∧ (∀ e r, (s.entry e).assembly = .filling r → (s.entry e).current.port = n →
            (∀ f q, (s.entry f).assembly = .filling q → (s.entry f).current.port = n →
              (s.entry f).current.channel = (s.entry e).current.channel → f = e) →
            (t.port n).late[(s.entry e).current.channel] = some (s.record r).frame)
          ∧ (∀ c : Channel, (∀ e r, (s.entry e).assembly = .filling r → (s.entry e).current.port = n →
            (s.entry e).current.channel ≠ c) → (t.port n).late[c] = old.late[c])
          ∧ (p.ports[n] = (old.enabled, old.powered) → t.port n = { old with late := (t.port n).late })
          ∧ (p.ports[n] ≠ (old.enabled, old.powered) →
            (p.ports[n].1 = false → (t.port n).fault = false ∧ (t.port n).ramp = none ∧ (t.port n).silence = none
              ∧ (t.port n).hold = none)
            ∧ (p.ports[n].1 = true → old.state ≠ .off → p.ports[n].2 = old.powered →
              t.port n = { old with enabled := true, late := (t.port n).late })
            ∧ (p.ports[n].1 = true → old.state = .off ∨ p.ports[n].2 ≠ old.powered →
              (t.port n).fault = (old.fault && decide (old.state ≠ .off))
              ∧ (t.port n).ramp = (if p.ports[n].2 then some (s.after 20000) else none)
              ∧ (t.port n).silence = none ∧ (t.port n).hold = none)
            ∧ (old.state = .active → s.loadedState p n ≠ .active →
              (t.port n).outTrigs = [] ∧ (t.port n).outMreqs = [])))
      ∧ t.agent = { s.agent with
          longOp := none
          replies := s.agent.replies ++ (removed.take room).map fun m => ⟨0x0F, m.tag, [m.op, 0x09, 0x00], false⟩
          dropped := bump^[removed.length - room] s.agent.dropped }
      ∧ t.uplink = { s.uplink with segSize := p.segSize, replayClass := p.replayClass, backlog := p.backlog }
      ∧ (∃ closes, s.closeNotices .streamChanged (fun _ => True) closes
        ∧ t.notices = { (forEach (allEntries.flatMap closes ++ allPorts.flatMap (s.loadedNotice p)
            ++ [.profileDone .load k .ok]) offerNotice s).notices with mask := (p.mask &&& 0x03DE) ||| 0x1C20 })
      ∧ t.flash.controller = .idle ∧ t.flash.slots = s.flash.slots ∧ t.flash.record = s.flash.record
      ∧ t.store.mem = s.store.mem

/-- A hard reset puts every block at its reset values (`wholeReset`) and starts start-up from the slot the selector names,
slot 0 when it is unreadable or the slot is found not VALID by its check code. A save in flight leaves its slot INVALID, or
the selector unreadable; a selection in flight leaves the selector unreadable. Ports and generators have the settings of
log entries 9 and 10 until the load, the start-up record is set at the reset (log entry 18), and pin levels and DRAM bytes
are kept (log entries 8 and 11). -/
def Obligations.HardResetRestoresResetValues : Prop :=
  ∀ s : State, ∃ t, exec .hardReset s = .next t ∧ s.wholeReset t .hard none ∧ t.tin = s.tin ∧ t.pg = s.pg

/-- The start-up load completes: every loaded image is current, every generator has its loaded configuration, every port
that is loaded enabled is POWERING or ACQUIRING by its powered setting, the uplink settings and the mask are the loaded
ones, and the controller is IDLE. The notices are offered under the loaded mask: PORT_STATE with reason START_UP of each
enabled port in ascending port order, then BOOT_REPORT, which is the last in the queue. Stated for a part whose blocks
hold their reset values. -/
def Obligations.StartUpLoadApplies : Prop :=
  ∀ (p : Profile) (s : State), s.starting = true →
    s.flash.slots[s.flash.record.slot] = .written p (Profile.check p) →
    (∀ n, s.port n = Port.atReset) → (∀ e, s.entry e = Entry.atReset e) → s.notices = NoticeUnit.atReset →
    ∃ t, exec .startUpLoadCompletes s = .next t ∧ t.starting = false ∧ t.flash.controller = .idle
      ∧ (∀ e : EntryId, (t.entry e).current = p.images[e] ∧ (t.entry e).staged = none)
      ∧ (∀ n : PortId, (t.gen n).config = p.triggers[n]
          ∧ ((t.port n).enabled, (t.port n).powered) = p.ports[n]
          ∧ (t.port n).state
            = if p.ports[n].1 then (if p.ports[n].2 then PortState.powering else .acquiring) else .off)
      ∧ t.uplink.segSize = p.segSize ∧ t.uplink.replayClass = p.replayClass ∧ t.uplink.backlog = p.backlog
      ∧ t.notices.mask = (p.mask &&& 0x03DE) ||| 0x1C20
      ∧ (let report := NoticeBody.bootReport s.flash.record.cause s.flash.record.slot s.flash.record.fallback
            (s.flash.selector.getD 0)
        let states := allPorts.flatMap fun n => if p.ports[n].1 then
            [NoticeBody.portState n .off (if p.ports[n].2 then .powering else .acquiring) .startUp] else []
        t.notices = (forEach (states ++ [report]) offerNotice { s with
            notices := { s.notices with mask := (p.mask &&& 0x03DE) ||| 0x1C20 } }).notices
        ∧ t.notices.queue.getLast?.map (·.body) = some report)
end

