-- ==== Sys2Proof/Laws/Profile.lean ====
section
/-!
SUPPORT. The states of flash slots: when a slot is VALID, and the check code of the factory profile.
-/

namespace Sys2Proof.Machine

open Sys2Proof

-- The kernel computes the check code over the 582 bytes of the image.
set_option maxRecDepth 100000 in
/-- The check code stored behind the factory profile is the one that R2 computes over its image (R171, R172). -/
theorem Profile.check_factory : Profile.check .factory = Profile.factoryCheck := by decide +kernel

/-- A slot is VALID with image `p` exactly when it holds `p` and the check code that R2 computes over `p`. -/
theorem Slot.profile?_eq_some {x : Slot} {p : Profile} : x.profile? = some p ↔ x = .finished p := by
  cases x with
  | empty => simp [Slot.profile?, Slot.finished]
  | written q c =>
    simp only [Slot.profile?, Slot.finished, Slot.written.injEq]
    constructor
    · intro h; split at h
      · next hc => simp only [Option.some.injEq] at h; subst h; exact ⟨rfl, hc.symm⟩
      · cases h
    · rintro ⟨rfl, rfl⟩; simp

/-- A slot whose save was verified is VALID. -/
@[simp] theorem Slot.profile?_finished (p : Profile) : (Slot.finished p).profile? = some p :=
  Slot.profile?_eq_some.2 rfl

/-- Slot 0 as manufactured is VALID. -/
@[simp] theorem Slot.profile?_factory : Slot.factory.profile? = some .factory :=
  Slot.profile?_eq_some.2 (by rw [Slot.factory, Slot.finished, Profile.check_factory])

/-- An invalidated check does not match. -/
theorem Slot.check_ne_not (p : Profile) : Profile.check p ≠ ~~~ Profile.check p := by
  intro h
  have := congrArg (BitVec.getLsbD · 0) h
  simp at this

/-- A slot whose save has not been verified is INVALID. -/
@[simp] theorem Slot.code_unfinished (p : Profile) : (Slot.unfinished p).code = 2 := by
  simp [Slot.unfinished, Slot.code]

/-- It has no image to load. -/
@[simp] theorem Slot.profile?_unfinished (p : Profile) : (Slot.unfinished p).profile? = none := by
  simp [Slot.unfinished, Slot.profile?]

/-- A slot is VALID exactly when it has an image to load. -/
theorem Slot.code_eq_one {x : Slot} : x.code = 1 ↔ x.profile?.isSome = true := by
  cases x with
  | empty => simp [Slot.code, Slot.profile?]
  | written p c => simp only [Slot.code, Slot.profile?]; split <;> simp_all

end Sys2Proof.Machine
end

