-- ==== Sys2Proof/Laws/State.lean ====
section
/-!
SUPPORT. What each update of one part of the state does to every field: true by `rfl`, so that no proof unfolds a
record update; and reading a numbered part after an update.
-/

namespace Sys2Proof.Machine

open Sys2Proof

section mapPort_fields

variable (n : PortId) (f : Port → Port) (s : State)

@[simp] theorem mapPort_pending : (mapPort n f s).pending = s.pending := rfl
@[simp] theorem mapPort_fresh : (mapPort n f s).fresh = s.fresh := rfl
@[simp] theorem mapPort_partTime : (mapPort n f s).partTime = s.partTime := rfl
@[simp] theorem mapPort_starting : (mapPort n f s).starting = s.starting := rfl
@[simp] theorem mapPort_tin : (mapPort n f s).tin = s.tin := rfl
@[simp] theorem mapPort_pg : (mapPort n f s).pg = s.pg := rfl
@[simp] theorem mapPort_gens : (mapPort n f s).gens = s.gens := rfl
@[simp] theorem mapPort_entries : (mapPort n f s).entries = s.entries := rfl
@[simp] theorem mapPort_store : (mapPort n f s).store = s.store := rfl
@[simp] theorem mapPort_uplink : (mapPort n f s).uplink = s.uplink := rfl
@[simp] theorem mapPort_replay : (mapPort n f s).replay = s.replay := rfl
@[simp] theorem mapPort_agent : (mapPort n f s).agent = s.agent := rfl
@[simp] theorem mapPort_notices : (mapPort n f s).notices = s.notices := rfl
@[simp] theorem mapPort_flash : (mapPort n f s).flash = s.flash := rfl
@[simp] theorem mapPort_gen (m : PortId) : (mapPort n f s).gen m = s.gen m := rfl
@[simp] theorem mapPort_entry (m : EntryId) : (mapPort n f s).entry m = s.entry m := rfl
@[simp] theorem mapPort_record (x : RecordId) : (mapPort n f s).record x = s.record x := rfl

end mapPort_fields

section mapGen_fields

variable (n : PortId) (f : Generator → Generator) (s : State)

@[simp] theorem mapGen_pending : (mapGen n f s).pending = s.pending := rfl
@[simp] theorem mapGen_fresh : (mapGen n f s).fresh = s.fresh := rfl
@[simp] theorem mapGen_partTime : (mapGen n f s).partTime = s.partTime := rfl
@[simp] theorem mapGen_starting : (mapGen n f s).starting = s.starting := rfl
@[simp] theorem mapGen_tin : (mapGen n f s).tin = s.tin := rfl
@[simp] theorem mapGen_pg : (mapGen n f s).pg = s.pg := rfl
@[simp] theorem mapGen_ports : (mapGen n f s).ports = s.ports := rfl
@[simp] theorem mapGen_entries : (mapGen n f s).entries = s.entries := rfl
@[simp] theorem mapGen_store : (mapGen n f s).store = s.store := rfl
@[simp] theorem mapGen_uplink : (mapGen n f s).uplink = s.uplink := rfl
@[simp] theorem mapGen_replay : (mapGen n f s).replay = s.replay := rfl
@[simp] theorem mapGen_agent : (mapGen n f s).agent = s.agent := rfl
@[simp] theorem mapGen_notices : (mapGen n f s).notices = s.notices := rfl
@[simp] theorem mapGen_flash : (mapGen n f s).flash = s.flash := rfl
@[simp] theorem mapGen_port (m : PortId) : (mapGen n f s).port m = s.port m := rfl
@[simp] theorem mapGen_entry (m : EntryId) : (mapGen n f s).entry m = s.entry m := rfl
@[simp] theorem mapGen_record (x : RecordId) : (mapGen n f s).record x = s.record x := rfl

end mapGen_fields

section mapEntry_fields

variable (e : EntryId) (f : Entry → Entry) (s : State)

@[simp] theorem mapEntry_pending : (mapEntry e f s).pending = s.pending := rfl
@[simp] theorem mapEntry_fresh : (mapEntry e f s).fresh = s.fresh := rfl
@[simp] theorem mapEntry_partTime : (mapEntry e f s).partTime = s.partTime := rfl
@[simp] theorem mapEntry_starting : (mapEntry e f s).starting = s.starting := rfl
@[simp] theorem mapEntry_tin : (mapEntry e f s).tin = s.tin := rfl
@[simp] theorem mapEntry_pg : (mapEntry e f s).pg = s.pg := rfl
@[simp] theorem mapEntry_ports : (mapEntry e f s).ports = s.ports := rfl
@[simp] theorem mapEntry_gens : (mapEntry e f s).gens = s.gens := rfl
@[simp] theorem mapEntry_store : (mapEntry e f s).store = s.store := rfl
@[simp] theorem mapEntry_uplink : (mapEntry e f s).uplink = s.uplink := rfl
@[simp] theorem mapEntry_replay : (mapEntry e f s).replay = s.replay := rfl
@[simp] theorem mapEntry_agent : (mapEntry e f s).agent = s.agent := rfl
@[simp] theorem mapEntry_notices : (mapEntry e f s).notices = s.notices := rfl
@[simp] theorem mapEntry_flash : (mapEntry e f s).flash = s.flash := rfl
@[simp] theorem mapEntry_port (m : PortId) : (mapEntry e f s).port m = s.port m := rfl
@[simp] theorem mapEntry_gen (m : PortId) : (mapEntry e f s).gen m = s.gen m := rfl
@[simp] theorem mapEntry_record (x : RecordId) : (mapEntry e f s).record x = s.record x := rfl

end mapEntry_fields

section mapStore_fields

variable (f : Store → Store) (s : State)

@[simp] theorem mapStore_pending : (mapStore f s).pending = s.pending := rfl
@[simp] theorem mapStore_fresh : (mapStore f s).fresh = s.fresh := rfl
@[simp] theorem mapStore_partTime : (mapStore f s).partTime = s.partTime := rfl
@[simp] theorem mapStore_starting : (mapStore f s).starting = s.starting := rfl
@[simp] theorem mapStore_tin : (mapStore f s).tin = s.tin := rfl
@[simp] theorem mapStore_pg : (mapStore f s).pg = s.pg := rfl
@[simp] theorem mapStore_ports : (mapStore f s).ports = s.ports := rfl
@[simp] theorem mapStore_gens : (mapStore f s).gens = s.gens := rfl
@[simp] theorem mapStore_entries : (mapStore f s).entries = s.entries := rfl
@[simp] theorem mapStore_uplink : (mapStore f s).uplink = s.uplink := rfl
@[simp] theorem mapStore_replay : (mapStore f s).replay = s.replay := rfl
@[simp] theorem mapStore_agent : (mapStore f s).agent = s.agent := rfl
@[simp] theorem mapStore_notices : (mapStore f s).notices = s.notices := rfl
@[simp] theorem mapStore_flash : (mapStore f s).flash = s.flash := rfl
@[simp] theorem mapStore_store : (mapStore f s).store = f s.store := rfl
@[simp] theorem mapStore_port (m : PortId) : (mapStore f s).port m = s.port m := rfl
@[simp] theorem mapStore_gen (m : PortId) : (mapStore f s).gen m = s.gen m := rfl
@[simp] theorem mapStore_entry (m : EntryId) : (mapStore f s).entry m = s.entry m := rfl

end mapStore_fields

section mapRecord_fields

variable (r : RecordId) (f : Record → Record) (s : State)

@[simp] theorem mapRecord_pending : (mapRecord r f s).pending = s.pending := rfl
@[simp] theorem mapRecord_fresh : (mapRecord r f s).fresh = s.fresh := rfl
@[simp] theorem mapRecord_partTime : (mapRecord r f s).partTime = s.partTime := rfl
@[simp] theorem mapRecord_starting : (mapRecord r f s).starting = s.starting := rfl
@[simp] theorem mapRecord_tin : (mapRecord r f s).tin = s.tin := rfl
@[simp] theorem mapRecord_pg : (mapRecord r f s).pg = s.pg := rfl
@[simp] theorem mapRecord_ports : (mapRecord r f s).ports = s.ports := rfl
@[simp] theorem mapRecord_gens : (mapRecord r f s).gens = s.gens := rfl
@[simp] theorem mapRecord_entries : (mapRecord r f s).entries = s.entries := rfl
@[simp] theorem mapRecord_uplink : (mapRecord r f s).uplink = s.uplink := rfl
@[simp] theorem mapRecord_replay : (mapRecord r f s).replay = s.replay := rfl
@[simp] theorem mapRecord_agent : (mapRecord r f s).agent = s.agent := rfl
@[simp] theorem mapRecord_notices : (mapRecord r f s).notices = s.notices := rfl
@[simp] theorem mapRecord_flash : (mapRecord r f s).flash = s.flash := rfl
@[simp] theorem mapRecord_freeRecords : (mapRecord r f s).store.freeRecords = s.store.freeRecords := rfl
@[simp] theorem mapRecord_freePages : (mapRecord r f s).store.freePages = s.store.freePages := rfl
@[simp] theorem mapRecord_reclaim : (mapRecord r f s).store.reclaim = s.store.reclaim := rfl
@[simp] theorem mapRecord_mem : (mapRecord r f s).store.mem = s.store.mem := rfl
@[simp] theorem mapRecord_reclaims : (mapRecord r f s).store.reclaims = s.store.reclaims := rfl
@[simp] theorem mapRecord_pageExhausted : (mapRecord r f s).store.pageExhausted = s.store.pageExhausted := rfl
@[simp] theorem mapRecord_recordExhausted : (mapRecord r f s).store.recordExhausted = s.store.recordExhausted := rfl
@[simp] theorem mapRecord_port (m : PortId) : (mapRecord r f s).port m = s.port m := rfl
@[simp] theorem mapRecord_gen (m : PortId) : (mapRecord r f s).gen m = s.gen m := rfl
@[simp] theorem mapRecord_entry (m : EntryId) : (mapRecord r f s).entry m = s.entry m := rfl

end mapRecord_fields

section mapUplink_fields

variable (f : Uplink → Uplink) (s : State)

@[simp] theorem mapUplink_pending : (mapUplink f s).pending = s.pending := rfl
@[simp] theorem mapUplink_fresh : (mapUplink f s).fresh = s.fresh := rfl
@[simp] theorem mapUplink_partTime : (mapUplink f s).partTime = s.partTime := rfl
@[simp] theorem mapUplink_starting : (mapUplink f s).starting = s.starting := rfl
@[simp] theorem mapUplink_tin : (mapUplink f s).tin = s.tin := rfl
@[simp] theorem mapUplink_pg : (mapUplink f s).pg = s.pg := rfl
@[simp] theorem mapUplink_ports : (mapUplink f s).ports = s.ports := rfl
@[simp] theorem mapUplink_gens : (mapUplink f s).gens = s.gens := rfl
@[simp] theorem mapUplink_entries : (mapUplink f s).entries = s.entries := rfl
@[simp] theorem mapUplink_store : (mapUplink f s).store = s.store := rfl
@[simp] theorem mapUplink_replay : (mapUplink f s).replay = s.replay := rfl
@[simp] theorem mapUplink_agent : (mapUplink f s).agent = s.agent := rfl
@[simp] theorem mapUplink_notices : (mapUplink f s).notices = s.notices := rfl
@[simp] theorem mapUplink_flash : (mapUplink f s).flash = s.flash := rfl
@[simp] theorem mapUplink_uplink : (mapUplink f s).uplink = f s.uplink := rfl
@[simp] theorem mapUplink_port (m : PortId) : (mapUplink f s).port m = s.port m := rfl
@[simp] theorem mapUplink_gen (m : PortId) : (mapUplink f s).gen m = s.gen m := rfl
@[simp] theorem mapUplink_entry (m : EntryId) : (mapUplink f s).entry m = s.entry m := rfl
@[simp] theorem mapUplink_record (x : RecordId) : (mapUplink f s).record x = s.record x := rfl

end mapUplink_fields

section mapReplay_fields

variable (f : ReplayService → ReplayService) (s : State)

@[simp] theorem mapReplay_pending : (mapReplay f s).pending = s.pending := rfl
@[simp] theorem mapReplay_fresh : (mapReplay f s).fresh = s.fresh := rfl
@[simp] theorem mapReplay_partTime : (mapReplay f s).partTime = s.partTime := rfl
@[simp] theorem mapReplay_starting : (mapReplay f s).starting = s.starting := rfl
@[simp] theorem mapReplay_tin : (mapReplay f s).tin = s.tin := rfl
@[simp] theorem mapReplay_pg : (mapReplay f s).pg = s.pg := rfl
@[simp] theorem mapReplay_ports : (mapReplay f s).ports = s.ports := rfl
@[simp] theorem mapReplay_gens : (mapReplay f s).gens = s.gens := rfl
@[simp] theorem mapReplay_entries : (mapReplay f s).entries = s.entries := rfl
@[simp] theorem mapReplay_store : (mapReplay f s).store = s.store := rfl
@[simp] theorem mapReplay_uplink : (mapReplay f s).uplink = s.uplink := rfl
@[simp] theorem mapReplay_agent : (mapReplay f s).agent = s.agent := rfl
@[simp] theorem mapReplay_notices : (mapReplay f s).notices = s.notices := rfl
@[simp] theorem mapReplay_flash : (mapReplay f s).flash = s.flash := rfl
@[simp] theorem mapReplay_replay : (mapReplay f s).replay = f s.replay := rfl
@[simp] theorem mapReplay_port (m : PortId) : (mapReplay f s).port m = s.port m := rfl
@[simp] theorem mapReplay_gen (m : PortId) : (mapReplay f s).gen m = s.gen m := rfl
@[simp] theorem mapReplay_entry (m : EntryId) : (mapReplay f s).entry m = s.entry m := rfl
@[simp] theorem mapReplay_record (x : RecordId) : (mapReplay f s).record x = s.record x := rfl

end mapReplay_fields

section mapAgent_fields

variable (f : Agent → Agent) (s : State)

@[simp] theorem mapAgent_pending : (mapAgent f s).pending = s.pending := rfl
@[simp] theorem mapAgent_fresh : (mapAgent f s).fresh = s.fresh := rfl
@[simp] theorem mapAgent_partTime : (mapAgent f s).partTime = s.partTime := rfl
@[simp] theorem mapAgent_starting : (mapAgent f s).starting = s.starting := rfl
@[simp] theorem mapAgent_tin : (mapAgent f s).tin = s.tin := rfl
@[simp] theorem mapAgent_pg : (mapAgent f s).pg = s.pg := rfl
@[simp] theorem mapAgent_ports : (mapAgent f s).ports = s.ports := rfl
@[simp] theorem mapAgent_gens : (mapAgent f s).gens = s.gens := rfl
@[simp] theorem mapAgent_entries : (mapAgent f s).entries = s.entries := rfl
@[simp] theorem mapAgent_store : (mapAgent f s).store = s.store := rfl
@[simp] theorem mapAgent_uplink : (mapAgent f s).uplink = s.uplink := rfl
@[simp] theorem mapAgent_replay : (mapAgent f s).replay = s.replay := rfl
@[simp] theorem mapAgent_notices : (mapAgent f s).notices = s.notices := rfl
@[simp] theorem mapAgent_flash : (mapAgent f s).flash = s.flash := rfl
@[simp] theorem mapAgent_agent : (mapAgent f s).agent = f s.agent := rfl
@[simp] theorem mapAgent_port (m : PortId) : (mapAgent f s).port m = s.port m := rfl
@[simp] theorem mapAgent_gen (m : PortId) : (mapAgent f s).gen m = s.gen m := rfl
@[simp] theorem mapAgent_entry (m : EntryId) : (mapAgent f s).entry m = s.entry m := rfl
@[simp] theorem mapAgent_record (x : RecordId) : (mapAgent f s).record x = s.record x := rfl

end mapAgent_fields

section mapNotices_fields

variable (f : NoticeUnit → NoticeUnit) (s : State)

@[simp] theorem mapNotices_pending : (mapNotices f s).pending = s.pending := rfl
@[simp] theorem mapNotices_fresh : (mapNotices f s).fresh = s.fresh := rfl
@[simp] theorem mapNotices_partTime : (mapNotices f s).partTime = s.partTime := rfl
@[simp] theorem mapNotices_starting : (mapNotices f s).starting = s.starting := rfl
@[simp] theorem mapNotices_tin : (mapNotices f s).tin = s.tin := rfl
@[simp] theorem mapNotices_pg : (mapNotices f s).pg = s.pg := rfl
@[simp] theorem mapNotices_ports : (mapNotices f s).ports = s.ports := rfl
@[simp] theorem mapNotices_gens : (mapNotices f s).gens = s.gens := rfl
@[simp] theorem mapNotices_entries : (mapNotices f s).entries = s.entries := rfl
@[simp] theorem mapNotices_store : (mapNotices f s).store = s.store := rfl
@[simp] theorem mapNotices_uplink : (mapNotices f s).uplink = s.uplink := rfl
@[simp] theorem mapNotices_replay : (mapNotices f s).replay = s.replay := rfl
@[simp] theorem mapNotices_agent : (mapNotices f s).agent = s.agent := rfl
@[simp] theorem mapNotices_flash : (mapNotices f s).flash = s.flash := rfl
@[simp] theorem mapNotices_notices : (mapNotices f s).notices = f s.notices := rfl
@[simp] theorem mapNotices_port (m : PortId) : (mapNotices f s).port m = s.port m := rfl
@[simp] theorem mapNotices_gen (m : PortId) : (mapNotices f s).gen m = s.gen m := rfl
@[simp] theorem mapNotices_entry (m : EntryId) : (mapNotices f s).entry m = s.entry m := rfl
@[simp] theorem mapNotices_record (x : RecordId) : (mapNotices f s).record x = s.record x := rfl

end mapNotices_fields

section mapFlash_fields

variable (f : ProfileStore → ProfileStore) (s : State)

@[simp] theorem mapFlash_pending : (mapFlash f s).pending = s.pending := rfl
@[simp] theorem mapFlash_fresh : (mapFlash f s).fresh = s.fresh := rfl
@[simp] theorem mapFlash_partTime : (mapFlash f s).partTime = s.partTime := rfl
@[simp] theorem mapFlash_starting : (mapFlash f s).starting = s.starting := rfl
@[simp] theorem mapFlash_tin : (mapFlash f s).tin = s.tin := rfl
@[simp] theorem mapFlash_pg : (mapFlash f s).pg = s.pg := rfl
@[simp] theorem mapFlash_ports : (mapFlash f s).ports = s.ports := rfl
@[simp] theorem mapFlash_gens : (mapFlash f s).gens = s.gens := rfl
@[simp] theorem mapFlash_entries : (mapFlash f s).entries = s.entries := rfl
@[simp] theorem mapFlash_store : (mapFlash f s).store = s.store := rfl
@[simp] theorem mapFlash_uplink : (mapFlash f s).uplink = s.uplink := rfl
@[simp] theorem mapFlash_replay : (mapFlash f s).replay = s.replay := rfl
@[simp] theorem mapFlash_agent : (mapFlash f s).agent = s.agent := rfl
@[simp] theorem mapFlash_notices : (mapFlash f s).notices = s.notices := rfl
@[simp] theorem mapFlash_flash : (mapFlash f s).flash = f s.flash := rfl
@[simp] theorem mapFlash_port (m : PortId) : (mapFlash f s).port m = s.port m := rfl
@[simp] theorem mapFlash_gen (m : PortId) : (mapFlash f s).gen m = s.gen m := rfl
@[simp] theorem mapFlash_entry (m : EntryId) : (mapFlash f s).entry m = s.entry m := rfl
@[simp] theorem mapFlash_record (x : RecordId) : (mapFlash f s).record x = s.record x := rfl

end mapFlash_fields

/-- Reading the numbered part that was updated. -/
@[simp] theorem mapPort_port_self (n : PortId) (f : Port → Port) (s : State) : (mapPort n f s).port n = f (s.port n) := by
  simp [mapPort, State.port]

/-- Reading another numbered part. -/
theorem mapPort_port_ne (n : PortId) (f : Port → Port) (s : State) (m : PortId) (h : m ≠ n) :
    (mapPort n f s).port m = s.port m := by
  have h' : (n : Nat) ≠ m := fun e => h (Fin.ext e.symm)
  simp [mapPort, State.port, h']

/-- Reading any numbered part after the update of one. -/
theorem mapPort_port (n : PortId) (f : Port → Port) (s : State) (m : PortId) :
    (mapPort n f s).port m = if m = n then f (s.port n) else s.port m := by
  split
  · next h => subst h; simp
  · next h => exact mapPort_port_ne n f s m h

/-- Reading the numbered part that was updated. -/
@[simp] theorem mapGen_gen_self (n : PortId) (f : Generator → Generator) (s : State) : (mapGen n f s).gen n = f (s.gen n) := by
  simp [mapGen, State.gen]

/-- Reading another numbered part. -/
theorem mapGen_gen_ne (n : PortId) (f : Generator → Generator) (s : State) (m : PortId) (h : m ≠ n) :
    (mapGen n f s).gen m = s.gen m := by
  have h' : (n : Nat) ≠ m := fun e => h (Fin.ext e.symm)
  simp [mapGen, State.gen, h']

/-- Reading any numbered part after the update of one. -/
theorem mapGen_gen (n : PortId) (f : Generator → Generator) (s : State) (m : PortId) :
    (mapGen n f s).gen m = if m = n then f (s.gen n) else s.gen m := by
  split
  · next h => subst h; simp
  · next h => exact mapGen_gen_ne n f s m h

/-- Reading the numbered part that was updated. -/
@[simp] theorem mapEntry_entry_self (n : EntryId) (f : Entry → Entry) (s : State) : (mapEntry n f s).entry n = f (s.entry n) := by
  simp [mapEntry, State.entry]

/-- Reading another numbered part. -/
theorem mapEntry_entry_ne (n : EntryId) (f : Entry → Entry) (s : State) (m : EntryId) (h : m ≠ n) :
    (mapEntry n f s).entry m = s.entry m := by
  have h' : (n : Nat) ≠ m := fun e => h (Fin.ext e.symm)
  simp [mapEntry, State.entry, h']

/-- Reading any numbered part after the update of one. -/
theorem mapEntry_entry (n : EntryId) (f : Entry → Entry) (s : State) (m : EntryId) :
    (mapEntry n f s).entry m = if m = n then f (s.entry n) else s.entry m := by
  split
  · next h => subst h; simp
  · next h => exact mapEntry_entry_ne n f s m h

/-- Reading the numbered part that was updated. -/
@[simp] theorem mapRecord_record_self (n : RecordId) (f : Record → Record) (s : State) : (mapRecord n f s).record n = f (s.record n) := by
  simp [mapRecord, State.record]

/-- Reading another numbered part. -/
theorem mapRecord_record_ne (n : RecordId) (f : Record → Record) (s : State) (m : RecordId) (h : m ≠ n) :
    (mapRecord n f s).record m = s.record m := by
  have h' : (n : Nat) ≠ m := fun e => h (Fin.ext e.symm)
  simp [mapRecord, State.record, h']

/-- Reading any numbered part after the update of one. -/
theorem mapRecord_record (n : RecordId) (f : Record → Record) (s : State) (m : RecordId) :
    (mapRecord n f s).record m = if m = n then f (s.record n) else s.record m := by
  split
  · next h => subst h; simp
  · next h => exact mapRecord_record_ne n f s m h

/-- An update that leaves the store's records alone leaves every record. -/
theorem mapStore_record (f : Store → Store) (s : State) (h : (f s.store).records = s.store.records) (x : RecordId) :
    (mapStore f s).record x = s.record x := by
  simp [State.record, mapStore, h]

/-- Two updates of one numbered part are one. -/
@[simp] theorem mapPort_mapPort (n : PortId) (f g : Port → Port) (s : State) :
    mapPort n f (mapPort n g s) = mapPort n (fun p => f (g p)) s := by
  simp [mapPort, State.port]

/-- Updates that agree on the part they meet are equal. -/
theorem mapPort_congr (n : PortId) (f g : Port → Port) (s : State) (h : f (s.port n) = g (s.port n)) :
    mapPort n f s = mapPort n g s := by
  simp [mapPort, h]

/-- Two updates of one numbered part are one. -/
@[simp] theorem mapGen_mapGen (n : PortId) (f g : Generator → Generator) (s : State) :
    mapGen n f (mapGen n g s) = mapGen n (fun p => f (g p)) s := by
  simp [mapGen, State.gen]

/-- Updates that agree on the part they meet are equal. -/
theorem mapGen_congr (n : PortId) (f g : Generator → Generator) (s : State) (h : f (s.gen n) = g (s.gen n)) :
    mapGen n f s = mapGen n g s := by
  simp [mapGen, h]

/-- Two updates of one numbered part are one. -/
@[simp] theorem mapEntry_mapEntry (n : EntryId) (f g : Entry → Entry) (s : State) :
    mapEntry n f (mapEntry n g s) = mapEntry n (fun p => f (g p)) s := by
  simp [mapEntry, State.entry]

/-- Updates that agree on the part they meet are equal. -/
theorem mapEntry_congr (n : EntryId) (f g : Entry → Entry) (s : State) (h : f (s.entry n) = g (s.entry n)) :
    mapEntry n f s = mapEntry n g s := by
  simp [mapEntry, h]

end Sys2Proof.Machine
end

