-- ==== Sys2Proof/Laws/Memory.lean ====
section
/-!
SUPPORT. The memory behind the frame store's pages: writes keep the canonical form, a byte written is read back, every
other byte is unchanged, and what is stored at a frame's offsets is loaded from them.
-/

namespace Sys2Proof.Machine

open Sys2Proof

namespace Memory

/-- The canonical form of a memory with a first cell. -/
theorem wf_cell (a : Nat) (b : Byte) (m : List Host.Cell) :
    wf ((a, b) :: m) = true ↔
      a < Config.storeBytes ∧ b ≠ unlisted ∧ (∀ c ∈ m, a < c.1) ∧ wf m = true := by
  simp [wf, and_assoc]

/-- An address below every listed one reads as unlisted. -/
theorem read_below (m : List Host.Cell) (x : Nat) (h : ∀ c ∈ m, x < c.1) : read m x = unlisted := by
  induction m with
  | nil => rfl
  | cons c m ih =>
    obtain ⟨a, b⟩ := c
    have h1 := h (a, b) (by simp)
    have h2 := ih fun c hc => h c (by simp [hc])
    have : x ≠ a := by simp at h1; omega
    simp [read, this, h2]

/-- A cell put in front keeps the canonical form. -/
theorem wf_cons (a : Nat) (b : Byte) (m : List Host.Cell) (ha : a < Config.storeBytes) (hm : wf m = true)
    (h : ∀ c ∈ m, a < c.1) : wf (cons a b m) = true := by
  unfold cons
  split
  · exact hm
  · next hb => exact (wf_cell a b m).2 ⟨ha, hb, h, hm⟩

/-- Reading behind a cell put in front. -/
theorem read_cons (a : Nat) (b : Byte) (m : List Host.Cell) (h : ∀ c ∈ m, a < c.1) (x : Nat) :
    read (cons a b m) x = if x = a then b else read m x := by
  unfold cons
  split
  · next hb =>
    split
    · next hx => subst hx; rw [read_below m x h, hb]
    · rfl
  · simp [read]

/-- The cells of a written memory: the written one, or old ones. -/
theorem mem_write (m : List Host.Cell) (a : Nat) (b : Byte) : ∀ c ∈ write m a b, c = (a, b) ∨ c ∈ m := by
  induction m with
  | nil =>
    intro c hc
    unfold write cons at hc
    split at hc
    · simp at hc
    · simp at hc; exact Or.inl hc
  | cons d m ih =>
    obtain ⟨a', b'⟩ := d
    intro c hc
    unfold write at hc
    split at hc
    · unfold cons at hc
      split at hc
      · exact Or.inr hc
      · rcases List.mem_cons.1 hc with h | h
        · exact Or.inl h
        · exact Or.inr h
    · split at hc
      · next hx =>
        unfold cons at hc
        split at hc
        · exact Or.inr (List.mem_cons_of_mem _ hc)
        · rcases List.mem_cons.1 hc with h | h
          · exact Or.inl h
          · exact Or.inr (List.mem_cons_of_mem _ h)
      · rcases List.mem_cons.1 hc with h | h
        · exact Or.inr (by simp [h])
        · rcases ih c h with h | h
          · exact Or.inl h
          · exact Or.inr (List.mem_cons_of_mem _ h)

/-- A write keeps the canonical form. -/
theorem wf_write (m : List Host.Cell) (a : Nat) (b : Byte) (ha : a < Config.storeBytes) (hm : wf m = true) :
    wf (write m a b) = true := by
  induction m with
  | nil => exact wf_cons a b [] ha rfl (by simp)
  | cons d m ih =>
    obtain ⟨a', b'⟩ := d
    obtain ⟨h1, h2, h3, h4⟩ := (wf_cell a' b' m).1 hm
    unfold write
    split
    · next hlt =>
      refine wf_cons a b _ ha hm fun c hc => ?_
      rcases List.mem_cons.1 hc with h | h
      · simpa [h] using hlt
      · exact lt_trans hlt (h3 c h)
    · split
      · next hx => subst hx; exact wf_cons a b m ha h4 h3
      · next hlt hne =>
        refine (wf_cell a' b' _).2 ⟨h1, h2, fun c hc => ?_, ih h4⟩
        rcases mem_write m a b c hc with h | h
        · simp [h]; omega
        · exact h3 c h

/-- What every address reads as after a write. -/
theorem read_write (m : List Host.Cell) (a : Nat) (b : Byte) (hm : wf m = true) (x : Nat) :
    read (write m a b) x = if x = a then b else read m x := by
  induction m with
  | nil => exact read_cons a b [] (by simp) x
  | cons d m ih =>
    obtain ⟨a', b'⟩ := d
    obtain ⟨h1, h2, h3, h4⟩ := (wf_cell a' b' m).1 hm
    unfold write
    split
    · next hlt =>
      refine read_cons a b _ (fun c hc => ?_) x
      rcases List.mem_cons.1 hc with h | h
      · simpa [h] using hlt
      · exact lt_trans hlt (h3 c h)
    · split
      · next hx =>
        subst hx
        rw [read_cons a b m h3 x]
        by_cases hxa : x = a <;> simp [read, hxa]
      · next hlt hne =>
        by_cases hxa : x = a'
        · have : ¬ x = a := by omega
          simp [read, hxa]; omega
        · simp [read, hxa, ih h4]

/-- Two canonical memories that read alike everywhere are the same data. -/
theorem eq_of_read (m₁ m₂ : List Host.Cell) (h₁ : wf m₁ = true) (h₂ : wf m₂ = true)
    (h : ∀ x, read m₁ x = read m₂ x) : m₁ = m₂ := by
  induction m₁ generalizing m₂ with
  | nil =>
    cases m₂ with
    | nil => rfl
    | cons d m =>
      obtain ⟨a, b⟩ := d
      obtain ⟨-, h2, -, -⟩ := (wf_cell a b m).1 h₂
      have := h a
      simp [read] at this
      exact absurd this.symm h2
  | cons d m ih =>
    obtain ⟨a, b⟩ := d
    obtain ⟨-, h2, h3, h4⟩ := (wf_cell a b m).1 h₁
    cases m₂ with
    | nil =>
      have := h a
      simp [read] at this
      exact absurd this h2
    | cons d' m' =>
      obtain ⟨a', b'⟩ := d'
      obtain ⟨-, g2, g3, g4⟩ := (wf_cell a' b' m').1 h₂
      have haa : a = a' := by
        rcases lt_trichotomy a a' with hl | he | hg
        · have e := h a
          rw [read_below ((a', b') :: m') a (by
            intro c hc
            rcases List.mem_cons.1 hc with h | h
            · simpa [h] using hl
            · exact lt_trans hl (g3 c h))] at e
          simp [read] at e
          exact absurd e h2
        · exact he
        · have e := h a'
          rw [read_below ((a, b) :: m) a' (by
            intro c hc
            rcases List.mem_cons.1 hc with h | h
            · simpa [h] using hg
            · exact lt_trans hg (h3 c h))] at e
          simp [read] at e
          exact absurd e.symm g2
      subst haa
      have hbb : b = b' := by have e := h a; simpa [read] using e
      subst hbb
      congr 1
      refine ih m' h4 g4 fun x => ?_
      by_cases hx : x = a
      · subst hx; rw [read_below m x h3, read_below m' x g3]
      · have e := h x; simpa [read, hx] using e

end Memory

/-! ## Frames in pages -/

/-- A frame's byte lies inside the store. -/
theorem frameAddress_lt (pages : List PageId) (k : Nat) : frameAddress pages k < Config.storeBytes := by
  have h1 : (pages.getD (k / Config.pageBytes) 0).val < 4096 := (pages.getD (k / Config.pageBytes) 0).isLt
  have h2 : k % Config.pageBytes < 4096 := Nat.mod_lt _ (by decide)
  unfold frameAddress
  simp only [Config.pageBytes, Config.storeBytes] at *
  omega

/-- Storing a frame's bytes keeps the canonical form. -/
theorem wf_storeBytes (pages : List PageId) (k : Nat) (bs : List Byte) (m : List Host.Cell)
    (h : Memory.wf m = true) : Memory.wf (storeBytes pages k bs m) = true := by
  induction bs generalizing k m with
  | nil => exact h
  | cons b bs ih => exact ih (k + 1) _ (Memory.wf_write m _ b (frameAddress_lt pages k) h)

/-- An address outside the stored bytes reads as before. -/
theorem read_storeBytes_of_outside (pages : List PageId) (k : Nat) (bs : List Byte) (m : List Host.Cell)
    (h : Memory.wf m = true) (a : Nat) (ha : ∀ i < bs.length, a ≠ frameAddress pages (k + i)) :
    Memory.read (storeBytes pages k bs m) a = Memory.read m a := by
  induction bs generalizing k m with
  | nil => rfl
  | cons b bs ih =>
    have h0 : a ≠ frameAddress pages k := by simpa using ha 0 (by simp)
    rw [storeBytes, ih (k + 1) _ (Memory.wf_write m _ b (frameAddress_lt pages k) h) fun i hi => by
      have := ha (i + 1) (by simpa using hi)
      rwa [Nat.add_assoc, Nat.add_comm 1 i], Memory.read_write m _ b h]
    simp [h0]

/-- Different offsets of a frame in different pages have different addresses. -/
theorem frameAddress_inj (pages : List PageId) (hp : pages.Nodup) (j k : Nat)
    (hj : j < pages.length * Config.pageBytes) (hk : k < pages.length * Config.pageBytes)
    (h : frameAddress pages j = frameAddress pages k) : j = k := by
  have hj' : j / Config.pageBytes < pages.length := Nat.div_lt_of_lt_mul (by rwa [Nat.mul_comm] at hj)
  have hk' : k / Config.pageBytes < pages.length := Nat.div_lt_of_lt_mul (by rwa [Nat.mul_comm] at hk)
  unfold frameAddress at h
  rw [List.getD_eq_getElem _ _ hj', List.getD_eq_getElem _ _ hk'] at h
  have m1 : j % Config.pageBytes < 4096 := Nat.mod_lt _ (by decide)
  have m2 : k % Config.pageBytes < 4096 := Nat.mod_lt _ (by decide)
  simp only [Config.pageBytes] at *
  have e1 : (pages[j / 4096]).val = (pages[k / 4096]).val := by omega
  have e2 : j % 4096 = k % 4096 := by omega
  have e3 := (List.Nodup.getElem_inj_iff hp).1 (Fin.ext e1)
  omega

/-- A stored byte is read back at its offset. -/
theorem read_storeBytes_of_inside (pages : List PageId) (hp : pages.Nodup) (k : Nat) (bs : List Byte)
    (m : List Host.Cell) (h : Memory.wf m = true) (hfit : k + bs.length ≤ pages.length * Config.pageBytes)
    (i : Nat) (hi : i < bs.length) :
    Memory.read (storeBytes pages k bs m) (frameAddress pages (k + i)) = bs[i] := by
  induction bs generalizing k m i with
  | nil => simp at hi
  | cons b bs ih =>
    have hw := Memory.wf_write m _ b (frameAddress_lt pages k) h
    simp only [List.length_cons] at hfit hi
    cases i with
    | zero =>
      rw [storeBytes, read_storeBytes_of_outside pages (k + 1) bs _ hw _ fun i hi => ?_, Memory.read_write m _ b h]
      · simp
      · intro e
        have := frameAddress_inj pages hp _ _ (by omega) (by omega) e
        omega
    | succ i =>
      have := ih (k + 1) _ hw (by omega) i (by omega)
      rw [storeBytes, show k + (i + 1) = k + 1 + i by omega, this]
      simp

/-- What was stored is loaded back (R75). -/
theorem loadBytes_storeBytes (pages : List PageId) (hp : pages.Nodup) (k : Nat) (bs : List Byte)
    (m : List Host.Cell) (h : Memory.wf m = true) (hfit : k + bs.length ≤ pages.length * Config.pageBytes) :
    loadBytes (storeBytes pages k bs m) pages k bs.length = bs := by
  apply List.ext_getElem
  · simp [loadBytes]
  · intro i h1 h2
    simp only [loadBytes, List.getElem_map, List.getElem_range]
    exact read_storeBytes_of_inside pages hp k bs m h hfit i h2

end Sys2Proof.Machine
end

