-- ==== Sys2Proof/Laws/Moves.lean ====
section
/-!
SUPPORT. What a function of the model can do to the state, said once: `Moves F s t` says that `t` differs from `s` only
in the parts that `F` names, never in the queue of commands nor in the count of free values, and that every law of
Safety.lean that `s` keeps `t` keeps too. Each function of Machine/ has one lemma of this form in the files of Laws/.
-/

namespace Sys2Proof.Machine

open Sys2Proof

/-- The parts of the state that a function may change. -/
structure Touch where
  time : Bool := false
  starting : Bool := false
  tin : Bool := false
  pg : Bool := false
  ports : Bool := false
  gens : Bool := false
  entries : Bool := false
  store : Bool := false
  uplink : Bool := false
  replay : Bool := false
  agent : Bool := false
  notices : Bool := false
  flash : Bool := false
  /-- Pairs and tags may be bound that were not. -/
  images : Bool := false
  /-- The law of bindings may be broken on the way. -/
  rebinds : Bool := false
  deriving DecidableEq, Repr

/-- The valid images of `y` bind only pairs and tags that those of `x` bind. -/
def Entry.boundAs (x y : Entry) : Prop :=
  ∀ i ∈ validImages y, ∃ j ∈ validImages x, i.port = j.port ∧ i.channel = j.channel ∧ i.tag = j.tag

theorem Entry.boundAs.refl (x : Entry) : x.boundAs x := fun i hi => ⟨i, hi, rfl, rfl, rfl⟩

/-- A retention mode binds nothing. -/
theorem boundAs_retention (x : Entry) (m : Retention) :
    x.boundAs { x with current := { x.current with retention := m } } := fun i hi => by
  simp only [validImages, List.mem_filter, List.mem_cons] at hi ⊢
  obtain ⟨rfl | h, v⟩ := hi
  · exact ⟨x.current, ⟨.inl rfl, v⟩, rfl, rfl, rfl⟩
  · exact ⟨i, ⟨.inr h, v⟩, rfl, rfl, rfl⟩

theorem Entry.boundAs.trans {x y z : Entry} (h : x.boundAs y) (g : y.boundAs z) : x.boundAs z := fun i hi => by
  obtain ⟨j, hj, a, b, c⟩ := g i hi
  obtain ⟨k, hk, d, e, f⟩ := h j hj
  exact ⟨k, hk, a.trans d, b.trans e, c.trans f⟩

theorem collides_congr {a b c d : Image} (h : a.port = c.port ∧ a.channel = c.channel ∧ a.tag = c.tag)
    (g : b.port = d.port ∧ b.channel = d.channel ∧ b.tag = d.tag) : collides a b = collides c d := by
  unfold collides
  rw [h.1, h.2.1, h.2.2, g.1, g.2.1, g.2.2]

/-- Entries that bind nothing new keep the law of bindings. -/
theorem bindingLaw_of_bound {s t : State} (h : ∀ e, Entry.boundAs (s.entry e) (t.entry e)) (hf : t.flash = s.flash)
    (b : s.bindingLaw) : t.bindingLaw where
  table e f hne i hi j hj := by
    obtain ⟨i', hi', a⟩ := h e i hi
    obtain ⟨j', hj', c⟩ := h f j hj
    rw [collides_congr a c]
    exact b.table e f hne i' hi' j' hj'
  slots := by rw [hf]; exact b.slots
  staging := by rw [hf]; exact b.staging

/-- `t` comes from `s` by changes of the parts in `F` that keep the laws. -/
structure Moves (F : Touch) (s t : State) : Prop where
  pending : t.pending = s.pending
  fresh : t.fresh = s.fresh
  reserved : t.agent.reserved = s.agent.reserved
  time : F.time = false → t.partTime = s.partTime
  starting : F.starting = false → t.starting = s.starting
  tin : F.tin = false → t.tin = s.tin
  pg : F.pg = false → t.pg = s.pg
  ports : F.ports = false → t.ports = s.ports
  gens : F.gens = false → t.gens = s.gens
  entries : F.entries = false → t.entries = s.entries
  store : F.store = false → t.store = s.store
  uplink : F.uplink = false → t.uplink = s.uplink
  replay : F.replay = false → t.replay = s.replay
  agent : F.agent = false → t.agent = s.agent
  notices : F.notices = false → t.notices = s.notices
  flash : F.flash = false → t.flash = s.flash
  portQ : (∀ n, (s.port n).queueLaw) → ∀ n, (t.port n).queueLaw
  genQ : (∀ n, (s.gen n).pendingLaw) → ∀ n, (t.gen n).pendingLaw
  noteQ : s.notices.queueLaw → t.notices.queueLaw
  agentQ : s.agent.queueLaw → t.agent.queueLaw
  replayQ : s.replay.queueLaw → t.replay.queueLaw
  memory : s.memoryLaw → t.memoryLaw
  factory : s.factoryLaw → t.factoryLaw
  bound : F.images = false → ∀ e, Entry.boundAs (s.entry e) (t.entry e)
  binding : F.rebinds = false → s.bindingLaw → t.bindingLaw

namespace Moves

/-- Nothing changed. -/
theorem refl (F : Touch) (s : State) : Moves F s s where
  pending := rfl
  fresh := rfl
  reserved := rfl
  time _ := rfl
  starting _ := rfl
  tin _ := rfl
  pg _ := rfl
  ports _ := rfl
  gens _ := rfl
  entries _ := rfl
  store _ := rfl
  uplink _ := rfl
  replay _ := rfl
  agent _ := rfl
  notices _ := rfl
  flash _ := rfl
  portQ h := h
  genQ h := h
  noteQ h := h
  agentQ h := h
  replayQ h := h
  memory h := h
  factory h := h
  bound _ _ := .refl _
  binding _ h := h

/-- One change after another. -/
theorem trans {F : Touch} {s t u : State} (h : Moves F s t) (g : Moves F t u) : Moves F s u where
  pending := g.pending.trans h.pending
  fresh := g.fresh.trans h.fresh
  reserved := g.reserved.trans h.reserved
  time x := (g.time x).trans (h.time x)
  starting x := (g.starting x).trans (h.starting x)
  tin x := (g.tin x).trans (h.tin x)
  pg x := (g.pg x).trans (h.pg x)
  ports x := (g.ports x).trans (h.ports x)
  gens x := (g.gens x).trans (h.gens x)
  entries x := (g.entries x).trans (h.entries x)
  store x := (g.store x).trans (h.store x)
  uplink x := (g.uplink x).trans (h.uplink x)
  replay x := (g.replay x).trans (h.replay x)
  agent x := (g.agent x).trans (h.agent x)
  notices x := (g.notices x).trans (h.notices x)
  flash x := (g.flash x).trans (h.flash x)
  portQ x := g.portQ (h.portQ x)
  genQ x := g.genQ (h.genQ x)
  noteQ x := g.noteQ (h.noteQ x)
  agentQ x := g.agentQ (h.agentQ x)
  replayQ x := g.replayQ (h.replayQ x)
  memory x := g.memory (h.memory x)
  factory x := g.factory (h.factory x)
  bound x e := (h.bound x e).trans (g.bound x e)
  binding x b := g.binding x (h.binding x b)

/-- A function applied to a state that has moved. -/
theorem andThen {F : Touch} {s t : State} (f : State → State) (g : ∀ x, Moves F x (f x)) (h : Moves F s t) :
    Moves F s (f t) := h.trans (g t)

/-- The function that is done for each member moves. -/
theorem forEach {F : Touch} {α : Type} (xs : List α) (f : α → State → State) (s : State)
    (h : ∀ x t, Moves F t (f x t)) : Moves F s (Machine.forEach xs f s) := by
  induction xs generalizing s with
  | nil => exact refl F s
  | cons x xs ih => exact (h x s).trans (ih (f x s))

/-- A branch of a test. -/
theorem ite {F : Touch} {s t u : State} (c : Prop) [Decidable c] (h : Moves F s t) (g : Moves F s u) :
    Moves F s (if c then t else u) := by
  split
  · exact h
  · exact g

variable {F : Touch} (s : State)

/-- An update of a downstream port that keeps its queue law. -/
theorem mapPort (n : PortId) (f : Port → Port) (hF : F.ports = true) (h : ∀ p : Port, p.queueLaw → (f p).queueLaw) :
    Moves F s (Machine.mapPort n f s) where
  pending := rfl
  fresh := rfl
  reserved := rfl
  time _ := rfl
  starting _ := rfl
  tin _ := rfl
  pg _ := rfl
  ports x := absurd (hF.symm.trans x) (by decide)
  gens _ := rfl
  entries _ := rfl
  store _ := rfl
  uplink _ := rfl
  replay _ := rfl
  agent _ := rfl
  notices _ := rfl
  flash _ := rfl
  portQ x m := by
    rw [mapPort_port]; split
    · exact h _ (x n)
    · exact x m
  genQ x := x
  noteQ x := x
  agentQ x := x
  replayQ x := x
  memory x := x
  factory x := x
  bound _ _ := .refl _
  binding _ b := ⟨b.table, b.slots, b.staging⟩

/-- An update of a generator that keeps its list law. -/
theorem mapGen (n : PortId) (f : Generator → Generator) (hF : F.gens = true) (h : ∀ g : Generator, g.pendingLaw → (f g).pendingLaw) :
    Moves F s (Machine.mapGen n f s) where
  pending := rfl
  fresh := rfl
  reserved := rfl
  time _ := rfl
  starting _ := rfl
  tin _ := rfl
  pg _ := rfl
  ports _ := rfl
  gens x := absurd (hF.symm.trans x) (by decide)
  entries _ := rfl
  store _ := rfl
  uplink _ := rfl
  replay _ := rfl
  agent _ := rfl
  notices _ := rfl
  flash _ := rfl
  portQ x := x
  genQ x m := by
    rw [mapGen_gen]; split
    · exact h _ (x n)
    · exact x m
  noteQ x := x
  agentQ x := x
  replayQ x := x
  memory x := x
  factory x := x
  bound _ _ := .refl _
  binding _ b := ⟨b.table, b.slots, b.staging⟩

theorem bound_mapEntry (e : EntryId) (f : Entry → Entry) (hb : Entry.boundAs (s.entry e) (f (s.entry e))) (x : EntryId) :
    Entry.boundAs (s.entry x) ((Machine.mapEntry e f s).entry x) := by
  rw [mapEntry_entry]; split
  · next h => rw [h]; exact hb
  · exact .refl _

/-- An update of an entry. -/
theorem mapEntry (e : EntryId) (f : Entry → Entry) (hF : F.entries = true)
    (hb : Entry.boundAs (s.entry e) (f (s.entry e)) := by exact fun i hi => ⟨i, hi, rfl, rfl, rfl⟩) :
    Moves F s (Machine.mapEntry e f s) where
  pending := rfl
  fresh := rfl
  reserved := rfl
  time _ := rfl
  starting _ := rfl
  tin _ := rfl
  pg _ := rfl
  ports _ := rfl
  gens _ := rfl
  entries x := absurd (hF.symm.trans x) (by decide)
  store _ := rfl
  uplink _ := rfl
  replay _ := rfl
  agent _ := rfl
  notices _ := rfl
  flash _ := rfl
  portQ x := x
  genQ x := x
  noteQ x := x
  agentQ x := x
  replayQ x := x
  memory x := x
  factory x := x
  bound _ := bound_mapEntry s e f hb
  binding _ := bindingLaw_of_bound (bound_mapEntry s e f hb) rfl

/-- An update of the store that keeps the form of its memory. -/
theorem mapStore (f : Store → Store) (hF : F.store = true) (h : Memory.wf s.store.mem = true → Memory.wf (f s.store).mem = true) :
    Moves F s (Machine.mapStore f s) where
  pending := rfl
  fresh := rfl
  reserved := rfl
  time _ := rfl
  starting _ := rfl
  tin _ := rfl
  pg _ := rfl
  ports _ := rfl
  gens _ := rfl
  entries _ := rfl
  store x := absurd (hF.symm.trans x) (by decide)
  uplink _ := rfl
  replay _ := rfl
  agent _ := rfl
  notices _ := rfl
  flash _ := rfl
  portQ x := x
  genQ x := x
  noteQ x := x
  agentQ x := x
  replayQ x := x
  memory x := h x
  factory x := x
  bound _ _ := .refl _
  binding _ b := ⟨b.table, b.slots, b.staging⟩

/-- An update of a record. -/
theorem mapRecord (r : RecordId) (f : Record → Record) (hF : F.store = true) :
    Moves F s (Machine.mapRecord r f s) where
  pending := rfl
  fresh := rfl
  reserved := rfl
  time _ := rfl
  starting _ := rfl
  tin _ := rfl
  pg _ := rfl
  ports _ := rfl
  gens _ := rfl
  entries _ := rfl
  store x := absurd (hF.symm.trans x) (by decide)
  uplink _ := rfl
  replay _ := rfl
  agent _ := rfl
  notices _ := rfl
  flash _ := rfl
  portQ x := x
  genQ x := x
  noteQ x := x
  agentQ x := x
  replayQ x := x
  memory x := x
  factory x := x
  bound _ _ := .refl _
  binding _ b := ⟨b.table, b.slots, b.staging⟩

/-- An update of the uplink. -/
theorem mapUplink (f : Uplink → Uplink) (hF : F.uplink = true) :
    Moves F s (Machine.mapUplink f s) where
  pending := rfl
  fresh := rfl
  reserved := rfl
  time _ := rfl
  starting _ := rfl
  tin _ := rfl
  pg _ := rfl
  ports _ := rfl
  gens _ := rfl
  entries _ := rfl
  store _ := rfl
  uplink x := absurd (hF.symm.trans x) (by decide)
  replay _ := rfl
  agent _ := rfl
  notices _ := rfl
  flash _ := rfl
  portQ x := x
  genQ x := x
  noteQ x := x
  agentQ x := x
  replayQ x := x
  memory x := x
  factory x := x
  bound _ _ := .refl _
  binding _ b := ⟨b.table, b.slots, b.staging⟩

/-- An update of the replay service that keeps its queue law. -/
theorem mapReplay (f : ReplayService → ReplayService) (hF : F.replay = true) (h : s.replay.queueLaw → (f s.replay).queueLaw) :
    Moves F s (Machine.mapReplay f s) where
  pending := rfl
  fresh := rfl
  reserved := rfl
  time _ := rfl
  starting _ := rfl
  tin _ := rfl
  pg _ := rfl
  ports _ := rfl
  gens _ := rfl
  entries _ := rfl
  store _ := rfl
  uplink _ := rfl
  replay x := absurd (hF.symm.trans x) (by decide)
  agent _ := rfl
  notices _ := rfl
  flash _ := rfl
  portQ x := x
  genQ x := x
  noteQ x := x
  agentQ x := x
  replayQ x := h x
  memory x := x
  factory x := x
  bound _ _ := .refl _
  binding _ b := ⟨b.table, b.slots, b.staging⟩

/-- An update of the agent that keeps its queue law and the reserved place. -/
theorem mapAgent (f : Agent → Agent) (hF : F.agent = true) (h : s.agent.queueLaw → (f s.agent).queueLaw)
    (hr : (f s.agent).reserved = s.agent.reserved) :
    Moves F s (Machine.mapAgent f s) where
  pending := rfl
  fresh := rfl
  reserved := hr
  time _ := rfl
  starting _ := rfl
  tin _ := rfl
  pg _ := rfl
  ports _ := rfl
  gens _ := rfl
  entries _ := rfl
  store _ := rfl
  uplink _ := rfl
  replay _ := rfl
  agent x := absurd (hF.symm.trans x) (by decide)
  notices _ := rfl
  flash _ := rfl
  portQ x := x
  genQ x := x
  noteQ x := x
  agentQ x := h x
  replayQ x := x
  memory x := x
  factory x := x
  bound _ _ := .refl _
  binding _ b := ⟨b.table, b.slots, b.staging⟩

/-- An update of the notice unit that keeps its queue law. -/
theorem mapNotices (f : NoticeUnit → NoticeUnit) (hF : F.notices = true) (h : s.notices.queueLaw → (f s.notices).queueLaw) :
    Moves F s (Machine.mapNotices f s) where
  pending := rfl
  fresh := rfl
  reserved := rfl
  time _ := rfl
  starting _ := rfl
  tin _ := rfl
  pg _ := rfl
  ports _ := rfl
  gens _ := rfl
  entries _ := rfl
  store _ := rfl
  uplink _ := rfl
  replay _ := rfl
  agent _ := rfl
  notices x := absurd (hF.symm.trans x) (by decide)
  flash _ := rfl
  portQ x := x
  genQ x := x
  noteQ x := h x
  agentQ x := x
  replayQ x := x
  memory x := x
  factory x := x
  bound _ _ := .refl _
  binding _ b := ⟨b.table, b.slots, b.staging⟩

/-- An update of the profile store that keeps slot 0. -/
theorem mapFlash (f : ProfileStore → ProfileStore) (hF : F.flash = true) (h : s.factoryLaw → (f s.flash).slots[0] = .factory)
    (hb : s.bindingLaw → (∀ (k : SlotId) p, (f s.flash).slots[k].profile? = some p → p.bindingLaw)
      ∧ ∀ p, (f s.flash).staging = some p → p.bindingLaw := by exact fun b => ⟨b.slots, b.staging⟩) :
    Moves F s (Machine.mapFlash f s) where
  pending := rfl
  fresh := rfl
  reserved := rfl
  time _ := rfl
  starting _ := rfl
  tin _ := rfl
  pg _ := rfl
  ports _ := rfl
  gens _ := rfl
  entries _ := rfl
  store _ := rfl
  uplink _ := rfl
  replay _ := rfl
  agent _ := rfl
  notices _ := rfl
  flash x := absurd (hF.symm.trans x) (by decide)
  portQ x := x
  genQ x := x
  noteQ x := x
  agentQ x := x
  replayQ x := x
  memory x := x
  factory x := h x
  bound _ _ := .refl _
  binding _ b := ⟨b.table, (hb b).1, (hb b).2⟩

/-- An expiry moves part time at most. -/
theorem atDeadline (d : Time) (hF : F.time = true) : Moves F s (Machine.atDeadline d s) := by
  unfold Machine.atDeadline
  split
  · exact refl F s
  · exact
      { pending := rfl, fresh := rfl, reserved := rfl, time := fun x => absurd (hF.symm.trans x) (by decide)
        starting := fun _ => rfl
        tin := fun _ => rfl
        pg := fun _ => rfl
        ports := fun _ => rfl
        gens := fun _ => rfl
        entries := fun _ => rfl
        store := fun _ => rfl
        uplink := fun _ => rfl
        replay := fun _ => rfl
        agent := fun _ => rfl
        notices := fun _ => rfl
        flash := fun _ => rfl
        portQ := fun x => x
        genQ := fun x => x
        noteQ := fun x => x
        agentQ := fun x => x
        replayQ := fun x => x
        memory := fun x => x
        factory := fun x => x
        bound := fun _ _ => .refl _
        binding := fun _ b => ⟨b.table, b.slots, b.staging⟩ }

end Moves

end Sys2Proof.Machine
end

