-- ==== Sys2Proof/Laws/Retention.lean ====
section
/-!
SUPPORT. What the notice unit and the frame store can do to the state (Machine/Notices.lean, Machine/Retention.lean).
-/

namespace Sys2Proof.Machine

open Sys2Proof

variable {F : Touch}

/-! ## Counters and notices -/

/-- Port counters leave the queues alone. -/
theorem countPort_moves (hF : F.ports = true) (n : PortId) (f : PortCounters → PortCounters) (s : State) :
    Moves F s (countPort n f s) := Moves.mapPort s n _ hF fun _ h => h

/-- Trigger counters leave the pending lists alone. -/
theorem countTrig_moves (hF : F.gens = true) (n : PortId) (f : TrigCounters → TrigCounters) (s : State) :
    Moves F s (countTrig n f s) := Moves.mapGen s n _ hF fun _ h => h

/-- Entry counters touch one entry. -/
theorem countEntry_moves (hF : F.entries = true) (e : EntryId) (f : EntryCounters → EntryCounters) (s : State) :
    Moves F s (countEntry e f s) := Moves.mapEntry s e _ hF

/-- DROPPED touches the agent. -/
theorem countDropped_moves (hF : F.agent = true) (s : State) : Moves F s (countDropped s) :=
  Moves.mapAgent s _ hF (fun h => h) rfl

/-- A notice that joins a queue with room, when it is no NOTICES_LOST or none is queued. -/
theorem pushNotice_moves (hF : F.notices = true) (b : NoticeBody) (s : State) (hl : s.notices.queue.length < 32)
    (hb : (b.kind == 12) = false ∨ (s.notices.queue.filter Notice.isLost).length = 0) :
    Moves F s (pushNotice b s) := by
  refine Moves.mapNotices s _ hF fun h => ?_
  obtain ⟨-, h2, h3⟩ := h
  refine ⟨by simp; omega, ?_, h3⟩
  rcases hb with hb | hb
  · simpa [List.filter_append, Notice.isLost, hb] using h2
  · simp only [List.filter_append, List.length_append, hb]
    simpa using List.length_filter_le Notice.isLost [_]

/-- A lost notice is counted. -/
theorem loseNotice_moves (hF : F.notices = true) (s : State) : Moves F s (loseNotice s) := by
  refine Moves.mapNotices s _ hF fun h => ⟨h.1, h.2.1, ?_⟩
  by_cases hl : s.notices.lost < 65535
  · simp only [Config.lostMaximum, hl, if_true]; omega
  · simp only [Config.lostMaximum, hl, if_false]; omega

/-- The offer of a notice (R163). -/
theorem offerNotice_moves (hF : F.notices = true) (b : NoticeBody) (hb : (b.kind == 12) = false) (s : State) :
    Moves F s (offerNotice b s) := by
  unfold offerNotice
  split
  · split
    · next h => exact pushNotice_moves hF b s h (Or.inl hb)
    · exact loseNotice_moves hF s
  · exact Moves.refl F s

/-- A queue without NOTICES_LOST has none to filter. -/
theorem holdsNoticesLost_false (q : List Notice) (h : holdsNoticesLost q = false) :
    (q.filter Notice.isLost).length = 0 := by
  simp only [List.length_eq_zero_iff, List.filter_eq_nil_iff]
  simpa [holdsNoticesLost, Notice.isLost] using h

/-- A notice leaves the queue (R164). -/
theorem noticeLeaves_moves (hF : F.notices = true) (s : State) : Moves F s (noticeLeaves s) := by
  have key : Moves F s (mapNotices (fun u => { u with queue := u.queue.drop 1 }) s) := by
    refine Moves.mapNotices s _ hF fun h => ⟨?_, ?_, h.2.2⟩
    · simp; have := h.1; omega
    · have : (s.notices.queue.drop 1).Sublist s.notices.queue := List.drop_sublist 1 _
      exact (this.filter _).length_le.trans h.2.1
  unfold noticeLeaves
  simp only
  split
  · next h =>
    obtain ⟨h1, h2⟩ := h
    by_cases hl : (mapNotices (fun u => { u with queue := u.queue.drop 1 }) s).notices.queue.length < 32
    · have push := key.trans (pushNotice_moves hF
        (.noticesLost (mapNotices (fun u => { u with queue := u.queue.drop 1 }) s).notices.lost) _ hl
        (Or.inr (holdsNoticesLost_false _ h2)))
      exact push.trans (Moves.mapNotices _ _ hF fun h => ⟨h.1, h.2.1, by simp⟩)
    · -- a queue at its law has room once its head has left
      refine { key with notices := ?_, noteQ := ?_, binding := fun _ b => ⟨b.table, b.slots, b.staging⟩ }
      · intro x; exact absurd (hF.symm.trans x) (by decide)
      · intro h
        exfalso
        apply hl
        have := h.1
        simp only [mapNotices_notices, List.length_drop]
        omega
  · exact key

/-! ## Claims and rings -/

/-- The frame store's part of the state: entries, store, notices. -/
def Touch.hasStore (F : Touch) : Prop := F.entries = true ∧ F.store = true ∧ F.notices = true

theorem freeRecord_moves (hF : F.store = true) (r : RecordId) (s : State) : Moves F s (freeRecord r s) :=
  (Moves.mapStore s _ hF fun h => h).trans (Moves.mapRecord _ r _ hF)

theorem freeIfUnclaimed_moves (hF : F.store = true) (r : RecordId) (s : State) : Moves F s (freeIfUnclaimed r s) :=
  Moves.ite _ (freeRecord_moves hF r s) (Moves.refl F s)

theorem placeOnReclaim_moves (hF : F.store = true) (r : RecordId) (s : State) : Moves F s (placeOnReclaim r s) :=
  Moves.ite _ (Moves.ite _ (Moves.refl F s) (Moves.mapStore s _ hF fun h => h)) (Moves.mapStore s _ hF fun h => h)

theorem reexamine_moves (hF : F.store = true) (r : RecordId) (s : State) : Moves F s (reexamine r s) :=
  (freeIfUnclaimed_moves hF r s).trans (placeOnReclaim_moves hF r _)

theorem leaveRing_moves (hF : F.hasStore) (e : EntryId) (r : RecordId) (s : State) : Moves F s (leaveRing e r s) :=
  ((Moves.mapEntry s e _ hF.1).trans (Moves.mapRecord _ r _ hF.2.1)).trans (reexamine_moves hF.2.1 r _)

theorem dropForward_moves (hF : F.store = true) (r : RecordId) (s : State) : Moves F s (dropForward r s) :=
  (Moves.mapRecord s r _ hF).trans (reexamine_moves hF r _)

theorem evictions_moves (hF : F.hasStore) (k : Nat) (e : EntryId) (s : State) : Moves F s (evictions k e s) := by
  induction k generalizing s with
  | zero => exact Moves.refl F s
  | succ k ih =>
    unfold evictions
    split
    · split
      · exact ((countEntry_moves hF.1 e _ s).trans (leaveRing_moves hF e _ _)).trans (ih _)
      · exact Moves.refl F s
    · exact Moves.refl F s

theorem enforceDepth_moves (hF : F.hasStore) (e : EntryId) (s : State) : Moves F s (enforceDepth e s) :=
  evictions_moves hF _ e s

/-! ## Supply -/

theorem reclaimOldest_moves (hF : F.hasStore) (s : State) : Moves F s (reclaimOldest s) := by
  unfold reclaimOldest
  split
  · exact Moves.refl F s
  · exact ((countEntry_moves hF.1 _ _ s).trans (Moves.mapStore _ _ hF.2.1 fun h => h)).trans (leaveRing_moves hF _ _ _)

theorem takeRecord_moves (hF : F.store = true) (s : State) : Moves F s (takeRecord s).1 := by
  unfold takeRecord
  split
  · exact Moves.refl F s
  · dsimp only
    exact Moves.mapStore s _ hF fun h => h

theorem requestRecord_moves (hF : F.hasStore) (s : State) : Moves F s (requestRecord s).1 := by
  have h0 : Moves F s (if s.store.freeRecords.isEmpty then reclaimOldest s else s) :=
    Moves.ite _ (reclaimOldest_moves hF s) (Moves.refl F s)
  have h1 := h0.trans (takeRecord_moves hF.2.1 _)
  unfold requestRecord
  split
  · next t r h => rw [h] at h1; exact h1
  · next t h =>
    rw [h] at h1
    dsimp only at h1 ⊢
    exact h1.trans (Moves.mapStore _ _ hF.2.1 fun h => h)

theorem reclaimForPage_moves (hF : F.hasStore) (k : Nat) (s : State) : Moves F s (reclaimForPage k s) := by
  induction k generalizing s with
  | zero => exact Moves.refl F s
  | succ k ih => exact Moves.ite _ ((reclaimOldest_moves hF s).trans (ih _)) (Moves.refl F s)

theorem requestPage_moves (hF : F.hasStore) (s : State) : Moves F s (requestPage s).1 := by
  have h0 := reclaimForPage_moves hF s.store.reclaim.length s
  unfold requestPage
  simp only
  split
  · dsimp only
    exact h0.trans (Moves.mapStore _ _ hF.2.1 fun h => h)
  · dsimp only
    exact h0.trans (Moves.mapStore _ _ hF.2.1 fun h => h)

/-! ## The retention decision and the pin -/

theorem countRetainSkipped_moves (hF : F.entries = true) (e : EntryId) (s : State) :
    Moves F s (countRetainSkipped e s) := countEntry_moves hF e _ s

theorem retainRecord_moves (hF : F.hasStore) (e : EntryId) (r : RecordId) (s : State) :
    Moves F s (retainRecord e r s) :=
  (((Moves.mapEntry s e _ hF.1).trans (Moves.mapRecord _ r _ hF.2.1)).trans (countEntry_moves hF.1 e _ _)).trans
    (enforceDepth_moves hF e _)

theorem clearOneShot_moves (hF : F.hasStore) (e : EntryId) (r : RecordId) (n : Half) (s : State) :
    Moves F s (clearOneShot e r n s) :=
  (Moves.mapEntry s e (fun x => { x with current := { x.current with retention := .off } }) hF.1
    (boundAs_retention (s.entry e) .off)).trans (offerNotice_moves hF.2.2 _ rfl _)

theorem decideRetention_moves (hF : F.hasStore) (e : EntryId) (r : RecordId) (s : State) :
    Moves F s (decideRetention e r s) := by
  unfold decideRetention
  split
  · exact Moves.refl F s
  · exact Moves.ite _ (countRetainSkipped_moves hF.1 e s) (retainRecord_moves hF e r s)
  · exact Moves.ite _ (retainRecord_moves hF e r s) (countRetainSkipped_moves hF.1 e s)
  · exact Moves.ite _ (countRetainSkipped_moves hF.1 e s)
      ((retainRecord_moves hF e r s).trans (clearOneShot_moves hF e r _ _))

theorem closeRecord_moves (hF : F.hasStore) (e : EntryId) (r : RecordId) (c : CloseReason) (s : State) :
    Moves F s (closeRecord e r c s) :=
  ((Moves.mapRecord s r _ hF.2.1).trans (decideRetention_moves hF e r _)).trans (reexamine_moves hF.2.1 r _)

theorem takePin_moves (hF : F.store = true) (r : RecordId) (s : State) : Moves F s (takePin r s) :=
  (Moves.mapRecord s r _ hF).trans (placeOnReclaim_moves hF r _)

theorem unpin_moves (hF : F.hasStore) (r : RecordId) (s : State) : Moves F s (unpin r s) :=
  ((Moves.mapRecord s r _ hF.2.1).trans (enforceDepth_moves hF _ _)).trans (reexamine_moves hF.2.1 r _)

theorem leaveRingAll_moves (hF : F.hasStore) (e : EntryId) (rs : List RecordId) (s : State) :
    Moves F s (leaveRingAll e rs s) := Moves.forEach rs _ s fun r t => leaveRing_moves hF e r t

theorem joinQualified_moves (hF : F.store = true) (s : State) : Moves F s (joinQualified s) :=
  Moves.forEach _ _ s fun r t => placeOnReclaim_moves hF r t

end Sys2Proof.Machine
end

