-- ==== Sys2Proof/Laws/Trigger.lean ====
section
/-!
SUPPORT. What the reply queue, the output queues and the trigger block can do to the state (Machine/Replies.lean,
Machine/Trigger.lean).
-/

namespace Sys2Proof.Machine

open Sys2Proof

variable {F : Touch}

/-! ## Replies -/

/-- A reply that finds a free place joins (R150). -/
theorem pushReply_moves (hF : F.agent = true) (r : Reply) (s : State) (hr : replyRoom s = true) :
    Moves F s (pushReply r s) := by
  refine Moves.mapAgent s _ hF (fun h => ⟨h.1, ?_⟩) rfl
  have room : s.agent.replies.length + s.agent.reserved.toNat < 16 := of_decide_eq_true hr
  simp only [List.length_append, List.length_cons, List.length_nil]
  omega

theorem replyOrDrop_moves (hF : F.agent = true) (r : Reply) (s : State) : Moves F s (replyOrDrop r s) := by
  unfold replyOrDrop
  split
  · next h => exact pushReply_moves hF r s h
  · exact countDropped_moves hF s

theorem refuseRemoved_moves (hF : F.agent = true) (m : Mreq) (s : State) : Moves F s (refuseRemoved m s) :=
  replyOrDrop_moves hF _ s

theorem refuseDisplaced_moves (hF : F.agent = true) (m : Mreq) (s : State) : Moves F s (refuseDisplaced m s) := by
  unfold refuseDisplaced
  refine Moves.trans ?_ (countDropped_moves hF _)
  split
  · next h => exact pushReply_moves hF _ s h
  · exact Moves.refl F s

theorem cameraReply_moves (hF : F.agent = true) (n : PortId) (tag : Half) (p : List Byte) (s : State) :
    Moves F s (cameraReply n tag p s) := replyOrDrop_moves hF _ s

/-- The agent and the ports: the parts that replies and output queues touch. -/
def Touch.hasReplies (F : Touch) : Prop := F.agent = true ∧ F.ports = true

/-- A port that has room for a segment keeps its queue law when one joins. -/
theorem joinOutput_moves (hF : F.ports = true) (n : PortId) (s : State) (f : Port → Port)
    (hroom : outputLength s n < Config.outputCapacity)
    (hf : (f (s.port n)).outTrigs.length + (f (s.port n)).outMreqs.length ≤ outputLength s n + 1) :
    Moves F s (mapPort n f s) := by
  have base := Moves.mapPort (F := F) s n (fun p => { f (s.port n) with outTrigs := p.outTrigs, outMreqs := p.outMreqs })
    hF (fun _ h => h)
  refine { base with binding := fun _ b => ⟨b.table, b.slots, b.staging⟩, ports := fun x => absurd (hF.symm.trans x) (by decide), portQ := fun x m => ?_ }
  rw [mapPort_port]
  split
  · unfold Port.queueLaw
    simp only [Config.outputCapacity] at hroom
    omega
  · exact x m

theorem forwardRequest_moves (hF : F.hasReplies) (n : PortId) (m : Mreq) (s : State) :
    Moves F s (forwardRequest n m s) := by
  unfold forwardRequest
  split
  · exact replyOrDrop_moves hF.1 _ s
  · split
    · next h =>
      refine joinOutput_moves hF.2 n s _ h ?_
      simp [outputLength]; omega
    · exact replyOrDrop_moves hF.1 _ s

theorem joinRequests_moves (hF : F.agent = true) (m : Mreq) (s : State) : Moves F s (joinRequests m s) := by
  unfold joinRequests
  split
  · next h =>
    refine Moves.mapAgent s _ hF (fun x => ⟨?_, x.2⟩) rfl
    simp only [Config.requestCapacity] at h
    simp; omega
  · split
    · next h => exact (pushReply_moves hF _ s h).trans (Moves.mapAgent _ _ hF (fun x => x) rfl)
    · exact countDropped_moves hF s

theorem requestArrives_moves (hF : F.hasReplies) (m : Mreq) (s : State) : Moves F s (requestArrives m s) := by
  unfold requestArrives
  have h := Moves.mapAgent (F := F) s (fun a => { a with received := bump a.received }) hF.1 (fun x => x) rfl
  simp only
  split
  · exact h.trans (forwardRequest_moves hF _ m _)
  · exact h.trans (joinRequests_moves hF.1 m _)

theorem flushOutput_moves (hF : F.hasReplies) (n : PortId) (s : State) : Moves F s (flushOutput n s) :=
  (Moves.mapPort s n _ hF.2 fun _ _ => by simp [Port.queueLaw]).trans
    (Moves.forEach _ _ _ fun m t => refuseRemoved_moves hF.1 m t)

/-! ## Issue -/

/-- The agent, ports, generators and notices: the parts that an issue touches. -/
def Touch.hasIssue (F : Touch) : Prop := F.hasReplies ∧ F.gens = true ∧ F.notices = true

theorem offerTrig_moves (hF : F.hasReplies) (n : PortId) (t : Trig) (s : State) : Moves F s (offerTrig n t s).1 := by
  unfold offerTrig
  split
  · next h =>
    dsimp only
    refine joinOutput_moves hF.2 n s _ h ?_
    simp [outputLength]; omega
  · split
    · next m hm =>
      dsimp only
      refine Moves.trans ?_ (refuseDisplaced_moves hF.1 m _)
      have hne : (s.port n).outMreqs ≠ [] := by intro e; simp [e] at hm
      have hpos : 0 < (s.port n).outMreqs.length := List.length_pos_iff.2 hne
      have base := Moves.mapPort (F := F) s n
        (fun p => { p with outTrigs := p.outTrigs, outMreqs := p.outMreqs }) hF.2 (fun _ h => h)
      refine { base with binding := fun _ b => ⟨b.table, b.slots, b.staging⟩, ports := fun x => absurd (hF.2.symm.trans x) (by decide), portQ := fun x k => ?_ }
      rw [mapPort_port]
      split
      · have := x n
        unfold Port.queueLaw at this ⊢
        simp
        omega
      · exact x k
    · exact Moves.refl F s

/-- An issue adds to a pending list with room. -/
theorem recordIssue_moves (hF : F.gens = true) (n : PortId) (s : State) (hroom : (s.gen n).pendings.length < 8) :
    Moves F s (recordIssue n s) := by
  have base := Moves.mapGen (F := F) s n (fun g => g) hF (fun _ h => h)
  refine { base with binding := fun _ b => ⟨b.table, b.slots, b.staging⟩, gens := fun x => absurd (hF.symm.trans x) (by decide), genQ := fun x k => ?_ }
  unfold recordIssue
  rw [mapGen_gen]
  split
  · unfold Generator.pendingLaw
    simp only
    split
    · omega
    · simp; omega
  · exact x k

theorem countSuppressed_moves (hF : F.gens = true) (n : PortId) (s : State) : Moves F s (countSuppressed n s) :=
  countTrig_moves hF n _ s

/-- The offer of a TRIG leaves the pending lists alone. -/
theorem offerTrig_gen (n : PortId) (t : Trig) (s : State) (m : PortId) : (offerTrig n t s).1.gen m = s.gen m := by
  have h := offerTrig_moves (F := { agent := true, ports := true }) ⟨rfl, rfl⟩ n t s
  simp [State.gen, h.gens rfl]

theorem attemptIssue_moves (hF : F.hasIssue) (n : PortId) (src : TrigSource) (line : Byte) (s : State) :
    Moves F s (attemptIssue n src line s).1 := by
  unfold attemptIssue
  split
  · exact countSuppressed_moves hF.2.1 n s
  · split
    · exact (countTrig_moves hF.2.1 n _ s).trans (offerNotice_moves hF.2.2 _ rfl _)
    · next hlt =>
      have h := offerTrig_moves hF.1 n ⟨(s.gen n).next, src.code, line⟩ s
      have hg := offerTrig_gen n ⟨(s.gen n).next, src.code, line⟩ s n
      split
      · next t ht =>
        rw [ht] at h hg
        refine h.trans (recordIssue_moves hF.2.1 n t ?_)
        rw [hg]
        simpa [Config.pendingCapacity] using hlt
      · next t ht => rw [ht] at h; exact h.trans (countSuppressed_moves hF.2.1 n t)

/-! ## Head reports, windows and removals -/

/-- The generators and notices. -/
def Touch.hasReports (F : Touch) : Prop := F.gens = true ∧ F.notices = true

theorem dropEmpty_length (ps : List PendingTrigger) : (dropEmpty ps).length ≤ ps.length := List.length_filter_le _ _

theorem strikeUpTo_length (e : EntryId) (k : Nat) (ps : List PendingTrigger) :
    (strikeUpTo e k ps).length ≤ ps.length := by
  have h := dropEmpty_length ((ps.take (k + 1)).map (PendingTrigger.strike e))
  simp only [List.length_map, List.length_take] at h
  simp only [strikeUpTo, List.length_append, List.length_drop]
  omega

theorem reportMissed_moves (hF : F.hasReports) (n : PortId) (number : Half) (w : Bool) (e : EntryId) (s : State) :
    Moves F s (reportMissed n number w e s) :=
  (countTrig_moves hF.1 n _ s).trans (offerNotice_moves hF.2 _ rfl _)

theorem matchHead_moves (hF : F.hasReports) (n : PortId) (e : EntryId) (number : Half) (s : State) :
    Moves F s (matchHead n e number s) := by
  unfold matchHead
  split
  · exact countTrig_moves hF.1 n _ s
  · next k _ =>
    refine Moves.trans ?_ (Moves.forEach _ _ _ fun m t => reportMissed_moves hF n m false e t)
    refine (countTrig_moves hF.1 n _ s).trans (Moves.mapGen _ n _ hF.1 fun g h => ?_)
    exact (strikeUpTo_length e k g.pendings).trans h

theorem reportHead_moves (hF : F.hasReports) (n : PortId) (e : EntryId) (t : Option Half) (s : State) :
    Moves F s (reportHead n e t s) := by
  unfold reportHead
  split
  · exact Moves.ite _ (matchHead_moves hF n e _ s) (Moves.refl F s)
  · exact Moves.refl F s

theorem expireWindow_moves (hF : F.hasReports) (ht : F.time = true) (n : PortId) (p : PendingTrigger) (s : State) :
    Moves F s (expireWindow n p s) := by
  refine ((Moves.atDeadline s p.deadline ht).trans
    (Moves.forEach _ _ _ fun e t => reportMissed_moves hF n p.number true e t)).trans (Moves.mapGen _ n _ hF.1 fun g h => ?_)
  exact (List.length_erase_le).trans h

theorem leavePending_moves (hF : F.gens = true) (e : EntryId) (s : State) : Moves F s (leavePending e s) :=
  Moves.forEach _ _ s fun n t => Moves.mapGen t n _ hF fun g h => by
    refine (dropEmpty_length _).trans ?_
    simpa [Generator.pendingLaw] using h

theorem abandonTriggers_moves (hF : F.gens = true) (n : PortId) (s : State) : Moves F s (abandonTriggers n s) :=
  Moves.mapGen s n _ hF fun _ _ => by simp [Generator.pendingLaw]

/-! ## Line trackers and timers -/

theorem restartTracker_moves (hF : F.gens = true) (n : PortId) (s : State) : Moves F s (restartTracker n s) :=
  Moves.mapGen s n _ hF fun _ h => h

theorem lineEdge_moves (hF : F.hasIssue) (n : PortId) (rising : Bool) (s : State) : Moves F s (lineEdge n rising s) :=
  Moves.ite _ (attemptIssue_moves hF n _ _ s) (Moves.refl F s)

theorem gateEdge_moves (hF : F.gens = true) (n : PortId) (level : Bool) (s : State) : Moves F s (gateEdge n level s) :=
  Moves.ite _ (Moves.mapGen s n _ hF fun _ h => h)
    (Moves.ite _ (Moves.mapGen s n _ hF fun _ h => h) (Moves.refl F s))

theorem settleLine_moves (hF : F.hasIssue) (n : PortId) (s : State) : Moves F s (settleLine n s) := by
  have h := Moves.mapGen (F := F) s n
    (fun g => { g with level := rawLevel s (s.gen n).config, debounce := none }) hF.2.1 (fun _ h => h)
  unfold settleLine
  simp only
  split
  · exact h
  · split
    · exact h.trans (lineEdge_moves hF n _ _)
    · exact h.trans (gateEdge_moves hF.2.1 n _ _)
    · exact h

theorem trackLine_moves (hF : F.hasIssue) (l : LineId) (n : PortId) (s : State) : Moves F s (trackLine l n s) := by
  unfold trackLine
  refine Moves.ite _ (Moves.ite _ ?_ (Moves.ite _ (settleLine_moves hF n s) ?_)) (Moves.refl F s)
  · exact Moves.mapGen s n _ hF.2.1 fun _ h => h
  · exact Moves.mapGen s n _ hF.2.1 fun _ h => h

/-- A level of a trigger line. -/
theorem setLine_moves (hF : F.tin = true) (v : Vector Bool 4) (s : State) : Moves F s { s with tin := v } :=
  { Moves.refl F s with binding := fun _ b => ⟨b.table, b.slots, b.staging⟩, tin := fun x => absurd (hF.symm.trans x) (by decide) }

theorem rawLineChange_moves (hF : F.hasIssue) (ht : F.tin = true) (l : LineId) (level : Bool) (s : State) :
    Moves F s (rawLineChange l level s) := by
  unfold rawLineChange
  simp only
  refine Moves.ite _ (Moves.refl F s) (Moves.ite _ (setLine_moves ht _ s) ?_)
  exact (setLine_moves ht _ s).trans (Moves.forEach _ _ _ fun n t => trackLine_moves hF l n t)

theorem debounceExpiry_moves (hF : F.hasIssue) (ht : F.time = true) (n : PortId) (s : State) :
    Moves F s (debounceExpiry n s) := by
  unfold debounceExpiry
  split
  · exact (Moves.atDeadline s _ ht).trans (settleLine_moves hF n _)
  · exact Moves.refl F s

theorem countDown_moves (hF : F.gens = true) (n : PortId) (s : State) : Moves F s (countDown n s) :=
  Moves.mapGen s n _ hF fun g h => by
    split
    · exact h
    · split
      · exact h
      · exact h

theorem periodExpiry_moves (hF : F.hasIssue) (ht : F.time = true) (n : PortId) (s : State) :
    Moves F s (periodExpiry n s) := by
  unfold periodExpiry
  split
  · exact ((Moves.atDeadline s _ ht).trans (attemptIssue_moves hF n _ _ _)).trans (countDown_moves hF.2.1 n _)
  · exact Moves.refl F s

theorem windowExpiry_moves (hF : F.hasReports) (ht : F.time = true) (n : PortId) (k : Half) (s : State) :
    Moves F s (windowExpiry n k s) := by
  unfold windowExpiry
  split
  · exact expireWindow_moves hF ht n _ s
  · exact Moves.refl F s

end Sys2Proof.Machine
end

