-- ==== Sys2Proof/Laws/Streams.lean ====
section
/-!
SUPPORT. What the replay service, the stream table and reception can do to the state (Machine/Replay.lean,
Machine/Table.lean, Machine/Reception.lean).
-/

namespace Sys2Proof.Machine

open Sys2Proof

variable {F : Touch}

/-! ## The replay service -/

/-- Entries, store, notices and the replay service. -/
def Touch.hasReplay (F : Touch) : Prop := F.hasStore ∧ F.replay = true

theorem mapHead_moves (hF : F.replay = true) (f : ReplayRequest → ReplayRequest) (s : State) :
    Moves F s (mapHead f s) :=
  Moves.mapReplay s _ hF fun h => by
    simp only [ReplayService.queueLaw] at h ⊢
    cases hq : s.replay.queue with
    | nil => simp
    | cons q qs => simpa [hq] using h

theorem startSending_moves (hF : F.hasReplay) (r : RecordId) (s : State) : Moves F s (startSending r s) :=
  (takePin_moves hF.1.2.1 r s).trans (Moves.mapReplay _ _ hF.2 fun h => h)

theorem advance_moves (hF : F.hasReplay) (k : Nat) (s : State) : Moves F s (advance k s) := by
  induction k generalizing s with
  | zero => exact Moves.refl F s
  | succ k ih =>
    unfold advance
    split
    · exact Moves.refl F s
    · refine Moves.ite _ (Moves.refl F s) (Moves.ite _ ((mapHead_moves hF.2 _ s).trans (ih _)) ?_)
      split
      · exact (mapHead_moves hF.2 _ s).trans (ih _)
      · exact startSending_moves hF _ s

theorem endHead_moves (hF : F.hasReplay) (s : State) : Moves F s (endHead s) := by
  unfold endHead
  split
  · exact Moves.refl F s
  · next q qs hq =>
    have h := offerNotice_moves hF.1.2.2 q.done rfl s
    have hr : (offerNotice q.done s).replay = s.replay :=
      (offerNotice_moves (F := { notices := true }) rfl q.done rfl s).replay rfl
    refine h.trans (Moves.mapReplay _ _ hF.2 fun x => ?_)
    simp only [ReplayService.queueLaw, hr, hq, List.length_cons] at x ⊢
    omega

theorem takeHead_moves (hF : F.hasReplay) (s : State) : Moves F s (takeHead s) := by
  unfold takeHead
  split
  · exact Moves.refl F s
  · exact (mapHead_moves hF.2 _ s).trans (advance_moves hF _ _)

theorem takeRequests_moves (hF : F.hasReplay) (k : Nat) (s : State) : Moves F s (takeRequests k s) := by
  induction k generalizing s with
  | zero => exact Moves.refl F s
  | succ k ih =>
    unfold takeRequests
    simp only
    refine Moves.ite _ (Moves.ite _ (takeHead_moves hF s) ?_) (Moves.refl F s)
    exact ((takeHead_moves hF s).trans (endHead_moves hF _)).trans (ih _)

theorem replayTakes_moves (hF : F.hasReplay) (s : State) : Moves F s (replayTakes s) := takeRequests_moves hF _ s

theorem releasePin_moves (hF : F.hasReplay) (s : State) : Moves F s (releasePin s) := by
  unfold releasePin
  split
  · exact (Moves.mapReplay s _ hF.2 fun h => h).trans (unpin_moves hF.1 _ _)
  · exact Moves.refl F s

theorem continueHead_moves (hF : F.hasReplay) (s : State) : Moves F s (continueHead s) := by
  unfold continueHead
  split
  · exact Moves.refl F s
  · simp only
    refine Moves.ite _ (advance_moves hF _ s) ?_
    exact ((advance_moves hF _ s).trans (endHead_moves hF _)).trans (replayTakes_moves hF _)

theorem finishHead_moves (hF : F.hasReplay) (a b : FrameOutcome) (s : State) : Moves F s (finishHead a b s) :=
  (((mapHead_moves hF.2 _ s).trans (releasePin_moves hF _)).trans (endHead_moves hF _)).trans (replayTakes_moves hF _)

theorem replayTailLeaves_moves (hF : F.hasReplay) (s : State) : Moves F s (replayTailLeaves s) := by
  have h := ((mapHead_moves hF.2 (.settle (pinnedOutcome s)) s).trans (releasePin_moves hF _)).trans
    (continueHead_moves hF _)
  unfold replayTailLeaves
  split
  · exact finishHead_moves hF _ _ s
  · exact h
  · exact h

theorem abortedTailLeaves_moves (hF : F.hasReplay) (s : State) : Moves F s (abortedTailLeaves s) :=
  finishHead_moves hF _ _ s

theorem unpinQuietly_moves (hF : F.hasStore) (r : RecordId) (s : State) : Moves F s (unpinQuietly r s) :=
  ((Moves.mapRecord s r _ hF.2.1).trans (enforceDepth_moves hF _ _)).trans (freeIfUnclaimed_moves hF.2.1 r _)

theorem abortReplay_moves (hF : F.hasReplay) (s : State) : Moves F s (abortReplay s) := by
  unfold abortReplay
  refine Moves.ite _ (Moves.refl F s) ?_
  refine Moves.trans (t := match s.replay.pinned with
    | some r => unpinQuietly r (mapHead (.fill .aborted) s) | none => mapHead (.fill .aborted) s) ?_
    (endHead_moves hF _)
  split
  · exact (mapHead_moves hF.2 _ s).trans (unpinQuietly_moves hF.1 _ _)
  · exact mapHead_moves hF.2 _ s

theorem markGone_moves (hF : F.replay = true) (e : EntryId) (s : State) : Moves F s (markGone e s) :=
  Moves.mapReplay s _ hF fun h => by simpa [ReplayService.queueLaw] using h

theorem joinReplayQueue_moves (hF : F.replay = true) (e : EntryId) (first : Half) (n : Nat) (s : State)
    (hroom : s.replay.queue.length < 16) : Moves F s (joinReplayQueue e first n s) :=
  Moves.mapReplay s _ hF fun _ => by simp [ReplayService.queueLaw]; omega

theorem opReplay_moves (hF : F.hasReplay) (entry : Byte) (first : Half) (count : Byte) (s : State) :
    Moves F s (opReplay entry first count s).1 := by
  unfold opReplay refuse accept
  split
  · split
    · exact Moves.refl F s
    · split
      · exact Moves.refl F s
      · next h =>
        refine (joinReplayQueue_moves hF.2 _ _ _ s ?_).trans (replayTakes_moves hF _)
        simpa [Config.replayCapacity] using h
  · exact Moves.refl F s

theorem withdraw_moves (hF : F.hasReplay) (q : ReplayRequest) (s : State) : Moves F s (withdraw q s) :=
  (offerNotice_moves hF.1.2.2 _ rfl s).trans (Moves.mapReplay _ _ hF.2 fun h => List.length_erase_le.trans h)

theorem cancelActive_moves (hF : F.hasReplay) (s : State) : Moves F s (cancelActive s).1 := by
  have h : Moves F s (match s.replay.cursor with
      | none => (finishHead .aborted .cancelled s, (1 : Byte))
      | some _ => (mapReplay (fun v => { v with engine := .closing }) s, 1)).1 := by
    split
    · exact finishHead_moves hF _ _ s
    · dsimp only
      exact Moves.mapReplay s _ hF.2 fun h => h
  unfold cancelActive
  split
  · exact Moves.refl F s
  · exact h
  · exact h

theorem opCancelReplay_moves (hF : F.hasReplay) (id : Byte) (s : State) : Moves F s (opCancelReplay id s).1 := by
  unfold opCancelReplay refuse accept
  split
  · exact Moves.refl F s
  · split
    · exact cancelActive_moves hF s
    · exact withdraw_moves hF _ s

/-! ## The stream table -/

/-- The parts that an activation touches. -/
def Touch.hasTable (F : Touch) : Prop := F.hasReplay ∧ F.gens = true

theorem emptyForward_moves (hF : F.hasStore) (e : EntryId) (s : State) : Moves F s (emptyForward e s) :=
  (Moves.mapEntry s e _ hF.1).trans (Moves.forEach _ _ _ fun r t => dropForward_moves hF.2.1 r t)

theorem endStream_moves (hF : F.hasTable) (e : EntryId) (s : State) : Moves F s (endStream e s) :=
  ((((leaveRingAll_moves hF.1.1 e _ s).trans (emptyForward_moves hF.1.1 e _)).trans
    (Moves.mapEntry _ e _ hF.1.1.1)).trans (leavePending_moves hF.2 e _)).trans (markGone_moves hF.1.2 e _)

theorem applyDifferences_moves (hF : F.hasTable) (e : EntryId) (a b : Image) (s : State) :
    Moves F s (applyDifferences e a b s) := by
  have h : Moves F s (if policyDiffers a b then enforceDepth e s else s) :=
    Moves.ite _ (enforceDepth_moves hF.1.1 e s) (Moves.refl F s)
  exact Moves.ite _ (endStream_moves hF e s) (Moves.ite _ (h.trans (leavePending_moves hF.2 e _)) h)

/-- The image installed binds only what the entry's images bound. -/
def bindsWithin (e : EntryId) (i : Image) (s : State) : Prop :=
  Entry.boundAs (s.entry e) { s.entry e with current := i, staged := none }

/-- An installation that binds what it may. -/
theorem installImage_moves (hF : F.entries = true) (e : EntryId) (i : Image) (s : State)
    (h : F.images = true ∨ bindsWithin e i s) (hb : F.rebinds = true ∨ (s.bindingLaw → (installImage e i s).bindingLaw)) :
    Moves F s (installImage e i s) where
  pending := rfl
  fresh := rfl
  reserved := rfl
  time _ := rfl
  starting _ := rfl
  tin _ := rfl
  pg _ := rfl
  ports _ := rfl
  gens _ := rfl
  entries x := absurd (hF.symm.trans x) (by decide)
  store _ := rfl
  uplink _ := rfl
  replay _ := rfl
  agent _ := rfl
  notices _ := rfl
  flash _ := rfl
  portQ x := x
  genQ x := x
  noteQ x := x
  agentQ x := x
  replayQ x := x
  memory x := x
  factory x := x
  bound x := Moves.bound_mapEntry s e _ (h.resolve_left (by rw [x]; decide))
  binding x := hb.resolve_left (by rw [x]; decide)

theorem activate_moves (hF : F.hasTable) (e : EntryId) (i : Image) (s : State)
    (h : F.images = true ∨ bindsWithin e i s) (hb : F.rebinds = true ∨ (s.bindingLaw → (installImage e i s).bindingLaw)) :
    Moves F s (activate e i s) :=
  (installImage_moves hF.1.1.1 e i s h hb).trans (applyDifferences_moves hF e _ _ _)

theorem bindsWithin_staged {e : EntryId} {i : Image} {s : State} (h : (s.entry e).staged = some i) :
    bindsWithin e i s := fun j hj => by
  have : j = i ∧ j.valid = true := by simpa [validImages] using hj
  obtain ⟨rfl, v⟩ := this
  exact ⟨j, by simp [validImages, h, v], rfl, rfl, rfl⟩

/-- Images that collide with none of another entry's keep the law. -/
theorem bindingLaw_of_free {s : State} {e : EntryId} {i : Image} (f : Entry → Entry)
    (hf : ∀ j ∈ validImages (f (s.entry e)), j = i ∨ j ∈ validImages (s.entry e)) (hi : conflicts s e i = false)
    (b : s.bindingLaw) (hv : ∀ j ∈ validImages (f (s.entry e)), j.valid = true) : (mapEntry e f s).bindingLaw := by
  have sym : ∀ a c : Image, collides a c = collides c a := fun a c => by
    unfold collides
    rw [BEq.comm (a := a.port), BEq.comm (a := a.channel), BEq.comm (a := a.tag)]
  have key : ∀ g, g ≠ e → ∀ j ∈ validImages (f (s.entry e)), ∀ k ∈ validImages (s.entry g), collides j k = false := by
    intro g hg j hj k hk
    rcases hf j hj with rfl | h
    · have v := hv j hj
      by_contra c
      have c : collides j k = true := by simpa using c
      have : conflicts s e j = true := by
        simp only [conflicts, v, Bool.true_and, List.any_eq_true, Bool.and_eq_true, bne_iff_ne]
        exact ⟨g, List.mem_finRange _, hg, k, hk, c⟩
      rw [hi] at this; cases this
    · exact b.table e g hg.symm j h k hk
  refine ⟨fun g h hne j hj k hk => ?_, b.slots, b.staging⟩
  rw [mapEntry_entry] at hj hk
  by_cases hg : g = e
  · have hh : h ≠ e := fun a => hne (hg.trans a.symm)
    rw [if_pos hg] at hj; rw [if_neg hh] at hk
    exact key h hh j hj k hk
  · rw [if_neg hg] at hj
    by_cases hh : h = e
    · rw [if_pos hh] at hk; rw [sym]; exact key g hg k hk j hj
    · rw [if_neg hh] at hk; exact b.table g h hne j hj k hk

theorem validImages_valid {x : Entry} {j : Image} (h : j ∈ validImages x) : j.valid = true := by
  simpa using (List.mem_filter.1 h).2

theorem activateStaged_moves (hF : F.hasTable) (e : EntryId) (s : State) : Moves F s (activateStaged e s) := by
  unfold activateStaged
  split
  · next i hi =>
    exact activate_moves hF e _ s (.inr (bindsWithin_staged hi))
      (.inr (bindingLaw_of_bound (Moves.bound_mapEntry s e _ (bindsWithin_staged hi)) rfl))
  · exact Moves.refl F s

/-- A staging that binds what it may. -/
theorem stageImage_moves (hF : F.entries = true) (hi : F.images = true) (e : EntryId) (i : Image) (s : State)
    (hc : conflicts s e i = false) : Moves F s (mapEntry e (fun x => { x with staged := some i }) s) where
  pending := rfl
  fresh := rfl
  reserved := rfl
  time _ := rfl
  starting _ := rfl
  tin _ := rfl
  pg _ := rfl
  ports _ := rfl
  gens _ := rfl
  entries x := absurd (hF.symm.trans x) (by decide)
  store _ := rfl
  uplink _ := rfl
  replay _ := rfl
  agent _ := rfl
  notices _ := rfl
  flash _ := rfl
  portQ x := x
  genQ x := x
  noteQ x := x
  agentQ x := x
  replayQ x := x
  memory x := x
  factory x := x
  bound x := absurd (hi.symm.trans x) (by decide)
  binding _ b := bindingLaw_of_free _ (fun j hj => by
    have h := validImages_valid hj
    simp only [validImages, List.mem_filter, List.mem_cons, Option.toList] at hj ⊢
    rcases hj.1 with rfl | h' | h'
    · exact .inr ⟨.inl rfl, h⟩
    · exact .inl h'
    · cases h') hc b fun _ => validImages_valid

theorem disposeImage_moves (hF : F.hasTable) (hi : F.images = true) (e : EntryId) (i : Image) (s : State)
    (hc : conflicts s e i = false) : Moves F s (disposeImage e i s).1 := by
  unfold disposeImage accept
  split
  · refine activate_moves hF e i s (.inl hi) (.inr fun b => bindingLaw_of_free _ (fun j hj => .inl ?_) hc b fun _ => validImages_valid)
    have : j = i ∧ j.valid = true := by simpa [validImages] using hj
    exact this.1
  · exact stageImage_moves hF.1.1.1 hi e i s hc
  · exact stageImage_moves hF.1.1.1 hi e i s hc

theorem opWriteEntry_moves (hF : F.hasTable) (hi : F.images = true) (entry : Byte) (b : ImageBlock) (s : State) :
    Moves F s (opWriteEntry entry b s).1 := by
  unfold opWriteEntry
  split
  · split
    · exact Moves.refl F s
    · split
      · exact Moves.refl F s
      · next hc => exact disposeImage_moves hF hi _ _ s (by simpa using hc)
  · exact Moves.refl F s

/-! ## Reception -/

/-- The parts that reception touches. -/
def Touch.hasReception (F : Touch) : Prop := F.hasTable ∧ F.ports = true ∧ F.uplink = true

theorem startStall_moves (hF : F.entries = true) (e : EntryId) (s : State) : Moves F s (startStall e s) :=
  Moves.mapEntry s e _ hF

theorem assemblyIdle_moves (hF : F.entries = true) (e : EntryId) (s : State) : Moves F s (assemblyIdle e s) :=
  Moves.mapEntry s e _ hF

theorem countClose_moves (hF : F.hasStore) (e : EntryId) (x : Record) (c : CloseReason) (s : State) :
    Moves F s (countClose e x c s) :=
  Moves.ite _ (((countEntry_moves hF.1 e _ s).trans (countEntry_moves hF.1 e _ _)).trans
    (offerNotice_moves hF.2.2 _ rfl _)) (countEntry_moves hF.1 e _ s)

theorem closeOpen_moves (hF : F.hasStore) (e : EntryId) (r : RecordId) (c : CloseReason) (s : State) :
    Moves F s (closeOpen e r c s) :=
  ((closeRecord_moves hF e r c s).trans (countClose_moves hF e _ c _)).trans (assemblyIdle_moves hF.1 e _)

theorem endAssembly_moves (hF : F.hasStore) (e : EntryId) (c : CloseReason) (s : State) :
    Moves F s (endAssembly e c s) := by
  unfold endAssembly
  split
  · exact Moves.refl F s
  · exact closeOpen_moves hF e _ c s
  · exact assemblyIdle_moves hF.1 e s

theorem returnToIdle_moves (hF : F.hasTable) (e : EntryId) (c : CloseReason) (s : State) :
    Moves F s (returnToIdle e c s) := (endAssembly_moves hF.1.1 e c s).trans (activateStaged_moves hF e _)

theorem checkContinuity_moves (hF : F.hasStore) (e : EntryId) (n : Half) (s : State) :
    Moves F s (checkContinuity e n s) := by
  unfold checkContinuity
  split
  · exact Moves.ite _ ((countEntry_moves hF.1 e _ s).trans (offerNotice_moves hF.2.2 _ rfl _)) (Moves.refl F s)
  · exact Moves.refl F s

theorem expectAfter_moves (hF : F.entries = true) (e : EntryId) (n : Half) (s : State) :
    Moves F s (expectAfter e n s) := Moves.mapEntry s e _ hF

theorem checkDuplicate_moves (hF : F.hasStore) (e : EntryId) (n : Half) (s : State) :
    Moves F s (checkDuplicate e n s).1 := by
  unfold checkDuplicate
  split
  · split
    · exact Moves.refl F s
    · exact (countEntry_moves hF.1 e _ s).trans (leaveRing_moves hF e _ _)
  · exact Moves.refl F s

theorem offerForward_moves (hF : F.hasReception) (e : EntryId) (r : RecordId) (s : State) :
    Moves F s (offerForward e r s) := by
  have hE := hF.1.1.1.1
  have hS := hF.1.1.1.2.1
  unfold offerForward
  split
  · exact Moves.refl F s
  · refine Moves.ite _ ((countEntry_moves hE e _ s).trans (Moves.mapUplink _ _ hF.2.2)) (Moves.ite _ ?_ ?_)
    · exact countEntry_moves hE e _ s
    · exact (Moves.mapEntry s e _ hE).trans (Moves.mapRecord _ r _ hS)

theorem openFrame_moves (hF : F.hasReception) (e : EntryId) (r : RecordId) (n : Half) (a : Attributes) (b : Bool)
    (s : State) : Moves F s (openFrame e r n a b s) :=
  (((Moves.mapRecord s r _ hF.1.1.1.2.1).trans (Moves.mapEntry _ e _ hF.1.1.1.1)).trans
    (startStall_moves hF.1.1.1.1 e _)).trans (offerForward_moves hF e r _)

theorem refuseFrame_moves (hF : F.hasStore) (e : EntryId) (n : Half) (s : State) : Moves F s (refuseFrame e n s) :=
  (((Moves.mapEntry s e _ hF.1).trans (startStall_moves hF.1 e _)).trans (countEntry_moves hF.1 e _ _)).trans
    (offerNotice_moves hF.2.2 _ rfl _)

theorem seekRecord_moves (hF : F.hasReception) (e : EntryId) (n : Half) (a : Attributes) (b : Bool) (s : State) :
    Moves F s (seekRecord e n a b s) := by
  have h := requestRecord_moves hF.1.1.1 s
  unfold seekRecord
  split
  · next t r ht => rw [ht] at h; exact h.trans (openFrame_moves hF e r n a b t)
  · next t ht => rw [ht] at h; exact h.trans (refuseFrame_moves hF.1.1.1 e n t)

theorem headTaken_moves (hF : F.hasReception) (e : EntryId) (n : PortId) (f : Half) (a : Attributes) (s : State) :
    Moves F s (headTaken e n f a s) :=
  ((((checkContinuity_moves hF.1.1.1 e f s).trans (expectAfter_moves hF.1.1.1.1 e f _)).trans
    (checkDuplicate_moves hF.1.1.1 e f _)).trans (seekRecord_moves hF e f a _ _)).trans
    (reportHead_moves ⟨hF.1.2, hF.1.1.1.2.2⟩ n e _ _)

theorem headAgain_moves (hF : F.hasReception) (n : PortId) (c : Channel) (f : Half) (a : Attributes) (s : State) :
    Moves F s (headAgain n c f a s) := by
  unfold headAgain
  split
  · exact headTaken_moves hF _ n f a s
  · exact countPort_moves hF.2.1 n _ s

theorem headAt_moves (hF : F.hasReception) (e : EntryId) (n : PortId) (c : Channel) (f : Half) (a : Attributes)
    (s : State) : Moves F s (headAt e n c f a s) := by
  have h := (returnToIdle_moves hF.1 e .unterminated s).trans (headAgain_moves hF n c f a _)
  unfold headAt
  split
  · exact headTaken_moves hF e n f a s
  · exact h
  · exact h

theorem markTruncated_moves (hF : F.store = true) (r : RecordId) (s : State) : Moves F s (markTruncated r s) :=
  Moves.mapRecord s r _ hF

theorem writePayload_moves (hF : F.store = true) (r : RecordId) (pages : List PageId) (p : List Byte) (s : State) :
    Moves F s (writePayload r pages p s) :=
  (Moves.mapRecord s r _ hF).trans (Moves.mapStore _ _ hF fun h => wf_storeBytes _ _ _ _ h)

theorem appendPayload_moves (hF : F.hasStore) (e : EntryId) (r : RecordId) (p : List Byte) (s : State) :
    Moves F s (appendPayload e r p s) := by
  unfold appendPayload
  refine Moves.ite _ (Moves.refl F s) (Moves.ite _ (writePayload_moves hF.2.1 r _ p s)
    (Moves.ite _ (markTruncated_moves hF.2.1 r s) ?_))
  have h := requestPage_moves hF s
  split
  · next t q ht => rw [ht] at h; exact h.trans (writePayload_moves hF.2.1 r _ p t)
  · next t ht =>
    rw [ht] at h
    exact (h.trans (markTruncated_moves hF.2.1 r t)).trans (offerNotice_moves hF.2.2 _ rfl _)

theorem acceptBody_moves (hF : F.hasStore) (e : EntryId) (r : RecordId) (i : Nat) (p : List Byte) (s : State) :
    Moves F s (acceptBody e r i p s) :=
  (((Moves.mapRecord s r _ hF.2.1).trans (appendPayload_moves hF e r p _)).trans (Moves.mapEntry _ e _ hF.1)).trans
    (startStall_moves hF.1 e _)

theorem bodyAt_moves (hF : F.hasReception) (e : EntryId) (n : PortId) (i : Half) (p : List Byte) (s : State) :
    Moves F s (bodyAt e n i p s) := by
  unfold bodyAt
  split
  · exact countPort_moves hF.2.1 n _ s
  · exact Moves.ite _ (countPort_moves hF.2.1 n _ s) (acceptBody_moves hF.1.1.1 e _ _ p s)
  · exact (countPort_moves hF.2.1 n _ s).trans (startStall_moves hF.1.1.1.1 e _)

theorem tailAt_moves (hF : F.hasReception) (e : EntryId) (n : PortId) (c : Half) (b : Word) (st : Byte) (s : State) :
    Moves F s (tailAt e n c b st s) := by
  unfold tailAt
  split
  · exact countPort_moves hF.2.1 n _ s
  · exact (Moves.mapRecord s _ _ hF.1.1.1.2.1).trans (returnToIdle_moves hF.1 e .tail _)
  · exact returnToIdle_moves hF.1 e .tail s

theorem stallExpiry_moves (hF : F.hasTable) (ht : F.time = true) (e : EntryId) (s : State) :
    Moves F s (stallExpiry e s) := by
  unfold stallExpiry
  split
  · exact (Moves.atDeadline s _ ht).trans (returnToIdle_moves hF e .stalled _)
  · exact Moves.refl F s

end Sys2Proof.Machine
end

