-- ==== Sys2Proof/Laws/Device.lean ====
section
/-!
SUPPORT. What the ports, the profile store, the management agent and the uplink can do to the state
(Machine/Ports.lean, Machine/Profile.lean, Machine/Management.lean, Machine/Uplink.lean).
-/

namespace Sys2Proof.Machine

open Sys2Proof

variable {F : Touch}

/-! ## Ports -/

/-- The parts that the ports touch: what reception touches, the agent, time and the power-good levels. -/
def Touch.hasPorts (F : Touch) : Prop := F.hasReception ∧ F.agent = true ∧ F.time = true ∧ F.pg = true

theorem Touch.hasPorts.notices (hF : F.hasPorts) : F.notices = true := hF.1.1.1.1.2.2
theorem Touch.hasPorts.ports (hF : F.hasPorts) : F.ports = true := hF.1.2.1
theorem Touch.hasPorts.gens (hF : F.hasPorts) : F.gens = true := hF.1.1.2
theorem Touch.hasPorts.replies (hF : F.hasPorts) : F.hasReplies := ⟨hF.2.1, hF.ports⟩
theorem Touch.hasPorts.issue (hF : F.hasPorts) : F.hasIssue := ⟨hF.replies, hF.gens, hF.notices⟩

theorem enterPort_moves (hp : F.ports = true) (hn : F.notices = true) (n : PortId) (st : PortState) (c : PortReason)
    (s : State) : Moves F s (enterPort n st c s) :=
  (Moves.mapPort s n (Port.enter st s) hp fun _ h => h).trans (offerNotice_moves hn _ rfl _)

theorem movePort_moves (hp : F.ports = true) (hn : F.notices = true) (n : PortId) (st : PortState) (c : PortReason)
    (s : State) : Moves F s (movePort n st c s) :=
  Moves.ite _ (Moves.mapPort s n _ hp fun _ h => h) (enterPort_moves hp hn n st c s)

theorem setFault_moves (hp : F.ports = true) (n : PortId) (b : Bool) (s : State) : Moves F s (setFault n b s) :=
  Moves.mapPort s n _ hp fun _ h => h

theorem portResetEffects_moves (hF : F.hasPorts) (n : PortId) (s : State) : Moves F s (portResetEffects n s) :=
  ((Moves.forEach _ _ s fun e t => returnToIdle_moves hF.1.1 e .portLost t).trans
    (abandonTriggers_moves hF.gens n _)).trans (flushOutput_moves hF.replies n _)

theorem leaveActive_moves (hF : F.hasPorts) (n : PortId) (s : State) : Moves F s (leaveActive n s) :=
  Moves.ite _ (portResetEffects_moves hF n s) (Moves.refl F s)

theorem exitPort_moves (hF : F.hasPorts) (n : PortId) (st : PortState) (c : PortReason) (s : State) :
    Moves F s (exitPort n st c s) :=
  (leaveActive_moves hF n s).trans (enterPort_moves hF.ports hF.notices n st c _)

theorem portSilence_moves (hF : F.hasPorts) (n : PortId) (s : State) : Moves F s (portSilence n s) := by
  unfold portSilence
  split
  · exact (Moves.atDeadline s _ hF.2.2.1).trans (exitPort_moves hF n _ _ _)
  · exact Moves.refl F s

theorem portHold_moves (hF : F.hasPorts) (n : PortId) (s : State) : Moves F s (portHold n s) := by
  unfold portHold
  split
  · exact (Moves.atDeadline s _ hF.2.2.1).trans (enterPort_moves hF.ports hF.notices n _ _ _)
  · exact Moves.refl F s

theorem setPowerGood_moves (hF : F.pg = true) (n : PortId) (b : Bool) (s : State) : Moves F s (setPowerGood n b s) :=
  { Moves.refl F s with binding := fun _ b => ⟨b.table, b.slots, b.staging⟩, pg := fun x => absurd (hF.symm.trans x) (by decide) }

theorem rampEnds_moves (hF : F.hasPorts) (n : PortId) (high : Bool) (s : State) : Moves F s (rampEnds n high s) := by
  unfold rampEnds
  split
  · next d _ _ =>
    have h := (Moves.atDeadline (F := F) s d hF.2.2.1).trans (setPowerGood_moves hF.2.2.2 n high _)
    exact Moves.ite _ (h.trans (enterPort_moves hF.ports hF.notices n _ _ _))
      ((h.trans (setFault_moves hF.ports n true _)).trans (enterPort_moves hF.ports hF.notices n _ _ _))
  · exact Moves.refl F s

theorem powerFails_moves (hF : F.hasPorts) (n : PortId) (s : State) : Moves F s (powerFails n s) := by
  have h := setPowerGood_moves hF.2.2.2 n false s
  exact Moves.ite _ ((h.trans (exitPort_moves hF n _ _ _)).trans (setFault_moves hF.ports n true _)) h

theorem countUnit_moves (hp : F.ports = true) (n : PortId) (s : State) : Moves F s (countUnit n s) :=
  Moves.mapPort s n _ hp fun _ h => h

theorem badUnit_moves (hF : F.hasPorts) (n : PortId) (s : State) : Moves F s (badUnit n s) := by
  have h := Moves.mapPort (F := F) s n (fun p => { p with
    counters := { p.counters with badCheck := bump p.counters.badCheck },
    acqRun := if p.state = .acquiring then 0 else p.acqRun,
    badRun := if p.state = .active then p.badRun + 1 else p.badRun }) hF.ports fun _ h => h
  exact Moves.ite _ (h.trans (exitPort_moves hF n _ _ _)) h

theorem goodUnit_moves (hp : F.ports = true) (hn : F.notices = true) (n : PortId) (s : State) :
    Moves F s (goodUnit n s) := by
  have h := Moves.mapPort (F := F) s n (fun p => { p with
    badRun := 0, acqRun := if p.state = .acquiring then p.acqRun + 1 else p.acqRun }) hp fun _ h => h
  exact Moves.ite _ (h.trans (enterPort_moves hp hn n _ _ _)) h

theorem toEntry_moves (n : PortId) (c : Channel) (u : State → State) (f : EntryId → State → State) (s : State)
    (hu : Moves F s (u s)) (hf : ∀ e, Moves F s (f e s)) : Moves F s (toEntry n c u f s) := by
  unfold toEntry
  split
  · exact hf _
  · exact hu

theorem forgetLate_moves (hp : F.ports = true) (n : PortId) (c : Channel) (s : State) : Moves F s (forgetLate n c s) :=
  Moves.mapPort s n _ hp fun _ h => h

theorem countUnbound_moves (hp : F.ports = true) (n : PortId) (c : Channel) (k : Half) (s : State) :
    Moves F s (countUnbound n c k s) :=
  have h := countPort_moves hp n _ s
  Moves.ite _ (h.trans (countPort_moves hp n _ _)) h

theorem disposeDown_moves (hF : F.hasPorts) (n : PortId) (g : DownSegment) (s : State) :
    Moves F s (disposeDown n g s) := by
  unfold disposeDown
  split
  · exact (forgetLate_moves hF.ports n _ s).trans
      (toEntry_moves n _ _ _ _ (countPort_moves hF.ports n _ _) fun e => headAt_moves hF.1 e n _ _ _ _)
  · exact toEntry_moves n _ _ _ s (countUnbound_moves hF.ports n _ _ s) fun e => bodyAt_moves hF.1 e n _ _ s
  · exact toEntry_moves n _ _ _ s (countUnbound_moves hF.ports n _ _ s) fun e => tailAt_moves hF.1 e n _ _ _ s
  · exact cameraReply_moves hF.2.1 n _ _ s
  · exact Moves.refl F s

theorem downUnit_moves (hF : F.hasPorts) (n : PortId) (unit : List Byte) (s : State) :
    Moves F s (downUnit n unit s) := by
  have h := countUnit_moves hF.ports n s
  have hg := h.trans (goodUnit_moves hF.ports hF.notices n _)
  unfold downUnit
  split
  · split
    · exact h.trans (badUnit_moves hF n _)
    · exact hg.trans (countPort_moves hF.ports n _ _)
    · exact Moves.ite _ (hg.trans (disposeDown_moves hF n _ _)) hg
  · exact Moves.refl F s

/-- Starting a segment takes at most one from the queue. -/
theorem startSegment_law (p : Port) (h : p.queueLaw) : p.startSegment.queueLaw := by
  unfold Port.startSegment
  unfold Port.queueLaw at *
  split <;> simp_all <;> omega

theorem transmitStart_moves (hp : F.ports = true) (n : PortId) (s : State) : Moves F s (transmitStart n s) :=
  Moves.mapPort s n _ hp fun p h => by
    split
    · exact h
    · exact h
    · exact h
    · exact h
    · exact startSegment_law p h

theorem reconfigurePort_moves (hF : F.hasPorts) (n : PortId) (a b : Bool) (s : State) :
    Moves F s (reconfigurePort n a b s) :=
  Moves.ite _ (Moves.refl F s) ((leaveActive_moves hF n s).trans (movePort_moves hF.ports hF.notices n _ _ _))

theorem applyPortSettings_moves (hF : F.hasPorts) (n : PortId) (a b : Bool) (s : State) :
    Moves F s (applyPortSettings n a b s) := by
  have h := Moves.mapPort (F := F) s n (fun p => { p with enabled := a, powered := b }) hF.ports fun _ h => h
  unfold applyPortSettings
  simp only
  refine Moves.ite _ ?_ (Moves.ite _ ?_ ?_)
  · exact ((h.trans (leaveActive_moves hF n _)).trans (movePort_moves hF.ports hF.notices n _ _ _)).trans
      (setFault_moves hF.ports n false _)
  · exact (h.trans (movePort_moves hF.ports hF.notices n _ _ _)).trans (setFault_moves hF.ports n false _)
  · exact h.trans (reconfigurePort_moves hF n _ _ _)

theorem opSetPort_moves (hF : F.hasPorts) (a b c : Byte) (s : State) : Moves F s (opSetPort a b c s).1 := by
  unfold opSetPort
  split
  · exact Moves.refl F s
  · split
    · exact applyPortSettings_moves hF _ _ _ s
    · exact Moves.refl F s

theorem opGetPort_moves (a : Byte) (s : State) : Moves F s (opGetPort a s).1 := by
  unfold opGetPort
  split
  · exact Moves.refl F s
  · split
    · exact Moves.refl F s
    · exact Moves.refl F s

theorem resetPort_moves (hF : F.hasPorts) (n : PortId) (s : State) : Moves F s (resetPort n s) := by
  have h := (leaveActive_moves hF n s).trans (Moves.mapPort _ n Port.cleared hF.ports fun _ _ => by
    simp [Port.queueLaw, Port.cleared])
  exact Moves.ite _ (h.trans (enterPort_moves hF.ports hF.notices n _ _ _))
    (h.trans (Moves.mapPort _ n _ hF.ports fun _ h => h))

theorem opPortReset_moves (hF : F.hasPorts) (a : Byte) (s : State) : Moves F s (opPortReset a s).1 := by
  unfold opPortReset
  split
  · exact Moves.refl F s
  · split
    · exact resetPort_moves hF _ s
    · exact Moves.refl F s

/-! ## The profile store -/

/-- Everything but the pins, the clock's counter and the queue of commands: the parts that a load touches. -/
def Touch.hasDevice (F : Touch) : Prop := F.hasPorts ∧ F.flash = true

/-- Marking frames late moves no port's queue. -/
theorem markLate_moves (hp : F.ports = true) (s t : State) : Moves F t (markLate s t) :=
  { Moves.refl F t with
    binding := fun _ b => ⟨b.table, b.slots, b.staging⟩
    ports := fun x => absurd (hp.symm.trans x) (by decide)
    portQ := fun h n => by simpa [State.port, markLate, Port.queueLaw] using h n }

theorem endAllFrames_moves (hF : F.hasStore) (hp : F.ports = true) (s : State) : Moves F s (endAllFrames s) :=
  ((Moves.forEach _ _ s fun e t => endAssembly_moves hF e .streamChanged t).trans (markLate_moves hp s _)).trans
    (Moves.forEach _ _ _ fun e t => Moves.mapEntry t e (fun x => { x with staged := none }) hF.1 fun i hi => by
      refine ⟨i, ?_, rfl, rfl, rfl⟩
      have : i = (t.entry e).current ∧ i.valid = true := by simpa [validImages] using hi
      simp [validImages, this.1, this.1 ▸ this.2])

theorem stopAllGenerators_moves (hF : F.gens = true) (s : State) : Moves F s (stopAllGenerators s) :=
  Moves.forEach _ _ s fun n t => abandonTriggers_moves hF n t

/-- The parts that a profile load touches. -/
def Touch.hasLoad (F : Touch) : Prop := F.images = true ∧ F.rebinds = true

theorem loadImages_moves (hF : F.hasTable) (hL : F.hasLoad) (p : Profile) (s : State) : Moves F s (loadImages p s) :=
  Moves.forEach _ _ s fun e t => activate_moves hF e _ t (.inl hL.1) (.inl hL.2)

theorem loadPort_moves (hF : F.hasPorts) (p : Profile) (n : PortId) (s : State) : Moves F s (loadPort p n s) :=
  Moves.ite _ (Moves.refl F s) (applyPortSettings_moves hF n _ _ s)

theorem loadTrigger_moves (hF : F.gens = true) (p : Profile) (n : PortId) (s : State) :
    Moves F s (loadTrigger p n s) :=
  (Moves.mapGen s n (fun g => { g with config := p.triggers[n] }) hF fun _ h => h).trans (restartTracker_moves hF n _)

theorem loadDevice_moves (hu : F.uplink = true) (hn : F.notices = true) (p : Profile) (s : State) :
    Moves F s (loadDevice p s) := (Moves.mapUplink s _ hu).trans (Moves.mapNotices _ _ hn fun h => h)

theorem loadStreams_moves (hF : F.hasTable) (hp : F.ports = true) (hL : F.hasLoad) (p : Profile) (s : State) :
    Moves F s (loadStreams p s) := ((endAllFrames_moves hF.1.1 hp s).trans (stopAllGenerators_moves hF.2 _)).trans (loadImages_moves hF hL p _)

theorem loadSettings_moves (hF : F.hasReception) (p : Profile) (s : State) : Moves F s (loadSettings p s) :=
  (Moves.forEach _ _ s fun n t => loadTrigger_moves hF.1.2 p n t).trans
    (loadDevice_moves hF.2.2 hF.1.1.1.2.2 p _)

theorem applyProfile_moves (hF : F.hasPorts) (hL : F.hasLoad) (p : Profile) (s : State) : Moves F s (applyProfile p s) :=
  ((loadStreams_moves hF.1.1 hF.ports hL p s).trans (Moves.forEach _ _ _ fun n t => loadPort_moves hF p n t)).trans
    (loadSettings_moves hF.1 p _)

theorem beginLong_moves (ha : F.agent = true) (hf : F.flash = true) (op : LongOp) (k : SlotId) (c : FlashState)
    (b : Nat) (s : State) : Moves F s (beginLong op k c b s) :=
  (Moves.mapAgent s _ ha (fun h => h) rfl).trans (Moves.mapFlash _ _ hf fun h => h)

theorem endLong_moves (hF : F.hasDevice) (op : LongOp) (k : SlotId) (o : ProfileOutcome) (s : State) :
    Moves F s (endLong op k o s) :=
  ((offerNotice_moves hF.1.notices _ rfl s).trans (Moves.mapAgent _ _ hF.1.2.1 (fun h => h) rfl)).trans
    (Moves.mapFlash _ (fun f => { f with controller := .idle, staging := none, bound := none }) hF.2 (fun h => h)
      fun b => ⟨b.slots, fun _ h => nomatch h⟩)

/-- The law of slots after one is written. -/
theorem slots_set_binding {v : Vector Slot 4} (h : ∀ (k : SlotId) p, v[k].profile? = some p → p.bindingLaw) (k : SlotId)
    (x : Slot) (hx : ∀ p, x.profile? = some p → p.bindingLaw) :
    ∀ (j : SlotId) p, (v.set k x)[j].profile? = some p → p.bindingLaw := fun j p hp => by
  by_cases hj : j = k
  · subst hj; exact hx p (by simpa using hp)
  · refine h j p ?_
    have : (v.set k x)[j] = v[j] := Vector.getElem_set_ne (hi := k.isLt) (hj := j.isLt) fun a => hj (Fin.ext a.symm)
    rw [← this]; exact hp

theorem savedSlot_binding {v : Bool} {o : Option Profile} (h : ∀ p, o = some p → p.bindingLaw) :
    ∀ p, (savedSlot v o).profile? = some p → p.bindingLaw := fun p hp => by
  unfold savedSlot at hp
  split at hp
  · next q =>
    split at hp
    · have : p = q := by simpa [eq_comm] using hp
      rw [this]; exact h q rfl
    · rw [Slot.profile?_unfinished] at hp; cases hp
  · rw [Slot.profile?_unfinished] at hp; cases hp

/-- The configuration in force binds as the current images do. -/
theorem snapshot_binding {s : State} (b : s.bindingLaw) : (snapshot s).bindingLaw := fun e f hne he hf => by
  have k : ∀ g : EntryId, (snapshot s).images[g] = (s.entry g).current := fun g => by simp [snapshot]
  rw [k] at he hf ⊢
  rw [k]
  exact b.table e f hne _ (by simp [validImages, he]) _ (by simp [validImages, hf])

/-- Writing a slot other than 0 leaves slot 0. -/
theorem slots_set_zero (v : Vector Slot 4) (k : SlotId) (x : Slot) (hk : k ≠ 0) : (v.set k x)[0] = v[0] := by
  have : (k : Nat) ≠ 0 := fun e => hk (Fin.ext e)
  simp [this]

theorem beginSave_moves (hF : F.hasDevice) (k : SlotId) (hk : k ≠ 0) (s : State) : Moves F s (beginSave k s) := by
  refine (beginLong_moves hF.1.2.1 hF.2 .save k .saving Config.saveBound s).trans (Moves.mapFlash _
    (fun f => { f with staging := some (snapshot s), slots := f.slots.set k (.unfinished (snapshot s)) }) hF.2 (fun h => ?_)
    fun b => ⟨?_, fun p hp => ?_⟩)
  · exact (slots_set_zero _ k _ hk).trans h
  · exact slots_set_binding b.slots k _ fun p hp => by rw [Slot.profile?_unfinished] at hp; cases hp
  · have b' : s.bindingLaw := ⟨b.table, b.slots, b.staging⟩
    rw [← Option.some.inj hp]; exact snapshot_binding b'

theorem opProfileSave_moves (hF : F.hasDevice) (slot : Byte) (s : State) : Moves F s (opProfileSave slot s).1 := by
  unfold opProfileSave refuse started
  split
  · exact Moves.refl F s
  · next k _ =>
    dsimp only
    by_cases hk : k = 0
    · rw [if_pos hk]; exact beginLong_moves hF.1.2.1 hF.2 _ _ _ _ s
    · rw [if_neg hk]; exact beginSave_moves hF k hk s

theorem opProfileLoad_moves (hF : F.hasDevice) (slot : Byte) (s : State) : Moves F s (opProfileLoad slot s).1 := by
  unfold opProfileLoad refuse started
  split
  · exact Moves.refl F s
  · split
    · exact beginLong_moves hF.1.2.1 hF.2 _ _ _ _ s
    · exact Moves.refl F s

theorem opBootSelect_moves (hF : F.hasDevice) (slot : Byte) (s : State) : Moves F s (opBootSelect slot s).1 := by
  unfold opBootSelect refuse started
  split
  · exact Moves.refl F s
  · split
    · exact beginLong_moves hF.1.2.1 hF.2 _ _ _ _ s
    · exact Moves.refl F s

theorem finishSave_moves (hF : F.hasDevice) (k : SlotId) (hk : k ≠ 0) (v : Bool) (s : State) :
    Moves F s (finishSave k v s) := by
  refine (Moves.mapFlash s (fun f => { f with slots := f.slots.set k (savedSlot v f.staging) }) hF.2 (fun h => ?_)
    fun b => ⟨slots_set_binding b.slots k _ (savedSlot_binding b.staging), b.staging⟩).trans (endLong_moves hF _ _ _ _)
  exact (slots_set_zero _ k _ hk).trans h

theorem writeSelector_moves (hf : F.flash = true) (k : SlotId) (v : Bool) (s : State) :
    Moves F s (writeSelector k v s) := Moves.mapFlash s _ hf fun h => h

theorem saveCompletes_moves (hF : F.hasDevice) (v : Bool) (s : State) : Moves F s (saveCompletes v s) := by
  unfold saveCompletes
  split
  · next k _ =>
    by_cases hk : k = 0
    · rw [if_pos hk]; exact Moves.refl F s
    · rw [if_neg hk]; exact finishSave_moves hF k hk v s
  · exact Moves.refl F s
  · exact Moves.refl F s
  · exact Moves.refl F s

theorem revertCompletes_moves (hF : F.hasDevice) (v : Bool) (s : State) : Moves F s (revertCompletes v s) := by
  unfold revertCompletes
  split
  · exact Moves.ite _ ((writeSelector_moves hF.2 0 v s).trans (endLong_moves hF _ _ _ _)) (Moves.refl F s)
  · exact Moves.refl F s
  · exact Moves.refl F s
  · exact Moves.refl F s

theorem selectCompletes_moves (hF : F.hasDevice) (v : Bool) (s : State) : Moves F s (selectCompletes v s) := by
  unfold selectCompletes
  split
  · exact (writeSelector_moves hF.2 _ v s).trans (endLong_moves hF _ _ _ _)
  · exact Moves.refl F s
  · exact Moves.refl F s
  · exact Moves.refl F s

/-- The entry binds what image `i` binds, at most. -/
def Entry.boundTo (x : Entry) (i : Image) : Prop :=
  ∀ j ∈ validImages x, i.valid = true ∧ j.port = i.port ∧ j.channel = i.channel ∧ j.tag = i.tag

theorem Entry.boundTo.mono {x y : Entry} {i : Image} (h : x.boundTo i) (g : x.boundAs y) : y.boundTo i := fun j hj => by
  obtain ⟨k, hk, a, b, c⟩ := g j hj
  obtain ⟨v, d, e, f⟩ := h k hk
  exact ⟨v, a.trans d, b.trans e, c.trans f⟩

/-- The parts that an activation touches, no binding among its effects' parts. -/
def Touch.effects : Touch := { gens := true, entries := true, store := true, replay := true, notices := true }

theorem Touch.effects_hasTable : Touch.effects.hasTable := ⟨⟨⟨rfl, rfl, rfl⟩, rfl⟩, rfl⟩

theorem activate_bound (e : EntryId) (i : Image) (s : State) :
    ((activate e i s).entry e).boundTo i
      ∧ ∀ f, f ≠ e → Entry.boundAs (s.entry f) ((activate e i s).entry f) := by
  have m := applyDifferences_moves Touch.effects_hasTable e (s.entry e).current i (installImage e i s)
  have b := m.bound rfl
  refine ⟨Entry.boundTo.mono (fun j hj => ?_) (b e), fun f hf => ?_⟩
  · rw [installImage, mapEntry_entry_self] at hj
    have : j = i ∧ j.valid = true := by simpa [validImages] using hj
    obtain ⟨rfl, v⟩ := this
    exact ⟨v, rfl, rfl, rfl⟩
  · have := b f
    rw [installImage, mapEntry_entry_ne _ _ _ _ hf] at this
    exact this

theorem loadAll_bound (p : Profile) (xs : List EntryId) (s : State)
    (h : ∀ e, e ∈ xs ∨ (s.entry e).boundTo p.images[e]) (e : EntryId) :
    ((forEach xs (fun e => activate e p.images[e]) s).entry e).boundTo p.images[e] := by
  induction xs generalizing s with
  | nil => exact (h e).resolve_left List.not_mem_nil
  | cons x xs ih =>
    refine ih _ fun f => ?_
    obtain ⟨a, b⟩ := activate_bound x p.images[x] s
    by_cases hf : f = x
    · subst hf; exact .inr a
    · exact (h f).imp (fun g => (List.mem_cons.1 g).resolve_left hf) fun g => g.mono (b f hf)

/-- After a load's streams the entries bind as the profile's images do. -/
theorem loadStreams_bound (p : Profile) (s : State) (e : EntryId) : ((loadStreams p s).entry e).boundTo p.images[e] := by
  unfold loadStreams loadImages
  exact loadAll_bound p allEntries _ (fun f => .inl (List.mem_finRange f)) e

/-- The law after a load, with what moves behind its streams. -/
theorem load_binding {F : Touch} {p : Profile} {s t : State} (hF : F.images = false ∧ F.flash = false) (hp : p.bindingLaw)
    (h : Moves F (loadStreams p s) t) (b : s.bindingLaw) : t.bindingLaw := by
  have fl : t.flash = s.flash := (h.flash hF.2).trans
    ((loadStreams_moves (F := { Touch.effects with ports := true, images := true, rebinds := true }) Touch.effects_hasTable rfl ⟨rfl, rfl⟩ p
      s).flash rfl)
  have k : ∀ e, (t.entry e).boundTo p.images[e] := fun e => (loadStreams_bound p s e).mono (h.bound hF.1 e)
  refine ⟨fun e f hne i hi j hj => ?_, by rw [fl]; exact b.slots, by rw [fl]; exact b.staging⟩
  obtain ⟨v, hv⟩ := k e i hi
  obtain ⟨w, hw⟩ := k f j hj
  rw [collides_congr hv hw]
  exact hp e f hne v w

/-- Everything that the steps of a load behind its streams touch. -/
def Touch.behind : Touch :=
  { time := true, starting := true, pg := true, ports := true, gens := true, entries := true, store := true, uplink := true, replay := true,
    agent := true, notices := true }

theorem Touch.behind_hasPorts : Touch.behind.hasPorts := by
  simp [Touch.hasPorts, Touch.hasReception, Touch.hasTable, Touch.hasReplay, Touch.hasStore, Touch.behind]

theorem applyProfile_binding (p : Profile) (s : State) (hp : p.bindingLaw) : s.bindingLaw → (applyProfile p s).bindingLaw :=
  load_binding (F := Touch.behind) ⟨rfl, rfl⟩ hp ((Moves.forEach _ _ _ fun n t =>
    loadPort_moves Touch.behind_hasPorts p n t).trans (loadSettings_moves Touch.behind_hasPorts.1 p _))

/-- A law that is broken on the way holds again at the end. -/
theorem Moves.rebound {F : Touch} {s t : State} (h : Moves { F with rebinds := true } s t)
    (b : s.bindingLaw → t.bindingLaw) : Moves F s t := { h with binding := fun _ => b }

theorem loadCompletes_moves (hF : F.hasDevice) (hi : F.images = true) (s : State) : Moves F s (loadCompletes s) := by
  unfold loadCompletes
  split
  · next k _ =>
    have h : Moves F s (match s.flash.slots[k].profile? with | some p => applyProfile p s | none => s) := by
      refine Moves.rebound ?_ fun b => ?_
      · split
        · exact applyProfile_moves (F := { F with rebinds := true }) hF.1 ⟨hi, rfl⟩ _ s
        · exact Moves.refl _ s
      · split
        · next p hp => exact applyProfile_binding p s (b.slots k p hp) b
        · exact b
    exact h.trans (endLong_moves hF _ _ _ _)
  · exact Moves.refl F s
  · exact Moves.refl F s
  · exact Moves.refl F s

/-! ## Resets -/

/-- The cut of flash work keeps slot 0, when no save to slot 0's image can be in flight (R176, R182). -/
theorem cutFlash_slot (a : Agent) (f : ProfileStore) : (cutFlash a f).slots[0] = f.slots[0] := by
  unfold cutFlash
  split
  · split
    · rfl
    · next k _ hk => exact slots_set_zero _ k _ hk
  · rfl
  · rfl
  · rfl

/-- The cut of flash work leaves in the slots no image that counts but those there were. -/
theorem cutFlash_binding (a : Agent) {f : ProfileStore} (h : ∀ (k : SlotId) p, f.slots[k].profile? = some p → p.bindingLaw)
    : ∀ (k : SlotId) p, (cutFlash a f).slots[k].profile? = some p → p.bindingLaw := by
  unfold cutFlash
  split
  · split
    · exact h
    · refine slots_set_binding h _ _ fun p hp => ?_
      have : (savedSlot false f.staging).profile? = none := by
        unfold savedSlot; split
        · exact Slot.profile?_unfinished _
        · exact Slot.profile?_unfinished _
      rw [this] at hp; cases hp
  · exact h
  · exact h
  · exact h

/-- Every part may change, but the law of bindings is kept. -/
def Touch.all : Touch :=
  ⟨true, true, true, true, true, true, true, true, true, true, true, true, true, true, false⟩

/-- Everything may change. -/
theorem Touch.all_hasDevice : Touch.all.hasDevice := by
  simp [Touch.hasDevice, Touch.hasPorts, Touch.hasReception, Touch.hasTable, Touch.hasReplay, Touch.hasStore, Touch.all]

/-- The queues are empty at reset. -/
theorem resetAll_port (c : ResetCause) (k : Option SlotId) (s : State) (n : PortId) :
    (resetAll c k s).port n = Port.atReset := by
  simp [resetAll, State.port, State.reset]

theorem resetAll_gen (c : ResetCause) (k : Option SlotId) (s : State) (n : PortId) :
    (resetAll c k s).gen n = Generator.atReset := by
  simp [resetAll, State.gen, State.reset]

theorem resetAll_entry (c : ResetCause) (k : Option SlotId) (s : State) (e : EntryId) :
    (resetAll c k s).entry e = Entry.atReset e := by
  simp [resetAll, State.entry, State.reset]

/-- A reset, taken while no place is reserved. -/
theorem resetAll_moves (c : ResetCause) (k : Option SlotId) (s : State) (hr : s.agent.reserved = false) :
    Moves Touch.all s (resetAll c k s) where
  pending := rfl
  fresh := rfl
  reserved := hr.symm
  time x := nomatch x
  starting x := nomatch x
  tin x := nomatch x
  pg x := nomatch x
  ports x := nomatch x
  gens x := nomatch x
  entries x := nomatch x
  store x := nomatch x
  uplink x := nomatch x
  replay x := nomatch x
  agent x := nomatch x
  notices x := nomatch x
  flash x := nomatch x
  portQ _ n := by rw [resetAll_port]; simp [Port.queueLaw, Port.atReset]
  genQ _ n := by rw [resetAll_gen]; simp [Generator.pendingLaw, Generator.atReset]
  noteQ _ := by simp [NoticeUnit.queueLaw, resetAll, State.reset, NoticeUnit.atReset]
  agentQ _ := by simp [Agent.queueLaw, resetAll, State.reset, Agent.atReset]
  replayQ _ := by simp [ReplayService.queueLaw, resetAll, State.reset, ReplayService.atReset]
  memory x := x
  factory x := (cutFlash_slot s.agent s.flash).trans x
  bound x := nomatch x
  binding _ b := by
    refine ⟨fun e f _ i hi => ?_, cutFlash_binding s.agent b.slots, fun p h => nomatch h⟩
    rw [resetAll_entry] at hi
    simp [validImages, Entry.atReset, Image.default] at hi

theorem partReset_moves (s : State) (hr : s.agent.reserved = false) : Moves Touch.all s (partReset s) := by
  unfold partReset
  split
  · exact resetAll_moves _ _ s hr
  · exact Moves.refl _ s

/-! ## Start-up -/

theorem startPort_moves (hp : F.ports = true) (hn : F.notices = true) (p : Profile) (n : PortId) (s : State) :
    Moves F s (startPort p n s) := by
  have h := Moves.mapPort (F := F) s n (fun x => { x with enabled := p.ports[n].1, powered := p.ports[n].2 }) hp
    fun _ h => h
  exact Moves.ite _ (h.trans (enterPort_moves hp hn n _ _ _)) h

theorem setStarting_moves (hF : F.starting = true) (b : Bool) (s : State) : Moves F s { s with starting := b } :=
  { Moves.refl F s with binding := fun _ b => ⟨b.table, b.slots, b.staging⟩, starting := fun x => absurd (hF.symm.trans x) (by decide) }

/-- The factory profile binds nothing. -/
theorem factory_binding : Profile.factory.bindingLaw := fun e _ _ he => by
  simp [Profile.factory, Image.default] at he

/-- The slots as manufactured hold the factory profile alone. -/
theorem asManufactured_binding :
    ∀ (k : SlotId) p, ProfileStore.asManufactured.slots[k].profile? = some p → p.bindingLaw := by
  refine slots_set_binding (v := Vector.replicate 4 Slot.empty) (fun k p hp => ?_) 0 .factory fun p hp => ?_
  · have : (Vector.replicate 4 Slot.empty)[k] = Slot.empty := Vector.getElem_replicate _
    rw [this] at hp; cases hp
  · rw [Slot.profile?_factory] at hp
    rw [← Option.some.inj hp]; exact factory_binding

theorem startUpImage_binding {s : State} (b : s.bindingLaw) : (startUpImage s.flash).bindingLaw := by
  unfold startUpImage
  cases h : s.flash.slots[s.flash.record.slot].profile? with
  | none => exact factory_binding
  | some p => exact b.slots _ p h

theorem startUpWith_binding (p : Profile) (s : State) (hp : p.bindingLaw) (b : s.bindingLaw) :
    (startUpWith p s).bindingLaw := by
  have h := load_binding (F := Touch.behind) ⟨rfl, rfl⟩ hp (((loadSettings_moves Touch.behind_hasPorts.1 p (loadStreams p s)).trans
    (Moves.forEach allPorts _ _ fun n t => startPort_moves rfl rfl p n t)).trans (setStarting_moves rfl false _)) b
  have h2 := (offerNotice_moves (F := { notices := true }) rfl
    (bootReport (forEach allPorts (startPort p) (loadSettings p (loadStreams p s))).flash) rfl _).binding rfl h
  exact ⟨h2.table, h2.slots, h2.staging⟩

theorem startUpWith_moves (hF : F.hasDevice) (hs : F.starting = true) (hL : F.hasLoad) (p : Profile) (s : State) :
    Moves F s (startUpWith p s) := by
  have h := ((loadStreams_moves hF.1.1.1 hF.1.ports hL p s).trans (loadSettings_moves hF.1.1 p _)).trans
    (Moves.forEach allPorts _ _ fun n t => startPort_moves hF.1.ports hF.1.notices p n t)
  have h2 := (h.trans (setStarting_moves hs false _)).trans (offerNotice_moves hF.1.notices
    (bootReport (forEach allPorts (startPort p) (loadSettings p (loadStreams p s))).flash) rfl _)
  exact h2.trans (Moves.mapFlash _ (fun f => { f with controller := .idle, bound := none }) hF.2 fun h => h)

theorem startUpCompletes_moves (hF : F.hasDevice) (hs : F.starting = true) (hi : F.images = true) (s : State) :
    Moves F s (startUpCompletes s) :=
  Moves.ite _ (Moves.rebound (startUpWith_moves (F := { F with rebinds := true }) hF hs ⟨hi, rfl⟩ _ s) fun b =>
    startUpWith_binding _ s (startUpImage_binding b) b) (Moves.refl F s)

end Sys2Proof.Machine
end

