-- ==== Sys2Proof/Laws/Agent.lean ====
section
/-!
SUPPORT. What the management agent and the uplink can do to the state (Machine/Management.lean, Machine/Uplink.lean), and
with them every command.
-/

namespace Sys2Proof.Machine

open Sys2Proof

variable {F : Touch}

/-! ## Operations -/

theorem opResetPart_moves (hF : F.agent = true) (slot : Byte) (s : State) : Moves F s (opResetPart slot s).1 := by
  unfold opResetPart accept refuse
  split
  · dsimp only
    exact Moves.mapAgent s _ hF (fun h => h) rfl
  · exact Moves.refl F s

theorem opHold_moves (hF : F.store = true) (entry : Byte) (n : Half) (s : State) : Moves F s (opHold entry n s).1 := by
  unfold opHold accept refuse
  split
  · exact Moves.refl F s
  · split
    · exact Moves.refl F s
    · exact (Moves.mapRecord s _ _ hF).trans (placeOnReclaim_moves hF _ _)

theorem releaseRecord_moves (hF : F.hasStore) (e : EntryId) (r : RecordId) (s : State) :
    Moves F s (releaseRecord e r s) :=
  ((Moves.mapRecord s r _ hF.2.1).trans (enforceDepth_moves hF e _)).trans (reexamine_moves hF.2.1 r _)

theorem opRelease_moves (hF : F.hasStore) (entry : Byte) (n : Half) (s : State) : Moves F s (opRelease entry n s).1 := by
  unfold opRelease accept refuse
  split
  · exact Moves.refl F s
  · split
    · exact Moves.refl F s
    · exact releaseRecord_moves hF _ _ s

theorem opDrop_moves (hF : F.hasStore) (entry count : Byte) (s : State) : Moves F s (opDrop entry count s).1 := by
  unfold opDrop accept refuse
  split
  · exact leaveRingAll_moves hF _ _ s
  · exact Moves.refl F s

theorem clearRings_moves (hF : F.hasStore) (s : State) : Moves F s (clearRings s) :=
  Moves.forEach _ _ s fun e t => leaveRingAll_moves hF e _ t

theorem opStoreClear_moves (hF : F.hasStore) (s : State) : Moves F s (opStoreClear s).1 := by
  unfold opStoreClear accept
  dsimp only
  exact clearRings_moves hF s

theorem opListFrames_moves (a b : Byte) (s : State) : Moves F s (opListFrames a b s).1 := by
  unfold opListFrames
  split
  · exact Moves.refl F s
  · exact Moves.refl F s

theorem opSetUplink_moves (hF : F.uplink = true) (b : Option UplinkBlock) (s : State) :
    Moves F s (opSetUplink b s).1 := by
  unfold opSetUplink accept refuse
  split
  · exact Moves.refl F s
  · split
    · dsimp only [storeSettings]
      exact Moves.mapUplink s _ hF
    · exact Moves.refl F s

theorem opTrigConfig_moves (hF : F.gens = true) (port : Byte) (b : TrigBlock) (s : State) :
    Moves F s (opTrigConfig port b s).1 := by
  unfold opTrigConfig accept refuse
  split
  · next n c _ _ =>
    split
    · exact Moves.refl F s
    · exact (Moves.mapGen s n (fun g => { g with config := c }) hF fun _ h => h).trans (restartTracker_moves hF n _)
  · exact Moves.refl F s

/-- Starting a generator leaves its pending list. -/
theorem startGenerator_pendings (s : State) (g : Generator) : (startGenerator s g).pendings = g.pendings := by
  unfold startGenerator
  split
  · rfl
  · rfl
  · split <;> rfl

theorem opTrigStart_moves (hF : F.gens = true) (port : Byte) (s : State) : Moves F s (opTrigStart port s).1 := by
  unfold opTrigStart accept refuse
  split
  · exact Moves.refl F s
  · split
    · exact Moves.refl F s
    · split
      · exact Moves.refl F s
      · refine Moves.mapGen s _ (startGenerator s) hF fun g h => ?_
        unfold Generator.pendingLaw at h ⊢
        rwa [startGenerator_pendings]

theorem opTrigStop_moves (hF : F.gens = true) (port : Byte) (s : State) : Moves F s (opTrigStop port s).1 := by
  unfold opTrigStop accept refuse
  split
  · exact Moves.refl F s
  · dsimp only
    exact Moves.mapGen s _ _ hF fun _ h => h

theorem opTrigNow_moves (hF : F.hasIssue) (port : Byte) (s : State) : Moves F s (opTrigNow port s).1 := by
  unfold opTrigNow accept refuse
  split
  · exact Moves.refl F s
  · exact attemptIssue_moves hF _ _ _ s

theorem opSetNoticeMask_moves (hF : F.notices = true) (m : Half) (s : State) : Moves F s (opSetNoticeMask m s).1 := by
  unfold opSetNoticeMask accept refuse
  split
  · exact Moves.refl F s
  · dsimp only
    exact Moves.mapNotices s _ hF fun h => h

/-- The parts that the counters of all groups lie in. -/
theorem clearGroup_moves (hF : F.hasPorts) (g : CounterGroup) (s : State) : Moves F s (clearGroup g s) := by
  unfold clearGroup
  split
  · exact countPort_moves hF.ports _ _ s
  · exact countEntry_moves hF.1.1.1.1.1 _ _ s
  · exact Moves.mapStore s _ hF.1.1.1.1.2.1 fun h => h
  · exact Moves.mapUplink s _ hF.1.2.2
  · exact countTrig_moves hF.gens _ _ s
  · exact Moves.mapAgent s _ hF.2.1 (fun h => h) rfl

/-- Every operation (R154). -/
theorem operate_moves (hF : F.hasDevice) (hi : F.images = true) (op : HostOp) (s : State) : Moves F s (operate op s).1 := by
  have hP := hF.1
  have hR := hP.1
  have hT := hR.1
  have hS := hT.1.1
  unfold operate
  split
  · exact Moves.refl F s
  · exact opResetPart_moves hP.2.1 _ s
  · exact opSetPort_moves hP _ _ _ s
  · exact opGetPort_moves _ s
  · exact opPortReset_moves hP _ s
  · unfold opReadEntry
    split
    · exact Moves.refl F s
    · exact Moves.refl F s
  · exact opWriteEntry_moves hT hi _ _ s
  · exact opListFrames_moves _ _ s
  · exact opHold_moves hS.2.1 _ _ s
  · exact opRelease_moves hS _ _ s
  · exact opDrop_moves hS _ _ s
  · exact opStoreClear_moves hS s
  · exact opSetUplink_moves hR.2.2 _ s
  · exact opReplay_moves hT.1 _ _ _ s
  · exact opCancelReplay_moves hT.1 _ s
  · exact opTrigConfig_moves hT.2 _ _ s
  · exact opTrigStart_moves hT.2 _ s
  · exact opTrigStop_moves hT.2 _ s
  · exact opTrigNow_moves hP.issue _ s
  · unfold opTrigStatus
    split
    · exact Moves.refl F s
    · exact Moves.refl F s
  · exact opSetNoticeMask_moves hS.2.2 _ s
  · unfold opReadCounters
    split
    · exact Moves.refl F s
    · exact Moves.refl F s
  · unfold opClearCounters
    split
    · exact clearGroup_moves hP _ s
    · exact Moves.refl F s
  · exact opProfileSave_moves hF _ s
  · exact opProfileLoad_moves hF _ s
  · exact opBootSelect_moves hF _ s
  · exact Moves.refl F s

theorem answer_moves (hF : F.hasDevice) (hi : F.images = true) (op : HostOp) (s : State) : Moves F s (answer op s).1 := by
  unfold answer
  split
  · exact Moves.refl F s
  · exact operate_moves hF hi op s

/-! ## Execution -/

/-- The own reply takes the place reserved at the take (R153): what lies between is any operation. -/
theorem reply_moves (hA : F.agent = true) (r : Reply) (s t : State) (h : Moves F (setReserved true s) t)
    (hr : s.agent.reserved = false) (hroom : s.agent.replies.length < 16) : Moves F s (placeReply r t) where
  pending := h.pending
  fresh := h.fresh
  reserved := hr.symm
  time x := h.time x
  starting x := h.starting x
  tin x := h.tin x
  pg x := h.pg x
  ports x := h.ports x
  gens x := h.gens x
  entries x := h.entries x
  store x := h.store x
  uplink x := h.uplink x
  replay x := h.replay x
  agent x := absurd (hA.symm.trans x) (by decide)
  notices x := h.notices x
  flash x := h.flash x
  portQ x := h.portQ x
  genQ x := h.genQ x
  noteQ x := h.noteQ x
  agentQ x := by
    have h1 : (setReserved true s).agent.queueLaw := ⟨x.1, by simp [setReserved]; omega⟩
    have h2 := h.agentQ h1
    have h3 : t.agent.reserved = true := h.reserved
    refine ⟨h2.1, ?_⟩
    have := h2.2
    rw [h3] at this
    simpa [placeReply, pushReply, setReserved] using this
  replayQ x := h.replayQ x
  memory x := h.memory x
  factory x := h.factory x
  bound x := h.bound x
  binding x b := by
    have k := h.binding x ⟨b.table, b.slots, b.staging⟩
    exact ⟨k.table, k.slots, k.staging⟩

/-- The execution of an operation, up to the reset it may bring. -/
theorem executed_moves (hF : F.hasDevice) (hi : F.images = true) (tag : Half) (op : HostOp) (s : State)
    (hr : s.agent.reserved = false) (hroom : s.agent.replies.length < 16) : Moves F s (executed tag op s) :=
  reply_moves hF.1.2.1 _ s _ (answer_moves hF hi op _) hr hroom

theorem executeOp_moves (tag : Half) (op : HostOp) (s : State) (hr : s.agent.reserved = false)
    (hroom : s.agent.replies.length < 16) : Moves Touch.all s (executeOp tag op s) := by
  have h := executed_moves Touch.all_hasDevice rfl tag op s hr hroom
  unfold executeOp resetIfDown
  split
  · exact h.trans (partReset_moves _ (h.reserved.trans hr))
  · exact h

theorem refuseRequest_moves (m : Mreq) (st : Status) (s : State) (hr : s.agent.reserved = false)
    (hroom : s.agent.replies.length < 16) : Moves Touch.all s (refuseRequest m st s) := by
  have h := reply_moves (F := Touch.all) rfl (ownReply m.tag m.op false ⟨st, []⟩) s _ (Moves.refl _ _) hr hroom
  exact h

theorem executeRequest_moves (m : Mreq) (s : State) (hr : s.agent.reserved = false)
    (hroom : s.agent.replies.length < 16) : Moves Touch.all s (executeRequest m s) := by
  unfold executeRequest
  split
  · exact refuseRequest_moves m _ s hr hroom
  · split
    · exact refuseRequest_moves m _ s hr hroom
    · exact executeOp_moves _ _ s hr hroom

/-- A free agent has room in the reply queue. -/
theorem agentFree_room (s : State) (h : agentFree s = true) : s.agent.replies.length < 16 := by
  simp only [agentFree, Bool.and_eq_true] at h
  exact of_decide_eq_true h.2

theorem takeRequest_moves (s : State) (hr : s.agent.reserved = false) (hroom : s.agent.replies.length < 16) :
    Moves Touch.all s (takeRequest s) := by
  unfold takeRequest
  split
  · exact Moves.refl _ s
  · next m ms hm =>
    refine Moves.trans (Moves.mapAgent s (fun a => { a with requests := ms }) rfl (fun h => ⟨?_, h.2⟩) rfl)
      (executeRequest_moves m _ hr hroom)
    have := h.1
    rw [hm] at this
    simp at this ⊢
    omega

theorem agentRun_moves (k : Nat) (s : State) (hr : s.agent.reserved = false) : Moves Touch.all s (agentRun k s) := by
  induction k generalizing s with
  | zero => exact Moves.refl _ s
  | succ k ih =>
    unfold agentRun
    split
    · next h =>
      have h1 := takeRequest_moves s hr (agentFree_room s (by simp_all))
      exact h1.trans (ih _ (h1.reserved.trans hr))
    · exact Moves.refl _ s

theorem agentTakes_moves (s : State) (hr : s.agent.reserved = false) : Moves Touch.all s (agentTakes s) :=
  agentRun_moves _ s hr

theorem hostRequest_moves (tag : Half) (op : HostOp) (s : State) (hr : s.agent.reserved = false) :
    Moves Touch.all s (hostRequest tag op s) := by
  unfold hostRequest
  split
  · next h => exact executeOp_moves tag op s hr (agentFree_room s h)
  · exact Moves.refl _ s

/-! ## The uplink -/

theorem transmit_moves (hF : F.uplink = true) (x : TxSource) (g : Segment) (s : State) : Moves F s (transmit x g s) :=
  Moves.mapUplink s _ hF

theorem grantPosition_moves (hu : F.uplink = true) (he : F.entries = true) (hv : F.replay = true) (p : Fin 33)
    (o : Offer) (s : State) : Moves F s (grantPosition p o s) := by
  unfold grantPosition
  split
  · split
    · exact (Moves.mapEntry s _ _ he).trans (transmit_moves hu _ _ _)
    · exact Moves.refl F s
  · split
    · unfold grantReplay
      exact (Moves.mapReplay s _ hv fun h => h).trans (transmit_moves hu _ _ _)
    · exact Moves.refl F s

theorem grantMember_moves (hu : F.uplink = true) (he : F.entries = true) (hv : F.replay = true) (c : ClassId)
    (p : Fin 33) (s : State) : Moves F s (grantMember c p s) := by
  unfold grantMember
  split
  · exact (grantPosition_moves hu he hv p _ s).trans (Moves.mapUplink _ _ hu)
  · exact Moves.refl F s

theorem grant_moves (hu : F.uplink = true) (he : F.entries = true) (hv : F.replay = true) (s : State) :
    Moves F s (grant s) := by
  have h : Moves F s (grantFrame s) := by
    unfold grantFrame
    split
    · exact grantMember_moves hu he hv _ _ s
    · exact transmit_moves hu _ _ s
  unfold grant arbitrate
  split
  · split
    · exact transmit_moves hu _ _ s
    · exact transmit_moves hu _ _ s
    · exact h
  · exact Moves.refl F s

theorem replyLeaves_moves (s : State) (hr : s.agent.reserved = false) : Moves Touch.all s (replyLeaves s) := by
  have h : Moves Touch.all s (mapAgent (fun a => { a with replies := a.replies.drop 1 }) s) :=
    Moves.mapAgent s _ rfl (fun h => ⟨h.1, by have := h.2; simp; omega⟩) rfl
  unfold replyLeaves
  simp only
  split
  · exact h.trans (partReset_moves _ hr)
  · exact h.trans (agentTakes_moves _ hr)

theorem forwardTailLeaves_moves (hF : F.hasStore) (e : EntryId) (s : State) : Moves F s (forwardTailLeaves e s) := by
  unfold forwardTailLeaves
  split
  · exact Moves.refl F s
  · next r rs _ =>
    exact ((Moves.mapEntry s e (fun x => { x with forwardQueue := rs, cursor := none }) hF.1).trans
      (dropForward_moves hF.2.1 r _)).trans (countEntry_moves hF.1 e _ _)

theorem segmentCompletes_moves (s : State) (hr : s.agent.reserved = false) : Moves Touch.all s (segmentCompletes s) := by
  have hD := Touch.all_hasDevice
  unfold segmentCompletes
  split
  · next x _ =>
    have h : Moves Touch.all s (freeTransmitter x s) := Moves.mapUplink s _ rfl
    unfold segmentLeft
    split
    · exact h.trans (replyLeaves_moves _ hr)
    · exact h.trans (noticeLeaves_moves rfl _)
    · exact Moves.ite _ (h.trans (forwardTailLeaves_moves hD.1.1.1.1.1 _ _)) h
    · exact Moves.ite _ (h.trans (replayTailLeaves_moves hD.1.1.1.1 _)) h
    · exact h.trans (abortedTailLeaves_moves hD.1.1.1.1 _)
    · exact h
  · exact Moves.refl _ s

theorem loseLink_moves (hF : F.uplink = true) (w : PrevLoss) (s : State) : Moves F s (loseLink w s) :=
  Moves.mapUplink s _ hF

theorem cutForward_moves (he : F.entries = true) (hs : F.store = true) (e : EntryId) (s : State) :
    Moves F s (cutForward e s) :=
  (Moves.mapEntry s e (fun x => { x with forwardQueue := [], cursor := none }) he).trans
    (Moves.forEach _ _ _ fun r t => (Moves.mapRecord t r _ hs).trans (freeIfUnclaimed_moves hs r _))

theorem leaveUplink_moves (w : PrevLoss) (s : State) (hr : s.agent.reserved = false) :
    Moves Touch.all s (leaveUplink w s) := by
  have hD := Touch.all_hasDevice
  have h := (((loseLink_moves (F := Touch.all) rfl w s).trans
    (Moves.forEach allEntries cutForward _ fun e t => cutForward_moves rfl rfl e t)).trans
    (abortReplay_moves hD.1.1.1.1 _)).trans (joinQualified_moves rfl _)
  unfold leaveUplink resetIfPending
  split
  · exact h.trans (partReset_moves _ (h.reserved.trans hr))
  · exact h

theorem enterUplink_moves (hF : F.hasReplay) (hu : F.uplink = true) (s : State) : Moves F s (enterUplink s) :=
  (((Moves.mapUplink s (fun u => { u with
    state := .active, badRun := 0, silence := some (s.after Config.silenceTime) }) hu).trans
    (offerNotice_moves hF.1.2.2 (.uplinkState s.uplink.prevLoss) rfl _)).trans (Moves.mapUplink _ _ hu)).trans
    (replayTakes_moves hF _)

theorem uplinkSilence_moves (s : State) (hr : s.agent.reserved = false) : Moves Touch.all s (uplinkSilence s) := by
  unfold uplinkSilence
  split
  · next d _ _ =>
    have h := Moves.atDeadline (F := Touch.all) s d rfl
    exact h.trans (leaveUplink_moves _ _ (h.reserved.trans hr))
  · exact Moves.refl _ s

theorem uplinkHold_moves (hu : F.uplink = true) (ht : F.time = true) (s : State) : Moves F s (uplinkHold s) := by
  unfold uplinkHold
  split
  · exact (Moves.atDeadline s _ ht).trans (Moves.mapUplink _ _ hu)
  · exact Moves.refl F s

theorem upUnit_moves (unit : List Byte) (s : State) (hr : s.agent.reserved = false) :
    Moves Touch.all s (upUnit unit s) := by
  have hD := Touch.all_hasDevice
  have h : Moves Touch.all s (countUpUnit s) := Moves.mapUplink s _ rfl
  have hg : Moves Touch.all s (goodUpUnit (countUpUnit s)) := by
    refine h.trans ?_
    have h1 := Moves.mapUplink (F := Touch.all) (countUpUnit s) (fun u => { u with
      badRun := 0, acqRun := if u.state = .acquiring then u.acqRun + 1 else u.acqRun }) rfl
    exact Moves.ite _ (h1.trans (enterUplink_moves hD.1.1.1.1 rfl _)) h1
  unfold upUnit
  split
  · exact Moves.mapUplink s _ rfl
  · split
    · refine h.trans ?_
      have h1 := Moves.mapUplink (F := Touch.all) (countUpUnit s) (fun u => { u with
        badCheck := bump u.badCheck,
        acqRun := if u.state = .acquiring then 0 else u.acqRun,
        badRun := if u.state = .active then u.badRun + 1 else u.badRun }) rfl
      exact Moves.ite _ (h1.trans (leaveUplink_moves _ _ hr)) h1
    · exact hg
    · split
      · unfold disposeUp
        split
        · next m _ =>
          have h2 := hg.trans (requestArrives_moves hD.1.replies m _)
          exact h2.trans (agentTakes_moves _ (h2.reserved.trans hr))
        · exact hg
      · exact hg

end Sys2Proof.Machine
end

