-- ==== Sys2Proof/Laws/Rings.lean ====
section
/-!
SUPPORT. What the frame store's functions leave of the stream table: of an entry they change only the ring, the
counters and, at a ONE_SHOT close, the retention mode; and no byte of the store.
-/

namespace Sys2Proof.Machine

open Sys2Proof

/-- From `s` to `t` only entries in `P` change, and of those only ring, counters and retention; the bytes are kept. -/
structure Rings (P : EntryId → Prop) (s t : State) : Prop where
  outside : ∀ f, ¬ P f → t.entry f = s.entry f
  inside : ∀ f, t.entry f = { s.entry f with
    ring := (t.entry f).ring, counters := (t.entry f).counters,
    current := { (s.entry f).current with retention := (t.entry f).current.retention } }
  mem : t.store.mem = s.store.mem

namespace Rings

variable {P : EntryId → Prop} {s t u : State}

theorem refl (P : EntryId → Prop) (s : State) : Rings P s s := ⟨fun _ _ => rfl, fun _ => rfl, rfl⟩

theorem trans (h : Rings P s t) (g : Rings P t u) : Rings P s u :=
  ⟨fun f hf => (g.outside f hf).trans (h.outside f hf), fun f => by rw [g.inside f, h.inside f], g.mem.trans h.mem⟩

theorem ite {c : Prop} [Decidable c] (h : Rings P s t) (g : Rings P s u) : Rings P s (if c then t else u) := by
  split
  · exact h
  · exact g

/-- A larger set of entries. -/
theorem mono {Q : EntryId → Prop} (h : Rings P s t) (hPQ : ∀ f, P f → Q f) : Rings Q s t :=
  ⟨fun f hf => h.outside f fun hp => hf (hPQ f hp), h.inside, h.mem⟩

theorem forEach {α : Type} (xs : List α) (f : α → State → State) (s : State) (h : ∀ x ∈ xs, ∀ t, Rings P t (f x t)) :
    Rings P s (Machine.forEach xs f s) := by
  induction xs generalizing s with
  | nil => exact refl P s
  | cons x xs ih =>
    exact (h x (by simp) s).trans (ih (f x s) fun y hy => h y (by simp [hy]))

/-- Same entries and bytes. -/
theorem same (he : t.entries = s.entries) (hm : t.store.mem = s.store.mem) : Rings P s t := by
  have : ∀ f, t.entry f = s.entry f := fun f => by simp [State.entry, he]
  exact ⟨fun f _ => this f, fun f => by rw [this f], hm⟩

/-- An update of ring, counters and retention at one entry. -/
theorem entry (s : State) (e : EntryId) (g : Entry → Entry) (hP : P e)
    (h : ∀ x : Entry, g x = { x with
      ring := (g x).ring, counters := (g x).counters,
      current := { x.current with retention := (g x).current.retention } }) : Rings P s (mapEntry e g s) := by
  refine ⟨fun f hf => ?_, fun f => ?_, rfl⟩
  · exact mapEntry_entry_ne e g s f fun he => hf (he ▸ hP)
  · by_cases hf : f = e
    · subst hf
      rw [mapEntry_entry_self]
      exact h (s.entry f)
    · rw [mapEntry_entry_ne e g s f hf]

end Rings

variable {P : EntryId → Prop}

theorem offerNotice_entries (b : NoticeBody) (s : State) : (offerNotice b s).entries = s.entries := by
  unfold offerNotice; split
  · split <;> rfl
  · rfl

theorem offerNotice_store (b : NoticeBody) (s : State) : (offerNotice b s).store = s.store := by
  unfold offerNotice; split
  · split <;> rfl
  · rfl

theorem offerNotice_rings (b : NoticeBody) (s : State) : Rings P s (offerNotice b s) :=
  Rings.same (offerNotice_entries b s) (by rw [offerNotice_store])

theorem countEntry_rings (s : State) (e : EntryId) (f : EntryCounters → EntryCounters) (hP : P e) :
    Rings P s (countEntry e f s) := Rings.entry s e _ hP (by intro x; rfl)

theorem mapRecord_rings (r : RecordId) (f : Record → Record) (s : State) : Rings P s (mapRecord r f s) :=
  Rings.same rfl rfl

theorem mapStore_rings (f : Store → Store) (s : State) (h : (f s.store).mem = s.store.mem) :
    Rings P s (mapStore f s) := Rings.same rfl h

theorem reexamine_rings (r : RecordId) (s : State) : Rings P s (reexamine r s) := by
  have free : Rings P s (freeIfUnclaimed r s) := by
    unfold freeIfUnclaimed; split
    · exact Rings.same rfl rfl
    · exact Rings.refl P s
  refine free.trans ?_
  show Rings P _ (placeOnReclaim r _)
  unfold placeOnReclaim; split
  · split
    · exact Rings.refl P _
    · exact Rings.same rfl rfl
  · exact Rings.same rfl rfl

theorem leaveRing_rings (e : EntryId) (r : RecordId) (s : State) (hP : P e) : Rings P s (leaveRing e r s) :=
  ((Rings.entry s e _ hP (by intro x; rfl)).trans (mapRecord_rings r _ _)).trans (reexamine_rings r _)

theorem dropForward_rings (r : RecordId) (s : State) : Rings P s (dropForward r s) :=
  (mapRecord_rings r _ _).trans (reexamine_rings r _)

theorem evictions_rings (k : Nat) (e : EntryId) (s : State) (hP : P e) : Rings P s (evictions k e s) := by
  induction k generalizing s with
  | zero => exact Rings.refl P s
  | succ k ih =>
    unfold evictions; split
    · split
      · exact ((countEntry_rings s e _ hP).trans (leaveRing_rings e _ _ hP)).trans (ih _)
      · exact Rings.refl P s
    · exact Rings.refl P s

theorem enforceDepth_rings (e : EntryId) (s : State) (hP : P e) : Rings P s (enforceDepth e s) :=
  evictions_rings _ e s hP

theorem leaveRingAll_rings (e : EntryId) (rs : List RecordId) (s : State) (hP : P e) :
    Rings P s (leaveRingAll e rs s) := Rings.forEach rs _ s fun r _ t => leaveRing_rings e r t hP

theorem retainRecord_rings (e : EntryId) (r : RecordId) (s : State) (hP : P e) : Rings P s (retainRecord e r s) :=
  (((Rings.entry s e _ hP (by intro x; rfl)).trans (mapRecord_rings r _ _)).trans (countEntry_rings _ e _ hP)).trans
    (enforceDepth_rings e _ hP)

theorem decideRetention_rings (e : EntryId) (r : RecordId) (s : State) (hP : P e) :
    Rings P s (decideRetention e r s) := by
  unfold decideRetention; split
  · exact Rings.refl P s
  · exact Rings.ite (countEntry_rings s e _ hP) (retainRecord_rings e r s hP)
  · exact Rings.ite (retainRecord_rings e r s hP) (countEntry_rings s e _ hP)
  · exact Rings.ite (countEntry_rings s e _ hP)
      (((retainRecord_rings e r s hP).trans (Rings.entry _ e _ hP (by intro x; rfl))).trans (offerNotice_rings _ _))

theorem closeRecord_rings (e : EntryId) (r : RecordId) (c : CloseReason) (s : State) (hP : P e) :
    Rings P s (closeRecord e r c s) :=
  ((mapRecord_rings r _ _).trans (decideRetention_rings e r _ hP)).trans (reexamine_rings r _)

theorem reclaimOldest_rings (s : State) (hP : ∀ e, P e) : Rings P s (reclaimOldest s) := by
  unfold reclaimOldest; split
  · exact Rings.refl P s
  · exact ((countEntry_rings s _ _ (hP _)).trans (mapStore_rings _ _ rfl)).trans (leaveRing_rings _ _ _ (hP _))

end Sys2Proof.Machine
end

