-- ==== Sys2Proof/Laws/Assembly.lean ====
section
/-!
SUPPORT. What an activation and a return to IDLE leave of the entries, the generators and the bytes of the store.
-/

namespace Sys2Proof.Machine

open Sys2Proof

/-- From `s` to `t` no entry but `e` changes; `e` keeps its assembly and timer; generators change their pending list
alone; the bytes are kept. -/
structure Streams (e : EntryId) (s t : State) : Prop where
  outside : ∀ f, f ≠ e → t.entry f = s.entry f
  assembly : (t.entry e).assembly = (s.entry e).assembly
  stall : (t.entry e).stall = (s.entry e).stall
  nextIndex : (t.entry e).nextIndex = (s.entry e).nextIndex
  gens : ∀ m, t.gen m = { s.gen m with pendings := (t.gen m).pendings }
  mem : t.store.mem = s.store.mem

namespace Streams

variable {e : EntryId} {s t u : State}

theorem refl (e : EntryId) (s : State) : Streams e s s := ⟨fun _ _ => rfl, rfl, rfl, rfl, fun _ => rfl, rfl⟩

theorem trans (h : Streams e s t) (g : Streams e t u) : Streams e s u :=
  ⟨fun f hf => (g.outside f hf).trans (h.outside f hf), g.assembly.trans h.assembly, g.stall.trans h.stall,
    g.nextIndex.trans h.nextIndex, fun m => by rw [g.gens m, h.gens m], g.mem.trans h.mem⟩

theorem ofRings (h : Rings (· = e) s t) (hg : t.gens = s.gens) : Streams e s t := by
  have hm : ∀ m, t.gen m = s.gen m := fun m => by simp [State.gen, hg]
  exact ⟨fun f hf => h.outside f hf, by rw [h.inside e], by rw [h.inside e], by rw [h.inside e],
    fun m => by rw [hm m], h.mem⟩

theorem entry (s : State) (e : EntryId) (g : Entry → Entry)
    (h : ∀ x : Entry, (g x).assembly = x.assembly ∧ (g x).stall = x.stall ∧ (g x).nextIndex = x.nextIndex) :
    Streams e s (mapEntry e g s) := by
  refine ⟨fun f hf => mapEntry_entry_ne e g s f hf, ?_, ?_, ?_, fun _ => rfl, rfl⟩
  · rw [mapEntry_entry_self]; exact (h _).1
  · rw [mapEntry_entry_self]; exact (h _).2.1
  · rw [mapEntry_entry_self]; exact (h _).2.2

end Streams

/-- The store's part of the state alone. -/
def Touch.storeOnly : Touch := { entries := true, store := true, notices := true }

theorem Touch.storeOnly_hasStore : Touch.storeOnly.hasStore := ⟨rfl, rfl, rfl⟩

theorem leaveRingAll_streams (e : EntryId) (rs : List RecordId) (s : State) : Streams e s (leaveRingAll e rs s) :=
  Streams.ofRings (leaveRingAll_rings e rs s rfl) ((leaveRingAll_moves Touch.storeOnly_hasStore e rs s).gens rfl)

theorem enforceDepth_streams (e : EntryId) (s : State) : Streams e s (enforceDepth e s) :=
  Streams.ofRings (enforceDepth_rings e s rfl) ((enforceDepth_moves Touch.storeOnly_hasStore e s).gens rfl)

theorem emptyForward_streams (e : EntryId) (s : State) : Streams e s (emptyForward e s) := by
  refine (Streams.entry s e _ ?_).trans (Streams.ofRings (Rings.forEach _ _ _ fun r _ t => dropForward_rings r t) ?_)
  · intro x; exact ⟨rfl, rfl, rfl⟩
  · exact (Moves.forEach (F := Touch.storeOnly) _ _ _ fun r t => dropForward_moves rfl r t).gens rfl

/-- Striking an entry from every outstanding set changes pending lists alone. -/
theorem leavePending_gen (e : EntryId) (s : State) (m : PortId) :
    (leavePending e s).gen m = { s.gen m with pendings := ((leavePending e s).gen m).pendings } := by
  unfold leavePending
  generalize allPorts = xs
  induction xs generalizing s with
  | nil => rfl
  | cons n xs ih =>
    rw [show forEach (n :: xs) _ s = forEach xs _ _ from rfl, ih]
    by_cases h : m = n
    · subst h; rw [mapGen_gen_self]
    · rw [mapGen_gen_ne _ _ _ _ h]

theorem leavePending_streams (e f : EntryId) (s : State) : Streams f s (leavePending e s) := by
  have m := leavePending_moves (F := { gens := true }) rfl e s
  have he : ∀ x, (leavePending e s).entry x = s.entry x := fun x => by simp [State.entry, m.entries rfl]
  exact ⟨fun x _ => he x, by rw [he], by rw [he], by rw [he], leavePending_gen e s, by rw [m.store rfl]⟩

theorem markGone_streams (e f : EntryId) (s : State) : Streams f s (markGone e s) :=
  ⟨fun _ _ => rfl, rfl, rfl, rfl, fun _ => rfl, rfl⟩

theorem endStream_streams (e : EntryId) (s : State) : Streams e s (endStream e s) := by
  unfold endStream
  refine Streams.trans ?_ (markGone_streams e e _)
  refine Streams.trans ?_ (leavePending_streams e e _)
  refine Streams.trans ?_ (Streams.entry _ e _ fun x => ⟨rfl, rfl, rfl⟩)
  exact (leaveRingAll_streams e _ s).trans (emptyForward_streams e _)

theorem installImage_streams (e : EntryId) (i : Image) (s : State) : Streams e s (installImage e i s) :=
  Streams.entry s e _ fun _ => ⟨rfl, rfl, rfl⟩

/-- The effects of an activation (R46 to R50). -/
theorem applyDifferences_streams (e : EntryId) (a b : Image) (s : State) : Streams e s (applyDifferences e a b s) := by
  unfold applyDifferences
  split
  · exact endStream_streams e s
  · have h : Streams e s (if policyDiffers a b then enforceDepth e s else s) := by
      split
      · exact enforceDepth_streams e s
      · exact Streams.refl e s
    dsimp only
    split
    · exact h.trans (leavePending_streams e e _)
    · exact h

/-- An activation (R45 to R50). -/
theorem activate_streams (e : EntryId) (i : Image) (s : State) : Streams e s (activate e i s) :=
  (installImage_streams e i s).trans (applyDifferences_streams e _ i _)

theorem activateStaged_streams (e : EntryId) (s : State) : Streams e s (activateStaged e s) := by
  unfold activateStaged
  split
  · exact activate_streams e _ s
  · exact Streams.refl e s

/-- The closing of a frame reaches no entry but its own, no generator and no byte. -/
theorem closeRecord_streams (e : EntryId) (r : RecordId) (c : CloseReason) (s : State) :
    Streams e s (closeRecord e r c s) :=
  Streams.ofRings (closeRecord_rings e r c s rfl) ((closeRecord_moves Touch.storeOnly_hasStore e r c s).gens rfl)

theorem countClose_streams (e : EntryId) (x : Record) (c : CloseReason) (s : State) :
    Streams e s (countClose e x c s) := by
  refine Streams.ofRings ?_ ((countClose_moves Touch.storeOnly_hasStore e x c s).gens rfl)
  have one : ∀ (t : State) f, Rings (· = e) t (countEntry e f t) := fun t f => countEntry_rings t e f rfl
  exact Rings.ite (((one s _).trans (one _ _)).trans (offerNotice_rings _ _)) (one s _)

/-- An assembly that is ended: IDLE with its timer stopped if it was not IDLE, and nothing else of the table. -/
theorem endAssembly_entry (e : EntryId) (c : CloseReason) (s : State) :
    (∀ f, f ≠ e → (endAssembly e c s).entry f = s.entry f) ∧ ((endAssembly e c s).entry e).assembly = .idle
      ∧ ((s.entry e).assembly ≠ .idle →
        ((endAssembly e c s).entry e).stall = none ∧ ((endAssembly e c s).entry e).nextIndex = 1)
      ∧ (endAssembly e c s).gens = s.gens ∧ (endAssembly e c s).store.mem = s.store.mem := by
  have hg := (endAssembly_moves Touch.storeOnly_hasStore e c s).gens rfl
  unfold endAssembly at hg ⊢
  split
  · next h => exact ⟨fun _ _ => rfl, h, fun hn => absurd h hn, rfl, rfl⟩
  · next r h =>
    have k := (closeRecord_streams e r c s).trans (countClose_streams e (s.record r) c _)
    simp only [h] at hg
    refine ⟨fun f hf => ?_, ?_, fun _ => ⟨?_, ?_⟩, hg, k.mem⟩
    · exact (mapEntry_entry_ne e _ _ f hf).trans (k.outside f hf)
    all_goals exact congrArg _ (mapEntry_entry_self e _ _)
  · next h =>
    refine ⟨fun f hf => mapEntry_entry_ne e _ _ f hf, ?_, fun _ => ⟨?_, ?_⟩, rfl, rfl⟩
    all_goals exact congrArg _ (mapEntry_entry_self e _ _)

/-- A return to IDLE (R44, R71): the same, with pending lists changed by the activation of a staged image. -/
theorem returnToIdle_entry (e : EntryId) (c : CloseReason) (s : State) :
    (∀ f, f ≠ e → (returnToIdle e c s).entry f = s.entry f) ∧ ((returnToIdle e c s).entry e).assembly = .idle
      ∧ ((s.entry e).assembly ≠ .idle →
        ((returnToIdle e c s).entry e).stall = none ∧ ((returnToIdle e c s).entry e).nextIndex = 1)
      ∧ (∀ m, (returnToIdle e c s).gen m = { s.gen m with pendings := ((returnToIdle e c s).gen m).pendings })
      ∧ (returnToIdle e c s).store.mem = s.store.mem := by
  obtain ⟨h1, h2, h3, h4, h5⟩ := endAssembly_entry e c s
  have k := activateStaged_streams e (endAssembly e c s)
  refine ⟨fun f hf => (k.outside f hf).trans (h1 f hf), k.assembly.trans h2,
    fun hn => ⟨k.stall.trans (h3 hn).1, k.nextIndex.trans (h3 hn).2⟩, fun m => ?_, k.mem.trans h5⟩
  have := k.gens m
  rwa [show (endAssembly e c s).gen m = s.gen m by simp [State.gen, h4]] at this

end Sys2Proof.Machine
end

