-- ==== Sys2Proof/Laws/Frames.lean ====
section
/-!
SUPPORT. What the frame store's functions leave of the records' states and of FRAMES_IN, and how a frame's close is
counted.
-/

namespace Sys2Proof.Machine

open Sys2Proof

/-- What a record says of its frame; its pages and the claims that drop while it is in use stand apart. -/
def Record.told (r : Record) : RecordState × Option CloseReason × Bool × Half × Damage × Nat × Nat × Bool :=
  (r.state, r.close, r.receiving, r.frame, r.damage, r.bodies, r.bytes, r.notRetainable)

/-- From `s` to `t` no frame opens or closes: every record tells the same or is freed, which one with a receiving claim
is not, and FRAMES_IN stays. -/
structure Sheds (s t : State) : Prop where
  record : ∀ r, (t.record r).state = .free ∧ (s.record r).receiving = false ∨ (t.record r).told = (s.record r).told
  counted : ∀ e, (t.entry e).counters.framesIn = (s.entry e).counters.framesIn

namespace Sheds

variable {s t u : State}

theorem refl (s : State) : Sheds s s := ⟨fun _ => .inr rfl, fun _ => rfl⟩

theorem trans (h : Sheds s t) (g : Sheds t u) : Sheds s u :=
  ⟨fun r => by
    rcases h.record r with a | a <;> rcases g.record r with b | b
    · exact .inl ⟨b.1, a.2⟩
    · exact .inl ⟨(congrArg Prod.fst b).trans a.1, a.2⟩
    · exact .inl ⟨b.1, (congrArg (·.2.2.1) a).symm.trans b.2⟩
    · exact .inr (b.trans a),
   fun e => (g.counted e).trans (h.counted e)⟩

theorem ite {c : Prop} [Decidable c] (h : Sheds s t) (g : Sheds s u) : Sheds s (if c then t else u) := by
  split
  · exact h
  · exact g

theorem forEach {α : Type} (xs : List α) (f : α → State → State) (s : State) (h : ∀ x t, Sheds t (f x t)) :
    Sheds s (Machine.forEach xs f s) := by
  induction xs generalizing s with
  | nil => exact refl s
  | cons x xs ih => exact (h x s).trans (ih (f x s))

/-- Same records and entries. -/
theorem same (hr : t.store.records = s.store.records) (he : t.entries = s.entries) : Sheds s t :=
  ⟨fun r => .inr (by simp [State.record, hr]), fun e => by simp [State.entry, he]⟩

theorem entry (s : State) (e : EntryId) (g : Entry → Entry)
    (h : ∀ x : Entry, (g x).counters.framesIn = x.counters.framesIn) : Sheds s (mapEntry e g s) := by
  refine ⟨fun _ => .inr rfl, fun f => ?_⟩
  by_cases hf : f = e
  · subst hf; rw [mapEntry_entry_self]; exact h _
  · rw [mapEntry_entry_ne e g s f hf]

theorem record' (s : State) (r : RecordId) (g : Record → Record)
    (h : (g (s.record r)).state = .free ∧ (s.record r).receiving = false ∨ (g (s.record r)).told = (s.record r).told) :
    Sheds s (mapRecord r g s) := by
  refine ⟨fun q => ?_, fun _ => rfl⟩
  by_cases hq : q = r
  · subst hq; rw [mapRecord_record_self]; exact h
  · rw [mapRecord_record_ne r g s q hq]; exact .inr rfl

end Sheds

theorem placeOnReclaim_sheds (r : RecordId) (s : State) : Sheds s (placeOnReclaim r s) := by
  unfold placeOnReclaim
  split
  · split
    · exact Sheds.refl s
    · exact Sheds.same rfl rfl
  · exact Sheds.same rfl rfl

theorem freeRecord_sheds (r : RecordId) (s : State) (h : (s.record r).receiving = false) : Sheds s (freeRecord r s) :=
  (Sheds.same (s := s) (t := mapStore (fun st => { st with
      freePages := st.freePages ++ (s.record r).pages, freeRecords := st.freeRecords ++ [r],
      reclaim := st.reclaim.erase r }) s) rfl rfl).trans
    (Sheds.record' _ r (fun _ => .blank) (.inl ⟨rfl, h⟩))

theorem reexamine_sheds (r : RecordId) (s : State) : Sheds s (reexamine r s) := by
  have h : Sheds s (freeIfUnclaimed r s) := by
    unfold freeIfUnclaimed
    split
    · next hu =>
      have hc := hu.2
      simp only [Record.unclaimed, Bool.not_eq_true', Bool.or_eq_false_iff] at hc
      exact freeRecord_sheds r s hc.1.1.1
    · exact Sheds.refl s
  exact h.trans (placeOnReclaim_sheds r _)

theorem leaveRing_sheds (e : EntryId) (r : RecordId) (s : State) : Sheds s (leaveRing e r s) :=
  ((Sheds.entry s e _ (by intro x; rfl)).trans (Sheds.record' _ r _ (.inr rfl))).trans (reexamine_sheds r _)

theorem dropForward_sheds (r : RecordId) (s : State) : Sheds s (dropForward r s) :=
  (Sheds.record' s r _ (.inr rfl)).trans (reexamine_sheds r _)

theorem evictions_sheds (k : Nat) (e : EntryId) (s : State) : Sheds s (evictions k e s) := by
  induction k generalizing s with
  | zero => exact Sheds.refl s
  | succ k ih =>
    unfold evictions
    split
    · split
      · exact ((Sheds.entry s e (fun x => { x with
            counters := { x.counters with evictedDepth := bump x.counters.evictedDepth } }) fun _ => rfl).trans
          (leaveRing_sheds e _ _)).trans (ih _)
      · exact Sheds.refl s
    · exact Sheds.refl s

theorem enforceDepth_sheds (e : EntryId) (s : State) : Sheds s (enforceDepth e s) := evictions_sheds _ e s

theorem retainRecord_sheds (e : EntryId) (r : RecordId) (s : State) : Sheds s (retainRecord e r s) :=
  (((Sheds.entry s e _ (by intro x; rfl)).trans (Sheds.record' _ r _ (.inr rfl))).trans
    (Sheds.entry _ e (fun x => { x with counters := { x.counters with retained := bump x.counters.retained } })
      fun _ => rfl)).trans (enforceDepth_sheds e _)

theorem offerNotice_sheds (b : NoticeBody) (s : State) : Sheds s (offerNotice b s) :=
  Sheds.same (by rw [offerNotice_store]) (offerNotice_entries b s)

theorem countRetainSkipped_sheds (e : EntryId) (s : State) : Sheds s (countRetainSkipped e s) :=
  Sheds.entry s e (fun x => { x with counters := { x.counters with
    retainSkipped := bump x.counters.retainSkipped } }) fun _ => rfl

theorem decideRetention_sheds (e : EntryId) (r : RecordId) (s : State) : Sheds s (decideRetention e r s) := by
  unfold decideRetention
  split
  · exact Sheds.refl s
  · exact Sheds.ite (countRetainSkipped_sheds e s) (retainRecord_sheds e r s)
  · exact Sheds.ite (retainRecord_sheds e r s) (countRetainSkipped_sheds e s)
  · exact Sheds.ite (countRetainSkipped_sheds e s)
      (((retainRecord_sheds e r s).trans (Sheds.entry _ e _ (by intro x; rfl))).trans (offerNotice_sheds _ _))

theorem leavePending_sheds (e : EntryId) (s : State) : Sheds s (leavePending e s) := by
  have m := leavePending_moves (F := { gens := true }) rfl e s
  exact Sheds.same (by rw [m.store rfl]) (m.entries rfl)

theorem emptyForward_sheds (e : EntryId) (s : State) : Sheds s (emptyForward e s) :=
  (Sheds.entry s e (fun x => { x with forwardQueue := beingSent x }) fun _ => rfl).trans
    (Sheds.forEach _ _ _ fun r t => dropForward_sheds r t)

theorem endStream_sheds (e : EntryId) (s : State) : Sheds s (endStream e s) := by
  have h1 : Sheds s (leaveRingAll e (s.entry e).ring s) := Sheds.forEach _ _ s fun r t => leaveRing_sheds e r t
  unfold endStream
  generalize leaveRingAll e (s.entry e).ring s = b at h1 ⊢
  have h2 := h1.trans (emptyForward_sheds e b)
  generalize emptyForward e b = c at h2 ⊢
  have h3 := (h2.trans (Sheds.entry c e (fun x => { x with expected := none }) fun _ => rfl)).trans
    (leavePending_sheds e _)
  exact h3.trans (Sheds.same (t := markGone e (leavePending e _)) rfl rfl)

theorem activate_sheds (e : EntryId) (i : Image) (s : State) : Sheds s (activate e i s) := by
  have h0 : Sheds s (installImage e i s) := Sheds.entry s e _ (by intro x; rfl)
  unfold activate
  refine h0.trans ?_
  unfold applyDifferences
  split
  · exact endStream_sheds e _
  · have h : Sheds (installImage e i s) (if policyDiffers (s.entry e).current i then
        enforceDepth e (installImage e i s) else installImage e i s) :=
      Sheds.ite (enforceDepth_sheds e _) (Sheds.refl _)
    dsimp only
    exact Sheds.ite (h.trans (leavePending_sheds e _)) h

theorem activateStaged_sheds (e : EntryId) (s : State) : Sheds s (activateStaged e s) := by
  unfold activateStaged
  split
  · exact activate_sheds e _ s
  · exact Sheds.refl s

/-- Equal stores have equal records. -/
theorem record_of_store {s t : State} (h : t.store = s.store) (r : RecordId) : t.record r = s.record r := by
  simp [State.record, h]

/-- The record of a frame that has closed for `c`: CLOSED with that reason, or freed since. -/
def State.closedFor (s : State) (r : RecordId) (c : CloseReason) : Prop :=
  (s.record r).state = .free ∨ (s.record r).state = .closed ∧ (s.record r).close = some c

theorem Sheds.closedFor {s t : State} (h : Sheds s t) {r : RecordId} {c : CloseReason} (g : s.closedFor r c) :
    t.closedFor r c := by
  rcases h.record r with a | a
  · exact .inl a.1
  · unfold State.closedFor
    rw [show (t.record r).state = _ from congrArg Prod.fst a, show (t.record r).close = _ from congrArg (·.2.1) a]
    exact g

/-- The close of a record: its own is closed for the reason, and no other opens or closes but for that reason. -/
theorem closeRecord_closedFor (e : EntryId) (r : RecordId) (c : CloseReason) (s : State) :
    (closeRecord e r c s).closedFor r c ∧ (∀ q, s.closedFor q c → (closeRecord e r c s).closedFor q c)
      ∧ ∀ f, ((closeRecord e r c s).entry f).counters.framesIn = (s.entry f).counters.framesIn := by
  have h := (decideRetention_sheds e r (mapRecord r (fun x => { x with
    state := .closed, close := some c, receiving := false }) s)).trans (reexamine_sheds r _)
  have h0 : (mapRecord r (fun x => { x with state := .closed, close := some c, receiving := false }) s).closedFor r c := by
    unfold State.closedFor; rw [mapRecord_record_self]; exact .inr ⟨rfl, rfl⟩
  refine ⟨h.closedFor h0, fun q hq => h.closedFor ?_, fun f => h.counted f⟩
  by_cases hqr : q = r
  · exact hqr ▸ h0
  · unfold State.closedFor; rw [mapRecord_record_ne _ _ _ _ hqr]; exact hq

theorem countClose_sheds_record (e : EntryId) (x : Record) (c : CloseReason) (s : State) :
    (countClose e x c s).store = s.store ∧ ∀ f, ((countClose e x c s).entry f).counters.framesIn
      = if f = e then bump (s.entry f).counters.framesIn else (s.entry f).counters.framesIn := by
  have one : ∀ f, ((countEntry e (fun c => { c with framesIn := bump c.framesIn }) s).entry f).counters.framesIn
      = if f = e then bump (s.entry f).counters.framesIn else (s.entry f).counters.framesIn := by
    intro f
    by_cases hf : f = e
    · subst hf; rw [countEntry, mapEntry_entry_self, if_pos rfl]
    · rw [countEntry, mapEntry_entry_ne e _ _ f hf, if_neg hf]
  unfold countClose
  dsimp only
  split
  · refine ⟨by rw [offerNotice_store]; rfl, fun f => ?_⟩
    rw [← one f, (offerNotice_sheds _ _).counted f]
    exact (Sheds.entry _ e _ (by intro x; rfl)).counted f
  · exact ⟨rfl, one⟩

/-- A return to IDLE closes the open frame for the reason and counts it once, and no other. -/
theorem returnToIdle_closedFor (e : EntryId) (c : CloseReason) (s : State) :
    (∀ q, s.closedFor q c → (returnToIdle e c s).closedFor q c)
      ∧ (∀ r, (s.entry e).assembly = .filling r → (returnToIdle e c s).closedFor r c
        ∧ ((returnToIdle e c s).entry e).counters.framesIn = bump (s.entry e).counters.framesIn)
      ∧ ((s.entry e).assembly = .discarding →
        ((returnToIdle e c s).entry e).counters.framesIn = (s.entry e).counters.framesIn)
      ∧ ((s.entry e).assembly = .idle → (s.entry e).staged = none → returnToIdle e c s = s) := by
  have hs := activateStaged_sheds e (endAssembly e c s)
  have idle : ∀ t : State, Sheds t (assemblyIdle e t) := fun t => Sheds.entry t e _ (by intro x; rfl)
  unfold returnToIdle
  refine ⟨fun q hq => hs.closedFor ?_, fun r hr => ⟨hs.closedFor ?_, (hs.counted e).trans ?_⟩, fun hd =>
    (hs.counted e).trans ?_, fun hi hn => ?_⟩
  · unfold endAssembly
    split
    · exact hq
    · next r _ =>
      have h1 := (closeRecord_closedFor e r c s).2.1 q hq
      have h2 := (countClose_sheds_record e (s.record r) c (closeRecord e r c s)).1
      refine (idle _).closedFor ?_
      unfold State.closedFor at h1 ⊢
      rw [record_of_store h2]; exact h1
    · exact (idle s).closedFor hq
  · have h1 := (closeRecord_closedFor e r c s).1
    have h2 := (countClose_sheds_record e (s.record r) c (closeRecord e r c s)).1
    unfold endAssembly; rw [hr]
    refine (idle _).closedFor ?_
    unfold State.closedFor at h1 ⊢
    rw [record_of_store h2]; exact h1
  · have h1 := (closeRecord_closedFor e r c s).2.2 e
    have h2 := (countClose_sheds_record e (s.record r) c (closeRecord e r c s)).2 e
    unfold endAssembly; rw [hr]
    refine ((idle _).counted e).trans ?_
    rw [h2, if_pos rfl, h1]
  · unfold endAssembly; rw [hd]; exact (idle s).counted e
  · have h1 : endAssembly e c s = s := by unfold endAssembly; rw [hi]
    rw [h1]; unfold activateStaged; rw [hn]

/-- Without a staged image a return to IDLE leaves the generators. -/
theorem returnToIdle_gens (e : EntryId) (c : CloseReason) (s : State) (h : (s.entry e).staged = none) :
    (returnToIdle e c s).gens = s.gens := by
  have hg := (endAssembly_entry e c s).2.2.2.1
  have hst : ((endAssembly e c s).entry e).staged = none := by
    unfold endAssembly
    split
    · exact h
    · next r _ =>
      have k := ((closeRecord_rings e r c s (P := (· = e)) rfl).inside e)
      have hk : ((closeRecord e r c s).entry e).staged = none := by rw [k]; exact h
      show ((assemblyIdle e (countClose e (s.record r) c _)).entry e).staged = none
      unfold assemblyIdle; rw [mapEntry_entry_self]
      show ((countClose e (s.record r) c _).entry e).staged = none
      have one : ∀ (t : State) g, (t.entry e).staged = none → ((countEntry e g t).entry e).staged = none := by
        intro t g ht; unfold countEntry; rw [mapEntry_entry_self]; exact ht
      unfold countClose; dsimp only; split
      · rw [show ∀ b (t : State), (offerNotice b t).entry e = t.entry e from fun b t => by
          simp [State.entry, offerNotice_entries]]
        exact one _ _ (one _ _ hk)
      · exact one _ _ hk
    · unfold assemblyIdle; rw [mapEntry_entry_self]; exact h
  unfold returnToIdle activateStaged; rw [hst]; exact hg

end Sys2Proof.Machine
end

