-- ==== Sys2Proof/Laws/Store.lean ====
section
/-!
SUPPORT. The laws of pages, records, rings and the reclaim list through the frame store's functions (Machine/
Retention.lean): `Core` is those laws but for the records and entries in the sets given, where a change is under way.
-/

namespace Sys2Proof.Machine

open Sys2Proof

/-- The store's laws, but for: depth at the entries in `E`; "reclaimable, so listed" at the records in `X`; "in use, so
claimed" at those in `Y`; "listed, so reclaimable" at those in `Z`. -/
structure Core (E : Set EntryId) (X Y Z : Set RecordId) (s : State) : Prop where
  pages : s.pageLaw
  freeOnce : s.store.freeRecords.Nodup
  free : ∀ r, r ∈ s.store.freeRecords ↔ (s.record r).state = .free
  used : ∀ r, r ∉ Y → (s.record r).unclaimed = true → (s.record r).state = .free
  blank : ∀ r, (s.record r).state = .free → s.record r = .blank
  filling : ∀ r, (s.record r).receiving = true ↔ (s.record r).state = .filling
  closed : ∀ r, (s.record r).ring = true ∨ (s.record r).pin = true → (s.record r).state = .closed
  oneOpen : ∀ q r, (s.record q).receiving = true → (s.record r).receiving = true →
    (s.record q).entry = (s.record r).entry → q = r
  member : ∀ e r, r ∈ (s.entry e).ring ↔ (s.record r).ring = true ∧ (s.record r).entry = e
  once : ∀ e, (s.entry e).ring.Nodup
  frames : ∀ e, ∀ q ∈ (s.entry e).ring, ∀ r ∈ (s.entry e).ring, (s.record q).frame = (s.record r).frame → q = r
  guarded : ∀ r, (s.record r).receiving = true → (s.record r).notRetainable = true
    ∨ ∀ q ∈ (s.entry (s.record r).entry).ring, (s.record q).frame ≠ (s.record r).frame
  held : ∀ r, (s.record r).held = true → (s.record r).ring = true
  depth : ∀ e, e ∉ E → (s.entry e).ring.length ≤ (s.entry e).current.ringDepth
    ∨ ∀ r ∈ (s.entry e).ring, (s.record r).held = true ∨ (s.record r).pin = true
  listedOnce : s.store.reclaim.Nodup
  listed : ∀ r, r ∉ Z → r ∈ s.store.reclaim → (s.record r).reclaimable = true
  joined : ∀ r, r ∉ X → (s.record r).reclaimable = true → r ∈ s.store.reclaim

namespace Core

variable {E F : Set EntryId} {X Y Z X' Y' Z' : Set RecordId} {s t : State}

/-- Larger sets. -/
theorem mono (h : Core E X Y Z s) (hE : E ⊆ F) (hX : X ⊆ X') (hY : Y ⊆ Y') (hZ : Z ⊆ Z') : Core F X' Y' Z' s :=
  { h with
    used := fun r hr => h.used r fun a => hr (hY a)
    depth := fun e he => h.depth e fun a => he (hE a)
    listed := fun r hr => h.listed r fun a => hr (hZ a)
    joined := fun r hr => h.joined r fun a => hr (hX a) }

/-- Nothing that the laws read has changed. -/
theorem congr (h : Core E X Y Z s) (hr : ∀ r, t.record r = s.record r)
    (h1 : t.store.freeRecords = s.store.freeRecords) (h2 : t.store.freePages = s.store.freePages)
    (h3 : t.store.reclaim = s.store.reclaim)
    (he : ∀ e, (t.entry e).ring = (s.entry e).ring)
    (hd : ∀ e, (t.entry e).current.ringDepth = (s.entry e).current.ringDepth) : Core E X Y Z t where
  pages := by have := h.pages; unfold State.pageLaw at this ⊢; simpa [hr, h2] using this
  freeOnce := by rw [h1]; exact h.freeOnce
  free r := by rw [h1, hr]; exact h.free r
  used r := by rw [hr]; exact h.used r
  blank r := by rw [hr]; exact h.blank r
  filling r := by rw [hr]; exact h.filling r
  closed r := by rw [hr]; exact h.closed r
  oneOpen q r := by rw [hr, hr]; exact h.oneOpen q r
  member e r := by rw [hr, he]; exact h.member e r
  once e := by rw [he]; exact h.once e
  frames e q hq r hr' := by rw [he] at hq hr'; rw [hr, hr]; exact h.frames e q hq r hr'
  guarded r := by
    rw [hr, he]; simp only [hr]; exact h.guarded r
  held r := by rw [hr]; exact h.held r
  depth e hE := by rw [he, hd]; simp only [hr]; exact h.depth e hE
  listedOnce := by rw [h3]; exact h.listedOnce
  listed r := by rw [h3, hr]; exact h.listed r
  joined r := by rw [h3, hr]; exact h.joined r

/-- Same records and lists, entries of the same ring and depth. -/
theorem sameStore (h : Core E X Y Z s) (hs : t.store = s.store) (he : ∀ e, (t.entry e).ring = (s.entry e).ring)
    (hd : ∀ e, (t.entry e).current.ringDepth = (s.entry e).current.ringDepth) : Core E X Y Z t :=
  h.congr (fun r => by simp [State.record, hs]) (by rw [hs]) (by rw [hs]) (by rw [hs]) he hd

theorem same (h : Core E X Y Z s) (hs : t.store = s.store) (he : t.entries = s.entries) : Core E X Y Z t :=
  h.sameStore hs (fun e => by simp [State.entry, he]) (fun e => by simp [State.entry, he])

/-- An update of an entry that keeps its ring and depth. -/
theorem mapEntry (h : Core E X Y Z s) (e : EntryId) (g : Entry → Entry)
    (hg : (g (s.entry e)).ring = (s.entry e).ring ∧ (g (s.entry e)).current.ringDepth = (s.entry e).current.ringDepth) :
    Core E X Y Z (Machine.mapEntry e g s) := by
  refine h.sameStore rfl (fun f => ?_) fun f => ?_
  · rw [mapEntry_entry]; split
    · next h' => rw [h']; exact hg.1
    · rfl
  · rw [mapEntry_entry]; split
    · next h' => rw [h']; exact hg.2
    · rfl

/-- The page law after a change of one record that keeps its pages. -/
theorem pageLaw_mapRecord {s : State} (h : s.pageLaw) (r : RecordId) (g : Record → Record)
    (hg : (g (s.record r)).pages = (s.record r).pages) : (mapRecord r g s).pageLaw := by
  unfold State.pageLaw at h ⊢
  have : (fun q => ((mapRecord r g s).record q).pages) = fun q => (s.record q).pages := by
    funext q; rw [mapRecord_record]; split
    · next h' => rw [h']; exact hg
    · rfl
  rw [this]; exact h

/-- A change of one record in use that stays in its ring, or outside. Its reclaim membership, claims and depth may be
left to the sets. -/
theorem mapRecord (h : Core E X Y Z s) (r : RecordId) (g : Record → Record) {y : Record} (hy : g (s.record r) = y)
    (hp : y.pages = (s.record r).pages) (he : y.entry = (s.record r).entry) (hf : y.frame = (s.record r).frame)
    (hring : y.ring = (s.record r).ring) (hu : (s.record r).state ≠ .free) (hu' : y.state ≠ .free)
    (hfill : y.receiving = true ↔ y.state = .filling) (hclosed : y.ring = true ∨ y.pin = true → y.state = .closed)
    (hheld : y.held = true → y.ring = true)
    (hrec : y.receiving = true → (s.record r).receiving = true ∧ y.notRetainable = (s.record r).notRetainable)
    (hE : (s.record r).entry ∈ E ∨ ((s.record r).held = true ∨ (s.record r).pin = true → y.held = true ∨ y.pin = true)
      ∨ (s.record r).ring = false)
    (hX : r ∈ X ∨ (y.reclaimable = true → r ∈ s.store.reclaim))
    (hY : r ∈ Y ∨ y.unclaimed = false) (hZ : r ∈ Z ∨ (r ∈ s.store.reclaim → y.reclaimable = true)) :
    Core E X Y Z (Machine.mapRecord r g s) := by
  have self : (Machine.mapRecord r g s).record r = y := by rw [mapRecord_record_self, hy]
  have ne : ∀ q, q ≠ r → (Machine.mapRecord r g s).record q = s.record q := fun q hq => mapRecord_record_ne r g s q hq
  have en : ∀ e, (Machine.mapRecord r g s).entry e = s.entry e := fun _ => rfl
  have frame : ∀ q, ((Machine.mapRecord r g s).record q).frame = (s.record q).frame := fun q => by
    by_cases hq : q = r
    · rw [hq, self, hf]
    · rw [ne q hq]
  have entry : ∀ q, ((Machine.mapRecord r g s).record q).entry = (s.record q).entry := fun q => by
    by_cases hq : q = r
    · rw [hq, self, he]
    · rw [ne q hq]
  have ring : ∀ q, ((Machine.mapRecord r g s).record q).ring = (s.record q).ring := fun q => by
    by_cases hq : q = r
    · rw [hq, self, hring]
    · rw [ne q hq]
  have recv : ∀ q, ((Machine.mapRecord r g s).record q).receiving = true → (s.record q).receiving = true
      ∧ ((Machine.mapRecord r g s).record q).notRetainable = (s.record q).notRetainable := fun q => by
    by_cases hq : q = r
    · rw [hq, self]; exact hrec
    · rw [ne q hq]; exact fun a => ⟨a, rfl⟩
  have pick : ∀ P : RecordId → Record → Prop, P r y → (∀ q, q ≠ r → P q (s.record q)) →
      ∀ q, P q ((Machine.mapRecord r g s).record q) := fun P a b q => by
    by_cases hq : q = r
    · rw [hq, self]; exact a
    · rw [ne q hq]; exact b q hq
  exact {
    pages := pageLaw_mapRecord h.pages r g (by rw [hy, hp])
    freeOnce := h.freeOnce
    free := pick (fun q x => q ∈ s.store.freeRecords ↔ x.state = .free)
      (iff_of_false (fun a => hu ((h.free r).1 a)) hu') fun q _ => h.free q
    used := pick (fun q x => q ∉ Y → x.unclaimed = true → x.state = .free)
      (fun a b => by rw [hY.resolve_left a] at b; exact Bool.noConfusion b) fun q _ => h.used q
    blank := pick (fun q x => x.state = .free → x = .blank) (fun a => absurd a hu') fun q _ => h.blank q
    filling := pick (fun q x => x.receiving = true ↔ x.state = .filling) hfill fun q _ => h.filling q
    closed := pick (fun q x => x.ring = true ∨ x.pin = true → x.state = .closed) hclosed fun q _ => h.closed q
    oneOpen := fun q q' a b c => by
      rw [entry, entry] at c; exact h.oneOpen q q' (recv q a).1 (recv q' b).1 c
    member := fun e q => by rw [en, ring, entry]; exact h.member e q
    once := h.once
    frames := fun e q hq q' hq' => by rw [frame, frame]; exact h.frames e q hq q' hq'
    guarded := fun q hq => by
      rw [(recv q hq).2, entry, en]; simp only [frame]; exact h.guarded q (recv q hq).1
    held := pick (fun q x => x.held = true → x.ring = true) hheld fun q _ => h.held q
    depth := fun e heE => by
      rw [en]
      rcases h.depth e heE with a | a
      · exact .inl a
      · refine .inr fun q hq => ?_
        by_cases hqr : q = r
        · subst hqr
          have m := (h.member e q).1 hq
          rw [self]
          rcases hE with b | b | b
          · exact absurd (m.2 ▸ b) heE
          · exact b (a q hq)
          · rw [m.1] at b; exact absurd b (by decide)
        · rw [ne q hqr]; exact a q hq
    listedOnce := h.listedOnce
    listed := pick (fun q x => q ∉ Z → q ∈ s.store.reclaim → x.reclaimable = true)
      (fun a b => hZ.resolve_left a b) fun q _ => h.listed q
    joined := pick (fun q x => q ∉ X → x.reclaimable = true → q ∈ s.store.reclaim)
      (fun a b => hX.resolve_left a b) fun q _ => h.joined q }

/-- Moving one record's pages to the end of the free page list. -/
theorem pages_perm (f : RecordId → List PageId) (r : RecordId) (rs : List RecordId) (hn : rs.Nodup) (hr : r ∈ rs) :
    (rs.flatMap f).Perm (f r ++ rs.flatMap fun q => if q = r then [] else f q) := by
  induction rs with
  | nil => cases hr
  | cons q rs ih =>
    obtain ⟨hq, hn⟩ := List.nodup_cons.1 hn
    by_cases h : q = r
    · subst h
      have : (rs.flatMap fun p => if p = q then [] else f p) = rs.flatMap f := by
        refine List.flatMap_congr fun p hp => ?_
        exact (if_neg fun a : p = q => hq (a ▸ hp)) ▸ rfl
      simp [this]
    · have hm : r ∈ rs := by
        rcases List.mem_cons.1 hr with a | a
        · exact absurd a.symm h
        · exact a
      simp only [List.flatMap_cons, if_neg h]
      refine ((ih hn hm).append_left (f q)).trans ?_
      rw [← List.append_assoc, ← List.append_assoc]
      exact List.perm_append_comm.append_right _

/-- A record in use without claims is freed (R78). -/
theorem freeRecord (h : Core E X Y Z s) (r : RecordId) (hu : (s.record r).state ≠ .free)
    (hc : (s.record r).unclaimed = true) :
    Core E (X \ {r}) (Y \ {r}) (Z \ {r}) (Machine.freeRecord r s) := by
  have self : (Machine.freeRecord r s).record r = .blank := by unfold Machine.freeRecord; rw [mapRecord_record_self]
  have ne : ∀ q, q ≠ r → (Machine.freeRecord r s).record q = s.record q := fun q hq => by
    unfold Machine.freeRecord; rw [mapRecord_record_ne _ _ _ _ hq]; rfl
  have en : ∀ e, (Machine.freeRecord r s).entry e = s.entry e := fun _ => rfl
  have rl : (Machine.freeRecord r s).store.reclaim = s.store.reclaim.erase r := rfl
  have fr : (Machine.freeRecord r s).store.freeRecords = s.store.freeRecords ++ [r] := rfl
  have nring : (s.record r).ring = false := by
    simp [Record.unclaimed] at hc; exact hc.1.2
  have nrecv : (s.record r).receiving = false := by
    simp [Record.unclaimed] at hc; exact hc.1.1.1
  have notin : ∀ e, r ∉ (s.entry e).ring := fun e a => by
    have := ((h.member e r).1 a).1; rw [nring] at this; cases this
  have out : ∀ e, ∀ q ∈ (s.entry e).ring, q ≠ r := fun e q hq a => notin e (a ▸ hq)
  have pick : ∀ P : RecordId → Record → Prop, P r .blank → (∀ q, q ≠ r → P q (s.record q)) →
      ∀ q, P q ((Machine.freeRecord r s).record q) := fun P a b q => by
    by_cases hq : q = r
    · rw [hq, self]; exact a
    · rw [ne q hq]; exact b q hq
  have rne : ∀ q, ((Machine.freeRecord r s).record q).receiving = true → q ≠ r := fun q a b => by
    rw [b, self] at a; cases a
  exact {
    pages := by
      have hp := h.pages
      unfold State.pageLaw at hp ⊢
      have : (fun q => ((Machine.freeRecord r s).record q).pages)
          = fun q => if q = r then [] else (s.record q).pages := by
        funext q; by_cases hq : q = r
        · rw [hq, self, if_pos rfl]; rfl
        · rw [ne q hq, if_neg hq]
      rw [this]
      refine List.Perm.trans ?_ hp
      show ((s.store.freePages ++ (s.record r).pages) ++ _).Perm _
      rw [List.append_assoc]
      exact ((pages_perm (fun q => (s.record q).pages) r _ (List.nodup_finRange 256) (List.mem_finRange r)).symm).append_left _
    freeOnce := by
      rw [fr]; refine List.nodup_append.2 ⟨h.freeOnce, List.nodup_singleton r, ?_⟩
      intro a ha b hb c
      rw [List.mem_singleton.1 hb] at c; exact hu ((h.free r).1 (c ▸ ha))
    free := fun q => by
      rw [fr]; by_cases hq : q = r
      · rw [hq, self]; exact iff_of_true (by simp) rfl
      · rw [ne q hq, ← h.free q]; simp [hq]
    used := pick (fun q x => q ∉ Y \ {r} → x.unclaimed = true → x.state = .free) (fun _ _ => rfl)
      fun q hq a => h.used q fun b => a ⟨b, hq⟩
    blank := pick (fun q x => x.state = .free → x = .blank) (fun _ => rfl) fun q _ => h.blank q
    filling := pick (fun q x => x.receiving = true ↔ x.state = .filling) (by decide) fun q _ => h.filling q
    closed := pick (fun q x => x.ring = true ∨ x.pin = true → x.state = .closed) (by decide) fun q _ => h.closed q
    oneOpen := fun q q' a b c => by
      have hq := rne q a; have hq' := rne q' b
      rw [ne q hq] at a c; rw [ne q' hq'] at b c; exact h.oneOpen q q' a b c
    member := fun e q => by
      rw [en]; by_cases hq : q = r
      · rw [hq, self]; exact iff_of_false (notin e) (by simp [Record.blank])
      · rw [ne q hq]; exact h.member e q
    once := h.once
    frames := fun e q hq q' hq' => by
      rw [en] at hq hq'; rw [ne q (out e q hq), ne q' (out e q' hq')]; exact h.frames e q hq q' hq'
    guarded := fun q hq => by
      have hqr := rne q hq
      rw [ne q hqr] at hq ⊢; rw [en]
      rcases h.guarded q hq with a | a
      · exact .inl a
      · exact .inr fun p hp => by rw [ne p (out _ p hp)]; exact a p hp
    held := pick (fun q x => x.held = true → x.ring = true) (by decide) fun q _ => h.held q
    depth := fun e he => by
      rw [en]; rcases h.depth e he with a | a
      · exact .inl a
      · exact .inr fun q hq => by rw [ne q (out e q hq)]; exact a q hq
    listedOnce := by rw [rl]; exact h.listedOnce.erase r
    listed := by
      intro q hq hm
      rw [rl] at hm
      have hqr : q ≠ r := fun a => by rw [a] at hm; exact (h.listedOnce.not_mem_erase) hm
      rw [ne q hqr]; exact h.listed q (fun a => hq ⟨a, hqr⟩) (List.mem_of_mem_erase hm)
    joined := by
      intro q hq hm
      have hqr : q ≠ r := fun a => by rw [a, self] at hm; cases hm
      rw [ne q hqr] at hm
      rw [rl]; exact (List.mem_erase_of_ne hqr).2 (h.joined q (fun a => hq ⟨a, hqr⟩) hm) }

theorem freeIfUnclaimed (h : Core E X Y Z s) (r : RecordId) : Core E X (Y \ {r}) Z (Machine.freeIfUnclaimed r s) := by
  unfold Machine.freeIfUnclaimed
  split
  · next hc => exact (h.freeRecord r hc.1 hc.2).mono subset_rfl Set.sdiff_subset subset_rfl Set.sdiff_subset
  · next hc =>
    refine { h with used := fun q hq hu => ?_ }
    by_cases hqr : q = r
    · subst hqr; by_contra hs; exact hc ⟨hs, hu⟩
    · exact h.used q (fun a => hq ⟨a, hqr⟩) hu

/-- A record's place on the reclaim list is set right (R81). -/
theorem placeOnReclaim (h : Core E X Y Z s) (r : RecordId) :
    Core E (X \ {r}) Y (Z \ {r}) (Machine.placeOnReclaim r s) := by
  have key : ∀ t : State, (∀ q, t.record q = s.record q) → t.store.freeRecords = s.store.freeRecords →
      t.store.freePages = s.store.freePages → (∀ e, t.entry e = s.entry e) → t.store.reclaim.Nodup →
      (∀ q, q ≠ r → (q ∈ t.store.reclaim ↔ q ∈ s.store.reclaim)) →
      (r ∈ t.store.reclaim ↔ (s.record r).reclaimable = true) → Core E (X \ {r}) Y (Z \ {r}) t := by
    intro t h0 h1 h2 h3 h4 h5 h6
    have g := h.congr (t := { t with store := { t.store with reclaim := s.store.reclaim } }) h0 h1 h2 rfl
      (fun e => congrArg (·.ring) (h3 e)) (fun e => congrArg (·.current.ringDepth) (h3 e))
    exact { g with
      listedOnce := h4
      listed := fun q hq hm => by
        by_cases hqr : q = r
        · subst hqr; show (t.record q).reclaimable = true; rw [h0]; exact h6.1 hm
        · exact g.listed q (fun a => hq ⟨a, hqr⟩) ((h5 q hqr).1 hm)
      joined := fun q hq hm => by
        by_cases hqr : q = r
        · subst hqr; refine h6.2 ?_; rw [← h0]; exact hm
        · exact (h5 q hqr).2 (g.joined q (fun a => hq ⟨a, hqr⟩) hm) }
  unfold Machine.placeOnReclaim
  split
  · next hc =>
    split
    · next hm => exact key s (fun _ => rfl) rfl rfl (fun _ => rfl) h.listedOnce (fun _ _ => Iff.rfl) (by simp [hc, hm])
    · next hm =>
      refine key _ (fun _ => rfl) rfl rfl (fun _ => rfl) ?_ (fun q hq => ?_) ?_
      · refine List.nodup_append.2 ⟨h.listedOnce, List.nodup_singleton r, ?_⟩
        intro a ha b hb c
        rw [List.mem_singleton.1 hb] at c; exact hm (c ▸ ha)
      · show q ∈ s.store.reclaim ++ [r] ↔ _; simp [hq]
      · show r ∈ s.store.reclaim ++ [r] ↔ _; simp [hc]
  · next hc =>
    refine key _ (fun _ => rfl) rfl rfl (fun _ => rfl) (h.listedOnce.erase r) (fun q hq => ?_) ?_
    · show q ∈ s.store.reclaim.erase r ↔ _; exact List.mem_erase_of_ne hq
    · show r ∈ s.store.reclaim.erase r ↔ _; exact iff_of_false h.listedOnce.not_mem_erase hc

/-- A record that is looked at again is right in every way (R77). -/
theorem reexamine (h : Core E X Y Z s) (r : RecordId) :
    Core E (X \ {r}) (Y \ {r}) (Z \ {r}) (Machine.reexamine r s) := (h.freeIfUnclaimed r).placeOnReclaim r

/-- A record out of its entry's ring and not held, still to be looked at again. -/
theorem unring (h : Core E X Y Z s) (e : EntryId) (r : RecordId) (he : (s.record r).ring = true → (s.record r).entry = e) :
    Core E (insert r X) (insert r Y) (insert r Z) (Machine.mapRecord r (fun x => { x with ring := false, held := false })
      (Machine.mapEntry e (fun x => { x with ring := x.ring.erase r }) s)) := by
  set t := Machine.mapRecord r (fun x => { x with ring := false, held := false })
      (Machine.mapEntry e (fun x => { x with ring := x.ring.erase r }) s) with ht
  have self : t.record r = { s.record r with ring := false, held := false } := by rw [ht, mapRecord_record_self]; rfl
  have ne : ∀ q, q ≠ r → t.record q = s.record q := fun q hq => by rw [ht, mapRecord_record_ne _ _ _ _ hq]; rfl
  have ring : ∀ f, (t.entry f).ring = (s.entry f).ring.erase r := fun f => by
    rw [ht, mapRecord_entry, mapEntry_entry]; split
    · next hf => rw [hf]
    · next hf =>
      refine (List.erase_of_not_mem fun a => hf ?_).symm
      have := (h.member f r).1 a; exact this.2.symm.trans (he this.1)
  have depth : ∀ f, (t.entry f).current.ringDepth = (s.entry f).current.ringDepth := fun f => by
    rw [ht, mapRecord_entry, mapEntry_entry]; split
    · next hf => rw [hf]
    · rfl
  have mem : ∀ f q, q ∈ (t.entry f).ring ↔ q ∈ (s.entry f).ring ∧ q ≠ r := fun f q => by
    rw [ring f, (h.once f).mem_erase_iff, and_comm]
  have same : ∀ q, (t.record q).pages = (s.record q).pages ∧ (t.record q).state = (s.record q).state
      ∧ (t.record q).entry = (s.record q).entry ∧ (t.record q).frame = (s.record q).frame
      ∧ (t.record q).receiving = (s.record q).receiving ∧ (t.record q).notRetainable = (s.record q).notRetainable
      ∧ (t.record q).pin = (s.record q).pin ∧ ((t.record q).ring = true → (s.record q).ring = true) := fun q => by
    by_cases hq : q = r
    · rw [hq, self]; exact ⟨rfl, rfl, rfl, rfl, rfl, rfl, rfl, fun a => by cases a⟩
    · rw [ne q hq]; exact ⟨rfl, rfl, rfl, rfl, rfl, rfl, rfl, id⟩
  have free : t.store.freeRecords = s.store.freeRecords := rfl
  have recl : t.store.reclaim = s.store.reclaim := rfl
  exact {
    pages := by
      have hp := h.pages; unfold State.pageLaw at hp ⊢
      simp only [fun q => (same q).1]; exact hp
    freeOnce := h.freeOnce
    free := fun q => by rw [(same q).2.1]; exact h.free q
    used := fun q hq => by
      have hqr : q ≠ r := fun a => hq (.inl a)
      rw [ne q hqr]; exact h.used q fun a => hq (.inr a)
    blank := fun q hq => by
      rw [(same q).2.1] at hq
      by_cases hqr : q = r
      · subst hqr; rw [self, h.blank q hq]; rfl
      · rw [ne q hqr]; exact h.blank q hq
    filling := fun q => by rw [(same q).2.1, (same q).2.2.2.2.1]; exact h.filling q
    closed := fun q hq => by
      rw [(same q).2.1]; exact h.closed q (hq.imp (same q).2.2.2.2.2.2.2 fun a => by rwa [(same q).2.2.2.2.2.2.1] at a)
    oneOpen := fun q q' a b c => by
      rw [(same q).2.2.2.2.1] at a; rw [(same q').2.2.2.2.1] at b
      rw [(same q).2.2.1, (same q').2.2.1] at c; exact h.oneOpen q q' a b c
    member := fun f q => by
      rw [mem, h.member f q]
      by_cases hqr : q = r
      · subst hqr; rw [self]; simp
      · rw [ne q hqr]; simp [hqr]
    once := fun f => by rw [ring]; exact (h.once f).erase r
    frames := fun f q hq q' hq' => by
      rw [(same q).2.2.2.1, (same q').2.2.2.1]; exact h.frames f q ((mem f q).1 hq).1 q' ((mem f q').1 hq').1
    guarded := fun q hq => by
      rw [(same q).2.2.2.2.1] at hq
      rw [(same q).2.2.2.2.2.1, (same q).2.2.1, (same q).2.2.2.1]
      rcases h.guarded q hq with a | a
      · exact .inl a
      · exact .inr fun p hp => by rw [(same p).2.2.2.1]; exact a p ((mem _ p).1 hp).1
    held := fun q hq => by
      by_cases hqr : q = r
      · subst hqr; rw [self] at hq; cases hq
      · rw [ne q hqr] at hq ⊢; exact h.held q hq
    depth := fun f hf => by
      rw [depth]
      rcases h.depth f hf with a | a
      · refine .inl (le_trans ?_ a); rw [ring]; exact (List.erase_sublist).length_le
      · exact .inr fun q hq => by
          have := (mem f q).1 hq
          rw [ne q this.2]; exact a q this.1
    listedOnce := h.listedOnce
    listed := fun q hq hm => by
      rw [ne q fun a => hq (.inl a)]; exact h.listed q (fun a => hq (.inr a)) hm
    joined := fun q hq hm => by
      rw [ne q fun a => hq (.inl a)] at hm; exact h.joined q (fun a => hq (.inr a)) hm }

theorem diff_insert_subset {α : Type} (r : α) (A : Set α) : insert r A \ {r} ⊆ A := fun q hq => by
  rcases hq.1 with a | a
  · exact absurd a hq.2
  · exact a

theorem leaveRing (h : Core E X Y Z s) (e : EntryId) (r : RecordId) (he : (s.record r).ring = true → (s.record r).entry = e) :
    Core E X Y Z (Machine.leaveRing e r s) :=
  ((h.unring e r he).reexamine r).mono subset_rfl (diff_insert_subset r X) (diff_insert_subset r Y) (diff_insert_subset r Z)

/-- Reexamination leaves every entry. -/
theorem reexamine_entry (r : RecordId) (s : State) (e : EntryId) : (Machine.reexamine r s).entry e = s.entry e := by
  simp [State.entry, (reexamine_moves (F := { store := true }) rfl r s).entries rfl]

/-- The ring of the entry a record leaves. -/
theorem leaveRing_ring (e : EntryId) (r : RecordId) (s : State) :
    ((Machine.leaveRing e r s).entry e).ring = (s.entry e).ring.erase r := by
  unfold Machine.leaveRing; rw [reexamine_entry, mapRecord_entry, mapEntry_entry_self]

theorem countEntry (h : Core E X Y Z s) (e : EntryId) (g : EntryCounters → EntryCounters) :
    Core E X Y Z (Machine.countEntry e g s) := h.mapEntry e _ ⟨rfl, rfl⟩

/-- Evictions end with the ring at its depth, or of held and pinned members (R80). -/
theorem evictions (k : Nat) (e : EntryId) (s : State) (h : Core (insert e E) X Y Z s)
    (hk : (s.entry e).ring.length ≤ k + (s.entry e).current.ringDepth) : Core E X Y Z (Machine.evictions k e s) := by
  have drop : ∀ t, Core (insert e E) X Y Z t → ((t.entry e).ring.length ≤ (t.entry e).current.ringDepth
      ∨ ∀ r ∈ (t.entry e).ring, (t.record r).held = true ∨ (t.record r).pin = true) → Core E X Y Z t :=
    fun t ht hd => { ht with
      depth := fun f hf => by
        by_cases hfe : f = e
        · rw [hfe]; exact hd
        · exact ht.depth f fun a => a.elim hfe hf }
  induction k generalizing s with
  | zero => exact drop s h (.inl (by omega))
  | succ k ih =>
    unfold Machine.evictions
    split
    · next hd =>
      split
      · next r hr =>
        have hm := List.mem_of_find?_eq_some hr
        have he : (s.record r).ring = true → (s.record r).entry = e := fun _ => ((h.member e r).1 hm).2
        have h1 := h.countEntry e (fun c => { c with evictedDepth := bump c.evictedDepth })
        refine ih _ (h1.leaveRing e r he) ?_
        have hring : ((Machine.countEntry e (fun c => { c with evictedDepth := bump c.evictedDepth }) s).entry e).ring
            = (s.entry e).ring := congrArg (·.ring) (mapEntry_entry_self _ _ _)
        have hdep : ((Machine.leaveRing e r (Machine.countEntry e (fun c => { c with
            evictedDepth := bump c.evictedDepth }) s)).entry e).current.ringDepth = (s.entry e).current.ringDepth := by
          have := ((leaveRing_rings (P := (· = e)) e r (Machine.countEntry e (fun c => { c with
            evictedDepth := bump c.evictedDepth }) s) rfl).inside e)
          rw [this]
          exact congrArg (·.current.ringDepth) (mapEntry_entry_self _ _ _)
        rw [leaveRing_ring, hring, hdep, List.length_erase_of_mem hm]
        omega
      · next hn =>
        refine drop s h (.inr fun r hr => ?_)
        have := List.find?_eq_none.1 hn r hr
        simp [evictable] at this
        by_cases a : (s.record r).held = true
        · exact .inl a
        · exact .inr (this (by simpa using a))
    · next hd => exact drop s h (.inl (by omega))

theorem enforceDepth (h : Core (insert e E) X Y Z s) : Core E X Y Z (Machine.enforceDepth e s) :=
  evictions _ e s h (by omega)

theorem enforceDepth' (h : Core E X Y Z s) (e : EntryId) : Core E X Y Z (Machine.enforceDepth e s) :=
  enforceDepth (h.mono (Set.subset_insert e E) subset_rfl subset_rfl subset_rfl)

/-- A CLOSED record that joins its entry's ring. -/
theorem joinRing (h : Core E X Y Z s) (e : EntryId) (r : RecordId) (hs : (s.record r).state = .closed)
    (hr : (s.record r).ring = false) (he : (s.record r).entry = e)
    (hf : ∀ q ∈ (s.entry e).ring, (s.record q).frame ≠ (s.record r).frame)
    (ho : ∀ q, (s.record q).receiving = true → (s.record q).entry ≠ e) (hZ : r ∉ Z) :
    Core (insert e E) (insert r X) Y Z (Machine.mapRecord r (fun x => { x with ring := true })
      (Machine.mapEntry e (fun x => { x with ring := x.ring ++ [r] }) s)) := by
  set t := Machine.mapRecord r (fun x => { x with ring := true })
      (Machine.mapEntry e (fun x => { x with ring := x.ring ++ [r] }) s) with ht
  have self : t.record r = { s.record r with ring := true } := by rw [ht, mapRecord_record_self]; rfl
  have ne : ∀ q, q ≠ r → t.record q = s.record q := fun q hq => by rw [ht, mapRecord_record_ne _ _ _ _ hq]; rfl
  have ringe : (t.entry e).ring = (s.entry e).ring ++ [r] := by
    rw [ht, mapRecord_entry, mapEntry_entry_self]
  have ringn : ∀ f, f ≠ e → t.entry f = s.entry f := fun f hf => by
    rw [ht, mapRecord_entry, mapEntry_entry_ne e _ s f hf]
  have same : ∀ q, (t.record q).pages = (s.record q).pages ∧ (t.record q).state = (s.record q).state
      ∧ (t.record q).entry = (s.record q).entry ∧ (t.record q).frame = (s.record q).frame
      ∧ (t.record q).receiving = (s.record q).receiving ∧ (t.record q).notRetainable = (s.record q).notRetainable
      ∧ (t.record q).pin = (s.record q).pin ∧ (t.record q).held = (s.record q).held := fun q => by
    by_cases hq : q = r
    · rw [hq, self]; exact ⟨rfl, rfl, rfl, rfl, rfl, rfl, rfl, rfl⟩
    · rw [ne q hq]; exact ⟨rfl, rfl, rfl, rfl, rfl, rfl, rfl, rfl⟩
  have notin : ∀ f, r ∉ (s.entry f).ring := fun f a => by
    have := ((h.member f r).1 a).1; rw [hr] at this; cases this
  have mem : ∀ f q, q ∈ (t.entry f).ring ↔ q ∈ (s.entry f).ring ∨ (f = e ∧ q = r) := fun f q => by
    by_cases hfe : f = e
    · subst hfe; rw [ringe]; simp
    · rw [ringn f hfe]; simp [hfe]
  exact {
    pages := by
      have hp := h.pages; unfold State.pageLaw at hp ⊢
      simp only [fun q => (same q).1]; exact hp
    freeOnce := h.freeOnce
    free := fun q => by rw [(same q).2.1]; exact h.free q
    used := fun q hq hu => by
      rw [(same q).2.1]
      by_cases hqr : q = r
      · subst hqr; rw [self] at hu; simp [Record.unclaimed] at hu
      · rw [ne q hqr] at hu; exact h.used q hq hu
    blank := fun q hq => by
      rw [(same q).2.1] at hq
      have hqr : q ≠ r := fun a => by rw [a, hs] at hq; cases hq
      rw [ne q hqr]; exact h.blank q hq
    filling := fun q => by rw [(same q).2.1, (same q).2.2.2.2.1]; exact h.filling q
    closed := fun q hq => by
      rw [(same q).2.1]
      by_cases hqr : q = r
      · rw [hqr, hs]
      · rw [ne q hqr] at hq; exact h.closed q hq
    oneOpen := fun q q' a b c => by
      rw [(same q).2.2.2.2.1] at a; rw [(same q').2.2.2.2.1] at b
      rw [(same q).2.2.1, (same q').2.2.1] at c; exact h.oneOpen q q' a b c
    member := fun f q => by
      rw [mem, h.member f q, (same q).2.2.1]
      by_cases hqr : q = r
      · subst hqr; rw [self, hr]; simp [he, eq_comm]
      · rw [ne q hqr]; simp [hqr]
    once := fun f => by
      by_cases hfe : f = e
      · subst hfe; rw [ringe]
        refine List.nodup_append.2 ⟨h.once f, List.nodup_singleton r, ?_⟩
        intro a ha b hb c
        rw [List.mem_singleton.1 hb] at c; exact notin f (c ▸ ha)
      · rw [ringn f hfe]; exact h.once f
    frames := fun f q hq q' hq' => by
      rw [(same q).2.2.2.1, (same q').2.2.2.1]
      rcases (mem f q).1 hq with a | ⟨a, a'⟩ <;> rcases (mem f q').1 hq' with b | ⟨b, b'⟩
      · exact h.frames f q a q' b
      · subst b b'; intro c; exact absurd c (hf q a)
      · subst a a'; intro c; exact absurd c.symm (hf q' b)
      · intro _; rw [a', b']
    guarded := fun q hq => by
      rw [(same q).2.2.2.2.1] at hq
      rw [(same q).2.2.2.2.2.1, (same q).2.2.1, (same q).2.2.2.1, ringn _ (ho q hq)]
      rcases h.guarded q hq with a | a
      · exact .inl a
      · exact .inr fun p hp => by rw [(same p).2.2.2.1]; exact a p hp
    held := fun q hq => by
      rw [(same q).2.2.2.2.2.2.2] at hq
      by_cases hqr : q = r
      · rw [hqr, self]
      · rw [ne q hqr]; exact h.held q hq
    depth := fun f hf => by
      rw [ringn f fun a => hf (.inl a)]
      rcases h.depth f fun a => hf (.inr a) with a | a
      · exact .inl a
      · exact .inr fun q hq => by rw [(same q).2.2.2.2.2.2.1, (same q).2.2.2.2.2.2.2]; exact a q hq
    listedOnce := h.listedOnce
    listed := fun q hq hm => by
      have hqr : q ≠ r := fun a => by
        subst a
        have := h.listed q hZ hm
        simp [Record.reclaimable, hr] at this
      rw [ne q hqr]; exact h.listed q hq hm
    joined := fun q hq hm => by
      rw [ne q fun a => hq (.inl a)] at hm; exact h.joined q (fun a => hq (.inr a)) hm }

theorem retainRecord (h : Core E X Y Z s) (e : EntryId) (r : RecordId) (hs : (s.record r).state = .closed)
    (hr : (s.record r).ring = false) (he : (s.record r).entry = e)
    (hf : ∀ q ∈ (s.entry e).ring, (s.record q).frame ≠ (s.record r).frame)
    (ho : ∀ q, (s.record q).receiving = true → (s.record q).entry ≠ e) (hZ : r ∉ Z) :
    Core E (insert r X) Y Z (Machine.retainRecord e r s) :=
  enforceDepth ((h.joinRing e r hs hr he hf ho hZ).countEntry e _)

theorem offerNotice (h : Core E X Y Z s) (b : NoticeBody) : Core E X Y Z (Machine.offerNotice b s) :=
  h.same (offerNotice_store b s) (offerNotice_entries b s)

/-- The retention decision on a record that has just closed (R82, R83). -/
theorem decideRetention (h : Core E X Y Z s) (e : EntryId) (r : RecordId) (hs : (s.record r).state = .closed)
    (hr : (s.record r).ring = false) (he : (s.record r).entry = e)
    (hf : (s.record r).notRetainable = true ∨ ∀ q ∈ (s.entry e).ring, (s.record q).frame ≠ (s.record r).frame)
    (ho : ∀ q, (s.record q).receiving = true → (s.record q).entry ≠ e) (hZ : r ∉ Z) :
    Core E (insert r X) Y Z (Machine.decideRetention e r s) := by
  have h0 : Core E (insert r X) Y Z s := h.mono subset_rfl (Set.subset_insert r X) subset_rfl subset_rfl
  have skip : Core E (insert r X) Y Z (countRetainSkipped e s) := h0.countEntry e _
  have keep : (s.record r).notRetainable ≠ true → Core E (insert r X) Y Z (Machine.retainRecord e r s) := fun a =>
    h.retainRecord e r hs hr he (hf.resolve_left a) ho hZ
  unfold Machine.decideRetention
  split
  · exact h0
  · split
    · exact skip
    · next a => exact keep a
  · split
    · next a => exact keep (by simp at a; simp [a.1])
    · exact skip
  · split
    · exact skip
    · next a => exact ((keep a).mapEntry e _ ⟨rfl, rfl⟩).offerNotice _

/-- The close of a frame (R82). -/
theorem closeRecord (h : Core E X Y Z s) (e : EntryId) (r : RecordId) (c : CloseReason)
    (hr : (s.record r).receiving = true) (he : (s.record r).entry = e) (hZ : r ∉ Z) :
    Core E X Y Z (Machine.closeRecord e r c s) := by
  have hfill := (h.filling r).1 hr
  have hring : (s.record r).ring = false := by
    by_contra a; have := h.closed r (.inl (by simpa using a)); rw [hfill] at this; cases this
  have hheld : (s.record r).held = false := by
    by_contra a; have := h.held r (by simpa using a); rw [hring] at this; cases this
  have h1 := (h.mono subset_rfl subset_rfl (Set.subset_insert r Y) subset_rfl).mapRecord r (fun x => { x with
      state := .closed, close := some c, receiving := false }) rfl rfl rfl rfl rfl (by rw [hfill]; decide) (fun a => by cases a)
      ⟨(fun a => by cases a), (fun a => by cases a)⟩ (fun _ => rfl) (fun a => by rw [hheld] at a; cases a) (fun a => by cases a)
      (.inr (.inl id)) (.inr fun a => by simp [Record.reclaimable, hring] at a) (.inl (.inl rfl))
      (.inr fun a => by
        have := h.listed r hZ a; simp [Record.reclaimable, hring] at this)
  have self := mapRecord_record_self r (fun x => { x with
      state := .closed, close := some c, receiving := false }) s
  have ne := mapRecord_record_ne r (fun x => { x with state := .closed, close := some c, receiving := false }) s
  have fr : ∀ q, ((Machine.mapRecord r (fun x => { x with
      state := .closed, close := some c, receiving := false }) s).record q).frame = (s.record q).frame := fun q => by
    by_cases a : q = r
    · rw [a, self]
    · rw [ne q a]
  refine (Core.mono ((h1.decideRetention e r ?_ ?_ ?_ ?_ ?_ hZ).reexamine r) subset_rfl (diff_insert_subset r X)
    (diff_insert_subset r Y) Set.sdiff_subset)
  · rw [self]
  · rw [self]; exact hring
  · rw [self]; exact he
  · rw [self]; simp only [fr]
    have := h.guarded r hr; rw [he] at this; exact this
  · intro q hq a
    by_cases b : q = r
    · rw [b, self] at hq; cases hq
    · rw [ne q b] at hq a; exact b (h.oneOpen q r hq hr (a.trans he.symm))

/-! ## Supply -/

/-- A store update that keeps records and lists. -/
theorem mapStore (h : Core E X Y Z s) (g : Store → Store) (h0 : (g s.store).records = s.store.records)
    (h1 : (g s.store).freeRecords = s.store.freeRecords) (h2 : (g s.store).freePages = s.store.freePages)
    (h3 : (g s.store).reclaim = s.store.reclaim) : Core E X Y Z (Machine.mapStore g s) :=
  h.congr (fun r => mapStore_record g s h0 r) h1 h2 h3 (fun _ => rfl) fun _ => rfl

theorem reclaimOldest (h : Core E X Y Z s) : Core E X Y Z (Machine.reclaimOldest s) := by
  unfold Machine.reclaimOldest
  split
  · exact h
  · exact ((h.countEntry _ _).mapStore _ rfl rfl rfl rfl).leaveRing _ _ fun _ => rfl

theorem reclaimForPage (k : Nat) (h : Core E X Y Z s) : Core E X Y Z (Machine.reclaimForPage k s) := by
  induction k generalizing s with
  | zero => exact h
  | succ k ih =>
    unfold Machine.reclaimForPage
    split
    · exact ih h.reclaimOldest
    · exact h

/-- The state in which a record request finds the record, still at the head of the free record list. -/
theorem requestRecord (h : Core E X Y Z s) :
    (∀ t r, Machine.requestRecord s = (t, some r) →
      Core E X Y Z (Machine.mapStore (fun st => { st with freeRecords := r :: st.freeRecords }) t))
    ∧ ∀ t, Machine.requestRecord s = (t, none) → Core E X Y Z t := by
  have h0 : Core E X Y Z (if s.store.freeRecords.isEmpty then Machine.reclaimOldest s else s) := by
    split
    · exact h.reclaimOldest
    · exact h
  unfold Machine.requestRecord
  generalize (if s.store.freeRecords.isEmpty then Machine.reclaimOldest s else s) = u at h0 ⊢
  unfold takeRecord
  constructor
  · intro t r ht
    split at ht
    · next u' r' hu =>
      split at hu
      · cases hu
      · next rs hrs =>
        cases hu; cases ht
        refine h0.congr (fun q => ?_) ?_ rfl rfl (fun _ => rfl) fun _ => rfl
        · rfl
        · exact hrs.symm
    · cases ht
  · intro t ht
    split at ht
    · cases ht
    · next u' hu =>
      split at hu
      · cases hu; cases ht
        exact h0.mapStore _ rfl rfl rfl rfl
      · cases hu

/-- The state in which a page request finds the page, still at the head of the free page list. -/
theorem requestPage (h : Core E X Y Z s) :
    (∀ t p, Machine.requestPage s = (t, some p) →
      Core E X Y Z (Machine.mapStore (fun st => { st with freePages := p :: st.freePages }) t))
    ∧ ∀ t, Machine.requestPage s = (t, none) → Core E X Y Z t := by
  have h0 := h.reclaimForPage s.store.reclaim.length
  unfold Machine.requestPage
  generalize Machine.reclaimForPage s.store.reclaim.length s = u at h0 ⊢
  constructor
  · intro t p ht
    dsimp only at ht
    split at ht
    · cases ht
    · next ps hps =>
      cases ht
      refine h0.congr (fun q => rfl) rfl ?_ rfl (fun _ => rfl) fun _ => rfl
      exact hps.symm
  · intro t ht
    dsimp only at ht
    split at ht
    · cases ht
      exact h0.mapStore _ rfl rfl rfl rfl
    · cases ht

/-- A record from the head of the free list opens for entry `e` (R59). -/
theorem openRecord {r : RecordId} (x : Record)
    (h : Core E X Y Z (Machine.mapStore (fun st => { st with freeRecords := r :: st.freeRecords }) s))
    (hx : x.state = .filling ∧ x.receiving = true ∧ x.ring = false ∧ x.pin = false ∧ x.held = false ∧ x.pages = [])
    (hf : x.notRetainable = true ∨ ∀ q ∈ (s.entry x.entry).ring, (s.record q).frame ≠ x.frame)
    (ho : ∀ q, (s.record q).receiving = true → (s.record q).entry ≠ x.entry) (hZ : r ∉ Z) :
    Core E X Y Z (Machine.mapRecord r (fun _ => x) s) := by
  obtain ⟨x1, x2, x3, x4, x5, x6⟩ := hx
  set u := Machine.mapStore (fun st => { st with freeRecords := r :: st.freeRecords }) s with hu
  have ur : ∀ q, u.record q = s.record q := fun _ => rfl
  have self : (Machine.mapRecord r (fun _ => x) s).record r = x := mapRecord_record_self _ _ _
  have ne : ∀ q, q ≠ r → (Machine.mapRecord r (fun _ => x) s).record q = s.record q := fun q hq =>
    mapRecord_record_ne r _ s q hq
  have en : ∀ f, (Machine.mapRecord r (fun _ => x) s).entry f = s.entry f := fun _ => rfl
  have ufree : u.store.freeRecords = r :: s.store.freeRecords := rfl
  have fr : (s.record r).state = .free := (h.free r).1 (by rw [ufree]; exact List.mem_cons_self)
  have bl : s.record r = .blank := h.blank r fr
  have nodup : r ∉ s.store.freeRecords ∧ s.store.freeRecords.Nodup := List.nodup_cons.1 (ufree ▸ h.freeOnce)
  have notin : ∀ f, r ∉ (s.entry f).ring := fun f a => by
    have := ((h.member f r).1 a).1; rw [ur, bl] at this; cases this
  have out : ∀ f, ∀ q ∈ (s.entry f).ring, q ≠ r := fun f q hq a => notin f (a ▸ hq)
  have pick : ∀ P : RecordId → Record → Prop, P r x → (∀ q, q ≠ r → P q (s.record q)) →
      ∀ q, P q ((Machine.mapRecord r (fun _ => x) s).record q) := fun P a b q => by
    by_cases hq : q = r
    · rw [hq, self]; exact a
    · rw [ne q hq]; exact b q hq
  exact {
    pages := by
      have hp := h.pages; unfold State.pageLaw at hp ⊢
      have : (fun q => ((Machine.mapRecord r (fun _ => x) s).record q).pages) = fun q => (u.record q).pages := by
        funext q; by_cases hq : q = r
        · rw [hq, self, x6, ur, bl]; rfl
        · rw [ne q hq]; rfl
      rw [this]; exact hp
    freeOnce := nodup.2
    free := pick (fun q y => q ∈ s.store.freeRecords ↔ y.state = .free)
      (iff_of_false nodup.1 (by rw [x1]; decide)) fun q hq => by
        have := h.free q; rw [ufree, ur] at this; rw [← this]; simp [hq]
    used := pick (fun q y => q ∉ Y → y.unclaimed = true → y.state = .free)
      (fun _ a => by simp [Record.unclaimed, x2] at a) fun q _ => h.used q
    blank := pick (fun q y => y.state = .free → y = .blank) (fun a => by rw [x1] at a; cases a) fun q _ => h.blank q
    filling := pick (fun q y => y.receiving = true ↔ y.state = .filling) (by rw [x1, x2]; simp) fun q _ => h.filling q
    closed := pick (fun q y => y.ring = true ∨ y.pin = true → y.state = .closed) (by rw [x3, x4]; simp)
      fun q _ => h.closed q
    oneOpen := fun q q' a b c => by
      by_cases hq : q = r <;> by_cases hq' : q' = r
      · rw [hq, hq']
      · rw [hq, self, ne q' hq'] at c; rw [ne q' hq'] at b; exact absurd c.symm (ho q' b)
      · rw [hq', self, ne q hq] at c; rw [ne q hq] at a; exact absurd c (ho q a)
      · rw [ne q hq] at a c; rw [ne q' hq'] at b c; exact h.oneOpen q q' a b c
    member := fun f => pick (fun q y => q ∈ (s.entry f).ring ↔ y.ring = true ∧ y.entry = f)
      (iff_of_false (notin f) (by rw [x3]; simp)) fun q _ => h.member f q
    once := h.once
    frames := fun f q hq q' hq' => by
      rw [en] at hq hq'; rw [ne q (out f q hq), ne q' (out f q' hq')]; exact h.frames f q hq q' hq'
    guarded := by
      refine pick (fun q y => y.receiving = true → y.notRetainable = true
        ∨ ∀ p ∈ (s.entry y.entry).ring, ((Machine.mapRecord r (fun _ => x) s).record p).frame ≠ y.frame)
        (fun _ => hf.imp id fun a p hp => by rw [ne p (out _ p hp)]; exact a p hp) fun q hq hr => ?_
      exact (h.guarded q hr).imp id fun a p hp => by rw [ne p (out _ p hp)]; exact a p hp
    held := pick (fun q y => y.held = true → y.ring = true) (by rw [x5]; simp) fun q _ => h.held q
    depth := fun f hf => by
      rw [en]
      rcases h.depth f hf with a | a
      · exact .inl a
      · exact .inr fun q hq => by rw [ne q (out f q hq)]; exact a q hq
    listedOnce := h.listedOnce
    listed := pick (fun q y => q ∉ Z → q ∈ s.store.reclaim → y.reclaimable = true)
      (fun _ a => by
        have := h.listed r hZ a; rw [ur, bl] at this; cases this) fun q _ => h.listed q
    joined := pick (fun q y => q ∉ X → y.reclaimable = true → q ∈ s.store.reclaim)
      (fun _ a => by simp [Record.reclaimable, x3] at a) fun q _ => h.joined q }

/-- A page from the head of the free list joins a record's page list (R66). -/
theorem addPage {r : RecordId} {p : PageId} (g : Record → Record) (y : Record) (hy : g (s.record r) = y)
    (h : Core E X Y Z (Machine.mapStore (fun st => { st with freePages := p :: st.freePages }) s))
    (hp : y = { s.record r with pages := (s.record r).pages ++ [p], bytes := y.bytes }) (hu : (s.record r).state ≠ .free)
    : Core E X Y Z (Machine.mapRecord r g s) := by
  set u := Machine.mapStore (fun st => { st with freePages := p :: st.freePages }) s with hu'
  have self : (Machine.mapRecord r g s).record r = y := by rw [mapRecord_record_self, hy]
  have ne : ∀ q, q ≠ r → (Machine.mapRecord r g s).record q = s.record q := fun q hq => mapRecord_record_ne r g s q hq
  have flags : ∀ q, (Machine.mapRecord r g s).record q = { s.record q with
      pages := ((Machine.mapRecord r g s).record q).pages, bytes := ((Machine.mapRecord r g s).record q).bytes } :=
    fun q => by
      by_cases hq : q = r
      · rw [hq, self]; exact hp.trans (by rw [hp])
      · rw [ne q hq]
  have b : ∀ {α : Type} (f : Record → α), (∀ (x : Record) ps n, f { x with pages := ps, bytes := n } = f x) →
      ∀ q, f ((Machine.mapRecord r g s).record q) = f (s.record q) := fun f hf q => by rw [flags q]; exact hf _ _ _
  have st := b (·.state) fun _ _ _ => rfl
  have rc := b (·.receiving) fun _ _ _ => rfl
  have rg := b (·.ring) fun _ _ _ => rfl
  have pn := b (·.pin) fun _ _ _ => rfl
  have hl := b (·.held) fun _ _ _ => rfl
  have en := b (·.entry) fun _ _ _ => rfl
  have fr := b (·.frame) fun _ _ _ => rfl
  have nr := b (·.notRetainable) fun _ _ _ => rfl
  have uc := b (·.unclaimed) fun _ _ _ => rfl
  have rl := b (·.reclaimable) fun _ _ _ => rfl
  exact {
    pages := by
      have hp' := h.pages; unfold State.pageLaw at hp' ⊢
      refine List.Perm.trans ?_ hp'
      have e1 := pages_perm (fun q => ((Machine.mapRecord r g s).record q).pages) r _ (List.nodup_finRange 256)
        (List.mem_finRange r)
      have e2 := pages_perm (fun q => (u.record q).pages) r _ (List.nodup_finRange 256) (List.mem_finRange r)
      have same : ((List.finRange 256).flatMap fun q => if q = r then [] else ((Machine.mapRecord r g s).record q).pages)
          = (List.finRange 256).flatMap fun q => if q = r then [] else (u.record q).pages := by
        refine List.flatMap_congr fun q _ => ?_
        by_cases hq : q = r
        · rw [if_pos hq, if_pos hq]
        · rw [if_neg hq, if_neg hq, ne q hq]; rfl
      rw [same] at e1
      have mine : ((Machine.mapRecord r g s).record r).pages = (u.record r).pages ++ [p] := by
        rw [self, hp]; rfl
      rw [mine] at e1
      refine (e1.append_left _).trans (List.Perm.trans ?_ (e2.symm.append_left _))
      show (s.store.freePages ++ (((u.record r).pages ++ [p]) ++ _)).Perm ((p :: s.store.freePages) ++ ((u.record r).pages ++ _))
      rw [← List.append_assoc, ← List.append_assoc (p :: _)]
      refine List.Perm.append_right _ ?_
      rw [← List.append_assoc]
      exact List.perm_append_comm
    freeOnce := h.freeOnce
    free := fun q => by rw [st]; exact h.free q
    used := fun q => by rw [uc, st]; exact h.used q
    blank := fun q hq => by
      rw [st] at hq
      have hqr : q ≠ r := fun a => hu (a ▸ hq)
      rw [ne q hqr]; exact h.blank q hq
    filling := fun q => by rw [st, rc]; exact h.filling q
    closed := fun q => by rw [rg, pn, st]; exact h.closed q
    oneOpen := fun q q' => by rw [rc, rc, en, en]; exact h.oneOpen q q'
    member := fun f q => by rw [rg, en]; exact h.member f q
    once := h.once
    frames := fun f q hq q' hq' => by rw [fr, fr]; exact h.frames f q hq q' hq'
    guarded := fun q => by rw [rc, nr, en]; simp only [fr]; exact h.guarded q
    held := fun q => by rw [hl, rg]; exact h.held q
    depth := fun f hf => by simp only [hl, pn]; exact h.depth f hf
    listedOnce := h.listedOnce
    listed := fun q => by rw [rl]; exact h.listed q
    joined := fun q => by rw [rl]; exact h.joined q }

/-! ## Held flag and pin -/

/-- A ring member takes the pin or is held: it leaves the reclaim list (R81, R89, R90). -/
theorem guardMember (h : Core E X Y Z s) (r : RecordId) (g : Record → Record) {y : Record} (hy : g (s.record r) = y)
    (hr : (s.record r).ring = true) (hy' : y = { s.record r with held := true } ∨ y = { s.record r with pin := true }) :
    Core E X Y Z (Machine.placeOnReclaim r (Machine.mapRecord r g s)) := by
  have hc := h.closed r (.inl hr)
  have hrv : (s.record r).receiving ≠ true := fun a => by have := (h.filling r).1 a; rw [hc] at this; cases this
  have hg : y = { s.record r with held := y.held, pin := y.pin } ∧ (y.held = true ∨ y.pin = true)
      ∧ ((s.record r).held = true → y.held = true) := by
    rcases hy' with a | a <;> rw [a]
    · exact ⟨rfl, .inl rfl, fun _ => rfl⟩
    · exact ⟨rfl, .inr rfl, id⟩
  obtain ⟨h1, h2, h3⟩ := hg
  have k : Core E (insert r X) Y (insert r Z) (Machine.mapRecord r g s) := by
    refine Core.mapRecord (h.mono subset_rfl (Set.subset_insert r X) subset_rfl (Set.subset_insert r Z)) r g hy ?_ ?_ ?_ ?_
      (by rw [hc]; decide) ?_ ?_ ?_ ?_ ?_ (.inr (.inl fun _ => h2)) (.inl (.inl rfl)) ?_ (.inl (.inl rfl))
    all_goals rw [h1]
    · exact hc ▸ (by decide)
    · exact h.filling r
    · exact fun _ => hc
    · exact fun _ => hr
    · exact fun a => absurd a hrv
    · exact .inr (by simp [Record.unclaimed, hr])
  exact (k.placeOnReclaim r).mono subset_rfl (diff_insert_subset r X) subset_rfl (diff_insert_subset r Z)

/-- A record gives up the pin, or is no longer held; depth enforcement runs on its entry's ring, and it is looked at
again (R89, R91); without that look it may still have to join the reclaim list. -/
theorem unguardMember (h : Core E X Y Z s) (r : RecordId) (g : Record → Record) {y : Record} (hy : g (s.record r) = y)
    (hu : (s.record r).state ≠ .free)
    (hy' : y = { s.record r with held := false } ∨ y = { s.record r with pin := false }) (hz : r ∉ Z) :
    Core E (insert r X) (insert r Y) Z
      (Machine.enforceDepth (s.record r).entry (Machine.mapRecord r g s)) := by
  have hg : y = { s.record r with held := y.held, pin := y.pin } ∧ (y.pin = true → (s.record r).pin = true)
      ∧ (y.held = true → (s.record r).held = true) := by
    rcases hy' with a | a <;> rw [a]
    · exact ⟨rfl, id, fun b => by cases b⟩
    · exact ⟨rfl, (fun b => by cases b), id⟩
  obtain ⟨h1, h2, h3⟩ := hg
  refine enforceDepth ?_
  refine Core.mapRecord (h.mono (Set.subset_insert _ E) (Set.subset_insert r X) (Set.subset_insert r Y) subset_rfl) r g hy
    ?_ ?_ ?_ ?_ hu ?_ ?_ ?_ ?_ ?_ (.inl (.inl rfl)) (.inl (.inl rfl)) (.inl (.inl rfl)) ?_
  all_goals rw [h1]
  · exact hu
  · exact h.filling r
  · exact fun a => h.closed r (a.imp id h2)
  · exact fun a => h.held r (h3 a)
  · exact fun a => ⟨a, rfl⟩
  · refine .inr fun a => ?_
    have := h.listed r hz a
    simp only [Record.reclaimable, Bool.and_eq_true, Bool.not_eq_true'] at this ⊢
    have h4 : y.held = false := by
      by_contra b; have c := h3 (by simpa using b); rw [this.1.1.2] at c; cases c
    have h5 : y.pin = false := by
      by_contra b; have c := h2 (by simpa using b); rw [this.1.2] at c; cases c
    exact ⟨⟨⟨this.1.1.1, h4⟩, h5⟩, this.2⟩

end Core

end Sys2Proof.Machine
end

