-- ==== Sys2Proof/Laws/Claims.lean ====
section
/-!
SUPPORT. Claims and their places (R77): what the frame store's functions leave of them, and the laws of store and claims
together through each of those functions.
-/

namespace Sys2Proof.Machine

open Sys2Proof

/-- From `s` to `t` no claim is taken, and none dropped but ring claims and the forward claims of records in `D`; the
records that keep another claim keep all but their ring claim and held flag; the places of claims stay. -/
structure Settles (D : Set RecordId) (s t : State) : Prop where
  receiving : ∀ r, (t.record r).receiving = (s.record r).receiving
  pin : ∀ r, (t.record r).pin = (s.record r).pin
  forward : ∀ r, (t.record r).forward = true ↔ (s.record r).forward = true ∧ r ∉ D
  same : ∀ r, (s.record r).receiving = true ∨ (s.record r).pin = true ∨ (s.record r).forward = true ∧ r ∉ D →
    t.record r = { s.record r with
      ring := (t.record r).ring, held := (t.record r).held, forward := (t.record r).forward }
  assembly : ∀ e, (t.entry e).assembly = (s.entry e).assembly
  queue : ∀ e, (t.entry e).forwardQueue = (s.entry e).forwardQueue
  replay : t.replay = s.replay

namespace Settles

variable {C D : Set RecordId} {s t u : State}

theorem refl (s : State) : Settles ∅ s s :=
  ⟨fun _ => rfl, fun _ => rfl, fun _ => by simp, fun _ _ => rfl, fun _ => rfl, fun _ => rfl, rfl⟩

theorem trans (h : Settles C s t) (g : Settles D t u) : Settles (C ∪ D) s u := by
  refine ⟨fun r => (g.receiving r).trans (h.receiving r), fun r => (g.pin r).trans (h.pin r), fun r => ?_, fun r hr => ?_,
    fun e => (g.assembly e).trans (h.assembly e), fun e => (g.queue e).trans (h.queue e), g.replay.trans h.replay⟩
  · rw [g.forward, h.forward]; simp only [Set.mem_union, not_or, and_assoc]
  · have h1 := h.same r (hr.imp id fun a => a.imp id fun b => ⟨b.1, fun c => b.2 (.inl c)⟩)
    have h2 := g.same r (hr.imp (fun a => (h.receiving r).trans a) fun a => a.imp (fun b => (h.pin r).trans b) fun b =>
      ⟨(h.forward r).2 ⟨b.1, fun c => b.2 (.inl c)⟩, fun c => b.2 (.inr c)⟩)
    rw [h2, h1]

theorem trans'' (h : Settles C s t) (g : Settles ∅ t u) : Settles C s u := by simpa using h.trans g

/-- Without a dropped forward claim in between. -/
theorem trans' (h : Settles ∅ s t) (g : Settles D t u) : Settles D s u := by simpa using h.trans g

theorem ite {c : Prop} [Decidable c] (h : Settles D s t) (g : Settles D s u) : Settles D s (if c then t else u) := by
  split
  · exact h
  · exact g

theorem forEach {α : Type} (xs : List α) (f : α → State → State) (s : State) (h : ∀ x t, Settles ∅ t (f x t)) :
    Settles ∅ s (Machine.forEach xs f s) := by
  induction xs generalizing s with
  | nil => exact refl s
  | cons x xs ih => exact (h x s).trans' (ih (f x s))

/-- Same records, entries with the same places, same replay service. -/
theorem ofSame (hr : ∀ r, t.record r = s.record r)
    (he : ∀ e, (t.entry e).assembly = (s.entry e).assembly ∧ (t.entry e).forwardQueue = (s.entry e).forwardQueue)
    (hv : t.replay = s.replay) : Settles ∅ s t :=
  ⟨fun r => by rw [hr], fun r => by rw [hr], fun r => by rw [hr]; simp, fun r _ => by rw [hr], fun e => (he e).1,
    fun e => (he e).2, hv⟩

theorem entry (s : State) (e : EntryId) (g : Entry → Entry)
    (h : ∀ x : Entry, (g x).assembly = x.assembly ∧ (g x).forwardQueue = x.forwardQueue) :
    Settles ∅ s (mapEntry e g s) := by
  refine ofSame (fun _ => rfl) (fun f => ?_) rfl
  rw [mapEntry_entry]; split
  · next hf => rw [hf]; exact h _
  · exact ⟨rfl, rfl⟩

/-- An update of ring claim and held flag. -/
theorem record (s : State) (r : RecordId) (g : Record → Record)
    (h : ∀ x : Record, g x = { x with ring := (g x).ring, held := (g x).held }) : Settles ∅ s (mapRecord r g s) := by
  have key : ∀ q, (mapRecord r g s).record q = { s.record q with
      ring := ((mapRecord r g s).record q).ring, held := ((mapRecord r g s).record q).held } := fun q => by
    by_cases hq : q = r
    · subst hq; rw [mapRecord_record_self]; exact h _
    · rw [mapRecord_record_ne _ _ _ _ hq]
  refine ⟨fun q => by rw [key q], fun q => by rw [key q], fun q => by rw [key q]; simp, fun q _ => ?_, fun _ => rfl,
    fun _ => rfl, rfl⟩
  conv_lhs => rw [key q]
  rw [key q]

/-- The forward claim of one record drops. -/
theorem unforward (s : State) (r : RecordId) : Settles {r} s (mapRecord r (fun x => { x with forward := false }) s) := by
  have self := mapRecord_record_self r (fun x => { x with forward := false }) s
  have ne := mapRecord_record_ne r (fun x => { x with forward := false }) s
  refine ⟨fun q => ?_, fun q => ?_, fun q => ?_, fun q _ => ?_, fun _ => rfl, fun _ => rfl, rfl⟩
  all_goals by_cases hq : q = r
  · rw [hq, self]
  · rw [ne q hq]
  · rw [hq, self]
  · rw [ne q hq]
  · rw [hq, self]; simp
  · rw [ne q hq]; simp [hq]
  · rw [hq, self]
  · rw [ne q hq]

end Settles

theorem mapStore_settles (g : Store → Store) (s : State) (h : (g s.store).records = s.store.records) :
    Settles ∅ s (mapStore g s) :=
  Settles.ofSame (fun r => mapStore_record g s h r) (fun _ => ⟨rfl, rfl⟩) rfl

theorem placeOnReclaim_settles (r : RecordId) (s : State) : Settles ∅ s (placeOnReclaim r s) := by
  unfold placeOnReclaim
  split
  · split
    · exact Settles.refl s
    · exact Settles.ofSame (fun _ => rfl) (fun _ => ⟨rfl, rfl⟩) rfl
  · exact Settles.ofSame (fun _ => rfl) (fun _ => ⟨rfl, rfl⟩) rfl

theorem freeIfUnclaimed_settles (r : RecordId) (s : State) : Settles ∅ s (freeIfUnclaimed r s) := by
  unfold freeIfUnclaimed
  split
  · next hc =>
    have hn := hc.2
    simp only [Record.unclaimed, Bool.not_eq_true', Bool.or_eq_false_iff] at hn
    have self : (freeRecord r s).record r = .blank := by unfold freeRecord; rw [mapRecord_record_self]
    have ne : ∀ q, q ≠ r → (freeRecord r s).record q = s.record q := fun q hq => by
      unfold freeRecord; rw [mapRecord_record_ne _ _ _ _ hq]; rfl
    refine ⟨fun q => ?_, fun q => ?_, fun q => ?_, fun q h => ?_, fun _ => rfl, fun _ => rfl, rfl⟩
    all_goals by_cases hq : q = r
    · rw [hq, self, hn.1.1.1]; rfl
    · rw [ne q hq]
    · rw [hq, self, hn.2]; rfl
    · rw [ne q hq]
    · rw [hq, self, hn.1.1.2]; simp [Record.blank]
    · rw [ne q hq]; simp
    · subst hq; simp [hn.1.1.1, hn.2, hn.1.1.2] at h
    · rw [ne q hq]
  · exact Settles.refl s

theorem reexamine_settles (r : RecordId) (s : State) : Settles ∅ s (reexamine r s) :=
  (freeIfUnclaimed_settles r s).trans' (placeOnReclaim_settles r _)

theorem leaveRing_settles (e : EntryId) (r : RecordId) (s : State) : Settles ∅ s (leaveRing e r s) :=
  ((Settles.entry s e _ (by intro x; exact ⟨rfl, rfl⟩)).trans' (Settles.record _ r _ (by intro x; rfl))).trans'
    (reexamine_settles r _)

theorem countEntry_settles (e : EntryId) (f : EntryCounters → EntryCounters) (s : State) :
    Settles ∅ s (countEntry e f s) := Settles.entry s e _ (by intro x; exact ⟨rfl, rfl⟩)

theorem offerNotice_settles (b : NoticeBody) (s : State) : Settles ∅ s (offerNotice b s) := by
  refine Settles.ofSame (fun r => record_of_store (offerNotice_store b s) r) (fun e => ?_) ?_
  · simp [State.entry, offerNotice_entries]
  · unfold offerNotice; split
    · split <;> rfl
    · rfl

theorem evictions_settles (k : Nat) (e : EntryId) (s : State) : Settles ∅ s (evictions k e s) := by
  induction k generalizing s with
  | zero => exact Settles.refl s
  | succ k ih =>
    unfold evictions
    split
    · split
      · exact ((countEntry_settles e _ s).trans' (leaveRing_settles e _ _)).trans' (ih _)
      · exact Settles.refl s
    · exact Settles.refl s

theorem enforceDepth_settles (e : EntryId) (s : State) : Settles ∅ s (enforceDepth e s) := evictions_settles _ e s

theorem retainRecord_settles (e : EntryId) (r : RecordId) (s : State) : Settles ∅ s (retainRecord e r s) :=
  (((Settles.entry s e _ (by intro x; exact ⟨rfl, rfl⟩)).trans' (Settles.record _ r _ (by intro x; rfl))).trans'
    (countEntry_settles e _ _)).trans' (enforceDepth_settles e _)

theorem decideRetention_settles (e : EntryId) (r : RecordId) (s : State) : Settles ∅ s (decideRetention e r s) := by
  unfold decideRetention
  split
  · exact Settles.refl s
  · exact Settles.ite (countEntry_settles e _ s) (retainRecord_settles e r s)
  · exact Settles.ite (retainRecord_settles e r s) (countEntry_settles e _ s)
  · exact Settles.ite (countEntry_settles e _ s) (((retainRecord_settles e r s).trans'
      (Settles.entry _ e _ (by intro x; exact ⟨rfl, rfl⟩))).trans' (offerNotice_settles _ _))

theorem leaveRingAll_settles (e : EntryId) (rs : List RecordId) (s : State) : Settles ∅ s (leaveRingAll e rs s) :=
  Settles.forEach _ _ s fun r t => leaveRing_settles e r t

theorem reclaimOldest_settles (s : State) : Settles ∅ s (reclaimOldest s) := by
  unfold reclaimOldest
  split
  · exact Settles.refl s
  · exact ((countEntry_settles _ _ s).trans' (mapStore_settles _ _ rfl)).trans'
      (leaveRing_settles _ _ _)

theorem reclaimForPage_settles (k : Nat) (s : State) : Settles ∅ s (reclaimForPage k s) := by
  induction k generalizing s with
  | zero => exact Settles.refl s
  | succ k ih => exact Settles.ite ((reclaimOldest_settles s).trans' (ih _)) (Settles.refl s)

theorem requestPage_settles (s : State) : Settles ∅ s (requestPage s).1 := by
  have h := reclaimForPage_settles s.store.reclaim.length s
  unfold requestPage
  dsimp only
  split
  all_goals exact h.trans' (Settles.ofSame (fun _ => rfl) (fun _ => ⟨rfl, rfl⟩) rfl)

theorem requestRecord_settles (s : State) : Settles ∅ s (requestRecord s).1 := by
  have h : Settles ∅ s (if s.store.freeRecords.isEmpty then reclaimOldest s else s) :=
    Settles.ite (reclaimOldest_settles s) (Settles.refl s)
  unfold requestRecord
  generalize (if s.store.freeRecords.isEmpty then reclaimOldest s else s) = u at h ⊢
  have g : Settles ∅ u (takeRecord u).1 := by
    unfold takeRecord; split
    · exact Settles.refl u
    · exact Settles.ofSame (fun _ => rfl) (fun _ => ⟨rfl, rfl⟩) rfl
  split
  · next t r ht => rw [ht] at g; exact h.trans' g
  · next t ht =>
    rw [ht] at g; exact (h.trans' g).trans' (Settles.ofSame (fun _ => rfl) (fun _ => ⟨rfl, rfl⟩) rfl)

theorem dropForward_settles (r : RecordId) (s : State) : Settles {r} s (dropForward r s) := by
  exact (Settles.unforward s r).trans'' (reexamine_settles r _)

theorem dropForwardQuietly_settles (r : RecordId) (s : State) : Settles {r} s (dropForwardQuietly r s) := by
  exact (Settles.unforward s r).trans'' (freeIfUnclaimed_settles r _)

/-- Several records lose their forward claims. -/
theorem forEach_settles (rs : List RecordId) (f : RecordId → State → State) (s : State)
    (h : ∀ r t, Settles {r} t (f r t)) : Settles {r | r ∈ rs} s (forEach rs f s) := by
  induction rs generalizing s with
  | nil => simpa [forEach] using Settles.refl s
  | cons r rs ih =>
    have := (h r s).trans (ih (f r s))
    have e : ({r} ∪ {q | q ∈ rs} : Set RecordId) = {q | q ∈ r :: rs} := by ext q; simp
    rw [e] at this; exact this

end Sys2Proof.Machine
end

