-- ==== Sys2Proof/Laws/Encoding.lean ====
section
/-!
SUPPORT. Fields read back from their big-endian bytes, and the check code of a sent unit.
-/

namespace Sys2Proof.Machine

open Sys2Proof

/-- A field out of range names nothing. -/
theorem indexBelow_none (k : Nat) (a : Byte) (h : k ≤ a.toNat) : indexBelow k a = none := by
  simp [indexBelow]; omega

/-- An index sent as a byte is read back. -/
theorem indexBelow_byteOf (k : Nat) (n : Fin k) (hk : k ≤ 256) : indexBelow k (byteOf n.val) = some n := by
  have h : n.val % 256 = n.val := by omega
  simp [indexBelow, byteOf, h]

/-- A 16-bit field from its two bytes. -/
theorem halfAt_of (bs : List Byte) (k : Nat) (h : Half) (h0 : byteAt bs k = h.extractLsb' 8 8)
    (h1 : byteAt bs (k + 1) = h.extractLsb' 0 8) : halfAt bs k = h := by
  unfold halfAt
  rw [h0, h1]
  ext i hi
  simp
  grind

/-- The two bytes of a 16-bit field, joined. -/
theorem append_halfBytes (h : Half) : (h.extractLsb' 8 8 ++ h.extractLsb' 0 8 : BitVec 16) = h := by
  ext i hi
  simp
  grind

/-- A 32-bit field from its four bytes. -/
theorem wordAt_of (bs : List Byte) (k : Nat) (w : Word) (h0 : byteAt bs k = w.extractLsb' 24 8)
    (h1 : byteAt bs (k + 1) = w.extractLsb' 16 8) (h2 : byteAt bs (k + 2) = w.extractLsb' 8 8)
    (h3 : byteAt bs (k + 3) = w.extractLsb' 0 8) : wordAt bs k = w := by
  unfold wordAt halfAt
  rw [h0, h1, h2, show k + 2 + 1 = k + 3 from rfl, h3]
  ext i hi
  simp
  grind

/-- The check code of a sent unit is good (R1, R2). -/
theorem goodCheck_unit (g : Segment) (hl : 8 ≤ g.protectedBytes.length) : goodCheck g.unit = true := by
  have h4 : g.unit.length = g.protectedBytes.length + 4 := by simp [Segment.unit, wordBytes]
  have h5 : g.protectedBytes.length + 4 - 4 = g.protectedBytes.length := by omega
  simp only [goodCheck, h4, h5, Bool.and_eq_true, decide_eq_true_eq, beq_iff_eq]
  refine ⟨by omega, ?_⟩
  rw [wordAt_of _ _ (checkCode g.protectedBytes)]
  · simp [Segment.unit]
  all_goals simp [byteAt, Segment.unit, wordBytes]

end Sys2Proof.Machine
end

