-- ==== Sys2Proof/Laws/Keeps.lean ====
section
/-!
SUPPORT. The laws of the frame store and of the replay queue (`State.storeLaw`) through reception, activation and the
host's operations on the store.
-/

namespace Sys2Proof.Machine

open Sys2Proof

/-- The store's laws and those of claims together. -/
structure Sound (s : State) : Prop where
  core : Core ∅ ∅ ∅ ∅ s
  claims : s.claimLaw

theorem State.storeLaw.core {s : State} (h : s.storeLaw) : Core ∅ ∅ ∅ ∅ s where
  pages := h.pages
  freeOnce := h.records.freeOnce
  free := h.records.free
  used r _ := (h.records.unclaimed r).2
  blank := h.records.blank
  filling := h.records.filling
  closed := h.records.closed
  oneOpen := h.records.oneOpen
  member := h.rings.member
  once := h.rings.once
  frames := h.rings.frames
  guarded := h.rings.guarded
  held := h.rings.held
  depth e _ := h.rings.depth e
  listedOnce := h.reclaim.1
  listed r _ := (h.reclaim.2 r).1
  joined r _ := (h.reclaim.2 r).2

theorem State.storeLaw.sound {s : State} (h : s.storeLaw) : Sound s := ⟨h.core, h.claims⟩

theorem Sound.storeLaw {s : State} (h : Sound s) (hv : s.replay.requestLaw) (hu : s.sendingLaw) : s.storeLaw where
  pages := h.core.pages
  records := {
    freeOnce := h.core.freeOnce
    free := h.core.free
    unclaimed := fun r => ⟨fun a => by rw [h.core.blank r a]; rfl, h.core.used r (Set.notMem_empty r)⟩
    blank := h.core.blank
    filling := h.core.filling
    closed := h.core.closed
    oneOpen := h.core.oneOpen }
  claims := h.claims
  rings := {
    member := h.core.member
    once := h.core.once
    frames := h.core.frames
    guarded := h.core.guarded
    held := h.core.held
    depth := fun e => h.core.depth e (Set.notMem_empty e) }
  reclaim := ⟨h.core.listedOnce, fun r => ⟨h.core.listed r (Set.notMem_empty r), h.core.joined r (Set.notMem_empty r)⟩⟩
  requests := hv
  sending := hu

/-- The laws of the store, the claims and the replay service pass from `s` to `t`. -/
def Keeps (s t : State) : Prop := s.storeLaw → t.storeLaw

namespace Keeps

variable {s t u : State}

theorem refl (s : State) : Keeps s s := id

theorem trans (h : Keeps s t) (g : Keeps t u) : Keeps s u := fun a => g (h a)

theorem ite {c : Prop} [Decidable c] (h : Keeps s t) (g : Keeps s u) : Keeps s (if c then t else u) := by
  split
  · exact h
  · exact g

theorem forEach {α : Type} (xs : List α) (f : α → State → State) (s : State) (h : ∀ x t, Keeps t (f x t)) :
    Keeps s (Machine.forEach xs f s) := by
  induction xs generalizing s with
  | nil => exact refl s
  | cons x xs ih => exact (h x s).trans (ih (f x s))

theorem ite' {α : Type} {x y : State × α} {c : Prop} [Decidable c] (h : Keeps s x.1) (g : Keeps s y.1) :
    Keeps s (if c then x else y).1 := by
  split
  · exact h
  · exact g

/-- A change that leaves the replay service and the segment in transmission. -/
theorem ofSound (h : Sound s → Sound t) (hv : t.replay = s.replay) (hu : t.uplink.tx = s.uplink.tx) : Keeps s t :=
  fun a => (h a.sound).storeLaw (by rw [hv]; exact a.requests) (by
    have := a.sending; unfold State.sendingLaw at this ⊢; rw [hv, hu]; exact this)

end Keeps

theorem Settles.claimLaw {s t : State} (h : Settles ∅ s t) (c : s.claimLaw) : t.claimLaw := by
  have fw : ∀ r, ((t.record r).forward = true ↔ (s.record r).forward = true) := fun r => by rw [h.forward r]; simp
  refine ⟨fun e r => ?_, fun e r => ?_, fun e => by rw [h.queue]; exact c.forwardOnce e, fun r => ?_⟩
  · rw [h.assembly, c.assembly, h.receiving]
    refine and_congr_right fun a => ?_
    rw [h.same r (.inl a)]
  · rw [h.queue, c.forward, fw]
    refine and_congr_right fun a => ?_
    rw [h.same r (.inr (.inr ⟨a, by simp⟩))]
  · rw [h.replay, c.pin, h.pin]

theorem Sound.settle {s t : State} (h : Sound s) (c : Core ∅ ∅ ∅ ∅ t) (g : Settles ∅ s t) : Sound t :=
  ⟨c, g.claimLaw h.claims⟩

/-- An update of an entry that leaves ring, depth and places. -/
theorem Sound.mapEntry {s : State} (h : Sound s) (e : EntryId) (g : Entry → Entry)
    (hg : ∀ x : Entry, (g x).ring = x.ring ∧ (g x).current.ringDepth = x.current.ringDepth
      ∧ (g x).assembly = x.assembly ∧ (g x).forwardQueue = x.forwardQueue) : Sound (Machine.mapEntry e g s) :=
  h.settle (h.core.mapEntry e g ⟨(hg _).1, (hg _).2.1⟩) (Settles.entry s e g fun x => (hg x).2.2)

theorem Sound.countEntry {s : State} (h : Sound s) (e : EntryId) (g : EntryCounters → EntryCounters) :
    Sound (Machine.countEntry e g s) := h.mapEntry e _ (by intro x; exact ⟨rfl, rfl, rfl, rfl⟩)

theorem Sound.offerNotice {s : State} (h : Sound s) (b : NoticeBody) : Sound (Machine.offerNotice b s) :=
  h.settle (h.core.offerNotice b) (offerNotice_settles b s)

/-- Nothing that the laws read has changed. -/
theorem Sound.same {s t : State} (h : Sound s) (hs : t.store = s.store) (he : t.entries = s.entries)
    (hv : t.replay = s.replay) : Sound t :=
  h.settle (h.core.same hs he) (Settles.ofSame (record_of_store hs) (fun e => by simp [State.entry, he]) hv)

theorem Keeps.same {s t : State} (hs : t.store = s.store) (he : t.entries = s.entries)
    (hv : t.replay = s.replay) (hu : t.uplink.tx = s.uplink.tx) : Keeps s t :=
  Keeps.ofSound (fun h => h.same hs he hv) hv hu

/-- A function that touches neither entries, store, replay service nor uplink. -/
theorem Keeps.ofMoves {F : Touch} {s t : State} (h : Moves F s t)
    (hF : F.entries = false ∧ F.store = false ∧ F.replay = false ∧ F.uplink = false) : Keeps s t :=
  Keeps.same (h.store hF.2.1) (h.entries hF.1) (h.replay hF.2.2.1) (by rw [h.uplink hF.2.2.2])

/-! ## Rings -/

/-- A ring claim of `t` is one of `s`, on the same record. -/
def Loses (s t : State) : Prop := ∀ q, (t.record q).ring = true → t.record q = s.record q

theorem Loses.refl (s : State) : Loses s s := fun _ _ => rfl

theorem Loses.trans {s t u : State} (h : Loses s t) (g : Loses t u) : Loses s u := fun q hq => by
  have a := g q hq
  rw [a]; exact h q (by rw [← a]; exact hq)

theorem Loses.same {s t : State} (h : t.store.records = s.store.records) : Loses s t := fun q _ => by
  simp [State.record, h]

theorem reexamine_loses (r : RecordId) (s : State) : Loses s (reexamine r s) := by
  have h1 : Loses s (freeIfUnclaimed r s) := by
    unfold freeIfUnclaimed
    split
    · intro q hq
      unfold freeRecord at hq ⊢
      by_cases hqr : q = r
      · subst hqr; rw [mapRecord_record_self] at hq; cases hq
      · rw [mapRecord_record_ne _ _ _ _ hqr]; rfl
    · exact Loses.refl s
  refine h1.trans ?_
  show Loses _ (placeOnReclaim r _)
  unfold placeOnReclaim
  split
  · split
    · exact Loses.refl _
    · exact Loses.same rfl
  · exact Loses.same rfl

theorem leaveRing_loses (e : EntryId) (r : RecordId) (s : State) : Loses s (leaveRing e r s) := by
  refine Loses.trans ?_ (reexamine_loses r _)
  intro q hq
  by_cases hqr : q = r
  · subst hqr; rw [mapRecord_record_self] at hq; cases hq
  · rw [mapRecord_record_ne _ _ _ _ hqr]; rfl

theorem reclaimOldest_loses (s : State) : Loses s (reclaimOldest s) := by
  unfold reclaimOldest
  split
  · exact Loses.refl s
  · next r _ _ =>
    intro q hq
    have := leaveRing_loses (s.record r).entry r _ q hq
    exact this

theorem requestRecord_loses (s : State) : Loses s (requestRecord s).1 := by
  have h : Loses s (if s.store.freeRecords.isEmpty then reclaimOldest s else s) := by
    split
    · exact reclaimOldest_loses s
    · exact Loses.refl s
  unfold requestRecord
  generalize (if s.store.freeRecords.isEmpty then reclaimOldest s else s) = u at h ⊢
  have g : Loses u (takeRecord u).1 := by
    unfold takeRecord; split
    · exact Loses.refl u
    · exact Loses.same rfl
  split
  · next t r ht => rw [ht] at g; exact h.trans g
  · next t ht => rw [ht] at g; exact (h.trans g).trans (Loses.same rfl)

/-- Several records of one entry leave its ring: the laws hold, and none of them is left in it. -/
theorem leaveRingAll_core {E : Set EntryId} {X Y Z : Set RecordId} (e : EntryId) (rs : List RecordId) (s : State)
    (h : Core E X Y Z s) (hr : ∀ r ∈ rs, (s.record r).ring = true → (s.record r).entry = e) :
    Core E X Y Z (leaveRingAll e rs s)
      ∧ ∀ q, q ∈ ((leaveRingAll e rs s).entry e).ring → q ∈ (s.entry e).ring ∧ q ∉ rs := by
  induction rs generalizing s with
  | nil => exact ⟨h, fun q hq => ⟨hq, by simp⟩⟩
  | cons r rs ih =>
    have h1 := h.leaveRing e r (hr r (by simp))
    have i := ih (leaveRing e r s) h1 fun q hq a => by
      have b := leaveRing_loses e r s q a
      rw [b]; exact hr q (by simp [hq]) (b ▸ a)
    refine ⟨i.1, fun q hq => ?_⟩
    obtain ⟨a, b⟩ := i.2 q hq
    rw [Core.leaveRing_ring] at a
    have := (h.once e).mem_erase_iff.1 a
    exact ⟨this.2, by simp [this.1, b]⟩

theorem leaveRingAll_sound {s : State} (h : Sound s) (e : EntryId) (rs : List RecordId) (hr : ∀ r ∈ rs, r ∈ (s.entry e).ring) :
    Sound (leaveRingAll e rs s) :=
  h.settle (leaveRingAll_core e rs s h.core fun r hr' _ => ((h.core.member e r).1 (hr r hr')).2).1
    (leaveRingAll_settles e rs s)

/-- The whole ring leaves. -/
theorem leaveWholeRing_core {E : Set EntryId} {X Y Z : Set RecordId} (e : EntryId) (s : State) (h : Core E X Y Z s) :
    Core E X Y Z (leaveRingAll e (s.entry e).ring s) ∧ ((leaveRingAll e (s.entry e).ring s).entry e).ring = [] := by
  have := leaveRingAll_core e (s.entry e).ring s h fun r hr _ => ((h.member e r).1 hr).2
  exact ⟨this.1, List.eq_nil_iff_forall_not_mem.2 fun q hq => (this.2 q hq).2 (this.2 q hq).1⟩

/-! ## Forward claims -/

/-- A change that keeps a record as it is changes nothing. -/
theorem mapRecord_id (r : RecordId) (g : Record → Record) (s : State) (h : g (s.record r) = s.record r) :
    mapRecord r g s = s := by
  unfold mapRecord; rw [h]; simp [State.record]

/-- A record gives up its forward claim, still to be looked at again. -/
theorem unforward_core {E : Set EntryId} {X Y Z : Set RecordId} (r : RecordId) (s : State) (h : Core E X Y Z s)
    (hZ : r ∉ Z) :
    Core E (insert r X) (insert r Y) Z (mapRecord r (fun x => { x with forward := false }) s) := by
  have h0 := h.mono subset_rfl (Set.subset_insert r X) (Set.subset_insert r Y) subset_rfl
  by_cases hf : (s.record r).state = .free
  · rw [mapRecord_id r _ s (by rw [h.blank r hf]; rfl)]; exact h0
  · refine h0.mapRecord r _ rfl rfl rfl rfl rfl hf hf (h.filling r) (h.closed r) (h.held r) (fun a => ⟨a, rfl⟩)
      (.inr (.inl id)) (.inl (.inl rfl)) (.inl (.inl rfl)) (.inr fun a => ?_)
    have := h.listed r hZ a
    simp only [Record.reclaimable, Bool.and_eq_true, Bool.not_false] at this ⊢
    exact ⟨this.1, trivial⟩

theorem dropForward_core {E : Set EntryId} {X Y : Set RecordId} (r : RecordId) (s : State) (h : Core E X Y ∅ s) :
    Core E X Y ∅ (dropForward r s) :=
  Core.mono ((unforward_core r s h (Set.notMem_empty r)).reexamine r) subset_rfl (Core.diff_insert_subset r X)
    (Core.diff_insert_subset r Y) Set.sdiff_subset

theorem dropForwardQuietly_core {E : Set EntryId} {Y : Set RecordId} (r : RecordId) (s : State)
    (h : Core E Set.univ Y ∅ s) : Core E Set.univ Y ∅ (dropForwardQuietly r s) :=
  Core.mono ((unforward_core r s h (Set.notMem_empty r)).freeIfUnclaimed r) subset_rfl (Set.subset_univ _)
    (Core.diff_insert_subset r Y) subset_rfl

theorem forEach_core {E : Set EntryId} {X Y Z : Set RecordId} {α : Type} (xs : List α) (f : α → State → State) (s : State)
    (h : Core E X Y Z s) (hf : ∀ x t, Core E X Y Z t → Core E X Y Z (f x t)) : Core E X Y Z (forEach xs f s) := by
  induction xs generalizing s with
  | nil => exact h
  | cons x xs ih => exact ih _ (hf x s h)

/-- The claims after the records `rs` have left entry `e`'s forward queue and lost their forward claims. -/
theorem dropQueue_claims {s t : State} {rs : List RecordId} (e : EntryId) (g : Entry → Entry) (c : s.claimLaw)
    (h : Settles {r | r ∈ rs} (mapEntry e g s) t) (ha : (g (s.entry e)).assembly = (s.entry e).assembly)
    (hn : (g (s.entry e)).forwardQueue.Nodup) (hrs : ∀ r ∈ rs, r ∈ (s.entry e).forwardQueue)
    (hq : ∀ q, q ∈ (g (s.entry e)).forwardQueue ↔ q ∈ (s.entry e).forwardQueue ∧ q ∉ rs) : t.claimLaw := by
  refine ⟨fun f r => ?_, fun f r => ?_, fun f => ?_, fun r => ?_⟩
  · have : ((mapEntry e g s).entry f).assembly = (s.entry f).assembly := by
      rw [mapEntry_entry]; split
      · next hf => rw [hf]; exact ha
      · rfl
    rw [h.assembly, this, c.assembly, h.receiving]
    refine and_congr_right fun a => ?_
    rw [h.same r (.inl a)]; rfl
  · rw [h.queue, h.forward]
    have en : (s.record r).forward = true ∧ r ∉ {r | r ∈ rs} → (t.record r).entry = (s.record r).entry := fun a => by
      rw [h.same r (.inr (.inr a))]; rfl
    rw [mapEntry_entry]
    by_cases hf : f = e
    · subst hf
      rw [if_pos rfl, hq, c.forward]
      constructor
      · rintro ⟨⟨a, b⟩, d⟩
        exact ⟨⟨a, d⟩, (en ⟨a, d⟩).trans b⟩
      · rintro ⟨⟨a, d⟩, b⟩
        exact ⟨⟨a, (en ⟨a, d⟩).symm.trans b⟩, d⟩
    · rw [if_neg hf, c.forward]
      constructor
      · rintro ⟨a, b⟩
        have d : r ∉ {r | r ∈ rs} := fun d => hf (b.symm.trans ((c.forward e r).1 (hrs r d)).2)
        exact ⟨⟨a, d⟩, (en ⟨a, d⟩).trans b⟩
      · rintro ⟨a, b⟩
        exact ⟨a.1, (en a).symm.trans b⟩
  · rw [h.queue, mapEntry_entry]; split
    · exact hn
    · exact c.forwardOnce f
  · rw [h.replay]
    exact (c.pin r).trans (by rw [h.pin]; exact Iff.rfl)

theorem emptyForward_sound {s : State} {E : Set EntryId} (c : s.claimLaw) (h : Core E ∅ ∅ ∅ s) (e : EntryId) :
    Core E ∅ ∅ ∅ (emptyForward e s) ∧ (emptyForward e s).claimLaw := by
  have hn := c.forwardOnce e
  refine ⟨forEach_core _ _ _ (h.mapEntry e _ ⟨rfl, rfl⟩) fun r t => dropForward_core r t,
    dropQueue_claims e (fun x => { x with forwardQueue := beingSent x }) c
      (forEach_settles (notBegun (s.entry e)) dropForward _ dropForward_settles) rfl ?_ ?_ ?_⟩
  · show (beingSent (s.entry e)).Nodup
    unfold beingSent; split
    · exact hn.sublist (List.take_sublist 1 _)
    · exact List.nodup_nil
  · intro r hr
    unfold notBegun at hr
    split at hr
    · exact List.mem_of_mem_drop hr
    · exact hr
  · intro q
    show q ∈ beingSent (s.entry e) ↔ _
    unfold beingSent notBegun
    split
    · cases hq : (s.entry e).forwardQueue with
      | nil => simp
      | cons r rs =>
        rw [hq] at hn
        have := (List.nodup_cons.1 hn).1
        simp only [List.take_succ_cons, List.take_zero, List.drop_succ_cons, List.drop_zero, List.mem_cons,
          List.not_mem_nil, or_false]
        constructor
        · rintro rfl; exact ⟨.inl rfl, this⟩
        · rintro ⟨a, b⟩; exact a.resolve_right b
    · simp

/-! ## Activation (R45 to R50) -/

/-- An update of an entry that keeps its ring and its depth's reading aside. -/
theorem Core.redepth {E : Set EntryId} {X Y Z : Set RecordId} {s : State} (h : Core E X Y Z s) (e : EntryId)
    (g : Entry → Entry) (hg : (g (s.entry e)).ring = (s.entry e).ring) : Core (insert e E) X Y Z (Machine.mapEntry e g s) := by
  have hr : ∀ f, ((Machine.mapEntry e g s).entry f).ring = (s.entry f).ring := fun f => by
    rw [mapEntry_entry]; split
    · next hf => rw [hf]; exact hg
    · rfl
  exact { h with
    member := fun f q => by rw [hr]; exact h.member f q
    once := fun f => by rw [hr]; exact h.once f
    frames := fun f q hq q' hq' => by rw [hr] at hq hq'; exact h.frames f q hq q' hq'
    guarded := fun q => by rw [hr]; exact h.guarded q
    depth := fun f hf => by
      rw [mapEntry_entry_ne e g s f fun a => hf (.inl a)]; exact h.depth f fun a => hf (.inr a) }

/-- Depth is kept at an entry whose ring is empty or whose depth is what it was. -/
theorem Core.undepth {E : Set EntryId} {X Y Z : Set RecordId} {s : State} (e : EntryId) (h : Core (insert e E) X Y Z s)
    (hd : (s.entry e).ring.length ≤ (s.entry e).current.ringDepth
      ∨ ∀ r ∈ (s.entry e).ring, (s.record r).held = true ∨ (s.record r).pin = true) : Core E X Y Z s :=
  { h with
    depth := fun f hf => by
      by_cases hfe : f = e
      · rw [hfe]; exact hd
      · exact h.depth f fun a => a.elim hfe hf }

theorem leavePending_keeps (e : EntryId) (s : State) : Keeps s (leavePending e s) :=
  Keeps.ofMoves (leavePending_moves (F := { gens := true }) rfl e s) ⟨rfl, rfl, rfl, rfl⟩

theorem leavePending_sound {s : State} (h : Sound s) (e : EntryId) : Sound (leavePending e s) := by
  have m := leavePending_moves (F := { gens := true }) rfl e s
  exact h.same (m.store rfl) (m.entries rfl) (m.replay rfl)

/-- The end of an entry's stream but for the marks on its replay requests. -/
def endStore (e : EntryId) (s : State) : State :=
  leavePending e (mapEntry e (fun x => { x with expected := none })
    (emptyForward e (leaveRingAll e (s.entry e).ring s)))

theorem endStore_sound {s : State} (e : EntryId) (h : Core (insert e ∅) ∅ ∅ ∅ s) (c : s.claimLaw) :
    Sound (endStore e s) := by
  obtain ⟨h1, h2⟩ := leaveWholeRing_core e s h
  have c1 := (leaveRingAll_settles e (s.entry e).ring s).claimLaw c
  unfold endStore
  generalize leaveRingAll e (s.entry e).ring s = t at h1 h2 c1 ⊢
  obtain ⟨k1, k2⟩ := emptyForward_sound c1 (h1.undepth e (.inl (by rw [h2]; exact Nat.zero_le _))) e
  exact leavePending_sound (Sound.mapEntry ⟨k1, k2⟩ e _ (by intro x; exact ⟨rfl, rfl, rfl, rfl⟩)) e

theorem endStore_moves (e : EntryId) (s : State) :
    Moves { gens := true, entries := true, store := true, notices := true } s (endStore e s) := by
  unfold endStore
  exact ((leaveRingAll_moves ⟨rfl, rfl, rfl⟩ e _ s).trans (emptyForward_moves ⟨rfl, rfl, rfl⟩ e _)).trans
    ((Moves.mapEntry _ e _ rfl).trans (leavePending_moves rfl e _))

/-- The marks on replay requests. -/
theorem markGone_keeps (e : EntryId) (s : State) : Keeps s (markGone e s) := by
  intro h
  have key : ∀ q : ReplayRequest, (if q.entry = e then { q with gone := true } else q) = { q with
      gone := (if q.entry = e then { q with gone := true } else q).gone } := fun q => by split <;> rfl
  refine Sound.storeLaw ?_ ?_ ?_
  · exact ⟨h.core.same rfl rfl, ⟨h.claims.assembly, h.claims.forward, h.claims.forwardOnce, h.claims.pin⟩⟩
  · have v := h.requests
    refine ⟨?_, fun q hq => ?_, fun q hq => ?_, fun q hq => ?_, fun a => ?_, fun a => ?_⟩
    · show ((s.replay.queue.map _).map _).Nodup
      rw [List.map_map]
      have : ((fun q : ReplayRequest => q.id) ∘ fun q => if q.entry = e then { q with gone := true } else q)
          = fun q => q.id := by funext q; exact congrArg (·.id) (key q)
      rw [this]; exact v.ids
    · obtain ⟨p, hp, rfl⟩ := List.mem_map.1 hq
      rw [key p]; exact v.counts p hp
    · obtain ⟨p, hp, rfl⟩ := List.mem_map.1 hq
      rw [key p]; exact v.waiting p hp
    · have hq : q ∈ (s.replay.queue.map fun q => if q.entry = e then { q with gone := true } else q).tail := hq
      rw [← List.map_tail] at hq
      obtain ⟨p, hp, rfl⟩ := List.mem_map.1 hq
      rw [key p]; exact v.behind p hp
    · refine ⟨(v.idle a).1, (v.idle a).2.1, fun q hq => ?_⟩
      obtain ⟨p, hp, rfl⟩ := List.mem_map.1 hq
      rw [key p]; exact (v.idle a).2.2 p hp
    · obtain ⟨b, q, hq, hq'⟩ := v.busy a
      refine ⟨b, if q.entry = e then { q with gone := true } else q, ?_, by rw [key q]; exact hq'⟩
      show _ ∈ (s.replay.queue.map _).head?
      rw [List.head?_map]
      exact Option.mem_map_of_mem _ hq
  · exact h.sending

/-- An activation (R45 to R50). -/
theorem activate_keeps (e : EntryId) (i : Image) (s : State) : Keeps s (activate e i s) := by
  have h0 : s.storeLaw → Core (insert e ∅) ∅ ∅ ∅ (installImage e i s) ∧ (installImage e i s).claimLaw := fun h =>
    ⟨h.core.redepth e _ rfl, (Settles.entry s e _ (by intro x; exact ⟨rfl, rfl⟩)).claimLaw h.claims⟩
  unfold activate applyDifferences
  split
  · show Keeps s (markGone e (endStore e (installImage e i s)))
    refine Keeps.trans ?_ (markGone_keeps e _)
    intro h
    have m := endStore_moves e (installImage e i s)
    exact (endStore_sound e (h0 h).1 (h0 h).2).storeLaw (by rw [m.replay rfl]; exact h.requests) (by
      have := h.sending; unfold State.sendingLaw at this ⊢; rw [m.replay rfl, m.uplink rfl]; exact this)
  · have h1 : Keeps s (if policyDiffers (s.entry e).current i then Machine.enforceDepth e (installImage e i s)
        else installImage e i s) := by
      split
      · have m := enforceDepth_moves Touch.storeOnly_hasStore e (installImage e i s)
        exact Keeps.ofSound (fun h => ⟨Core.enforceDepth (h.core.redepth e _ rfl),
          ((Settles.entry s e _ (by intro x; exact ⟨rfl, rfl⟩)).trans' (enforceDepth_settles e _)).claimLaw h.claims⟩)
          (m.replay rfl) (by rw [m.uplink rfl]; rfl)
      · next hp =>
        refine Keeps.ofSound (fun h => ?_) rfl rfl
        refine h.settle (h.core.mapEntry e _ ⟨rfl, ?_⟩) (Settles.entry s e _ (by intro x; exact ⟨rfl, rfl⟩))
        simp [policyDiffers] at hp
        exact hp.1.2.symm
    dsimp only
    exact Keeps.ite (h1.trans (leavePending_keeps e _)) h1

theorem activateStaged_keeps (e : EntryId) (s : State) : Keeps s (activateStaged e s) := by
  unfold activateStaged
  split
  · exact activate_keeps e _ s
  · exact Keeps.refl s

/-- WRITE_ENTRY (R43). -/
theorem disposeImage_keeps (e : EntryId) (i : Image) (s : State) : Keeps s (disposeImage e i s).1 := by
  unfold disposeImage accept
  have stage : Keeps s (mapEntry e (fun x => { x with staged := some i }) s) :=
    Keeps.ofSound (fun h => h.mapEntry e _ (by intro x; exact ⟨rfl, rfl, rfl, rfl⟩)) rfl rfl
  split
  · exact activate_keeps e i s
  · exact stage
  · exact stage

theorem opWriteEntry_keeps (entry : Byte) (b : ImageBlock) (s : State) : Keeps s (opWriteEntry entry b s).1 := by
  unfold opWriteEntry refuse
  split
  · exact Keeps.ite' (Keeps.refl s) (Keeps.ite' (Keeps.refl s) (disposeImage_keeps _ _ s))
  · exact Keeps.refl s

/-! ## Closing a frame -/

theorem Settles.record_of_receiving {s t : State} (h : Settles ∅ s t) {r : RecordId} (hr : (s.record r).receiving = true) :
    (t.record r).entry = (s.record r).entry := by rw [h.same r (.inl hr)]

/-- The open frame's record is closed and its entry made IDLE. -/
theorem closeOpen_sound {s : State} (h : Sound s) (e : EntryId) (r : RecordId) (c : CloseReason)
    (ha : (s.entry e).assembly = .filling r) : Sound (closeOpen e r c s) := by
  obtain ⟨hr, he⟩ := (h.claims.assembly e r).1 ha
  have k := h.core.closeRecord e r c hr he (Set.notMem_empty r)
  have g1 : Settles ∅ (mapRecord r (fun x => { x with state := .closed, close := some c, receiving := false }) s)
      (closeRecord e r c s) := (decideRetention_settles e r _).trans' (reexamine_settles r _)
  have k2 : Core ∅ ∅ ∅ ∅ (countClose e (s.record r) c (closeRecord e r c s))
      ∧ Settles ∅ (closeRecord e r c s) (countClose e (s.record r) c (closeRecord e r c s)) := by
    unfold countClose
    dsimp only
    split
    · exact ⟨((k.countEntry e _).countEntry e _).offerNotice _, ((countEntry_settles e _ _).trans'
        (countEntry_settles e _ _)).trans' (offerNotice_settles _ _)⟩
    · exact ⟨k.countEntry e _, countEntry_settles e _ _⟩
  have g := g1.trans' k2.2
  refine ⟨k2.1.mapEntry e (fun x => { x with assembly := .idle, stall := none, nextIndex := 1 }) ⟨rfl, rfl⟩, ?_⟩
  show (assemblyIdle e _).claimLaw
  generalize countClose e (s.record r) c (closeRecord e r c s) = t at g k2 ⊢
  have self := mapRecord_record_self r (fun x => { x with state := .closed, close := some c, receiving := false }) s
  have ne := mapRecord_record_ne r (fun x => { x with state := .closed, close := some c, receiving := false }) s
  set u := mapRecord r (fun x => { x with state := .closed, close := some c, receiving := false }) s with hu
  have same : ∀ q, (u.record q).forward = (s.record q).forward ∧ (u.record q).pin = (s.record q).pin
      ∧ (u.record q).entry = (s.record q).entry := fun q => by
    by_cases hq : q = r
    · rw [hq, self]; exact ⟨rfl, rfl, rfl⟩
    · rw [ne q hq]; exact ⟨rfl, rfl, rfl⟩
  have ent : ∀ f, (assemblyIdle e t).entry f = if f = e then { t.entry e with assembly := .idle, stall := none, nextIndex := 1 }
      else t.entry f := fun f => by unfold assemblyIdle; rw [mapEntry_entry]
  have rcd : ∀ q, (assemblyIdle e t).record q = t.record q := fun _ => rfl
  refine ⟨fun f q => ?_, fun f q => ?_, fun f => ?_, fun q => ?_⟩
  · rw [ent, rcd, g.receiving]
    by_cases hf : f = e
    · rw [if_pos hf]
      refine iff_of_false (by simp) fun a => ?_
      by_cases hq : q = r
      · rw [hq, self] at a; exact Bool.noConfusion a.1
      · have b := g.record_of_receiving a.1
        rw [ne q hq] at a b
        exact hq (h.core.oneOpen q r a.1 hr (b.symm.trans (a.2.trans (hf.trans he.symm))))
    · rw [if_neg hf, g.assembly]
      show (s.entry f).assembly = _ ↔ _
      rw [h.claims.assembly]
      by_cases hq : q = r
      · rw [hq, self]
        refine iff_of_false (fun a => hf (a.2.symm.trans he)) fun a => Bool.noConfusion a.1
      · rw [ne q hq]
        refine and_congr_right fun a => ?_
        rw [g.record_of_receiving (by rw [ne q hq]; exact a), ne q hq]
  · rw [rcd]
    have hqf : ((assemblyIdle e t).entry f).forwardQueue = (s.entry f).forwardQueue := by
      rw [ent]; split
      · next hf => rw [hf]; exact g.queue e
      · exact g.queue f
    rw [hqf, h.claims.forward]
    have hfw := g.forward q
    simp only [Set.mem_empty_iff_false, not_false_eq_true, and_true] at hfw
    rw [hfw, (same q).1]
    refine and_congr_right fun a => ?_
    have := g.same q (.inr (.inr ⟨by rw [(same q).1]; exact a, by simp⟩))
    rw [this]; show _ ↔ (u.record q).entry = f; rw [(same q).2.2]
  · have hqf : ((assemblyIdle e t).entry f).forwardQueue = (s.entry f).forwardQueue := by
      rw [ent]; split
      · next hf => rw [hf]; exact g.queue e
      · exact g.queue f
    rw [hqf]; exact h.claims.forwardOnce f
  · rw [rcd, g.pin, (same q).2.1]
    show t.replay.pinned = _ ↔ _
    rw [g.replay]; exact h.claims.pin q

theorem Keeps.ofMoves' {s t : State} (h : Sound s → Sound t) (m : Moves Touch.storeOnly s t) : Keeps s t :=
  Keeps.ofSound h (m.replay rfl) (by rw [m.uplink rfl])

/-- An entry that is not FILLING. -/
theorem assemblyIdle_sound {s : State} (h : Sound s) (e : EntryId) (ha : ∀ r, (s.entry e).assembly ≠ .filling r) :
    Sound (assemblyIdle e s) := by
  refine ⟨h.core.mapEntry e _ ⟨rfl, rfl⟩, fun f q => ?_, fun f q => ?_, fun f => ?_, h.claims.pin⟩
  all_goals
    unfold assemblyIdle
    rw [mapEntry_entry]
    split
  · next hf =>
    refine iff_of_false (by simp) fun a => ha q ?_
    exact (h.claims.assembly e q).2 (hf ▸ a)
  · exact h.claims.assembly f q
  · next hf => subst hf; exact h.claims.forward f q
  · exact h.claims.forward f q
  · exact h.claims.forwardOnce e
  · exact h.claims.forwardOnce f

theorem endAssembly_keeps (e : EntryId) (c : CloseReason) (s : State) : Keeps s (endAssembly e c s) := by
  refine Keeps.ofMoves' (fun h => ?_) (endAssembly_moves Touch.storeOnly_hasStore e c s)
  unfold endAssembly
  split
  · exact h
  · next r ha => exact closeOpen_sound h e r c ha
  · next ha => exact assemblyIdle_sound h e fun r => by rw [ha]; simp

theorem returnToIdle_keeps (e : EntryId) (c : CloseReason) (s : State) : Keeps s (returnToIdle e c s) :=
  (endAssembly_keeps e c s).trans (activateStaged_keeps e _)

end Sys2Proof.Machine
end

