-- ==== Sys2Proof/Laws/PortReset.lean ====
section
/-!
SUPPORT. What a port's leaving ACTIVE does (R25): `portResetEffects_spec` says it whole.
-/

namespace Sys2Proof.Machine

open Sys2Proof

/-- What several entries' return to IDLE, one after the other, leaves (R25). -/
structure ReturnedAll (xs : List EntryId) (c : CloseReason) (s t : State) : Prop where
  outside : ∀ e ∉ xs, t.entry e = s.entry e
  idle : ∀ e ∈ xs, (t.entry e).assembly = .idle ∧ ((s.entry e).assembly ≠ .idle → (t.entry e).stall = none)
  unchanged : ∀ e ∈ xs, (s.entry e).assembly = .idle → (s.entry e).staged = none → t.entry e = s.entry e
  discarded : ∀ e ∈ xs, (s.entry e).assembly = .discarding →
    (t.entry e).counters.framesIn = (s.entry e).counters.framesIn
  closed : ∀ e ∈ xs, ∀ r, (s.entry e).assembly = .filling r →
    (t.entry e).counters.framesIn = bump (s.entry e).counters.framesIn ∧ t.closedFor r c
  closedStays : ∀ q, s.closedFor q c → t.closedFor q c
  gen : ∀ m, t.gen m = { s.gen m with pendings := (t.gen m).pendings }
  gens : (∀ e ∈ xs, (s.entry e).staged = none) → t.gens = s.gens
  mem : t.store.mem = s.store.mem

theorem returnAll (xs : List EntryId) (c : CloseReason) (s : State) (hn : xs.Nodup) :
    ReturnedAll xs c s (forEach xs (fun e => returnToIdle e c) s) := by
  induction xs generalizing s with
  | nil =>
    exact ⟨fun _ _ => rfl, fun _ h => (by cases h), fun _ h => (by cases h), fun _ h => (by cases h),
      fun _ h => (by cases h), fun _ h => h, fun _ => rfl, fun _ => rfl, rfl⟩
  | cons x xs ih =>
    obtain ⟨h1, h2, h3, h4, h5⟩ := returnToIdle_entry x c s
    obtain ⟨k1, k2, k3, k4⟩ := returnToIdle_closedFor x c s
    have i := ih (returnToIdle x c s) (List.nodup_cons.1 hn).2
    rw [show forEach (x :: xs) (fun e => returnToIdle e c) s = forEach xs (fun e => returnToIdle e c) (returnToIdle x c s) from rfl]
    generalize forEach xs (fun e => returnToIdle e c) (returnToIdle x c s) = t at i ⊢
    have hx : x ∉ xs := (List.nodup_cons.1 hn).1
    have ne : ∀ e ∈ xs, (returnToIdle x c s).entry e = s.entry e := fun e he => h1 e fun h => hx (h ▸ he)
    have split : ∀ P : EntryId → Prop, P x → (∀ e ∈ xs, P e) → ∀ e ∈ x :: xs, P e := fun P a b e he => by
      rcases List.mem_cons.1 he with rfl | he
      · exact a
      · exact b e he
    refine ⟨fun e he => ?_, split _ ?_ fun e he => ?_, split _ ?_ fun e he => ?_, split _ ?_ fun e he => ?_,
      split _ ?_ fun e he => ?_, fun q hq => i.closedStays q (k1 q hq), fun m => ?_, fun hs => ?_, i.mem.trans h5⟩
    · simp at he; rw [i.outside e he.2, h1 e he.1]
    · rw [i.outside x hx]; exact ⟨h2, fun hn => (h3 hn).1⟩
    · rw [← ne e he]; exact i.idle e he
    · intro a b; rw [i.outside x hx, k4 a b]
    · rw [← ne e he]; exact i.unchanged e he
    · intro a; rw [i.outside x hx]; exact k3 a
    · rw [← ne e he]; exact i.discarded e he
    · intro r hr
      rw [i.outside x hx]; exact ⟨(k2 r hr).2, i.closedStays r (k2 r hr).1⟩
    · rw [← ne e he]; exact i.closed e he
    · rw [i.gen m, h4 m]
    · rw [i.gens fun e he => by rw [ne e he]; exact hs e (by simp [he]), returnToIdle_gens x c s (hs x (by simp))]

/-- Emptying an output queue changes that port alone. -/
theorem flushOutput_ports (n : PortId) (s : State) : (flushOutput n s).ports = (mapPort n (fun p => { p with outTrigs := [], outMreqs := [] }) s).ports := by
  unfold flushOutput
  exact (Moves.forEach (F := { agent := true }) _ _ _ fun m t => refuseRemoved_moves rfl m t).ports rfl

/-- An activation leaves the engine's pinned record. -/
theorem activate_pinned (e : EntryId) (i : Image) (s : State) : (activate e i s).replay.pinned = s.replay.pinned := by
  have key : ∀ t : State, (endStream e t).replay.pinned = t.replay.pinned := by
    intro t
    unfold endStream
    generalize hb : leaveRingAll e (t.entry e).ring t = b
    have h1 : b.replay = t.replay := by rw [← hb]; exact (leaveRingAll_moves Touch.storeOnly_hasStore e _ t).replay rfl
    generalize hc : emptyForward e b = c
    have h2 : c.replay = b.replay := by rw [← hc]; exact (emptyForward_moves Touch.storeOnly_hasStore e b).replay rfl
    have h3 := (leavePending_moves (F := { gens := true }) rfl e (mapEntry e (fun x => { x with expected := none }) c)).replay rfl
    show (leavePending e _).replay.pinned = _
    rw [h3, ← h1, ← h2]; rfl
  unfold activate applyDifferences
  split
  · exact key _
  · have : (if policyDiffers (s.entry e).current i = true then enforceDepth e (installImage e i s) else installImage e i s).replay = s.replay := by
      split
      · exact (enforceDepth_moves Touch.storeOnly_hasStore e _).replay rfl
      · rfl
    dsimp only; split
    · rw [(leavePending_moves (F := { gens := true }) rfl e _).replay rfl, this]
    · rw [this]
/-- So does a return to IDLE. -/
theorem returnToIdle_pinned (e : EntryId) (c : CloseReason) (s : State) : (returnToIdle e c s).replay.pinned = s.replay.pinned := by
  unfold returnToIdle activateStaged
  have := (endAssembly_moves Touch.storeOnly_hasStore e c s).replay rfl
  split
  · rw [activate_pinned, this]
  · rw [this]
/-- So do several. -/
theorem returnAll_pinned (xs : List EntryId) (c : CloseReason) (s : State) : (forEach xs (fun e => returnToIdle e c) s).replay.pinned = s.replay.pinned := by
  induction xs generalizing s with
  | nil => rfl
  | cons x xs ih => exact (ih _).trans (returnToIdle_pinned x c s)

/-- The entries on a port. -/
theorem mem_entriesOn (s : State) (n : PortId) (e : EntryId) : e ∈ entriesOn s n ↔ s.onPort n e := by
  simp [entriesOn, allEntries, State.onPort]

/-- Several requests that leave an output queue draw a reply while there is room; the rest are dropped (R25). -/
theorem refuseRemovedAll (ms : List Mreq) (s : State) :
    (forEach ms refuseRemoved s).agent = { s.agent with
      replies := s.agent.replies
        ++ (ms.take (16 - (s.agent.replies.length + s.agent.reserved.toNat))).map
          (fun m => ⟨0x0F, m.tag, [m.op, 0x09, 0x00], false⟩)
      dropped := bump^[ms.length - (16 - (s.agent.replies.length + s.agent.reserved.toNat))] s.agent.dropped } := by
  induction ms generalizing s with
  | nil => simp [forEach]
  | cons m ms ih =>
    rw [show forEach (m :: ms) refuseRemoved s = forEach ms refuseRemoved (refuseRemoved m s) from rfl, ih]
    by_cases h : s.agent.replies.length + s.agent.reserved.toNat < 16
    · have h1 : (refuseRemoved m s).agent = { s.agent with
          replies := s.agent.replies ++ [⟨0x0F, m.tag, [m.op, 0x09, 0x00], false⟩] } := by
        have : replyRoom s = true := decide_eq_true h
        simp [refuseRemoved, replyOrDrop, this, pushReply, portDownReply, partReply, mapAgent, Status.code]
      rw [h1]
      obtain ⟨k, hk⟩ : ∃ k, 16 - (s.agent.replies.length + s.agent.reserved.toNat) = k + 1 := ⟨_, (Nat.succ_pred_eq_of_pos (by omega)).symm⟩
      have hk' : 16 - (s.agent.replies.length + 1 + s.agent.reserved.toNat) = k := by omega
      simp [hk, hk']
    · have h1 : (refuseRemoved m s).agent = { s.agent with dropped := bump s.agent.dropped } := by
        have : replyRoom s = false := decide_eq_false h
        simp [refuseRemoved, replyOrDrop, this, countDropped, mapAgent]
      rw [h1]
      have hk : 16 - (s.agent.replies.length + s.agent.reserved.toNat) = 0 := by omega
      simp [hk, Function.iterate_succ]

/-- The effects of R25 are a port reset, answer the requests removed, and leave the rest of the port. -/
theorem portResetEffects_spec (n : PortId) (s : State) : s.portReset (portResetEffects n s) n
    ∧ s.removedAnswered (portResetEffects n s) n (16 - (s.agent.replies.length + s.agent.reserved.toNat)) []
    ∧ (portResetEffects n s).port n = { s.port n with outTrigs := [], outMreqs := [] }
    ∧ (portResetEffects n s).partTime = s.partTime ∧ (portResetEffects n s).pg = s.pg := by
  have h := returnAll (entriesOn s n) .portLost s (List.Nodup.filter _ (List.nodup_finRange 32))
  have hp := returnAll_pinned (entriesOn s n) .portLost s
  have hF : Moves { gens := true, entries := true, store := true, replay := true, notices := true } s (forEach (entriesOn s n) (fun e => returnToIdle e .portLost) s) :=
    Moves.forEach _ _ _ fun e t => returnToIdle_moves ⟨⟨⟨rfl, rfl, rfl⟩, rfl⟩, rfl⟩ e _ t
  unfold portResetEffects
  generalize forEach (entriesOn s n) (fun e => returnToIdle e .portLost) s = u at h hp hF ⊢
  have hu : ∀ m, u.port m = s.port m := fun m => by simp [State.port, hF.ports rfl]
  have hw := flushOutput_moves (F := { agent := true, ports := true }) ⟨rfl, rfl⟩ n (abandonTriggers n u)
  have hwp := flushOutput_ports n (abandonTriggers n u)
  have hwa : (flushOutput n (abandonTriggers n u)).agent = _ := refuseRemovedAll ((abandonTriggers n u).port n).outMreqs
    (mapPort n (fun p => { p with outTrigs := [], outMreqs := [] }) (abandonTriggers n u))
  have vp : ∀ m, (abandonTriggers n u).port m = s.port m := hu
  have va : (abandonTriggers n u).agent = s.agent := hF.agent rfl
  have vg : (abandonTriggers n u).gen n = { u.gen n with
      state := .idle, period := none, pendings := [],
      counters := { (u.gen n).counters with
        abandoned := bumpBy (u.gen n).pendings.length (u.gen n).counters.abandoned } } := by
    unfold abandonTriggers; rw [mapGen_gen_self]
  have vg' : ∀ m, m ≠ n → (abandonTriggers n u).gen m = u.gen m := fun m hm => mapGen_gen_ne _ _ _ _ hm
  generalize flushOutput n (abandonTriggers n u) = w at hw hwp hwa ⊢
  have pn : ∀ m, w.port m = (mapPort n (fun p => { p with outTrigs := [], outMreqs := [] }) (abandonTriggers n u)).port m := fun m => by simp [State.port, hwp]
  have ge : ∀ m, w.gen m = (abandonTriggers n u).gen m := fun m => by simp [State.gen, hw.gens rfl]
  have en : ∀ e, w.entry e = u.entry e := fun m => by simp [State.entry, hw.entries rfl]; rfl
  have re : ∀ r, w.record r = u.record r := fun m => record_of_store (by rw [hw.store rfl]; rfl) m
  have mem : ∀ e, s.onPort n e → e ∈ entriesOn s n := fun e he => (mem_entriesOn s n e).2 he
  refine ⟨⟨fun e he => ?_, fun e he => ⟨?_, ?_, ?_, ?_, fun r hr => ?_⟩, ?_, ?_, ?_, ?_, ?_, fun hs => ?_, ?_, ?_,
    fun m hm => ⟨?_, ?_⟩, ?_, ?_, ?_, ?_⟩, ?_, ?_, ?_, ?_⟩
  · rw [en]; exact h.outside e fun hh => he ((mem_entriesOn s n e).1 hh)
  · rw [en]; exact (h.idle e (mem e he)).1
  · rw [en]; exact (h.idle e (mem e he)).2
  · rw [en]; exact h.unchanged e (mem e he)
  · rw [en]; exact h.discarded e (mem e he)
  · rw [en, re]; exact h.closed e (mem e he) r hr
  · rw [ge, vg]
  · rw [ge, vg]
  · rw [ge, vg, h.gen n]
  · rw [ge, vg, h.gen n]
  · rw [ge, vg]
  · have hg : u.gen n = s.gen n := by
      simp [State.gen, h.gens fun e he => hs e ((mem_entriesOn s n e).1 he)]
    rw [ge, vg, hg]
  · rw [pn, mapPort_port_self]
  · rw [pn, mapPort_port_self]
  · rw [pn, mapPort_port_ne _ _ _ _ hm, vp]
  · rw [ge, vg' m hm, h.gen m]
  · rw [hw.uplink rfl]; exact hF.uplink rfl
  · rw [hw.flash rfl]; exact hF.flash rfl
  · rw [hw.replay rfl]; exact hp
  · rw [hw.store rfl]; exact h.mem
  · unfold State.removedAnswered
    rw [hwa, vp n, List.append_nil]
    show _ = _
    rw [show (mapPort n (fun p => { p with outTrigs := [], outMreqs := [] }) (abandonTriggers n u)).agent = s.agent from va]
  · rw [pn, mapPort_port_self, vp]
  · rw [hw.time rfl]; exact hF.time rfl
  · rw [hw.pg rfl]; exact hF.pg rfl

/-- The offer of a notice changes the notice unit alone. -/
theorem offerNotice_eq (b : NoticeBody) (s : State) : (offerNotice b s) = { s with notices := (offerNotice b s).notices } := by
  unfold offerNotice; split
  · split <;> rfl
  · rfl
/-- Entering a state after a port reset keeps it a port reset; `s` differs from `u` in its port, time and pins. -/
theorem enterPort_portReset (n : PortId) (st : PortState) (r : PortReason) (s t u : State) (h : s.portReset t n) (hs : s = { u with ports := s.ports, partTime := s.partTime, pg := s.pg }) (hsp : ∀ m, m ≠ n → s.port m = u.port m) :
    u.portReset (enterPort n st r t) n ∧ (enterPort n st r t).port n = Port.enter st t (t.port n) := by
  unfold enterPort; rw [offerNotice_eq]
  have e1 : ∀ e, s.entry e = u.entry e := fun e => by rw [hs]; rfl
  have g1 : ∀ e, s.gen e = u.gen e := fun e => by rw [hs]; rfl
  have o1 : ∀ e, s.onPort n e ↔ u.onPort n e := fun e => by simp [State.onPort, e1 e]
  have u1 : s.uplink = u.uplink := by rw [hs]
  have u2 : s.flash = u.flash := by rw [hs]
  have u3 : s.replay = u.replay := by rw [hs]
  have u4 : s.store = u.store := by rw [hs]
  obtain ⟨a1, a2, a3, a4, a5, a6, a7, a8, a9, a10, a11, a12, a13, a14, a15⟩ := h
  refine ⟨⟨fun e he => ?_, fun e he => ?_, a3, a4, ?_, ?_, a7, fun hu => ?_, ?_, ?_, fun m hm => ⟨?_, ?_⟩, ?_, ?_, ?_,
    ?_⟩, ?_⟩
  · rw [← e1 e]; exact a1 e ((not_congr (o1 e)).2 he)
  · rw [← e1 e]; exact a2 e ((o1 e).2 he)
  · rw [← g1]; exact a5
  · rw [← g1]; exact a6
  · rw [← g1]; exact a8 fun e he => by rw [e1 e]; exact hu e ((o1 e).1 he)
  · show ((mapPort n _ t).port n).outTrigs = []; rw [mapPort_port_self]; exact a9
  · show ((mapPort n _ t).port n).outMreqs = []; rw [mapPort_port_self]; exact a10
  · show (mapPort n _ t).port m = _; rw [mapPort_port_ne _ _ _ _ hm, (a11 m hm).1, hsp m hm]
  · rw [← g1]; exact (a11 m hm).2
  · rw [← u1]; exact a12
  · rw [← u2]; exact a13
  · rw [← u3]; exact a14
  · rw [← u4]; exact a15
  · show (mapPort n _ t).port n = _; rw [mapPort_port_self]

end Sys2Proof.Machine
end

