-- ==== Sys2Proof/Laws/Offers.lean ====
section
/-!
SUPPORT. The notices that an event offers. `Offers s t bs` says that from `s` to `t` the notices `bs` are offered, in
turn, and part time stays. `portResetEffects_notices` and `endAllFrames_notices` say which notices the closes of frames
offer when a port leaves ACTIVE (R25) and at a profile load (R178).
-/

namespace Sys2Proof.Machine

open Sys2Proof

/-- From `s` to `t` the notices `bs` are offered, in turn, and part time stays. -/
structure Offers (s t : State) (bs : List NoticeBody) : Prop where
  notices : t.notices = (forEach bs offerNotice s).notices
  time : t.partTime = s.partTime

/-- What an offer does to the notice unit depends on it and on part time alone. -/
theorem offerNotice_congr (b : NoticeBody) {s t : State} (hn : t.notices = s.notices) (ht : t.partTime = s.partTime) :
    (offerNotice b t).notices = (offerNotice b s).notices := by
  unfold offerNotice
  rw [hn]
  split
  · split
    · simp [pushNotice, mapNotices, hn, ht]
    · simp [loseNotice, mapNotices, hn]
  · exact hn

theorem offerNotice_partTime (b : NoticeBody) (s : State) : (offerNotice b s).partTime = s.partTime := by
  rw [offerNotice_eq]

theorem offerAll_partTime (bs : List NoticeBody) (s : State) : (forEach bs offerNotice s).partTime = s.partTime := by
  induction bs generalizing s with
  | nil => rfl
  | cons b bs ih => exact (ih _).trans (offerNotice_partTime b s)

theorem offerAll_congr (bs : List NoticeBody) {s t : State} (hn : t.notices = s.notices)
    (ht : t.partTime = s.partTime) : (forEach bs offerNotice t).notices = (forEach bs offerNotice s).notices := by
  induction bs generalizing s t with
  | nil => exact hn
  | cons b bs ih =>
    exact ih (offerNotice_congr b hn ht) (by rw [offerNotice_partTime, offerNotice_partTime, ht])

namespace Offers

variable {s t u : State} {bs cs : List NoticeBody}

theorem refl (s : State) : Offers s s [] := ⟨rfl, rfl⟩

theorem trans (h : Offers s t bs) (g : Offers t u cs) : Offers s u (bs ++ cs) := by
  refine ⟨g.notices.trans ?_, g.time.trans h.time⟩
  have e : forEach (bs ++ cs) offerNotice s = forEach cs offerNotice (forEach bs offerNotice s) := List.foldl_append ..
  rw [e]
  exact offerAll_congr cs h.notices (h.time.trans (offerAll_partTime bs s).symm)

theorem offer (b : NoticeBody) (s : State) : Offers s (offerNotice b s) [b] := ⟨rfl, offerNotice_partTime b s⟩

/-- Nothing is offered before. -/
theorem after (h : Offers s t []) (g : Offers t u cs) : Offers s u cs := h.trans g

/-- A step before that leaves the notice unit and part time. -/
theorem behind (g : Offers t u cs) (hn : t.notices = s.notices) (ht : t.partTime = s.partTime) : Offers s u cs :=
  after ⟨hn, ht⟩ g

/-- Nothing is offered behind. -/
theorem before (h : Offers s t bs) (g : Offers t u []) : Offers s u bs := by simpa using h.trans g

theorem ite {c : Prop} [Decidable c] (h : Offers s t bs) (g : Offers s u bs) : Offers s (if c then t else u) bs := by
  split
  · exact h
  · exact g

/-- Steps that offer nothing offer nothing together. -/
theorem forEach {α : Type} (xs : List α) (f : α → State → State) (s : State) (h : ∀ x t, Offers t (f x t) []) :
    Offers s (Machine.forEach xs f s) [] := by
  induction xs generalizing s with
  | nil => exact refl s
  | cons x xs ih => exact (h x s).after (ih (f x s))

/-- A function that does not touch the notice unit nor part time. -/
theorem ofMoves {F : Touch} (h : Moves F s t) (hn : F.notices = false) (ht : F.time = false) : Offers s t [] :=
  ⟨h.notices hn, h.time ht⟩

end Offers

/-! ## The frame store and the stream table offer nothing but ONE_SHOT_TAKEN and FRAME_DAMAGED -/

theorem reexamine_quiet (r : RecordId) (s : State) : Offers s (reexamine r s) [] :=
  .ofMoves (reexamine_moves (F := { store := true }) rfl r s) rfl rfl

theorem leaveRing_quiet (e : EntryId) (r : RecordId) (s : State) : Offers s (leaveRing e r s) [] :=
  (reexamine_quiet r _).behind rfl rfl

theorem evictions_quiet (k : Nat) (e : EntryId) (s : State) : Offers s (evictions k e s) [] := by
  induction k generalizing s with
  | zero => exact Offers.refl s
  | succ k ih =>
    unfold evictions
    split
    · split
      · exact ((leaveRing_quiet e _ (countEntry e _ s)).behind (s := s) rfl rfl).after (ih _)
      · exact Offers.refl s
    · exact Offers.refl s

theorem enforceDepth_quiet (e : EntryId) (s : State) : Offers s (enforceDepth e s) [] := evictions_quiet _ e s

theorem retainRecord_quiet (e : EntryId) (r : RecordId) (s : State) : Offers s (retainRecord e r s) [] :=
  (enforceDepth_quiet e _).behind rfl rfl

theorem endStream_quiet (e : EntryId) (s : State) : Offers s (endStream e s) [] := by
  have h1 : Offers s (leaveRingAll e (s.entry e).ring s) [] := Offers.forEach _ _ s fun r t => leaveRing_quiet e r t
  unfold endStream
  generalize leaveRingAll e (s.entry e).ring s = b at h1 ⊢
  have drop : ∀ r t, Offers t (dropForward r t) [] := fun r t => (reexamine_quiet r _).behind rfl rfl
  have h2 : Offers s (emptyForward e b) [] :=
    (h1.after ⟨rfl, rfl⟩ : Offers s (mapEntry e (fun x => { x with forwardQueue := beingSent x }) b) []).after
      (Offers.forEach _ _ _ drop)
  generalize emptyForward e b = c at h2 ⊢
  have h3 : Offers c (leavePending e (mapEntry e (fun x => { x with expected := none }) c)) [] :=
    Offers.behind (.ofMoves (leavePending_moves (F := { gens := true }) rfl e _) rfl rfl) rfl rfl
  exact (h2.after h3).after ⟨rfl, rfl⟩

theorem activate_quiet (e : EntryId) (i : Image) (s : State) : Offers s (activate e i s) [] := by
  unfold activate
  refine Offers.after (t := installImage e i s) ⟨rfl, rfl⟩ ?_
  unfold applyDifferences
  split
  · exact endStream_quiet e _
  · have h : Offers (installImage e i s) (if policyDiffers (s.entry e).current i then
        enforceDepth e (installImage e i s) else installImage e i s) [] :=
      Offers.ite (enforceDepth_quiet e _) (Offers.refl _)
    dsimp only
    exact Offers.ite (h.after (.ofMoves (leavePending_moves (F := { gens := true }) rfl e _) rfl rfl)) h

theorem activateStaged_quiet (e : EntryId) (s : State) : Offers s (activateStaged e s) [] := by
  unfold activateStaged
  split
  · exact activate_quiet e _ s
  · exact Offers.refl s

/-- The retention decision offers ONE_SHOT_TAKEN when the frame ends a one-shot, and nothing else (R83). -/
theorem decideRetention_offers (e : EntryId) (r : RecordId) (s : State) : ∃ one, Offers s (decideRetention e r s) one
    ∧ (one = [] ∨ ∃ i, one = [.oneShotTaken e (s.record r).frame i])
    ∧ (one ≠ [] ↔ (s.entry e).current.retention = .oneShot ∧ (s.record r).notRetainable = false) := by
  have skipped : Offers s (countRetainSkipped e s) [] := ⟨rfl, rfl⟩
  unfold decideRetention
  split
  · next h => exact ⟨[], Offers.refl s, .inl rfl, by simp [h]⟩
  · next h => exact ⟨[], Offers.ite skipped (retainRecord_quiet e r s), .inl rfl, by simp [h]⟩
  · next h => exact ⟨[], Offers.ite (retainRecord_quiet e r s) skipped, .inl rfl, by simp [h]⟩
  · next h =>
    split
    · next hn => exact ⟨[], skipped, .inl rfl, by simp [hn]⟩
    · next hn =>
      refine ⟨_, (retainRecord_quiet e r s).after (u := clearOneShot e r (s.record r).frame (retainRecord e r s))
        ((Offers.offer _ _).behind rfl rfl), .inr ⟨_, rfl⟩, ?_⟩
      simpa [h] using hn

/-- The close of a frame for a reason other than TAIL offers FRAME_DAMAGED, behind ONE_SHOT_TAKEN when the frame ends a
one-shot (R72, R83). -/
theorem closeOpen_offers (e : EntryId) (r : RecordId) (c : CloseReason) (hc : c ≠ .tail) (s : State) :
    ∃ one, Offers s (closeOpen e r c s) (one ++ [.frameDamaged e (s.record r).frame (s.record r).damage c
        (s.record r).bodies (s.record r).bytes])
      ∧ (one = [] ∨ ∃ i, one = [.oneShotTaken e (s.record r).frame i])
      ∧ (one ≠ [] ↔ (s.entry e).current.retention = .oneShot ∧ (s.record r).notRetainable = false) := by
  obtain ⟨one, h1, h2, h3⟩ := decideRetention_offers e r
    (mapRecord r (fun x => { x with state := .closed, close := some c, receiving := false }) s)
  rw [mapRecord_record_self] at h2 h3
  refine ⟨one, ?_, h2, h3⟩
  have h0 : Offers s (decideRetention e r (mapRecord r (fun x => { x with
      state := .closed, close := some c, receiving := false }) s)) one := h1.behind rfl rfl
  have hk : Offers s (closeRecord e r c s) one := h0.before (reexamine_quiet r _)
  have hd : damagedClose (s.record r).damage c = true := by cases c <;> simp_all [damagedClose]
  unfold closeOpen
  generalize closeRecord e r c s = u at hk ⊢
  generalize s.record r = x at hd ⊢
  have hc : Offers u (countClose e x c u) [.frameDamaged e x.frame x.damage c x.bodies x.bytes] := by
    unfold countClose
    rw [if_pos hd]
    exact (Offers.offer _ _).behind rfl rfl
  exact (hk.trans hc).before ⟨rfl, rfl⟩

/-! ## Several closes, one after the other -/

/-- An open record that another entry's end of assembly does not reach tells the same behind it. -/
theorem endAssembly_told (e : EntryId) (c : CloseReason) (s : State) (q : RecordId)
    (hq : (s.record q).receiving = true) (hn : (s.entry e).assembly ≠ .filling q) :
    ((endAssembly e c s).record q).told = (s.record q).told := by
  have shed : ∀ {t u : State}, Sheds t u → (t.record q).told = (s.record q).told →
      (u.record q).told = (s.record q).told := fun h g => by
    rcases h.record q with a | a
    · rw [show ((_ : State).record q).receiving = _ from congrArg (·.2.2.1) g] at a
      exact absurd (hq.symm.trans a.2) (by decide)
    · exact a.trans g
  have idle : ∀ t : State, Sheds t (assemblyIdle e t) := fun t => Sheds.entry t e _ (by intro x; rfl)
  unfold endAssembly
  split
  · rfl
  · next r hr =>
    refine shed (idle _) ?_
    rw [record_of_store (countClose_sheds_record e (s.record r) c (closeRecord e r c s)).1]
    refine shed ((decideRetention_sheds e r _).trans (reexamine_sheds r _)) ?_
    rw [mapRecord_record_ne _ _ _ _ fun h => hn (by rw [h]; exact hr)]
  · exact shed (idle s) rfl

/-- What a function that closes entry `e`'s open frame for `c` does (`endAssembly`, `returnToIdle`). -/
structure Closes (c : CloseReason) (f : EntryId → State → State) : Prop where
  outside : ∀ e s g, g ≠ e → (f e s).entry g = s.entry g
  quiet : ∀ e s, (∀ r, (s.entry e).assembly ≠ .filling r) → Offers s (f e s) []
  closed : ∀ e s r, (s.entry e).assembly = .filling r → ∃ one, Offers s (f e s) (one ++
      [.frameDamaged e (s.record r).frame (s.record r).damage c (s.record r).bodies (s.record r).bytes])
    ∧ (one = [] ∨ ∃ i, one = [.oneShotTaken e (s.record r).frame i])
    ∧ (one ≠ [] ↔ (s.entry e).current.retention = .oneShot ∧ (s.record r).notRetainable = false)
  told : ∀ e s q, (s.record q).receiving = true → (s.entry e).assembly ≠ .filling q →
    ((f e s).record q).told = (s.record q).told

theorem endAssembly_closes (c : CloseReason) (hc : c ≠ .tail) : Closes c (fun e => endAssembly e c) where
  outside e s g hg := (endAssembly_entry e c s).1 g hg
  quiet e s h := by
    unfold endAssembly; split
    · exact Offers.refl s
    · next r hr => exact absurd hr (h r)
    · exact ⟨rfl, rfl⟩
  closed e s r h := by
    have := closeOpen_offers e r c hc s
    unfold endAssembly; rw [h]; exact this
  told e s q := endAssembly_told e c s q

theorem returnToIdle_closes (c : CloseReason) (hc : c ≠ .tail) : Closes c (fun e => returnToIdle e c) where
  outside e s g hg := (returnToIdle_entry e c s).1 g hg
  quiet e s h := ((endAssembly_closes c hc).quiet e s h).before (activateStaged_quiet e _)
  closed e s r h := by
    obtain ⟨one, h1, h2⟩ := (endAssembly_closes c hc).closed e s r h
    exact ⟨one, h1.before (activateStaged_quiet e _), h2⟩
  told e s q hq hn := by
    have h := (endAssembly_closes c hc).told e s q hq hn
    rcases (activateStaged_sheds e (endAssembly e c s)).record q with a | a
    · rw [show ((endAssembly e c s).record q).receiving = _ from congrArg (·.2.2.1) h] at a
      exact absurd (hq.symm.trans a.2) (by decide)
    · exact a.trans h

/-- The open frames of the entries `xs` are records with a receiving claim, each of one of them. -/
def State.openApart (s : State) (xs : List EntryId) : Prop :=
  ∀ e ∈ xs, ∀ r, (s.entry e).assembly = .filling r →
    (s.record r).receiving = true ∧ ∀ f ∈ xs, (s.entry f).assembly = .filling r → f = e

theorem Closes.all {c : CloseReason} {f : EntryId → State → State} (hf : Closes c f) (xs : List EntryId)
    (hx : xs.Nodup) (s : State) : ∃ closes : EntryId → List NoticeBody,
      Offers s (forEach xs f s) (xs.flatMap closes) ∧ ∀ e ∈ xs,
        ((∀ r, (s.entry e).assembly ≠ .filling r) → closes e = [])
        ∧ ∀ r, (s.entry e).assembly = .filling r → ∃ one k d b y, closes e = one ++ [.frameDamaged e k d c b y]
          ∧ (one = [] ∨ ∃ i, one = [.oneShotTaken e k i])
          ∧ (s.openApart xs → (one ≠ [] ↔ (s.entry e).current.retention = .oneShot
                ∧ (s.record r).notRetainable = false)
              ∧ k = (s.record r).frame ∧ d = (s.record r).damage ∧ b = (s.record r).bodies
              ∧ y = (s.record r).bytes) := by
  induction xs generalizing s with
  | nil => exact ⟨fun _ => [], Offers.refl s, fun e he => (by cases he)⟩
  | cons x xs ih =>
    obtain ⟨hxs, hn⟩ := List.nodup_cons.1 hx
    obtain ⟨closes, h1, h2⟩ := ih hn (f x s)
    have ne : ∀ e ∈ xs, e ≠ x := fun e he h => hxs (h ▸ he)
    -- the notices of the first entry
    have first : ∃ bs, Offers s (f x s) bs ∧ ((∀ r, (s.entry x).assembly ≠ .filling r) → bs = [])
        ∧ ∀ r, (s.entry x).assembly = .filling r → ∃ one,
          bs = one ++ [.frameDamaged x (s.record r).frame (s.record r).damage c (s.record r).bodies
            (s.record r).bytes]
          ∧ (one = [] ∨ ∃ i, one = [.oneShotTaken x (s.record r).frame i])
          ∧ (one ≠ [] ↔ (s.entry x).current.retention = .oneShot ∧ (s.record r).notRetainable = false) := by
      by_cases hr : ∃ r, (s.entry x).assembly = .filling r
      · obtain ⟨r, hr⟩ := hr
        obtain ⟨one, g1, g2⟩ := hf.closed x s r hr
        refine ⟨_, g1, fun h => absurd hr (h r), fun r' hr' => ?_⟩
        obtain rfl : r = r' := by rw [hr] at hr'; cases hr'; rfl
        exact ⟨one, rfl, g2⟩
      · exact ⟨[], hf.quiet x s fun r h => hr ⟨r, h⟩, fun _ => rfl, fun r h => absurd ⟨r, h⟩ hr⟩
    obtain ⟨bs, b1, b2, b3⟩ := first
    have cong : xs.flatMap (Function.update closes x bs) = xs.flatMap closes :=
      List.flatMap_congr fun e he => Function.update_of_ne (ne e he) ..
    refine ⟨Function.update closes x bs, ?_, fun e he => ?_⟩
    · rw [List.flatMap_cons, Function.update_self, cong]
      exact b1.trans h1
    · rcases List.mem_cons.1 he with rfl | he
      · rw [Function.update_self]
        refine ⟨b2, fun r hr => ?_⟩
        obtain ⟨one, g1, g2, g3⟩ := b3 r hr
        exact ⟨one, _, _, _, _, g1, g2, fun _ => ⟨g3, rfl, rfl, rfl, rfl⟩⟩
      · rw [Function.update_of_ne (ne e he)]
        have hen := hf.outside x s e (ne e he)
        obtain ⟨k1, k2⟩ := h2 e he
        rw [hen] at k1 k2
        refine ⟨k1, fun r hr => ?_⟩
        obtain ⟨one, k, d, b, y, g1, g2, g3⟩ := k2 r hr
        refine ⟨one, k, d, b, y, g1, g2, fun ha => ?_⟩
        -- the frames of the others tell the same behind the first close
        have same : ∀ q, ∀ g ∈ xs, (s.entry g).assembly = .filling q →
            ((f x s).record q).told = (s.record q).told := fun q g hg hq =>
          hf.told x s q (ha g (List.mem_cons_of_mem x hg) q hq).1 fun hx' =>
            ne g hg ((ha g (List.mem_cons_of_mem x hg) q hq).2 x (List.mem_cons_self ..) hx').symm
        have apart : (f x s).openApart xs := fun g hg q hq => by
          rw [hf.outside x s g (ne g hg)] at hq
          refine ⟨(congrArg (·.2.2.1) (same q g hg hq)).trans (ha g (List.mem_cons_of_mem x hg) q hq).1,
            fun g' hg' hq' => ?_⟩
          rw [hf.outside x s g' (ne g' hg')] at hq'
          exact (ha g (List.mem_cons_of_mem x hg) q hq).2 g' (List.mem_cons_of_mem x hg') hq'
        have ht := same r e he hr
        obtain ⟨m1, m2, m3, m4, m5⟩ := g3 apart
        rw [show ((f x s).record r).notRetainable = _ from congrArg (·.2.2.2.2.2.2.2) ht] at m1
        exact ⟨m1, m2.trans (congrArg (·.2.2.2.1) ht), m3.trans (congrArg (·.2.2.2.2.1) ht),
          m4.trans (congrArg (·.2.2.2.2.2.1) ht), m5.trans (congrArg (·.2.2.2.2.2.2.1) ht)⟩

/-- Under the law of claims the open frames stand apart. -/
theorem openApart_of_claimLaw {s : State} (h : s.claimLaw) (xs : List EntryId) : s.openApart xs := fun e _ r hr =>
  ⟨((h.assembly e r).1 hr).1, fun f _ hf => ((h.assembly f r).1 hf).2.symm.trans ((h.assembly e r).1 hr).2⟩

/-- The closes of some entries' frames, one after the other, offer the notices of `closeNotices`. -/
theorem Closes.notices {c : CloseReason} {f : EntryId → State → State} (hf : Closes c f) (p : EntryId → Bool)
    (s : State) : ∃ closes, s.closeNotices c (fun e => p e = true) closes
      ∧ Offers s (forEach (allEntries.filter p) f s) (allEntries.flatMap closes) := by
  obtain ⟨closes, h1, h2⟩ := hf.all (allEntries.filter p) (List.Nodup.filter _ (List.nodup_finRange 32)) s
  have mem : ∀ e, p e = true → e ∈ allEntries.filter p := fun e he =>
    List.mem_filter.2 ⟨List.mem_finRange e, he⟩
  refine ⟨fun e => if p e then closes e else [], fun e => ⟨fun r he hr => ?_, fun hn => ?_⟩, ?_⟩
  · obtain ⟨one, k, d, b, y, g1, g2, g3⟩ := (h2 e (mem e he)).2 r hr
    exact ⟨one, k, d, b, y, by simpa [he] using g1, g2, fun hl => g3 (openApart_of_claimLaw hl _)⟩
  · dsimp only
    split
    · next he => exact (h2 e (mem e he)).1 fun r hr => hn ⟨he, r, hr⟩
    · rfl
  · have : ∀ xs : List EntryId, (xs.filter p).flatMap closes = xs.flatMap fun e => if p e then closes e else [] := by
      intro xs
      induction xs with
      | nil => rfl
      | cons x xs ih => by_cases hx : p x <;> simp [hx, ih]
    rw [← this]
    exact h1

/-- The notices of R25: those of the frames that close, in ascending entry index. -/
theorem portResetEffects_notices (n : PortId) (s : State) : ∃ closes, s.closeNotices .portLost (s.onPort n) closes
    ∧ Offers s (portResetEffects n s) (allEntries.flatMap closes) := by
  obtain ⟨closes, h1, h2⟩ := (returnToIdle_closes .portLost (by decide)).notices
    (fun e => (s.entry e).current.valid && (s.entry e).current.port == n) s
  have on : (fun e => ((s.entry e).current.valid && (s.entry e).current.port == n) = true) = s.onPort n :=
    funext fun e => by simp [State.onPort]
  rw [on] at h1
  refine ⟨closes, h1, (h2.before (u := abandonTriggers n _) ⟨rfl, rfl⟩).before ?_⟩
  exact .ofMoves (flushOutput_moves (F := { agent := true, ports := true }) ⟨rfl, rfl⟩ n _) rfl rfl

theorem markLate_offers (s t : State) : Offers t (markLate s t) [] := ⟨rfl, rfl⟩

/-- The notices of steps 1 and 2 of R178: those of the frames that close, in ascending entry index. -/
theorem endAllFrames_notices (s : State) : ∃ closes, s.closeNotices .streamChanged (fun _ => True) closes
    ∧ Offers s (endAllFrames s) (allEntries.flatMap closes) := by
  obtain ⟨closes, h1, h2⟩ := (endAssembly_closes .streamChanged (by decide)).notices (fun _ => true) s
  rw [List.filter_true] at h2
  simp only at h1
  exact ⟨closes, h1, (h2.before (markLate_offers s _)).before (Offers.forEach _ _ _ fun e t => ⟨rfl, rfl⟩)⟩

/-- Steps that offer one notice each offer them in turn. -/
theorem Offers.each {α : Type} (xs : List α) (f : α → State → State) (b : α → NoticeBody) (s : State)
    (h : ∀ x t, Offers t (f x t) [b x]) : Offers s (Machine.forEach xs f s) (xs.map b) := by
  induction xs generalizing s with
  | nil => exact Offers.refl s
  | cons x xs ih => exact (h x s).trans (ih (f x s))

/-- A window's expiry offers one TRIGGER_MISSED for each entry still outstanding, in ascending entry index (R143). -/
theorem expireWindow_offers (n : PortId) (p : PendingTrigger) (s : State) :
    Offers (atDeadline p.deadline s) (expireWindow n p s)
      (p.unanswered.map fun e => .triggerMissed n p.number e true) :=
  (Offers.each p.unanswered (reportMissed n p.number true) _ _ fun e t =>
    (Offers.offer (.triggerMissed n p.number e true) (countTrig n _ t)).behind (s := t) rfl rfl).before ⟨rfl, rfl⟩

/-- Entering a state offers its PORT_STATE notice. -/
theorem enterPort_offers (n : PortId) (st : PortState) (why : PortReason) (s : State) :
    Offers s (enterPort n st why s) [.portState n (s.port n).state st why] :=
  (Offers.offer _ _).behind rfl rfl

end Sys2Proof.Machine
end

