-- ==== Sys2Proof/Laws/Reception.lean ====
section
/-!
SUPPORT. The laws of the frame store and of the replay queue through frame reception and the host's operations on the
store.
-/

namespace Sys2Proof.Machine

open Sys2Proof

/-! ## A record in use -/

/-- A change of one record in use in fields that no law reads. -/
theorem Sound.touch {s : State} (h : Sound s) (r : RecordId) (g : Record → Record) (hu : (s.record r).state ≠ .free)
    (hg : ∀ x : Record, g x = { x with
      tagAtHead := (g x).tagAtHead, attributes := (g x).attributes, headTime := (g x).headTime, damage := (g x).damage,
      close := (g x).close, bodies := (g x).bodies, bytes := (g x).bytes }) : Sound (mapRecord r g s) := by
  have k : ∀ q, (mapRecord r g s).record q = { s.record q with
      tagAtHead := ((mapRecord r g s).record q).tagAtHead, attributes := ((mapRecord r g s).record q).attributes,
      headTime := ((mapRecord r g s).record q).headTime, damage := ((mapRecord r g s).record q).damage,
      close := ((mapRecord r g s).record q).close, bodies := ((mapRecord r g s).record q).bodies,
      bytes := ((mapRecord r g s).record q).bytes } := fun q => by
    by_cases hq : q = r
    · subst hq; rw [mapRecord_record_self]; exact hg _
    · rw [mapRecord_record_ne _ _ _ _ hq]
  have c := h.core
  refine ⟨c.mapRecord r g rfl ?_ ?_ ?_ ?_ hu ?_ ?_ ?_ ?_ ?_ (.inr (.inl ?_)) (.inr ?_) (.inr ?_) (.inr ?_), ?_⟩
  all_goals try rw [hg]
  · exact hu
  · exact c.filling r
  · exact c.closed r
  · exact c.held r
  · exact fun a => ⟨a, rfl⟩
  · exact id
  · exact c.joined r (Set.notMem_empty r)
  · by_contra a
    exact hu (c.used r (Set.notMem_empty r) (Bool.eq_true_of_not_eq_false a))
  · exact c.listed r (Set.notMem_empty r)
  · refine ⟨fun e q => ?_, fun e q => ?_, h.claims.forwardOnce, fun q => ?_⟩
    all_goals rw [k q]
    · exact h.claims.assembly e q
    · exact h.claims.forward e q
    · exact h.claims.pin q

/-- The record of an open frame is FILLING. -/
theorem Sound.filling {s : State} (h : Sound s) {e : EntryId} {r : RecordId} (ha : (s.entry e).assembly = .filling r) :
    (s.record r).state = .filling := (h.core.filling r).1 ((h.claims.assembly e r).1 ha).1

theorem ne_free_of_filling {x : Record} (h : x.state = .filling) : x.state ≠ .free := by rw [h]; decide

/-! ## HEAD -/

theorem startStall_sound {s : State} (h : Sound s) (e : EntryId) : Sound (startStall e s) :=
  h.mapEntry e _ (by intro x; exact ⟨rfl, rfl, rfl, rfl⟩)

/-- The forward claim at a HEAD (R61, R99). -/
theorem offerForward_sound {s : State} (h : Sound s) (e : EntryId) (r : RecordId) (hf : (s.record r).state = .filling)
    (he : (s.record r).entry = e) (hw : (s.record r).forward = false) : Sound (offerForward e r s) := by
  unfold offerForward
  split
  · exact h
  · split
    · exact Sound.same (s := countForwardSkipped e s) (h.countEntry e _) rfl rfl rfl
    · split
      · exact h.countEntry e _
      · have c := h.core
        have nl : r ∉ s.store.reclaim := fun a => by
          have := c.listed r (Set.notMem_empty r) a
          simp [Record.reclaimable, hf] at this
        have self := mapRecord_record_self r (fun x => { x with forward := true })
          (Machine.mapEntry e (fun x => { x with forwardQueue := x.forwardQueue ++ [r] }) s)
        have ne := mapRecord_record_ne r (fun x => { x with forward := true })
          (Machine.mapEntry e (fun x => { x with forwardQueue := x.forwardQueue ++ [r] }) s)
        have notin : ∀ f, r ∉ (s.entry f).forwardQueue := fun f a => by
          have := ((h.claims.forward f r).1 a).1; rw [hw] at this; cases this
        refine ⟨(c.mapEntry e _ ⟨rfl, rfl⟩).mapRecord r _ rfl rfl rfl rfl rfl (ne_free_of_filling hf)
          (ne_free_of_filling hf) (c.filling r) (c.closed r) (c.held r) (fun a => ⟨a, rfl⟩) (.inr (.inl id))
          (.inr fun a => ?_) (.inr ?_) (.inr fun a => absurd a nl), fun f q => ?_, fun f q => ?_, fun f => ?_, fun q => ?_⟩
        · simp [Record.reclaimable] at a
        · simp [Record.unclaimed]
        · have ha : ((mapRecord r (fun x => { x with forward := true })
              (Machine.mapEntry e (fun x => { x with forwardQueue := x.forwardQueue ++ [r] }) s)).entry f).assembly
              = (s.entry f).assembly := by
            rw [mapRecord_entry, mapEntry_entry]; split
            · next a => rw [a]
            · rfl
          rw [ha, h.claims.assembly]
          by_cases hq : q = r
          · rw [hq, self]; exact Iff.rfl
          · rw [ne q hq]; exact Iff.rfl
        · rw [mapRecord_entry, mapEntry_entry]
          by_cases hfe : f = e
          · subst hfe
            rw [if_pos rfl]
            show q ∈ (s.entry f).forwardQueue ++ [r] ↔ _
            rw [List.mem_append, List.mem_singleton, h.claims.forward]
            by_cases hq : q = r
            · rw [hq, self]; exact iff_of_true (.inr rfl) ⟨rfl, he⟩
            · rw [ne q hq]; simp [hq]
          · rw [if_neg hfe, h.claims.forward]
            by_cases hq : q = r
            · rw [hq, self]
              exact iff_of_false (fun a => hfe (a.2.symm.trans he)) fun a => hfe (a.2.symm.trans he)
            · rw [ne q hq]; exact Iff.rfl
        · rw [mapRecord_entry, mapEntry_entry]; split
          · refine List.nodup_append.2 ⟨h.claims.forwardOnce e, List.nodup_singleton r, ?_⟩
            intro a ha b hb d
            rw [List.mem_singleton.1 hb] at d; exact notin e (d ▸ ha)
          · exact h.claims.forwardOnce f
        · show s.replay.pinned = _ ↔ _
          rw [h.claims.pin]
          by_cases hq : q = r
          · rw [hq, self]; exact Iff.rfl
          · rw [ne q hq]; exact Iff.rfl

/-- The frame opens in the record at the head of the free list (R59, R61). -/
theorem openFrame_sound {s : State} (e : EntryId) (r : RecordId) (n : Half) (a : Attributes) (b : Bool)
    (h : Core ∅ ∅ ∅ ∅ (mapStore (fun st => { st with freeRecords := r :: st.freeRecords }) s)) (c : s.claimLaw)
    (ha : ∀ q, (s.entry e).assembly ≠ .filling q)
    (hg : b = true ∨ ∀ q ∈ (s.entry e).ring, (s.record q).frame ≠ n) : Sound (openFrame e r n a b s) := by
  have bl : s.record r = .blank := h.blank r ((h.free r).1 List.mem_cons_self)
  have none : ∀ q, (s.record q).receiving = true → (s.record q).entry ≠ e := fun q h1 h2 =>
    ha q ((c.assembly e q).2 ⟨h1, h2⟩)
  set x := recordAtHead e n a b s with hx
  have k := h.openRecord x ⟨rfl, rfl, rfl, rfl, rfl, rfl⟩ hg none (Set.notMem_empty r)
  set u := Machine.mapEntry e (fun x => { x with assembly := .filling r, nextIndex := 1 })
    (mapRecord r (fun _ => x) s) with hu
  have self : u.record r = x := mapRecord_record_self r (fun _ => x) s
  have ne : ∀ q, q ≠ r → u.record q = s.record q := fun q hq => mapRecord_record_ne r (fun _ => x) s q hq
  have noclaim : ∀ f, (s.entry f).assembly ≠ .filling r ∧ r ∉ (s.entry f).forwardQueue := fun f => by
    refine ⟨fun d => ?_, fun d => ?_⟩
    · have := ((c.assembly f r).1 d).1; rw [bl] at this; cases this
    · have := ((c.forward f r).1 d).1; rw [bl] at this; cases this
  have hs : Sound u := by
    refine ⟨k.mapEntry e _ ⟨rfl, rfl⟩, fun f q => ?_, fun f q => ?_, fun f => ?_, fun q => ?_⟩
    · rw [hu, mapEntry_entry, ← hu]
      by_cases hf : f = e
      · rw [if_pos hf]
        by_cases hq : q = r
        · rw [hq, self]; exact iff_of_true rfl ⟨rfl, hf.symm⟩
        · rw [ne q hq]
          exact iff_of_false (fun d => hq (Assembly.filling.inj d).symm) fun d => none q d.1 (d.2.trans hf)
      · rw [if_neg hf]
        by_cases hq : q = r
        · rw [hq, self]; exact iff_of_false (noclaim f).1 fun d => hf d.2.symm
        · rw [ne q hq]; exact c.assembly f q
    · have : (u.entry f).forwardQueue = (s.entry f).forwardQueue := by
        rw [hu, mapEntry_entry]; split
        · next hf => rw [hf]; rfl
        · rfl
      rw [this]
      by_cases hq : q = r
      · rw [hq, self]; exact iff_of_false (noclaim f).2 fun d => Bool.noConfusion d.1
      · rw [ne q hq]; exact c.forward f q
    · have : (u.entry f).forwardQueue = (s.entry f).forwardQueue := by
        rw [hu, mapEntry_entry]; split
        · next hf => rw [hf]; rfl
        · rfl
      rw [this]; exact c.forwardOnce f
    · show s.replay.pinned = _ ↔ _
      rw [c.pin]
      by_cases hq : q = r
      · rw [hq, self, bl]; exact Iff.rfl
      · rw [ne q hq]
  exact offerForward_sound (startStall_sound hs e) e r (congrArg (·.state) self) (congrArg (·.entry) self)
    (congrArg (·.forward) self)

theorem refuseFrame_sound {s : State} (h : Sound s) (e : EntryId) (n : Half) (ha : ∀ q, (s.entry e).assembly ≠ .filling q) :
    Sound (refuseFrame e n s) := by
  have k : Sound (Machine.mapEntry e (fun x => { x with assembly := .discarding, nextIndex := 1 }) s) := by
    refine ⟨h.core.mapEntry e _ ⟨rfl, rfl⟩, fun f q => ?_, fun f q => ?_, fun f => ?_, h.claims.pin⟩
    all_goals
      rw [mapEntry_entry]
      split
    · next hf =>
      refine iff_of_false (by simp) fun a => ha q ?_
      exact (h.claims.assembly e q).2 (hf ▸ a)
    · exact h.claims.assembly f q
    · next hf => subst hf; exact h.claims.forward f q
    · exact h.claims.forward f q
    · exact h.claims.forwardOnce e
    · exact h.claims.forwardOnce f
  exact ((startStall_sound k e).countEntry e _).offerNotice _

theorem offerForward_tx (e : EntryId) (r : RecordId) (s : State) :
    (offerForward e r s).uplink.tx = s.uplink.tx ∧ (offerForward e r s).replay = s.replay := by
  unfold offerForward
  split
  · exact ⟨rfl, rfl⟩
  · split
    · exact ⟨rfl, rfl⟩
    · split <;> exact ⟨rfl, rfl⟩

theorem seekRecord_keeps (e : EntryId) (n : Half) (a : Attributes) (b : Bool) (s : State)
    (ha : ∀ q, (s.entry e).assembly ≠ .filling q) (hg : b = true ∨ ∀ q ∈ (s.entry e).ring, (s.record q).frame ≠ n) :
    Keeps s (seekRecord e n a b s) := by
  have m := requestRecord_moves Touch.storeOnly_hasStore s
  have g := requestRecord_settles s
  have l := requestRecord_loses s
  refine Keeps.ofSound (fun h => ?_) ?_ ?_
  · have k := h.core.requestRecord
    have c := g.claimLaw h.claims
    unfold seekRecord
    split
    · next t r ht =>
      rw [ht] at g l c
      have kt := k.1 t r ht
      refine openFrame_sound e r n a b kt c (fun q => by rw [g.assembly]; exact ha q) (hg.imp id fun d q hq => ?_)
      obtain ⟨hr, he⟩ := (kt.member e q).1 hq
      have lq := l q hr
      show (t.record q).frame ≠ n
      rw [lq]
      refine d q ((h.core.member e q).2 ⟨lq ▸ hr, ?_⟩)
      have he : (t.record q).entry = e := he
      exact lq ▸ he
    · next t ht =>
      rw [ht] at g c
      exact refuseFrame_sound ⟨k.2 t ht, c⟩ e n fun q => by rw [g.assembly]; exact ha q
  · unfold seekRecord
    split
    · next t r ht =>
      rw [ht] at m
      exact (offerForward_tx e r _).2.trans (m.replay rfl)
    · next t ht =>
      rw [ht] at m
      unfold refuseFrame
      rw [(offerNotice_moves (F := { notices := true }) rfl _ rfl _).replay rfl]
      exact m.replay rfl
  · unfold seekRecord
    split
    · next t r ht =>
      rw [ht] at m
      exact (offerForward_tx e r _).1.trans (congrArg (·.tx) (m.uplink rfl))
    · next t ht =>
      rw [ht] at m
      unfold refuseFrame
      rw [(offerNotice_moves (F := { notices := true }) rfl _ rfl _).uplink rfl]
      exact congrArg (·.tx) (m.uplink rfl)

/-- The duplicate check leaves no unguarded ring member of the new frame's number (R58). -/
theorem checkDuplicate_guards {s : State} (h : Sound s) (e : EntryId) (n : Half) :
    Sound (checkDuplicate e n s).1 ∧ ((checkDuplicate e n s).2 = true
      ∨ ∀ q ∈ ((checkDuplicate e n s).1.entry e).ring, ((checkDuplicate e n s).1.record q).frame ≠ n) := by
  unfold checkDuplicate
  split
  · next r hr =>
    have hm := List.mem_of_find?_eq_some hr
    have hn : (s.record r).frame = n := by simpa using List.find?_some hr
    split
    · exact ⟨h, .inl rfl⟩
    · have h1 := h.countEntry e (fun c => { c with duplicateReplaced := bump c.duplicateReplaced })
      set u := countEntry e (fun c => { c with duplicateReplaced := bump c.duplicateReplaced }) s with hu
      have ur : (u.entry e).ring = (s.entry e).ring := congrArg (·.ring) (mapEntry_entry_self _ _ _)
      have k := h1.core.leaveRing e r fun _ => ((h.core.member e r).1 hm).2
      refine ⟨h1.settle k (leaveRing_settles e r u), .inr fun q hq a => ?_⟩
      have l := leaveRing_loses e r u q ((k.member e q).1 hq).1
      rw [Core.leaveRing_ring, ur, (h.core.once e).mem_erase_iff] at hq
      rw [l] at a
      exact hq.1 (h.core.frames e q hq.2 r hm (a.trans hn.symm))
  · next hr =>
    refine ⟨h, .inr fun q hq a => ?_⟩
    have := List.find?_eq_none.1 hr q hq
    simp [a] at this

theorem checkContinuity_sound {s : State} (h : Sound s) (e : EntryId) (n : Half) : Sound (checkContinuity e n s) := by
  unfold checkContinuity
  split
  · split
    · exact (h.countEntry e _).offerNotice _
    · exact h
  · exact h

theorem checkDuplicate_assembly (e : EntryId) (n : Half) (s : State) :
    ((checkDuplicate e n s).1.entry e).assembly = (s.entry e).assembly := by
  unfold checkDuplicate
  split
  · split
    · rfl
    · exact ((countEntry_settles e _ s).trans' (leaveRing_settles e _ _)).assembly e
  · rfl

theorem checkContinuity_settles (e : EntryId) (n : Half) (s : State) : Settles ∅ s (checkContinuity e n s) := by
  unfold checkContinuity
  split
  · exact Settles.ite ((countEntry_settles e _ s).trans' (offerNotice_settles _ _)) (Settles.refl s)
  · exact Settles.refl s

theorem reportHead_keeps (n : PortId) (e : EntryId) (g : Option Half) (s : State) : Keeps s (reportHead n e g s) :=
  Keeps.ofMoves (reportHead_moves (F := { gens := true, notices := true }) ⟨rfl, rfl⟩ n e g s) ⟨rfl, rfl, rfl, rfl⟩

theorem headTaken_keeps (e : EntryId) (n : PortId) (f : Half) (a : Attributes) (s : State)
    (ha : (s.entry e).assembly = .idle) : Keeps s (headTaken e n f a s) := by
  unfold headTaken
  have h1 : ∀ g : Sound s, Sound (expectAfter e f (checkContinuity e f s)) := fun g =>
    (checkContinuity_sound g e f).mapEntry e _ (by intro x; exact ⟨rfl, rfl, rfl, rfl⟩)
  have hs : Settles ∅ s (expectAfter e f (checkContinuity e f s)) := (checkContinuity_settles e f s).trans'
    (Settles.entry _ e _ (by intro x; exact ⟨rfl, rfl⟩))
  have m1 : Moves Touch.storeOnly s (expectAfter e f (checkContinuity e f s)) :=
    (checkContinuity_moves Touch.storeOnly_hasStore e f s).trans (expectAfter_moves rfl e f _)
  generalize expectAfter e f (checkContinuity e f s) = t at h1 hs m1 ⊢
  refine Keeps.trans ?_ (reportHead_keeps n e a.trigger _)
  intro h
  obtain ⟨k1, k2⟩ := checkDuplicate_guards (h1 h.sound) e f
  have m2 := m1.trans (checkDuplicate_moves Touch.storeOnly_hasStore e f t)
  have ht : (checkDuplicate e f t).1.storeLaw := k1.storeLaw (by rw [m2.replay rfl]; exact h.requests) (by
    have := h.sending; unfold State.sendingLaw at this ⊢; rw [m2.replay rfl, m2.uplink rfl]; exact this)
  refine seekRecord_keeps e f a _ _ (fun q => ?_) k2 ht
  rw [checkDuplicate_assembly, hs.assembly, ha]; simp

/-- At most one valid current image binds the pair (R38, R42). -/
def soleBinding (s : State) (n : PortId) (c : Channel) (e : EntryId) : Prop :=
  ∀ f, f ≠ e → ¬ ((s.entry f).current.valid = true ∧ (s.entry f).current.port = n ∧ (s.entry f).current.channel = c)

theorem lookup_some {s : State} {n : PortId} {c : Channel} {e : EntryId} (h : lookup s n c = some e) :
    (s.entry e).current.valid = true ∧ (s.entry e).current.port = n ∧ (s.entry e).current.channel = c := by
  have := List.find?_some h
  simpa [and_assoc] using this

theorem countUnknown_keeps (n : PortId) (s : State) : Keeps s (countUnknown n s) := Keeps.same rfl rfl rfl rfl

theorem headAgain_keeps (n : PortId) (c : Channel) (f : Half) (a : Attributes) (s : State)
    (hl : ∀ e, lookup s n c = some e → (s.entry e).assembly = .idle) : Keeps s (headAgain n c f a s) := by
  unfold headAgain
  split
  · next e he => exact headTaken_keeps e n f a s (hl e he)
  · exact countUnknown_keeps n s

theorem headAt_keeps (e : EntryId) (n : PortId) (c : Channel) (f : Half) (a : Attributes) (s : State)
    (hb : soleBinding s n c e) : Keeps s (headAt e n c f a s) := by
  have again : Keeps s (headAgain n c f a (returnToIdle e .unterminated s)) := by
    refine (returnToIdle_keeps e _ s).trans (headAgain_keeps n c f a _ fun e' he' => ?_)
    obtain ⟨h1, h2, _⟩ := returnToIdle_entry e .unterminated s
    by_cases h : e' = e
    · rw [h]; exact h2
    · have := lookup_some he'
      rw [h1 e' h] at this; exact absurd this (hb e' h)
  unfold headAt
  split
  · next h => exact headTaken_keeps e n f a s h
  · exact again
  · exact again

/-! ## BODY and TAIL -/

theorem countPort_keeps (n : PortId) (f : PortCounters → PortCounters) (s : State) : Keeps s (countPort n f s) :=
  Keeps.same rfl rfl rfl rfl

theorem writePayload_sound {s : State} (r : RecordId) (ps : List PageId) (p : List Byte)
    (h : Sound (mapRecord r (fun x => { x with pages := ps, bytes := x.bytes + p.length }) s)) :
    Sound (writePayload r ps p s) :=
  h.settle (h.core.mapStore _ rfl rfl rfl rfl) (mapStore_settles _ _ rfl)

theorem appendPayload_sound {s : State} (h : Sound s) (e : EntryId) (r : RecordId) (p : List Byte)
    (hr : (s.record r).receiving = true) : Sound (appendPayload e r p s) := by
  have hf : (s.record r).state = .filling := (h.core.filling r).1 hr
  have trunc : ∀ {t : State}, Sound t → (t.record r).state = .filling → Sound (markTruncated r t) := fun ht hft =>
    ht.touch r _ (ne_free_of_filling hft) (by intro x; rfl)
  have k := h.core.requestPage
  have g := requestPage_settles s
  unfold appendPayload
  split
  · exact h
  · split
    · exact writePayload_sound r _ p (h.touch r (fun x => { x with bytes := x.bytes + p.length })
        (ne_free_of_filling hf) fun _ => rfl)
    · split
      · exact trunc h hf
      · split
        · next t q ht =>
          rw [ht] at g
          have hrt : (t.record r).receiving = true := by rw [g.receiving]; exact hr
          have kt := k.1 t q ht
          have hft : (t.record r).state = .filling := (kt.filling r).1 hrt
          have ct := g.claimLaw h.claims
          refine writePayload_sound r _ p ⟨kt.addPage _ _ rfl rfl (ne_free_of_filling hft), ?_⟩
          have key : ∀ x, (mapRecord r (fun x => { x with
              pages := (t.record r).pages ++ [q], bytes := x.bytes + p.length }) t).record x = { t.record x with
              pages := ((mapRecord r (fun x => { x with
                pages := (t.record r).pages ++ [q], bytes := x.bytes + p.length }) t).record x).pages,
              bytes := ((mapRecord r (fun x => { x with
                pages := (t.record r).pages ++ [q], bytes := x.bytes + p.length }) t).record x).bytes } := fun x => by
            by_cases hx : x = r
            · subst hx; rw [mapRecord_record_self]
            · rw [mapRecord_record_ne _ _ _ _ hx]
          refine ⟨fun f x => ?_, fun f x => ?_, ct.forwardOnce, fun x => ?_⟩
          all_goals rw [key x]
          · exact ct.assembly f x
          · exact ct.forward f x
          · exact ct.pin x
        · next t ht =>
          rw [ht] at g
          have hrt : (t.record r).receiving = true := by rw [g.receiving]; exact hr
          have kt := k.2 t ht
          exact (trunc ⟨kt, g.claimLaw h.claims⟩ ((kt.filling r).1 hrt)).offerNotice _

theorem acceptBody_keeps (e : EntryId) (r : RecordId) (i : Nat) (p : List Byte) (s : State)
    (ha : (s.entry e).assembly = .filling r) : Keeps s (acceptBody e r i p s) := by
  refine Keeps.ofMoves' (fun h => ?_) (acceptBody_moves Touch.storeOnly_hasStore e r i p s)
  have hr := ((h.claims.assembly e r).1 ha).1
  have h1 : Sound (mapRecord r (fun x => { x with
      bodies := x.bodies + 1,
      damage := { x.damage with segmentLost := x.damage.segmentLost || decide ((s.entry e).nextIndex < i) } }) s) :=
    h.touch r _ (ne_free_of_filling (h.filling ha)) (by intro x; rfl)
  exact startStall_sound ((appendPayload_sound h1 e r p (by rw [mapRecord_record_self]; exact hr)).mapEntry e
    (fun x => { x with nextIndex := i + 1 }) fun x => ⟨rfl, rfl, rfl, rfl⟩) e

theorem startStall_keeps (e : EntryId) (s : State) : Keeps s (startStall e s) :=
  Keeps.ofSound (fun h => startStall_sound h e) rfl rfl

theorem bodyAt_keeps (e : EntryId) (n : PortId) (i : Half) (p : List Byte) (s : State) : Keeps s (bodyAt e n i p s) := by
  unfold bodyAt
  split
  · exact countPort_keeps n _ s
  · next r ha => exact Keeps.ite (countPort_keeps n _ s) (acceptBody_keeps e r i.toNat p s ha)
  · exact (countPort_keeps n _ s).trans (startStall_keeps e _)

theorem tailAt_keeps (e : EntryId) (n : PortId) (k : Half) (b : Word) (st : Byte) (s : State) :
    Keeps s (tailAt e n k b st s) := by
  unfold tailAt
  split
  · exact countPort_keeps n _ s
  · next r ha =>
    have h1 : Keeps s (checkTail e r k b st s) := by
      refine Keeps.ofSound (fun h => ?_) rfl rfl
      unfold checkTail
      exact h.touch r _ (ne_free_of_filling (h.filling ha)) fun _ => rfl
    exact h1.trans (returnToIdle_keeps e .tail _)
  · exact returnToIdle_keeps e _ s

theorem atDeadline_keeps (d : Time) (s : State) : Keeps s (atDeadline d s) :=
  Keeps.ite (Keeps.refl s) (Keeps.same rfl rfl rfl rfl)

theorem stallExpiry_keeps (e : EntryId) (s : State) : Keeps s (stallExpiry e s) := by
  unfold stallExpiry
  split
  · exact (atDeadline_keeps _ s).trans (returnToIdle_keeps e _ _)
  · exact Keeps.refl s

/-! ## The host's operations on the store -/

theorem ringMember_mem {s : State} {e : EntryId} {n : Half} {r : RecordId} (h : ringMember s e n = some r) :
    r ∈ (s.entry e).ring := List.mem_of_find?_eq_some h

theorem opHold_keeps (entry : Byte) (n : Half) (s : State) : Keeps s (opHold entry n s).1 := by
  unfold opHold accept refuse
  split
  · exact Keeps.refl s
  · next e _ =>
    split
    · exact Keeps.refl s
    · next r hr =>
      refine Keeps.ofSound (fun h => ?_) ?_ ?_
      · have m := (h.core.member e r).1 (ringMember_mem hr)
        exact h.settle (h.core.guardMember r _ rfl m.1 (.inl rfl))
          ((Settles.record s r _ (by intro x; rfl)).trans' (placeOnReclaim_settles r _))
      · exact (placeOnReclaim_moves (F := Touch.storeOnly) rfl r _).replay rfl
      · exact congrArg (·.tx) ((placeOnReclaim_moves (F := Touch.storeOnly) rfl r _).uplink rfl)

theorem opRelease_keeps (entry : Byte) (n : Half) (s : State) : Keeps s (opRelease entry n s).1 := by
  unfold opRelease accept refuse
  split
  · exact Keeps.refl s
  · next e _ =>
    split
    · exact Keeps.refl s
    · next r hr =>
      refine Keeps.ofMoves' (fun h => ?_) (releaseRecord_moves Touch.storeOnly_hasStore e r s)
      obtain ⟨m, he⟩ := (h.core.member e r).1 (ringMember_mem hr)
      have hc := h.core.closed r (.inl m)
      have k := h.core.unguardMember r (fun x => { x with held := false }) rfl (by rw [hc]; decide) (.inl rfl)
        (Set.notMem_empty r)
      rw [he] at k
      exact h.settle (Core.mono (k.reexamine r) subset_rfl (Core.diff_insert_subset r ∅) (Core.diff_insert_subset r ∅)
        Set.sdiff_subset) (((Settles.record s r _ (by intro x; rfl)).trans' (enforceDepth_settles e _)).trans'
          (reexamine_settles r _))

theorem leaveRingAll_keeps (e : EntryId) (rs : List RecordId) (s : State) (hr : ∀ r ∈ rs, r ∈ (s.entry e).ring) :
    Keeps s (leaveRingAll e rs s) :=
  Keeps.ofMoves' (fun h => leaveRingAll_sound h e rs hr) (leaveRingAll_moves Touch.storeOnly_hasStore e rs s)

theorem opDrop_keeps (entry count : Byte) (s : State) : Keeps s (opDrop entry count s).1 := by
  unfold opDrop accept refuse
  split
  · exact leaveRingAll_keeps _ _ s fun r hr => List.mem_of_mem_take hr
  · exact Keeps.refl s

theorem opStoreClear_keeps (s : State) : Keeps s (opStoreClear s).1 := by
  have h : Keeps s (clearRings s) := Keeps.forEach _ _ s fun e t => leaveRingAll_keeps e _ t fun _ h => h
  unfold opStoreClear accept
  dsimp only
  exact h

end Sys2Proof.Machine
end

