-- ==== Sys2Proof/Laws/Replay.lean ====
section
/-!
SUPPORT. The laws of the frame store and of the replay queue through the replay service (Machine/Replay.lean).
-/

namespace Sys2Proof.Machine

open Sys2Proof

/-- What the request law says of the queue alone. -/
structure ReplayService.Ordered (v : ReplayService) : Prop where
  ids : (v.queue.map (·.id)).Nodup
  counts : ∀ q ∈ v.queue, 1 ≤ q.count ∧ q.count ≤ 16 ∧ q.outcomes.length ≤ q.count
  waiting : ∀ q ∈ v.queue, q.active = false → q.outcomes = []
  behind : ∀ q ∈ v.queue.tail, q.active = false

theorem ReplayService.requestLaw.ordered {v : ReplayService} (h : v.requestLaw) : v.Ordered :=
  ⟨h.ids, h.counts, h.waiting, h.behind⟩

/-- No replay segment is in transmission. -/
def State.quiet (s : State) : Prop := ∀ x, s.uplink.tx = some x → x.source ≠ .replay ∧ x.source ≠ .abortedTail

theorem State.quiet.sending {s : State} (h : s.quiet) : s.sendingLaw := fun x hx a =>
  (a.elim (h x hx).1 (h x hx).2).elim

theorem State.storeLaw.quiet {s : State} (h : s.storeLaw) (hi : s.replay.engine = .idle ∨ s.replay.cursor = none) :
    s.quiet := fun x hx => by
  have := h.sending x hx
  exact ⟨fun a => hi.elim (this (.inl a)).1 (this (.inl a)).2, fun a => hi.elim (this (.inr a)).1 (this (.inr a)).2⟩

/-- The engine is at work on the head request `q`, between two of its frames or at the end of one. -/
structure AtWork (q : ReplayRequest) (qs : List ReplayRequest) (s : State) : Prop where
  sound : Sound s
  ordered : s.replay.Ordered
  queue : s.replay.queue = q :: qs
  active : q.active = true
  quiet : s.quiet

theorem State.storeLaw.atWork {s : State} (h : s.storeLaw) (he : s.replay.engine ≠ .idle) (hq : s.quiet) :
    ∃ q qs, AtWork q qs s ∧ q.outcomes.length < q.count ∧ s.replay.pinned ≠ none := by
  obtain ⟨hp, q, hm, ha, hl⟩ := h.requests.busy he
  cases hv : s.replay.queue with
  | nil => rw [hv] at hm; cases hm
  | cons p ps =>
    rw [hv] at hm
    have : p = q := by simpa using hm
    subst this
    exact ⟨p, ps, ⟨h.sound, h.requests.ordered, hv, ha, hq⟩, hl, hp⟩

/-- An update of the replay service that leaves the pinned record. -/
theorem Sound.mapReplay {s : State} (h : Sound s) (f : ReplayService → ReplayService)
    (hf : (f s.replay).pinned = s.replay.pinned) : Sound (Machine.mapReplay f s) :=
  ⟨h.core.same rfl rfl, h.claims.assembly, h.claims.forward, h.claims.forwardOnce, fun r => by
    show (f s.replay).pinned = some r ↔ _; rw [hf]; exact h.claims.pin r⟩

/-- An update of the head request. -/
theorem AtWork.mapHead {q : ReplayRequest} {qs : List ReplayRequest} {s : State} (h : AtWork q qs s)
    (f : ReplayRequest → ReplayRequest) (hi : (f q).id = q.id) (ha : (f q).active = true) (hc : (f q).count = q.count)
    (ho : (f q).outcomes.length ≤ q.count) : AtWork (f q) qs (mapHead f s) := by
  have hv : (Machine.mapHead f s).replay.queue = f q :: qs := by
    show (match s.replay.queue with | q :: qs => f q :: qs | [] => []) = _
    rw [h.queue]
  have o := h.ordered
  refine ⟨h.sound.mapReplay _ rfl, ⟨?_, fun p hp => ?_, fun p hp => ?_, fun p hp => ?_⟩, hv, ha, h.quiet⟩
  · have := o.ids; rw [h.queue] at this; rw [hv]; simpa [hi] using this
  · rw [hv] at hp
    rcases List.mem_cons.1 hp with rfl | hp
    · have := o.counts q (by rw [h.queue]; exact List.mem_cons_self)
      rw [hc]; exact ⟨this.1, this.2.1, ho⟩
    · exact o.counts p (by rw [h.queue]; exact List.mem_cons_of_mem q hp)
  · rw [hv] at hp
    rcases List.mem_cons.1 hp with rfl | hp
    · intro a; rw [ha] at a; cases a
    · exact o.waiting p (by rw [h.queue]; exact List.mem_cons_of_mem q hp)
  · rw [hv] at hp; exact o.behind p (by rw [h.queue]; exact hp)

theorem AtWork.settle {q : ReplayRequest} {qs : List ReplayRequest} {s : State} (h : AtWork q qs s) (o : FrameOutcome)
    (hl : q.outcomes.length < q.count) : AtWork (q.settle o) qs (Machine.mapHead (.settle o) s) :=
  h.mapHead _ rfl h.active rfl (by simp [ReplayRequest.settle]; omega)

/-- The pin granted for a frame of the head request (R119). -/
theorem AtWork.startSending {q : ReplayRequest} {qs : List ReplayRequest} {s : State} (h : AtWork q qs s)
    (hp : s.replay.pinned = none) (hl : q.outcomes.length < q.count) {e : EntryId} {r : RecordId} (hr : r ∈ (s.entry e).ring) :
    (Machine.startSending r s).storeLaw ∧ (Machine.startSending r s).replay.pinned = some r := by
  have c := h.sound.core
  have m := (c.member e r).1 hr
  have k := c.guardMember r (fun x => { x with pin := true }) rfl m.1 (.inr rfl)
  have nopin : ∀ x, (s.record x).pin = false := fun x => by
    by_contra a
    have := (h.sound.claims.pin x).2 (by simpa using a); rw [hp] at this; cases this
  have g := placeOnReclaim_settles r (mapRecord r (fun x => { x with pin := true }) s)
  have self := mapRecord_record_self r (fun x => { x with pin := true }) s
  have ne := mapRecord_record_ne r (fun x => { x with pin := true }) s
  have same : ∀ x, ((mapRecord r (fun x => { x with pin := true }) s).record x).receiving = (s.record x).receiving
      ∧ ((mapRecord r (fun x => { x with pin := true }) s).record x).forward = (s.record x).forward
      ∧ ((mapRecord r (fun x => { x with pin := true }) s).record x).entry = (s.record x).entry := fun x => by
    by_cases hx : x = r
    · rw [hx, self]; exact ⟨rfl, rfl, rfl⟩
    · rw [ne x hx]; exact ⟨rfl, rfl, rfl⟩
  have cl : (Machine.startSending r s).claimLaw := by
    have mid : ∀ x, (mapRecord r (fun x => { x with pin := true }) s).record x = (takePin r s).record x := fun x => by
      unfold takePin placeOnReclaim
      split
      · split <;> rfl
      · rfl
    refine ⟨fun f x => ?_, fun f x => ?_, fun f => ?_, fun x => ?_⟩
    · have := h.sound.claims.assembly f x
      rw [show ((Machine.startSending r s).entry f).assembly = (s.entry f).assembly from g.assembly f,
        show (Machine.startSending r s).record x = (takePin r s).record x from rfl, ← mid x, (same x).1, (same x).2.2]
      exact this
    · have := h.sound.claims.forward f x
      rw [show ((Machine.startSending r s).entry f).forwardQueue = (s.entry f).forwardQueue from g.queue f,
        show (Machine.startSending r s).record x = (takePin r s).record x from rfl, ← mid x, (same x).2.1, (same x).2.2]
      exact this
    · rw [show ((Machine.startSending r s).entry f).forwardQueue = (s.entry f).forwardQueue from g.queue f]
      exact h.sound.claims.forwardOnce f
    · rw [show (Machine.startSending r s).record x = (takePin r s).record x from rfl, ← mid x]
      show some r = some x ↔ _
      by_cases hx : x = r
      · rw [hx, self]; exact iff_of_true rfl rfl
      · rw [ne x hx, nopin x]; exact iff_of_false (fun a => hx (Option.some.inj a).symm) Bool.noConfusion
  have rq : (Machine.startSending r s).replay.queue = s.replay.queue := congrArg (·.queue) g.replay
  have tx : (Machine.startSending r s).uplink = s.uplink := (takePin_moves (F := Touch.storeOnly) rfl r s).uplink rfl
  refine ⟨Sound.storeLaw ⟨k.same rfl rfl, cl⟩ ?_ ?_, rfl⟩
  · have o := h.ordered
    refine ⟨by rw [rq]; exact o.ids, by rw [rq]; exact o.counts, by rw [rq]; exact o.waiting, by rw [rq]; exact o.behind,
      (fun a => by cases a), fun _ => ⟨by simp [Machine.startSending], q, ?_, h.active, hl⟩⟩
    rw [rq, h.queue]; rfl
  · refine State.quiet.sending fun x hx => h.quiet x ?_
    rw [← tx]; exact hx

/-- The engine's advance: a pin is granted, or it ends between two frames (R119). -/
theorem AtWork.advance (k : Nat) {q : ReplayRequest} {qs : List ReplayRequest} {s : State} (h : AtWork q qs s)
    (hp : s.replay.pinned = none) :
    (advance k s).storeLaw ∧ (advance k s).replay.pinned.isSome
      ∨ (∃ p, AtWork p qs (advance k s)) ∧ (advance k s).replay.pinned = none := by
  induction k generalizing q s with
  | zero => exact .inr ⟨⟨q, h⟩, hp⟩
  | succ k ih =>
    unfold Machine.advance
    rw [h.queue]
    dsimp only
    split
    · exact .inr ⟨⟨q, h⟩, hp⟩
    · next hl =>
      have hl : q.outcomes.length < q.count := by omega
      split
      · exact ih (h.settle .streamGone hl) hp
      · split
        · exact ih (h.settle .missing hl) hp
        · next r hr =>
          obtain ⟨a, b⟩ := h.startSending hp hl (ringMember_mem hr)
          exact .inl ⟨a, by rw [b]; rfl⟩

/-- The head request ends (R122). -/
theorem AtWork.endHead {q : ReplayRequest} {qs : List ReplayRequest} {s : State} (h : AtWork q qs s)
    (hp : s.replay.pinned = none) : (endHead s).storeLaw ∧ (endHead s).replay.engine = .idle := by
  have o := h.ordered
  unfold Machine.endHead
  rw [h.queue]
  dsimp only
  have hs := h.sound.offerNotice q.done
  have hv : (Machine.offerNotice q.done s).replay = s.replay := (offerNotice_settles q.done s).replay
  have ht : (Machine.offerNotice q.done s).uplink = s.uplink :=
    (offerNotice_moves (F := { notices := true }) rfl _ rfl s).uplink rfl
  refine ⟨Sound.storeLaw (hs.mapReplay _ (by rw [hv, hp])) ⟨?_, fun p m => ?_, fun p m => ?_, fun p m => ?_,
    fun _ => ⟨rfl, rfl, fun p m => ?_⟩, fun a => absurd rfl a⟩ ?_, rfl⟩
  · have := o.ids; rw [h.queue] at this; exact (List.nodup_cons.1 this).2
  · exact o.counts p (by rw [h.queue]; exact List.mem_cons_of_mem q m)
  · exact o.waiting p (by rw [h.queue]; exact List.mem_cons_of_mem q m)
  · exact o.behind p (by rw [h.queue]; exact List.mem_of_mem_tail m)
  · exact o.behind p (by rw [h.queue]; exact m)
  · refine State.quiet.sending fun x hx => h.quiet x ?_
    rw [← ht]; exact hx

/-- The take of the head request (R118). -/
theorem takeHead_cases {s : State} (h : s.storeLaw) (hd : replayDue s = true) :
    (takeHead s).storeLaw ∧ (takeHead s).replay.pinned.isSome
      ∨ (∃ p qs, AtWork p qs (takeHead s)) ∧ (takeHead s).replay.pinned = none := by
  simp only [replayDue, Bool.and_eq_true, beq_iff_eq] at hd
  have hi := hd.1.1
  have idle := h.requests.idle hi
  unfold takeHead
  cases hv : s.replay.queue with
  | nil => rw [hv] at hd; simp at hd
  | cons q qs =>
    dsimp only
    have o := h.requests
    have w : AtWork { q with active := true } qs (mapHead (fun x => { x with active := true }) s) := by
      have hq : (mapHead (fun x => { x with active := true }) s).replay.queue = { q with active := true } :: qs := by
        show (match s.replay.queue with | q :: qs => { q with active := true } :: qs | [] => []) = _
        rw [hv]
      refine ⟨h.sound.mapReplay _ rfl, ⟨?_, fun p hp => ?_, fun p hp => ?_, fun p hp => ?_⟩, hq, rfl, h.quiet (.inl hi)⟩
      · have := o.ids; rw [hv] at this; rw [hq]; simpa using this
      · rw [hq] at hp
        rcases List.mem_cons.1 hp with rfl | hp
        · exact o.counts q (by rw [hv]; exact List.mem_cons_self)
        · exact o.counts p (by rw [hv]; exact List.mem_cons_of_mem q hp)
      · rw [hq] at hp
        rcases List.mem_cons.1 hp with rfl | hp
        · intro a; cases a
        · exact o.waiting p (by rw [hv]; exact List.mem_cons_of_mem q hp)
      · rw [hq] at hp; exact o.behind p (by rw [hv]; exact hp)
    rcases w.advance q.count idle.1 with a | ⟨⟨p, a⟩, b⟩
    · exact .inl a
    · exact .inr ⟨⟨p, qs, a⟩, b⟩

theorem takeRequests_keeps (k : Nat) (s : State) : Keeps s (takeRequests k s) := by
  induction k generalizing s with
  | zero => exact Keeps.refl s
  | succ k ih =>
    unfold takeRequests
    split
    · next hd =>
      intro h
      dsimp only
      rcases takeHead_cases h hd with ⟨a, b⟩ | ⟨⟨p, qs, a⟩, b⟩
      · rw [if_pos b]; exact a
      · rw [if_neg (by rw [b]; simp)]; exact ih _ (a.endHead b).1
    · exact Keeps.refl s

theorem replayTakes_keeps (s : State) : Keeps s (replayTakes s) := takeRequests_keeps _ s

/-- A record gives up the pin; the ring of its entry is enforced (R89). -/
theorem unpin_settles (r : RecordId) (s : State) :
    Settles ∅ (mapRecord r (fun x => { x with pin := false }) s) (unpin r s) :=
  (enforceDepth_settles _ _).trans' (reexamine_settles r _)

theorem unpinClaims {s t : State} {r : RecordId} (c : s.claimLaw) (hp : s.replay.pinned = some r)
    (g : Settles ∅ (mapRecord r (fun x => { x with pin := false })
      (mapReplay (fun v => { v with pinned := none, cursor := none }) s)) t) : t.claimLaw := by
  refine g.claimLaw ?_
  have self : (mapRecord r (fun x => { x with pin := false })
      (mapReplay (fun v => { v with pinned := none, cursor := none }) s)).record r = { s.record r with pin := false } :=
    mapRecord_record_self _ _ _
  have ne : ∀ q, q ≠ r → (mapRecord r (fun x => { x with pin := false })
      (mapReplay (fun v => { v with pinned := none, cursor := none }) s)).record q = s.record q := fun q hq =>
    mapRecord_record_ne _ _ _ _ hq
  refine ⟨fun f q => ?_, fun f q => ?_, c.forwardOnce, fun q => ?_⟩
  · by_cases hq : q = r
    · rw [hq, self]; exact c.assembly f r
    · rw [ne q hq]; exact c.assembly f q
  · by_cases hq : q = r
    · rw [hq, self]; exact c.forward f r
    · rw [ne q hq]; exact c.forward f q
  · show none = some q ↔ _
    by_cases hq : q = r
    · rw [hq, self]; exact iff_of_false (by simp) (by simp)
    · rw [ne q hq]
      refine iff_of_false (by simp) fun a => ?_
      have := (c.pin q).2 a
      rw [hp] at this; exact hq (Option.some.inj this).symm

/-- The pinned record is given up (R121). -/
theorem AtWork.releasePin {q : ReplayRequest} {qs : List ReplayRequest} {s : State} (h : AtWork q qs s) :
    AtWork q qs (releasePin s) ∧ (releasePin s).replay.pinned = none := by
  have m := releasePin_moves (F := { entries := true, store := true, notices := true, replay := true })
    ⟨⟨rfl, rfl, rfl⟩, rfl⟩ s
  unfold Machine.releasePin at m ⊢
  split
  · next r hr =>
    rw [hr] at m
    dsimp only at m
    set u := mapReplay (fun v => { v with pinned := none, cursor := none }) s with hu
    have pin : (s.record r).pin = true := (h.sound.claims.pin r).1 hr
    have hc := h.sound.core.closed r (.inr pin)
    have cu : Core ∅ ∅ ∅ ∅ u := h.sound.core.same rfl rfl
    have k := cu.unguardMember r (fun x => { x with pin := false }) rfl
      (show (s.record r).state ≠ .free by rw [hc]; decide) (.inr rfl) (Set.notMem_empty r)
    have k2 : Core ∅ ∅ ∅ ∅ (unpin r u) := Core.mono (k.reexamine r) subset_rfl (Core.diff_insert_subset r ∅)
      (Core.diff_insert_subset r ∅) Set.sdiff_subset
    have rp : (unpin r u).replay = u.replay := (unpin_moves Touch.storeOnly_hasStore r u).replay rfl
    have up : (unpin r u).uplink = s.uplink := m.uplink rfl
    refine ⟨⟨⟨k2, unpinClaims h.sound.claims hr (unpin_settles r u)⟩, ?_, ?_, h.active, fun x hx => h.quiet x ?_⟩, ?_⟩
    · rw [rp]; exact ⟨h.ordered.ids, h.ordered.counts, h.ordered.waiting, h.ordered.behind⟩
    · rw [rp]; exact h.queue
    · rw [← up]; exact hx
    · rw [rp]; rfl
  · next hn => exact ⟨h, hn⟩

theorem AtWork.continueHead {q : ReplayRequest} {qs : List ReplayRequest} {s : State} (h : AtWork q qs s)
    (hp : s.replay.pinned = none) : (continueHead s).storeLaw := by
  unfold Machine.continueHead
  rw [h.queue]
  dsimp only
  rcases h.advance q.count hp with ⟨a, b⟩ | ⟨⟨p, a⟩, b⟩
  · rw [if_pos b]; exact a
  · rw [if_neg (by rw [b]; simp)]; exact replayTakes_keeps _ (a.endHead b).1

theorem fill_length (q : ReplayRequest) (a b : FrameOutcome) (h : q.outcomes.length < q.count) :
    ((q.settle a).fill b).outcomes.length = q.count := by
  simp [ReplayRequest.settle, ReplayRequest.fill]; omega

/-- The head request is finished (R124, R125). -/
theorem finishHead_law {s : State} (a b : FrameOutcome) (h : s.storeLaw) (he : s.replay.engine ≠ .idle) (hq : s.quiet) :
    (finishHead a b s).storeLaw := by
  obtain ⟨q, qs, w, hl, -⟩ := h.atWork he hq
  have w2 := (w.mapHead (fun q => (q.settle a).fill b) rfl w.active rfl (fill_length q a b hl).le).releasePin
  exact replayTakes_keeps _ (w2.1.endHead w2.2).1

/-- The replay TAIL has left (R121, R125). -/
theorem replayTailLeaves_law {s : State} (h : s.storeLaw) (he : s.replay.engine ≠ .idle) (hq : s.quiet) :
    (replayTailLeaves s).storeLaw := by
  unfold replayTailLeaves
  have go : (continueHead (releasePin (mapHead (.settle (pinnedOutcome s)) s))).storeLaw := by
    obtain ⟨q, qs, w, hl, -⟩ := h.atWork he hq
    have w2 := (w.settle (pinnedOutcome s) hl).releasePin
    exact w2.1.continueHead w2.2
  split
  · exact finishHead_law _ _ h he hq
  · exact go
  · exact go

/-! ## REPLAY and CANCEL_REPLAY -/

/-- Sixteen ids in turn are different. -/
theorem replayIds_nodup : ∀ i : Byte, ((List.range 16).map fun k => nextReplayId^[k] i).Nodup := by decide +kernel

/-- The id found is free, or every id tried is held. -/
theorem freeReplayId_free (k : Nat) (q : List ReplayRequest) (i : Byte) :
    (∀ x ∈ q, x.id ≠ freeReplayId k q i) ∨ ∀ j < k, ∃ x ∈ q, x.id = nextReplayId^[j] i := by
  induction k generalizing i with
  | zero => exact .inr fun j hj => absurd hj (by omega)
  | succ k ih =>
    unfold freeReplayId
    split
    · next ha =>
      obtain ⟨x, hx, hi⟩ := List.any_eq_true.1 ha
      refine (ih (nextReplayId i)).imp id fun a j hj => ?_
      cases j with
      | zero => exact ⟨x, hx, by simpa using hi⟩
      | succ j => exact a j (by omega)
    · next ha =>
      refine .inl fun x hx a => ha (List.any_eq_true.2 ⟨x, hx, by simpa using a⟩)

theorem givenReplayId_new (s : State) (hl : s.replay.queue.length < 16) : ∀ x ∈ s.replay.queue, x.id ≠ givenReplayId s := by
  rcases freeReplayId_free 16 s.replay.queue s.replay.nextId with h | h
  · exact h
  · exfalso
    have sub : (List.range 16).map (fun k => nextReplayId^[k] s.replay.nextId) ⊆ s.replay.queue.map (·.id) := by
      intro y hy
      obtain ⟨k, hk, rfl⟩ := List.mem_map.1 hy
      obtain ⟨x, hx, hi⟩ := h k (List.mem_range.1 hk)
      exact List.mem_map.2 ⟨x, hx, hi⟩
    have := ((replayIds_nodup s.replay.nextId).subperm sub).length_le
    simp at this; omega

theorem joinReplayQueue_keeps (e : EntryId) (first : Half) (n : Nat) (s : State) (hn : 1 ≤ n ∧ n ≤ 16)
    (hl : s.replay.queue.length < 16) : Keeps s (joinReplayQueue e first n s) := by
  intro h
  have v := h.requests
  have hq : (joinReplayQueue e first n s).replay.queue
      = s.replay.queue ++ [⟨givenReplayId s, e, first, n, false, [], false⟩] := rfl
  have mem : ∀ p, p ∈ (joinReplayQueue e first n s).replay.queue → p ∈ s.replay.queue
      ∨ p = ⟨givenReplayId s, e, first, n, false, [], false⟩ := fun p hp => by
    rw [hq] at hp; simpa using hp
  refine (h.sound.mapReplay _ rfl).storeLaw ⟨?_, fun p hp => ?_, fun p hp => ?_, fun p hp => ?_, fun a => ?_, fun a => ?_⟩
    h.sending
  · show ((joinReplayQueue e first n s).replay.queue.map (·.id)).Nodup
    rw [hq, List.map_append]
    refine List.nodup_append.2 ⟨v.ids, List.nodup_singleton _, ?_⟩
    intro a ha b hb c
    obtain ⟨x, hx, rfl⟩ := List.mem_map.1 ha
    rw [List.mem_singleton.1 hb] at c
    exact givenReplayId_new s hl x hx c
  · rcases mem p hp with a | a
    · exact v.counts p a
    · rw [a]; exact ⟨hn.1, hn.2, by simp⟩
  · rcases mem p hp with a | a
    · exact v.waiting p a
    · rw [a]; exact fun _ => rfl
  · replace hp : p ∈ (joinReplayQueue e first n s).replay.queue.tail := hp
    rw [hq] at hp
    cases hs : s.replay.queue with
    | nil => rw [hs] at hp; simp at hp
    | cons x xs =>
      rw [hs] at hp
      simp only [List.cons_append, List.tail_cons, List.mem_append, List.mem_singleton] at hp
      rcases hp with b | b
      · exact v.behind p (by rw [hs]; exact b)
      · rw [b]
  · refine ⟨(v.idle a).1, (v.idle a).2.1, fun p hp => ?_⟩
    rcases mem p hp with b | b
    · exact (v.idle a).2.2 p b
    · rw [b]
  · obtain ⟨b, q, hm, hr⟩ := v.busy a
    refine ⟨b, q, ?_, hr⟩
    show q ∈ (s.replay.queue ++ _).head?
    cases hs : s.replay.queue with
    | nil => rw [hs] at hm; cases hm
    | cons x xs => rw [hs] at hm; exact hm

theorem within_range {a b n k : Nat} (h : within a b n = some k) : a ≤ k ∧ k ≤ b := by
  unfold within at h
  split at h
  · next hr => cases h; exact hr
  · cases h

theorem opReplay_keeps (entry : Byte) (first : Half) (count : Byte) (s : State) : Keeps s (opReplay entry first count s).1 := by
  unfold opReplay accept refuse
  split
  · next e n _ hn =>
    refine Keeps.ite' (Keeps.refl s) ?_
    split
    · exact Keeps.refl s
    · next hl =>
      exact (joinReplayQueue_keeps e first n s (within_range hn) (Nat.lt_of_not_le hl)).trans (replayTakes_keeps _)
  · exact Keeps.refl s

/-- A WAITING request is withdrawn (R123). -/
theorem withdraw_keeps (q : ReplayRequest) (s : State) (hq : q ∈ s.replay.queue) (ha : q.active = false) :
    Keeps s (withdraw q s) := by
  intro h
  have v := h.requests
  unfold withdraw
  have hs := h.sound.offerNotice (q.fill .cancelled).done
  have hv : (offerNotice (q.fill .cancelled).done s).replay = s.replay := (offerNotice_settles _ s).replay
  have ht : (offerNotice (q.fill .cancelled).done s).uplink = s.uplink :=
    (offerNotice_moves (F := { notices := true }) rfl _ rfl s).uplink rfl
  generalize offerNotice (q.fill .cancelled).done s = t at hs hv ht ⊢
  have sub : (t.replay.queue.erase q).Sublist s.replay.queue := by rw [hv]; exact List.erase_sublist
  refine (hs.mapReplay _ rfl).storeLaw ⟨?_, fun p hp => v.counts p (sub.subset hp), fun p hp => v.waiting p (sub.subset hp),
    fun p hp => ?_, fun a => ?_, fun a => ?_⟩ ?_
  · exact v.ids.sublist (sub.map _)
  · have hp : p ∈ (t.replay.queue.erase q).tail := hp
    rw [hv] at hp
    cases hc : s.replay.queue with
    | nil => rw [hc] at hq; cases hq
    | cons x xs =>
      rw [hc, List.erase_cons] at hp
      have hb : ∀ y ∈ xs, y.active = false := fun y hy => v.behind y (by rw [hc]; exact hy)
      split at hp
      · exact hb p (List.mem_of_mem_tail hp)
      · exact hb p (List.mem_of_mem_erase hp)
  · have a : s.replay.engine = .idle := by rw [← hv]; exact a
    refine ⟨by show t.replay.pinned = none; rw [hv]; exact (v.idle a).1, by show t.replay.cursor = none; rw [hv]; exact (v.idle a).2.1,
      fun p hp => (v.idle a).2.2 p (sub.subset hp)⟩
  · have a : s.replay.engine ≠ .idle := by rw [← hv]; exact a
    obtain ⟨b, x, hm, hr⟩ := v.busy a
    refine ⟨by show t.replay.pinned ≠ none; rw [hv]; exact b, x, ?_, hr⟩
    show x ∈ (t.replay.queue.erase q).head?
    rw [hv]
    cases hc : s.replay.queue with
    | nil => rw [hc] at hm; cases hm
    | cons y ys =>
      rw [hc] at hm
      have hy : y = x := by simpa using hm
      rw [List.erase_cons_tail (by simp [hy]; intro e; rw [e, ha] at hr; cases hr.1), hy]
      rfl
  · have := h.sending; unfold State.sendingLaw at this ⊢; rw [show (mapReplay _ t).uplink = s.uplink from ht]
    show ∀ x, _ → _ → t.replay.engine ≠ .idle ∧ t.replay.cursor ≠ none
    rw [hv]; exact this

theorem opCancelReplay_keeps (id : Byte) (s : State) : Keeps s (opCancelReplay id s).1 := by
  unfold opCancelReplay accept refuse
  split
  · exact Keeps.refl s
  · next q hq =>
    have hm := List.mem_of_find?_eq_some hq
    split
    · next ha =>
      intro h
      have he : s.replay.engine ≠ .idle := fun a => by
        have := (h.requests.idle a).2.2 q hm; rw [ha] at this; cases this
      dsimp only
      have go : ∀ c : Option Cursor, s.replay.cursor = c → (match c with
          | none => (finishHead .aborted .cancelled s, (1 : Byte))
          | some _ => (mapReplay (fun v => { v with engine := .closing }) s, 1)).1.storeLaw := by
        intro c hc
        cases c with
        | none => exact finishHead_law _ _ h he (h.quiet (.inr hc))
        | some c =>
          have v := h.requests
          exact (h.sound.mapReplay (fun v => { v with engine := .closing }) rfl).storeLaw
            ⟨v.ids, v.counts, v.waiting, v.behind, (fun a => by cases a), fun _ => v.busy he⟩
            fun x hx a => ⟨(fun b => by cases b), (h.sending x hx a).2⟩
      unfold cancelActive
      split
      · exact h
      · exact go _ rfl
      · exact go _ rfl
    · next ha => exact withdraw_keeps q s hm (by simpa using ha)

end Sys2Proof.Machine
end

