-- ==== Sys2Proof/Laws/Step.lean ====
section
/-!
SUPPORT. What any command can do to the state, said once.
-/

namespace Sys2Proof.Machine

open Sys2Proof

/-- Every command answers a next state that keeps every law, from a state at rest (`Moves`). -/
theorem exec_moves (c : Instr) (s : State) : ∃ t, exec c s = .next t ∧ (s.atRest → Moves Touch.all s t) := by
  cases c
  all_goals first
    | exact ⟨_, rfl, fun h => hostRequest_moves _ _ _ h⟩
    | exact ⟨_, rfl, fun h => resetAll_moves _ _ _ h⟩
    | exact ⟨_, rfl, fun h => startUpCompletes_moves Touch.all_hasDevice rfl rfl _⟩
    | exact ⟨_, rfl, fun h => downUnit_moves Touch.all_hasDevice.1 _ _ _⟩
    | exact ⟨_, rfl, fun h => upUnit_moves _ _ h⟩
    | exact ⟨_, rfl, fun h => rampEnds_moves Touch.all_hasDevice.1 _ _ _⟩
    | exact ⟨_, rfl, fun h => powerFails_moves Touch.all_hasDevice.1 _ _⟩
    | exact ⟨_, rfl, fun h => stallExpiry_moves Touch.all_hasDevice.1.1.1 rfl _ _⟩
    | exact ⟨_, rfl, fun h => grant_moves rfl rfl rfl _⟩
    | exact ⟨_, rfl, fun h => segmentCompletes_moves _ h⟩
    | exact ⟨_, rfl, fun h => transmitStart_moves rfl _ _⟩
    | exact ⟨_, rfl, fun h => rawLineChange_moves Touch.all_hasDevice.1.issue rfl _ _ _⟩
    | exact ⟨_, rfl, fun h => debounceExpiry_moves Touch.all_hasDevice.1.issue rfl _ _⟩
    | exact ⟨_, rfl, fun h => periodExpiry_moves Touch.all_hasDevice.1.issue rfl _ _⟩
    | exact ⟨_, rfl, fun h => windowExpiry_moves ⟨rfl, rfl⟩ rfl _ _ _⟩
    | exact ⟨_, rfl, fun h => agentTakes_moves _ h⟩
    | exact ⟨_, rfl, fun h => replayTakes_moves Touch.all_hasDevice.1.1.1.1 _⟩
    | exact ⟨_, rfl, fun h => saveCompletes_moves Touch.all_hasDevice _ _⟩
    | exact ⟨_, rfl, fun h => revertCompletes_moves Touch.all_hasDevice _ _⟩
    | exact ⟨_, rfl, fun h => selectCompletes_moves Touch.all_hasDevice _ _⟩
    | exact ⟨_, rfl, fun h => loadCompletes_moves Touch.all_hasDevice rfl _⟩
    | skip
  · rename_i l
    cases l
    · exact ⟨_, rfl, fun h => portSilence_moves Touch.all_hasDevice.1 _ _⟩
    · exact ⟨_, rfl, fun h => uplinkSilence_moves _ h⟩
  · rename_i l
    cases l
    · exact ⟨_, rfl, fun h => portHold_moves Touch.all_hasDevice.1 _ _⟩
    · exact ⟨_, rfl, fun h => uplinkHold_moves rfl rfl _⟩

end Sys2Proof.Machine
end

