-- ==== Sys2Proof/Laws/Part.lean ====
section
/-!
SUPPORT. The laws of the frame store and of the replay queue through every command.
-/

namespace Sys2Proof.Machine

open Sys2Proof

/-- The parts that the laws do not read. -/
def Touch.aside : Touch :=
  { time := true, starting := true, tin := true, pg := true, ports := true, gens := true, agent := true, notices := true,
    flash := true }

theorem Keeps.aside {s t : State} (h : Moves Touch.aside s t) : Keeps s t := Keeps.ofMoves h ⟨rfl, rfl, rfl, rfl⟩

theorem aside_hasReplies : Touch.aside.hasReplies := ⟨rfl, rfl⟩
theorem aside_hasIssue : Touch.aside.hasIssue := ⟨⟨rfl, rfl⟩, rfl, rfl⟩

/-! ## Ports -/

theorem enterPort_keeps (n : PortId) (st : PortState) (c : PortReason) (s : State) : Keeps s (enterPort n st c s) :=
  Keeps.aside (enterPort_moves rfl rfl n st c s)

theorem movePort_keeps (n : PortId) (st : PortState) (c : PortReason) (s : State) : Keeps s (movePort n st c s) :=
  Keeps.aside (movePort_moves rfl rfl n st c s)

theorem setFault_keeps (n : PortId) (b : Bool) (s : State) : Keeps s (setFault n b s) := Keeps.aside (setFault_moves rfl n b s)

theorem leaveActive_keeps (n : PortId) (s : State) : Keeps s (leaveActive n s) := by
  have h : Keeps s (portResetEffects n s) :=
    ((Keeps.forEach (entriesOn s n) (fun e => returnToIdle e .portLost) s fun e t => returnToIdle_keeps e .portLost t).trans
      (Keeps.aside (abandonTriggers_moves rfl n _))).trans (Keeps.aside (flushOutput_moves aside_hasReplies n _))
  exact Keeps.ite h (Keeps.refl s)

theorem exitPort_keeps (n : PortId) (st : PortState) (c : PortReason) (s : State) : Keeps s (exitPort n st c s) :=
  (leaveActive_keeps n s).trans (enterPort_keeps n st c _)

theorem portSilence_keeps (n : PortId) (s : State) : Keeps s (portSilence n s) := by
  unfold portSilence
  split
  · exact (atDeadline_keeps _ s).trans (exitPort_keeps n _ _ _)
  · exact Keeps.refl s

theorem portHold_keeps (n : PortId) (s : State) : Keeps s (portHold n s) := by
  unfold portHold
  split
  · exact (atDeadline_keeps _ s).trans (enterPort_keeps n _ _ _)
  · exact Keeps.refl s

theorem setPowerGood_keeps (n : PortId) (b : Bool) (s : State) : Keeps s (setPowerGood n b s) :=
  Keeps.aside (setPowerGood_moves rfl n b s)

theorem rampEnds_keeps (n : PortId) (high : Bool) (s : State) : Keeps s (rampEnds n high s) := by
  unfold rampEnds
  split
  · next d _ _ =>
    have h := (atDeadline_keeps d s).trans (setPowerGood_keeps n high _)
    exact Keeps.ite (h.trans (enterPort_keeps n _ _ _)) ((h.trans (setFault_keeps n true _)).trans (enterPort_keeps n _ _ _))
  · exact Keeps.refl s

theorem powerFails_keeps (n : PortId) (s : State) : Keeps s (powerFails n s) := by
  have h := setPowerGood_keeps n false s
  exact Keeps.ite ((h.trans (exitPort_keeps n _ _ _)).trans (setFault_keeps n true _)) h

theorem mapPort_keeps (n : PortId) (f : Port → Port) (s : State) : Keeps s (mapPort n f s) := Keeps.same rfl rfl rfl rfl

theorem goodUnit_keeps (n : PortId) (s : State) : Keeps s (goodUnit n s) := Keeps.aside (goodUnit_moves rfl rfl n s)

theorem badUnit_keeps (n : PortId) (s : State) : Keeps s (badUnit n s) := by
  unfold badUnit
  exact Keeps.ite ((mapPort_keeps n _ s).trans (exitPort_keeps n _ _ _)) (mapPort_keeps n _ s)

theorem toEntry_keeps (n : PortId) (c : Channel) (u : State → State) (f : EntryId → State → State) (s : State)
    (hu : Keeps s (u s)) (h : ∀ e, lookup s n c = some e → Keeps s (f e s)) : Keeps s (toEntry n c u f s) := by
  unfold toEntry
  split
  · next e he => exact h e he
  · exact hu

theorem countUnbound_keeps (n : PortId) (c : Channel) (k : Half) (s : State) : Keeps s (countUnbound n c k s) :=
  have h := countPort_keeps n _ s
  Keeps.ite (h.trans (countPort_keeps n _ _)) h

/-- Under the law of bindings the entry that lookup finds alone binds the pair. -/
theorem soleBinding_of_law {s : State} {n : PortId} {c : Channel} {e : EntryId}
    (h : ∀ e f : EntryId, e ≠ f → ∀ i ∈ validImages (s.entry e), ∀ j ∈ validImages (s.entry f), collides i j = false)
    (he : lookup s n c = some e) : soleBinding s n c e := fun f hf hv => by
  have a := lookup_some he
  have mem : ∀ g, (s.entry g).current.valid = true → (s.entry g).current ∈ validImages (s.entry g) := fun g hg => by
    simp [validImages, hg]
  have := h f e hf _ (mem f hv.1) _ (mem e a.1)
  simp [collides, hv.2.1, hv.2.2, a.2.1, a.2.2] at this

theorem disposeDown_keeps (n : PortId) (g : DownSegment) (s : State)
    (h : ∀ c e, lookup s n c = some e → soleBinding s n c e) : Keeps s (disposeDown n g s) := by
  unfold disposeDown
  split
  · exact (mapPort_keeps n _ s).trans
      (toEntry_keeps n _ _ _ _ (countPort_keeps n _ _) fun e he => headAt_keeps e n _ _ _ _ (h _ e he))
  · exact toEntry_keeps n _ _ _ s (countUnbound_keeps n _ _ s) fun e _ => bodyAt_keeps e n _ _ s
  · exact toEntry_keeps n _ _ _ s (countUnbound_keeps n _ _ s) fun e _ => tailAt_keeps e n _ _ _ s
  · exact Keeps.aside (cameraReply_moves rfl n _ _ s)
  · exact Keeps.refl s

theorem downUnit_keeps (n : PortId) (unit : List Byte) (s : State)
    (h : ∀ c e, lookup s n c = some e → soleBinding s n c e) : Keeps s (downUnit n unit s) := by
  have h1 : Keeps s (countUnit n s) := mapPort_keeps n _ s
  have hg := h1.trans (goodUnit_keeps n _)
  have ent : (goodUnit n (countUnit n s)).entries = s.entries :=
    ((countUnit_moves (F := Touch.aside) rfl n s).trans (goodUnit_moves rfl rfl n _)).entries rfl
  have e1 : ∀ e, (goodUnit n (countUnit n s)).entry e = s.entry e := fun e => by simp [State.entry, ent]
  have h' : ∀ c e, lookup (goodUnit n (countUnit n s)) n c = some e → soleBinding (goodUnit n (countUnit n s)) n c e := by
    intro c e he
    have hl : lookup (goodUnit n (countUnit n s)) n c = lookup s n c := by unfold lookup; simp only [e1]
    have := h c e (hl ▸ he)
    intro f hf; rw [e1]; exact this f hf
  unfold downUnit
  split
  · split
    · exact h1.trans (badUnit_keeps n _)
    · exact hg.trans (countPort_keeps n _ _)
    · exact Keeps.ite (hg.trans (disposeDown_keeps n _ _ h')) hg
  · exact Keeps.refl s

theorem applyPortSettings_keeps (n : PortId) (a b : Bool) (s : State) : Keeps s (applyPortSettings n a b s) := by
  have h := mapPort_keeps n (fun p => { p with enabled := a, powered := b }) s
  unfold applyPortSettings
  refine Keeps.ite ((h.trans ((leaveActive_keeps n _).trans (movePort_keeps n _ _ _))).trans (setFault_keeps n _ _))
    (Keeps.ite ((h.trans (movePort_keeps n _ _ _)).trans (setFault_keeps n _ _)) (h.trans ?_))
  exact Keeps.ite (Keeps.refl _) ((leaveActive_keeps n _).trans (movePort_keeps n _ _ _))

theorem opSetPort_keeps (a b c : Byte) (s : State) : Keeps s (opSetPort a b c s).1 := by
  unfold opSetPort accept refuse
  refine Keeps.ite' (Keeps.refl s) ?_
  split
  · exact applyPortSettings_keeps _ _ _ s
  · exact Keeps.refl s

theorem opPortReset_keeps (a : Byte) (s : State) : Keeps s (opPortReset a s).1 := by
  unfold opPortReset accept refuse
  refine Keeps.ite' (Keeps.refl s) ?_
  split
  · next n _ =>
    have h := (leaveActive_keeps n s).trans (mapPort_keeps n Port.cleared _)
    exact Keeps.ite (h.trans (enterPort_keeps n _ _ _)) (h.trans (mapPort_keeps n _ _))
  · exact Keeps.refl s

/-! ## Profiles -/

theorem markLate_keeps (s t : State) : Keeps t (markLate s t) := Keeps.same rfl rfl rfl rfl

theorem endAllFrames_keeps (s : State) : Keeps s (endAllFrames s) :=
  ((Keeps.forEach allEntries (fun e => endAssembly e .streamChanged) s fun e t => endAssembly_keeps e _ t).trans
    (markLate_keeps s _)).trans (Keeps.forEach _ _ _ fun e t => Keeps.ofSound
      (fun h => h.mapEntry e _ (by intro x; exact ⟨rfl, rfl, rfl, rfl⟩)) rfl rfl)

theorem loadStreams_keeps (p : Profile) (s : State) : Keeps s (loadStreams p s) :=
  ((endAllFrames_keeps s).trans (Keeps.aside (stopAllGenerators_moves rfl _))).trans
    (Keeps.forEach _ _ _ fun e t => activate_keeps e _ t)

theorem loadSettings_keeps (p : Profile) (s : State) : Keeps s (loadSettings p s) :=
  (Keeps.aside (Moves.forEach allPorts (loadTrigger p) s fun n t => loadTrigger_moves rfl p n t)).trans
    (Keeps.same rfl rfl rfl rfl)

theorem applyProfile_keeps (p : Profile) (s : State) : Keeps s (applyProfile p s) :=
  ((loadStreams_keeps p s).trans (Keeps.forEach _ _ _ fun n t =>
    Keeps.ite (Keeps.refl t) (applyPortSettings_keeps n _ _ t))).trans (loadSettings_keeps p _)

theorem mapFlash_keeps (f : ProfileStore → ProfileStore) (s : State) : Keeps s (mapFlash f s) := Keeps.same rfl rfl rfl rfl

theorem mapAgent_keeps (f : Agent → Agent) (s : State) : Keeps s (mapAgent f s) := Keeps.same rfl rfl rfl rfl

theorem offerNotice_keeps (b : NoticeBody) (s : State) : Keeps s (offerNotice b s) := fun h =>
  Keeps.same (offerNotice_store b s) (offerNotice_entries b s) (offerNotice_settles b s).replay (by
    unfold offerNotice; split
    · split <;> rfl
    · rfl) h

theorem beginLong_keeps (op : LongOp) (k : SlotId) (c : FlashState) (b : Nat) (s : State) :
    Keeps s (beginLong op k c b s) :=
  (mapAgent_keeps (fun a => { a with longOp := some (op, k) }) s).trans
    (mapFlash_keeps (fun f => { f with controller := c, bound := some (s.after b) }) _)

theorem beginSave_keeps (k : SlotId) (s : State) : Keeps s (beginSave k s) :=
  (beginLong_keeps .save k .saving Config.saveBound s).trans
    (mapFlash_keeps (fun f => { f with staging := some (snapshot s), slots := f.slots.set k (.unfinished (snapshot s)) }) _)

theorem endLong_keeps (op : LongOp) (k : SlotId) (o : ProfileOutcome) (s : State) : Keeps s (endLong op k o s) :=
  ((offerNotice_keeps _ s).trans (mapAgent_keeps _ _)).trans (mapFlash_keeps _ _)

theorem loadCompletes_keeps (s : State) : Keeps s (loadCompletes s) := by
  unfold loadCompletes
  split
  · refine Keeps.trans ?_ (endLong_keeps _ _ _ _)
    split
    · exact applyProfile_keeps _ s
    · exact Keeps.refl s
  · exact Keeps.refl s
  · exact Keeps.refl s
  · exact Keeps.refl s

theorem saveCompletes_keeps (v : Bool) (s : State) : Keeps s (saveCompletes v s) := by
  unfold saveCompletes
  split
  · exact Keeps.ite (Keeps.refl s) ((mapFlash_keeps _ s).trans (endLong_keeps _ _ _ _))
  · exact Keeps.refl s
  · exact Keeps.refl s
  · exact Keeps.refl s

theorem revertCompletes_keeps (v : Bool) (s : State) : Keeps s (revertCompletes v s) := by
  unfold revertCompletes
  split
  · exact Keeps.ite ((mapFlash_keeps _ s).trans (endLong_keeps _ _ _ _)) (Keeps.refl s)
  · exact Keeps.refl s
  · exact Keeps.refl s
  · exact Keeps.refl s

theorem selectCompletes_keeps (v : Bool) (s : State) : Keeps s (selectCompletes v s) := by
  unfold selectCompletes
  split
  · exact (mapFlash_keeps _ s).trans (endLong_keeps _ _ _ _)
  · exact Keeps.refl s
  · exact Keeps.refl s
  · exact Keeps.refl s

theorem startUpCompletes_keeps (s : State) : Keeps s (startUpCompletes s) := by
  have h : ∀ p, Keeps s (startUpWith p s) := fun p => by
    have h1 := ((loadStreams_keeps p s).trans (loadSettings_keeps p _)).trans
      (Keeps.forEach allPorts (startPort p) _ fun n t => Keeps.aside (startPort_moves rfl rfl p n t))
    have h2 : ∀ t : State, Keeps t { t with starting := false } := fun t => Keeps.same rfl rfl rfl rfl
    exact ((h1.trans (h2 _)).trans (offerNotice_keeps (bootReport (forEach allPorts (startPort p)
      (loadSettings p (loadStreams p s))).flash) _)).trans
      (mapFlash_keeps (fun f => { f with controller := .idle, bound := none }) _)
  exact Keeps.ite (h _) (Keeps.refl s)

/-! ## Resets -/

theorem store_atReset {a : Store} {m : List Host.Cell} (h : a = { Store.atReset with mem := m }) :
    a.records = Vector.replicate 256 .blank ∧ a.freePages = List.finRange 4096 ∧ a.freeRecords = List.finRange 256
      ∧ a.reclaim = [] := by
  subst h
  dsimp only [Store.atReset]
  exact ⟨rfl, rfl, rfl, rfl⟩

/-- The store at reset holds no byte. -/
theorem atReset_mem : Store.atReset = { Store.atReset with mem := Store.atReset.mem } := by
  cases Store.atReset; rfl

/-- The store at its reset value, with any bytes, and the tables at theirs. -/
theorem storeLaw_atReset (s : State) (he : ∀ e, s.entry e = Entry.atReset e) (hs : s.store = { Store.atReset with mem := s.store.mem })
    (hv : s.replay = ReplayService.atReset) (hu : s.uplink = Uplink.atReset) : s.storeLaw := by
  have hr : ∀ r, s.record r = .blank := fun r => by
    unfold State.record; rw [(store_atReset hs).1]; exact Vector.getElem_replicate _
  obtain ⟨-, hp, hf, hc⟩ := store_atReset hs
  refine Sound.storeLaw ⟨?_, ?_⟩ ?_ ?_
  · exact {
      pages := by
        unfold State.pageLaw; simp only [hr]; rw [hp]
        have : (List.finRange 256).flatMap (fun _ => Record.blank.pages) = [] := List.flatMap_eq_nil_iff.2 fun _ _ => rfl
        rw [this, List.append_nil]
      freeOnce := by rw [hf]; exact List.nodup_finRange 256
      free := fun r => by rw [hr, hf]; exact iff_of_true (List.mem_finRange r) rfl
      used := fun r _ _ => by rw [hr]; rfl
      blank := fun r _ => hr r
      filling := fun r => by rw [hr]; decide
      closed := fun r => by rw [hr]; decide
      oneOpen := fun q r a => by rw [hr] at a; cases a
      member := fun e r => by rw [hr, he]; exact iff_of_false (List.not_mem_nil) fun a => Bool.noConfusion a.1
      once := fun e => by rw [he]; exact List.nodup_nil
      frames := fun e q a => by rw [he] at a; cases a
      guarded := fun r a => by rw [hr] at a; cases a
      held := fun r a => by rw [hr] at a; cases a
      depth := fun e _ => by rw [he]; exact .inl (Nat.zero_le _)
      listedOnce := by rw [hc]; exact List.nodup_nil
      listed := fun r _ a => by rw [hc] at a; cases a
      joined := fun r _ a => by rw [hr] at a; cases a }
  · refine ⟨fun e r => ?_, fun e r => ?_, fun e => ?_, fun r => ?_⟩
    · rw [hr, he]; exact iff_of_false (by simp [Entry.atReset]) fun a => Bool.noConfusion a.1
    · rw [hr, he]; exact iff_of_false (by simp [Entry.atReset]) fun a => Bool.noConfusion a.1
    · rw [he]; exact List.nodup_nil
    · rw [hr, hv]; exact iff_of_false (by simp [ReplayService.atReset]) Bool.noConfusion
  · rw [hv]
    exact ⟨by simp [ReplayService.atReset], fun q a => (by cases a), fun q a => (by cases a), fun q a => (by cases a),
      fun _ => ⟨rfl, rfl, fun q a => (by cases a)⟩, fun a => absurd rfl a⟩
  · refine State.quiet.sending fun x hx => ?_
    rw [hu] at hx
    have : x = .filler := by simpa [Uplink.atReset, eq_comm] using hx
    rw [this]; exact ⟨by decide, by decide⟩

theorem resetAll_keeps (c : ResetCause) (k : Option SlotId) (s : State) : Keeps s (resetAll c k s) := fun _ =>
  storeLaw_atReset _ (fun e => resetAll_entry c k s e) rfl rfl rfl

theorem partReset_keeps (s : State) : Keeps s (partReset s) := by
  unfold partReset
  split
  · exact resetAll_keeps _ _ s
  · exact Keeps.refl s

/-! ## The agent -/

theorem mapUplink_keeps (f : Uplink → Uplink) (s : State) (h : (f s.uplink).tx = s.uplink.tx) : Keeps s (mapUplink f s) :=
  Keeps.same rfl rfl rfl h

theorem clearGroup_keeps (g : CounterGroup) (s : State) : Keeps s (clearGroup g s) := by
  unfold clearGroup
  split
  · exact Keeps.same rfl rfl rfl rfl
  · exact Keeps.ofSound (fun h => h.countEntry _ _) rfl rfl
  · exact Keeps.ofSound (fun h => h.settle (h.core.mapStore _ rfl rfl rfl rfl) (mapStore_settles _ _ rfl)) rfl rfl
  · exact mapUplink_keeps _ s rfl
  · exact Keeps.same rfl rfl rfl rfl
  · exact Keeps.same rfl rfl rfl rfl

theorem opSetUplink_keeps (b : Option UplinkBlock) (s : State) : Keeps s (opSetUplink b s).1 := by
  unfold opSetUplink accept refuse
  split
  · exact Keeps.refl s
  · split
    · dsimp only; exact mapUplink_keeps _ s rfl
    · exact Keeps.refl s

/-- Every operation. -/
theorem operate_keeps (op : HostOp) (s : State) : Keeps s (operate op s).1 := by
  unfold operate
  split
  · exact Keeps.refl s
  · exact Keeps.aside (opResetPart_moves rfl _ s)
  · exact opSetPort_keeps _ _ _ s
  · exact Keeps.aside (opGetPort_moves _ s)
  · exact opPortReset_keeps _ s
  · unfold opReadEntry
    split
    · exact Keeps.refl s
    · exact Keeps.refl s
  · exact opWriteEntry_keeps _ _ s
  · exact Keeps.aside (opListFrames_moves _ _ s)
  · exact opHold_keeps _ _ s
  · exact opRelease_keeps _ _ s
  · exact opDrop_keeps _ _ s
  · exact opStoreClear_keeps s
  · exact opSetUplink_keeps _ s
  · exact opReplay_keeps _ _ _ s
  · exact opCancelReplay_keeps _ s
  · exact Keeps.aside (opTrigConfig_moves rfl _ _ s)
  · exact Keeps.aside (opTrigStart_moves rfl _ s)
  · exact Keeps.aside (opTrigStop_moves rfl _ s)
  · exact Keeps.aside (opTrigNow_moves aside_hasIssue _ s)
  · unfold opTrigStatus
    split
    · exact Keeps.refl s
    · exact Keeps.refl s
  · exact Keeps.aside (opSetNoticeMask_moves rfl _ s)
  · unfold opReadCounters
    split
    · exact Keeps.refl s
    · exact Keeps.refl s
  · unfold opClearCounters
    split
    · exact clearGroup_keeps _ s
    · exact Keeps.refl s
  · unfold opProfileSave refuse started
    split
    · exact Keeps.refl s
    · dsimp only
      exact Keeps.ite (beginLong_keeps _ _ _ _ s) (beginSave_keeps _ s)
  · unfold opProfileLoad refuse started
    split
    · exact Keeps.refl s
    · exact Keeps.ite' (beginLong_keeps _ _ _ _ s) (Keeps.refl s)
  · unfold opBootSelect refuse started
    split
    · exact Keeps.refl s
    · exact Keeps.ite' (beginLong_keeps _ _ _ _ s) (Keeps.refl s)
  · exact Keeps.refl s

theorem setReserved_keeps (b : Bool) (s : State) : Keeps s (setReserved b s) := mapAgent_keeps _ s

theorem pushReply_keeps (r : Reply) (s : State) : Keeps s (pushReply r s) := mapAgent_keeps _ s

theorem placeReply_keeps (r : Reply) (s : State) : Keeps s (placeReply r s) :=
  (setReserved_keeps false s).trans (pushReply_keeps r _)

theorem answer_keeps (op : HostOp) (s : State) : Keeps s (answer op s).1 := Keeps.ite' (Keeps.refl _) (operate_keeps op _)

theorem executed_keeps (tag : Half) (op : HostOp) (s : State) : Keeps s (executed tag op s) :=
  ((setReserved_keeps true s).trans (answer_keeps op _)).trans (placeReply_keeps _ _)

theorem executeOp_keeps (tag : Half) (op : HostOp) (s : State) : Keeps s (executeOp tag op s) :=
  Keeps.ite ((executed_keeps tag op s).trans (partReset_keeps _)) (executed_keeps tag op s)

theorem executeRequest_keeps (m : Mreq) (s : State) : Keeps s (executeRequest m s) := by
  have refuse : ∀ st, Keeps s (refuseRequest m st s) := fun st => (setReserved_keeps true s).trans (placeReply_keeps _ _)
  unfold executeRequest
  refine Keeps.ite (refuse _) ?_
  split
  · exact refuse _
  · exact executeOp_keeps _ _ s

theorem agentRun_keeps (k : Nat) (s : State) : Keeps s (agentRun k s) := by
  induction k generalizing s with
  | zero => exact Keeps.refl s
  | succ k ih =>
    refine Keeps.ite (Keeps.trans ?_ (ih _)) (Keeps.refl s)
    unfold takeRequest
    split
    · exact Keeps.refl s
    · exact (mapAgent_keeps _ s).trans (executeRequest_keeps _ _)

theorem agentTakes_keeps (s : State) : Keeps s (agentTakes s) := agentRun_keeps _ s

theorem hostRequest_keeps (tag : Half) (op : HostOp) (s : State) : Keeps s (hostRequest tag op s) :=
  Keeps.ite (executeOp_keeps tag op s) (Keeps.refl s)

/-! ## The uplink -/

/-- A segment that is not a replay's starts on the uplink. -/
theorem transmit_keeps (x : TxSource) (g : Segment) (s : State) (hx : x ≠ .replay ∧ x ≠ .abortedTail) :
    Keeps s (transmit x g s) := fun h =>
  Sound.storeLaw (s := transmit x g s) (h.sound.same rfl rfl rfl) h.requests (State.quiet.sending fun y hy => by
    have : (⟨x, g⟩ : UplinkTx) = y := Option.some.inj hy
    rw [← this]; exact hx)

theorem replayOffer_engine {s : State} {o : Offer} (h : replayOffer s = some o) : s.replay.engine ≠ .idle := by
  unfold replayOffer at h
  intro he
  rw [he] at h
  cases h

theorem grantMember_keeps (c : ClassId) (p : Fin 33) (s : State) : Keeps s (grantMember c p s) := by
  unfold grantMember
  split
  · next o ho =>
    refine Keeps.trans ?_ (mapUplink_keeps _ _ rfl)
    unfold grantPosition
    split
    · next e _ =>
      split
      · refine Keeps.trans (Keeps.ofSound (fun h => h.mapEntry e _ ?_) rfl rfl) (transmit_keeps _ _ _ ⟨by simp, by simp⟩)
        intro x; exact ⟨rfl, rfl, rfl, rfl⟩
      · exact Keeps.refl s
    · next hp =>
      split
      · have he : s.replay.engine ≠ .idle := by
          unfold memberOffer at ho
          rw [hp] at ho
          dsimp only at ho
          split at ho
          · exact replayOffer_engine ho
          · cases ho
        intro h
        have v := h.requests
        unfold grantReplay
        refine Sound.storeLaw ?_ ⟨v.ids, v.counts, v.waiting, v.behind, fun a => absurd a he, fun _ => v.busy he⟩
          fun x _ _ => ⟨he, by simp [transmit]⟩
        exact (h.sound.mapReplay (fun v => { v with cursor := some ((s.replay.cursor.getD
          (newCursor s.uplink.segSize (s.entry (headRequest s).2).current.tag)).after o) }) rfl).same rfl rfl rfl
      · exact Keeps.refl s
  · exact Keeps.refl s

theorem grant_keeps (s : State) : Keeps s (grant s) := by
  have h : Keeps s (grantFrame s) := by
    unfold grantFrame
    split
    · exact grantMember_keeps _ _ s
    · exact transmit_keeps _ _ s ⟨by simp, by simp⟩
  unfold grant arbitrate
  refine Keeps.ite ?_ (Keeps.refl s)
  split
  · exact transmit_keeps _ _ s ⟨by simp, by simp⟩
  · exact transmit_keeps _ _ s ⟨by simp, by simp⟩
  · exact h

/-- The transmitter is free, or sends filler. -/
theorem freeTransmitter_keeps (x : UplinkTx) (s : State) :
    Keeps s (freeTransmitter x s) ∧ (freeTransmitter x s).quiet := by
  have q : (freeTransmitter x s).quiet := fun y hy => by
    have hy : s.uplink.rest = some y := hy
    unfold Uplink.rest at hy
    split at hy
    · cases hy
    · have : y = .filler := by simpa [eq_comm] using hy
      rw [this]; exact ⟨by decide, by decide⟩
  exact ⟨fun h => Sound.storeLaw (s := freeTransmitter x s) (h.sound.same rfl rfl rfl) h.requests q.sending, q⟩

theorem forwardTailLeaves_keeps (e : EntryId) (s : State) : Keeps s (forwardTailLeaves e s) := by
  unfold forwardTailLeaves
  split
  · exact Keeps.refl s
  · next r rs hq =>
    have m := (Moves.mapEntry (F := Touch.storeOnly) s e (fun x => { x with forwardQueue := rs, cursor := none }) rfl).trans
      (dropForward_moves rfl r _)
    refine Keeps.trans (Keeps.ofSound (fun h => ?_) (m.replay rfl) (by rw [m.uplink rfl]))
      (Keeps.ofSound (fun h => h.countEntry e _) rfl rfl)
    have hn := h.claims.forwardOnce e
    rw [hq] at hn
    have hn := List.nodup_cons.1 hn
    refine ⟨dropForward_core r _ (h.core.mapEntry e _ ⟨rfl, rfl⟩),
      dropQueue_claims (rs := [r]) e (fun x => { x with forwardQueue := rs, cursor := none }) h.claims ?_ rfl hn.2 ?_ ?_⟩
    · have := dropForward_settles r (mapEntry e (fun x => { x with forwardQueue := rs, cursor := none }) s)
      simpa using this
    · intro q hm; rw [hq, List.mem_singleton.1 hm]; exact List.mem_cons_self
    · intro q
      show q ∈ rs ↔ _
      rw [hq]
      constructor
      · intro a; exact ⟨List.mem_cons_of_mem r a, fun b => hn.1 (List.mem_singleton.1 b ▸ a)⟩
      · rintro ⟨a, b⟩
        exact (List.mem_cons.1 a).resolve_left fun c => b (List.mem_singleton.2 c)

theorem noticeLeaves_keeps (s : State) : Keeps s (noticeLeaves s) := Keeps.aside (noticeLeaves_moves rfl s)

theorem replyLeaves_keeps (s : State) : Keeps s (replyLeaves s) := by
  unfold replyLeaves
  exact Keeps.ite ((mapAgent_keeps _ s).trans (partReset_keeps _)) ((mapAgent_keeps _ s).trans (agentTakes_keeps _))

theorem segmentCompletes_keeps (s : State) : Keeps s (segmentCompletes s) := by
  unfold segmentCompletes
  split
  · next x hx =>
    obtain ⟨h1, hq⟩ := freeTransmitter_keeps x s
    unfold segmentLeft
    split
    · exact h1.trans (replyLeaves_keeps _)
    · exact h1.trans (noticeLeaves_keeps _)
    · exact Keeps.ite (h1.trans (forwardTailLeaves_keeps _ _)) h1
    · next hs =>
      split
      · intro h
        exact replayTailLeaves_law (h1 h) (h.sending x hx (.inl hs)).1 hq
      · exact h1
    · next hs =>
      intro h
      exact finishHead_law _ _ (h1 h) (h.sending x hx (.inr hs)).1 hq
    · exact h1
  · exact Keeps.refl s

/-! ## The uplink leaves and enters ACTIVE -/

/-- The laws but for records that have yet to join the reclaim list. -/
structure Unjoined (s : State) : Prop where
  core : Core ∅ Set.univ ∅ ∅ s
  claims : s.claimLaw

theorem cutForward_unjoined (e : EntryId) (s : State) (h : Unjoined s) : Unjoined (cutForward e s) :=
  ⟨forEach_core _ _ _ (h.core.mapEntry e _ ⟨rfl, rfl⟩) fun r t => dropForwardQuietly_core r t,
    dropQueue_claims e (fun x => { x with forwardQueue := [], cursor := none }) h.claims
      (forEach_settles (s.entry e).forwardQueue dropForwardQuietly _ dropForwardQuietly_settles) rfl List.nodup_nil
      (fun _ h => h) fun q => ⟨fun a => (by cases a), fun a => absurd a.1 a.2⟩⟩

theorem cutAll_unjoined (xs : List EntryId) (s : State) (h : Unjoined s) :
    Unjoined (forEach xs cutForward s) ∧ (forEach xs cutForward s).replay = s.replay
      ∧ (forEach xs cutForward s).uplink = s.uplink := by
  have m := Moves.forEach (F := Touch.storeOnly) xs cutForward s fun e t => cutForward_moves rfl rfl e t
  refine ⟨?_, m.replay rfl, m.uplink rfl⟩
  clear m
  induction xs generalizing s with
  | nil => exact h
  | cons e xs ih => exact ih _ (cutForward_unjoined e s h)

theorem Settles.mapReplay {D : Set RecordId} {s t : State} (h : Settles D s t) (f : ReplayService → ReplayService) :
    Settles D (Machine.mapReplay f s) (Machine.mapReplay f t) :=
  ⟨h.receiving, h.pin, h.forward, h.same, h.assembly, h.queue, congrArg f h.replay⟩

theorem unpinQuietly_core (r : RecordId) (s : State) (h : Core ∅ Set.univ ∅ ∅ s) (hu : (s.record r).state ≠ .free) :
    Core ∅ Set.univ ∅ ∅ (unpinQuietly r s) :=
  ((h.unguardMember r (fun x => { x with pin := false }) rfl hu (.inr rfl) (Set.notMem_empty r)).freeIfUnclaimed r).mono
    subset_rfl (Set.subset_univ _) (Core.diff_insert_subset r ∅) subset_rfl

theorem unpinQuietly_settles (r : RecordId) (s : State) :
    Settles ∅ (mapRecord r (fun x => { x with pin := false }) s) (unpinQuietly r s) :=
  (enforceDepth_settles _ _).trans' (freeIfUnclaimed_settles r _)

/-- The end of the ACTIVE request at the loss of the uplink (R126). -/
theorem abortReplay_unjoined (s : State) (h : Unjoined s) (hv : s.replay.requestLaw) (hq : s.quiet) :
    Unjoined (abortReplay s) ∧ (abortReplay s).replay.requestLaw ∧ (abortReplay s).quiet := by
  unfold abortReplay
  split
  · exact ⟨h, hv, hq⟩
  · next he =>
    obtain ⟨hp, q, hm, ha, hl⟩ := hv.busy he
    obtain ⟨r, hr⟩ := Option.ne_none_iff_exists'.1 hp
    cases hs : s.replay.queue with
    | nil => rw [hs] at hm; cases hm
    | cons q' qs =>
      dsimp only
      rw [hr]
      dsimp only
      set u := mapHead (.fill .aborted) s with hu
      have uq : u.replay.queue = q'.fill .aborted :: qs := by
        show (match s.replay.queue with | q :: qs => ReplayRequest.fill .aborted q :: qs | [] => []) = _
        rw [hs]
      have pin : (s.record r).pin = true := (h.claims.pin r).1 hr
      have hc : (s.record r).state = .closed := h.core.closed r (.inr pin)
      have cu : Core ∅ Set.univ ∅ ∅ u := h.core.same rfl rfl
      have k := unpinQuietly_core r u cu (show (s.record r).state ≠ .free by rw [hc]; decide)
      have g := unpinQuietly_settles r u
      have cl : u.claimLaw := ⟨h.claims.assembly, h.claims.forward, h.claims.forwardOnce, h.claims.pin⟩
      have cl2 : (mapReplay (fun v => { v with pinned := none, cursor := none }) (unpinQuietly r u)).claimLaw :=
        unpinClaims cl hr (g.mapReplay (fun v => { v with pinned := none, cursor := none }))
      have rv : (unpinQuietly r u).replay.queue = q'.fill .aborted :: qs := by rw [g.replay]; exact uq
      have tx : (unpinQuietly r u).uplink = s.uplink :=
        (unpinQuietly_moves Touch.storeOnly_hasStore r u).uplink rfl
      generalize unpinQuietly r u = t at k cl2 rv tx ⊢
      unfold endHead
      rw [rv]
      dsimp only
      have nv : (offerNotice (q'.fill .aborted).done t).replay = t.replay := (offerNotice_settles _ t).replay
      have nt : (offerNotice (q'.fill .aborted).done t).uplink = t.uplink :=
        (offerNotice_moves (F := { notices := true }) rfl _ rfl t).uplink rfl
      have ne : ∀ e, (offerNotice (q'.fill .aborted).done t).entry e = t.entry e := fun e => by
        simp [State.entry, offerNotice_entries]
      have nr : ∀ x, (offerNotice (q'.fill .aborted).done t).record x = t.record x := fun x =>
        record_of_store (offerNotice_store _ t) x
      have nk : Core ∅ Set.univ ∅ ∅ (offerNotice (q'.fill .aborted).done t) :=
        k.same (offerNotice_store _ t) (offerNotice_entries _ t)
      generalize offerNotice (q'.fill .aborted).done t = w at nv nt ne nr nk ⊢
      have o := hv.ordered
      refine ⟨⟨nk.same rfl rfl, fun e x => ?_, fun e x => ?_, fun e => ?_, fun x => ?_⟩,
        ⟨?_, fun p m => ?_, fun p m => ?_, fun p m => ?_, fun _ => ⟨rfl, rfl, fun p m => ?_⟩, fun a => absurd rfl a⟩,
        fun x hx => hq x ?_⟩
      · have a : (t.entry e).assembly = .filling x ↔ (t.record x).receiving = true ∧ (t.record x).entry = e := cl2.assembly e x
        rw [← nr x, ← ne e] at a; exact a
      · have a : x ∈ (t.entry e).forwardQueue ↔ (t.record x).forward = true ∧ (t.record x).entry = e := cl2.forward e x
        rw [← nr x, ← ne e] at a; exact a
      · have a : (t.entry e).forwardQueue.Nodup := cl2.forwardOnce e
        rw [← ne e] at a; exact a
      · have a : (none : Option RecordId) = some x ↔ (t.record x).pin = true := cl2.pin x
        rw [← nr x] at a; exact a
      · have := o.ids; rw [hs] at this; exact (List.nodup_cons.1 this).2
      · exact o.counts p (by rw [hs]; exact List.mem_cons_of_mem q' m)
      · exact o.waiting p (by rw [hs]; exact List.mem_cons_of_mem q' m)
      · exact o.behind p (by rw [hs]; exact List.mem_of_mem_tail m)
      · exact o.behind p (by rw [hs]; exact m)
      · rw [← tx, ← nt]; exact hx

theorem placeOnReclaim_record (r q : RecordId) (s : State) : (placeOnReclaim r s).record q = s.record q := by
  unfold placeOnReclaim
  split
  · split <;> rfl
  · rfl

theorem placeAll_core (rs : List RecordId) {X : Set RecordId} (s : State) (h : Core ∅ X ∅ ∅ s) :
    Core ∅ (X \ {r | r ∈ rs}) ∅ ∅ (forEach rs placeOnReclaim s) := by
  induction rs generalizing X s with
  | nil => exact h.mono subset_rfl (fun r hr => ⟨hr, fun a => (by cases a)⟩) subset_rfl subset_rfl
  | cons r rs ih =>
    refine (ih _ ((h.placeOnReclaim r).mono subset_rfl subset_rfl subset_rfl Set.sdiff_subset)).mono subset_rfl ?_
      subset_rfl subset_rfl
    rintro q ⟨⟨a, b⟩, c⟩
    exact ⟨a, fun d => (List.mem_cons.1 d).elim b c⟩

theorem joinQualified_sound (s : State) (h : Unjoined s) : Sound (joinQualified s) := by
  have k := placeAll_core (allEntries.flatMap fun e => (s.entry e).ring) s h.core
  have g : Settles ∅ s (joinQualified s) := Settles.forEach _ _ s placeOnReclaim_settles
  refine ⟨{ k with joined := fun r _ hr => k.joined r (fun a => a.2 ?_) hr }, g.claimLaw h.claims⟩
  have hm : r ∈ ((joinQualified s).entry ((joinQualified s).record r).entry).ring :=
    (k.member _ r).2 ⟨by simp only [Record.reclaimable, Bool.and_eq_true] at hr; exact hr.1.1.1.1, rfl⟩
  have e : (joinQualified s).entries = s.entries := (joinQualified_moves (F := { store := true }) rfl s).entries rfl
  simp only [State.entry, e] at hm
  exact List.mem_flatMap.2 ⟨_, List.mem_finRange _, hm⟩

/-- The loss, before the part reset that it may bring. -/
theorem cutAll_keeps (w : PrevLoss) (s : State) :
    Keeps s (joinQualified (abortReplay (forEach allEntries cutForward (loseLink w s)))) := by
  intro h
  have q : (loseLink w s).quiet := fun x hx => by
    have : UplinkTx.filler = x := Option.some.inj hx
    rw [← this]; exact ⟨by decide, by decide⟩
  have u : Unjoined (loseLink w s) := ⟨(h.core.mono subset_rfl (Set.subset_univ _) subset_rfl subset_rfl).same rfl rfl,
    h.claims.assembly, h.claims.forward, h.claims.forwardOnce, h.claims.pin⟩
  have v : (loseLink w s).replay.requestLaw := h.requests
  generalize loseLink w s = t at q u v
  obtain ⟨a, b, c⟩ := cutAll_unjoined allEntries t u
  generalize forEach allEntries cutForward t = t' at a b c
  obtain ⟨d, e, f⟩ := abortReplay_unjoined t' a (by rw [b]; exact v) fun x hx => q x (by rw [← c]; exact hx)
  generalize abortReplay t' = r at d e f
  have m := joinQualified_moves (F := Touch.storeOnly) rfl r
  exact (joinQualified_sound r d).storeLaw (by rw [m.replay rfl]; exact e)
    (State.quiet.sending fun x hx => f x (by rw [← m.uplink rfl]; exact hx))

theorem resetIfPending_keeps (s : State) : Keeps s (resetIfPending s) := Keeps.ite (partReset_keeps s) (Keeps.refl s)

theorem leaveUplink_keeps (w : PrevLoss) (s : State) : Keeps s (leaveUplink w s) := by
  unfold leaveUplink
  have h := cutAll_keeps w s
  generalize joinQualified (abortReplay (forEach allEntries cutForward (loseLink w s))) = t at h ⊢
  exact h.trans (resetIfPending_keeps t)

theorem enterUplink_keeps (s : State) : Keeps s (enterUplink s) :=
  (((mapUplink_keeps (fun u => { u with state := .active, badRun := 0, silence := some (s.after Config.silenceTime) }) s
    rfl).trans (offerNotice_keeps _ _)).trans (mapUplink_keeps (fun u => { u with prevLoss := .none }) _ rfl)).trans
    (replayTakes_keeps _)

theorem uplinkSilence_keeps (s : State) : Keeps s (uplinkSilence s) := by
  unfold uplinkSilence
  split
  · exact (atDeadline_keeps _ s).trans (leaveUplink_keeps _ _)
  · exact Keeps.refl s

theorem uplinkHold_keeps (s : State) : Keeps s (uplinkHold s) := by
  unfold uplinkHold
  split
  · next d _ _ => exact (atDeadline_keeps d s).trans (mapUplink_keeps _ _ rfl)
  · exact Keeps.refl s

theorem upUnit_keeps (unit : List Byte) (s : State) : Keeps s (upUnit unit s) := by
  have h : Keeps s (countUpUnit s) := mapUplink_keeps _ s rfl
  have hg : Keeps s (goodUpUnit (countUpUnit s)) := by
    have h1 := h.trans (mapUplink_keeps (fun u => { u with
      badRun := 0, acqRun := if u.state = .acquiring then u.acqRun + 1 else u.acqRun }) _ rfl)
    exact Keeps.ite (h1.trans (enterUplink_keeps _)) h1
  unfold upUnit
  refine Keeps.ite (mapUplink_keeps _ s rfl) ?_
  split
  · have h1 := h.trans (mapUplink_keeps (fun u => { u with
      badCheck := bump u.badCheck,
      acqRun := if u.state = .acquiring then 0 else u.acqRun,
      badRun := if u.state = .active then u.badRun + 1 else u.badRun }) _ rfl)
    exact Keeps.ite (h1.trans (leaveUplink_keeps _ _)) h1
  · exact hg
  · refine Keeps.ite ?_ hg
    unfold disposeUp
    split
    · exact (hg.trans (Keeps.aside (requestArrives_moves aside_hasReplies _ _))).trans (agentTakes_keeps _)
    · exact hg

/-! ## Every command -/

/-- Every command keeps the laws of the frame store and of the replay queue, where the entries' images bind no pair
twice. -/
theorem exec_keeps (c : Instr) (s : State) :
    ∃ t, exec c s = .next t ∧ (s.bindingLaw → s.storeLaw → t.storeLaw) := by
  cases c
  all_goals first
    | exact ⟨_, rfl, fun _ => hostRequest_keeps _ _ _⟩
    | exact ⟨_, rfl, fun _ => resetAll_keeps _ _ _⟩
    | exact ⟨_, rfl, fun _ => startUpCompletes_keeps _⟩
    | exact ⟨_, rfl, fun b => downUnit_keeps _ _ _ fun _ _ => soleBinding_of_law b.table⟩
    | exact ⟨_, rfl, fun _ => upUnit_keeps _ _⟩
    | exact ⟨_, rfl, fun _ => rampEnds_keeps _ _ _⟩
    | exact ⟨_, rfl, fun _ => powerFails_keeps _ _⟩
    | exact ⟨_, rfl, fun _ => stallExpiry_keeps _ _⟩
    | exact ⟨_, rfl, fun _ => grant_keeps _⟩
    | exact ⟨_, rfl, fun _ => segmentCompletes_keeps _⟩
    | exact ⟨_, rfl, fun _ => Keeps.aside (transmitStart_moves rfl _ _)⟩
    | exact ⟨_, rfl, fun _ => Keeps.aside (rawLineChange_moves aside_hasIssue rfl _ _ _)⟩
    | exact ⟨_, rfl, fun _ => Keeps.aside (debounceExpiry_moves aside_hasIssue rfl _ _)⟩
    | exact ⟨_, rfl, fun _ => Keeps.aside (periodExpiry_moves aside_hasIssue rfl _ _)⟩
    | exact ⟨_, rfl, fun _ => Keeps.aside (windowExpiry_moves ⟨rfl, rfl⟩ rfl _ _ _)⟩
    | exact ⟨_, rfl, fun _ => agentTakes_keeps _⟩
    | exact ⟨_, rfl, fun _ => replayTakes_keeps _⟩
    | exact ⟨_, rfl, fun _ => saveCompletes_keeps _ _⟩
    | exact ⟨_, rfl, fun _ => revertCompletes_keeps _ _⟩
    | exact ⟨_, rfl, fun _ => selectCompletes_keeps _ _⟩
    | exact ⟨_, rfl, fun _ => loadCompletes_keeps _⟩
    | skip
  · rename_i l
    cases l
    · exact ⟨_, rfl, fun _ => portSilence_keeps _ _⟩
    · exact ⟨_, rfl, fun _ => uplinkSilence_keeps _⟩
  · rename_i l
    cases l
    · exact ⟨_, rfl, fun _ => portHold_keeps _ _⟩
    · exact ⟨_, rfl, fun _ => uplinkHold_keeps _⟩

/-- A change of the clock, the pins, the queue of commands or the free-value count keeps the laws. -/
theorem storeLaw_congr {s t : State} (h : s.storeLaw) (h1 : t.store = s.store) (h2 : t.entries = s.entries)
    (h3 : t.replay = s.replay) (h4 : t.uplink = s.uplink) : t.storeLaw := Keeps.same h1 h2 h3 (by rw [h4]) h

/-- A step with no command waiting leaves what the laws of the store read. -/
theorem idle_same (s : State) : (idle s).store = s.store ∧ (idle s).entries = s.entries ∧ (idle s).replay = s.replay
    ∧ (idle s).uplink = s.uplink ∧ (idle s).flash = s.flash := by
  unfold idle
  split
  · exact ⟨rfl, rfl, rfl, rfl, rfl⟩
  · exact ⟨rfl, rfl, rfl, rfl, rfl⟩

end Sys2Proof.Machine
end

