-- ==== Sys2Proof/WellFormed.lean ====
section
/-!
DEFINITION. The well-formed commands. Which port, entry, line or slot an event names is bounded by the
operand's type, and every byte of a request is a value the host can send, so the one check left is that
a unit received on a link has at least one byte (the model's choice: log entry 32).
-/

namespace Sys2Proof

/-- A unit that a link can deliver: it is not empty. R1 does not say whether a link can deliver a unit of no bytes; that
none does is the model's choice (DESIGN CHOICE, log entry 32). A step on one classes it bad-check, as any unit
shorter than 12 bytes (R1). -/
def unitWellFormed (unit : List Byte) : Bool := !unit.isEmpty

/-- The well-formed commands. -/
def Instr.wellFormed : Instr → Bool
  | .downstreamUnitReceived _ unit | .uplinkUnitReceived unit => unitWellFormed unit
  | .hardReset | .startUpLoadCompletes | .silenceTimerExpiry _ | .holdTimerExpiry _ => true
  | .rampExpiry _ _ | .powerFault _ | .stallTimerExpiry _ | .uplinkGrant => true
  | .uplinkSegmentCompletes | .downstreamTransmitStart _ | .rawLineChange _ _ => true
  | .debounceTimerExpiry _ | .periodTimerExpiry _ | .windowExpiry _ _ | .requestTake | .replayTake => true
  | .describe _ | .resetPart _ _ | .setPort _ _ _ _ | .getPort _ _ | .portReset _ _ => true
  | .readEntry _ _ | .writeEntry _ _ _ | .listFrames _ _ _ | .hold _ _ _ | .release _ _ _ => true
  | .drop _ _ _ | .storeClear _ | .setUplink _ _ | .replay _ _ _ _ | .cancelReplay _ _ => true
  | .trigConfig _ _ _ | .trigStart _ _ | .trigStop _ _ | .trigNow _ _ | .trigStatus _ _ => true
  | .setNoticeMask _ _ | .readCounters _ _ _ | .clearCounters _ _ _ => true
  | .profileSave _ _ | .profileLoad _ _ | .bootSelect _ _ | .profileInfo _ => true
  | .profileSaveCompletes _ | .bootRevertCompletes _ | .bootSelectCompletes _ | .profileLoadCompletes => true

end Sys2Proof
end

