-- ==== Sys2Proof/Laws/PerInstr.lean ====
section
/-!
SUPPORT. Per-command facts about the commands as syntax: a command is ill formed exactly when it is a received unit
without a byte, and the argument block of an operation row has a length that the agent's table lists (R1, R154).
-/

namespace Sys2Proof.Laws.Spelled

open Sys2Proof Sys2Proof.Machine

/-- The operation that an operation row asks for. -/
def operation : Instr → Option HostOp
  | .describe _ => some (.describe)
  | .resetPart _ slot => some (.resetPart slot)
  | .setPort _ port enabled powered => some (.setPort port enabled powered)
  | .getPort _ port => some (.getPort port)
  | .portReset _ port => some (.portReset port)
  | .readEntry _ entry => some (.readEntry entry)
  | .writeEntry _ entry block => some (.writeEntry entry block)
  | .listFrames _ entry start => some (.listFrames entry start)
  | .hold _ entry frame => some (.hold entry frame)
  | .release _ entry frame => some (.release entry frame)
  | .drop _ entry count => some (.drop entry count)
  | .storeClear _ => some (.storeClear)
  | .setUplink _ settings => some (.setUplink settings)
  | .replay _ entry first count => some (.replay entry first count)
  | .cancelReplay _ id => some (.cancelReplay id)
  | .trigConfig _ port block => some (.trigConfig port block)
  | .trigStart _ port => some (.trigStart port)
  | .trigStop _ port => some (.trigStop port)
  | .trigNow _ port => some (.trigNow port)
  | .trigStatus _ port => some (.trigStatus port)
  | .setNoticeMask _ mask => some (.setNoticeMask mask)
  | .readCounters _ group index => some (.readCounters group index)
  | .clearCounters _ group index => some (.clearCounters group index)
  | .profileSave _ slot => some (.profileSave slot)
  | .profileLoad _ slot => some (.profileLoad slot)
  | .bootSelect _ slot => some (.bootSelect slot)
  | .profileInfo _ => some (.profileInfo)
  | .hardReset | .startUpLoadCompletes | .downstreamUnitReceived _ _ | .uplinkUnitReceived _ => none
  | .silenceTimerExpiry _ | .holdTimerExpiry _ | .rampExpiry _ _ | .powerFault _ => none
  | .stallTimerExpiry _ | .uplinkGrant | .uplinkSegmentCompletes | .downstreamTransmitStart _ => none
  | .rawLineChange _ _ | .debounceTimerExpiry _ | .periodTimerExpiry _ | .windowExpiry _ _ => none
  | .requestTake | .replayTake | .profileSaveCompletes _ | .bootRevertCompletes _ => none
  | .bootSelectCompletes _ | .profileLoadCompletes => none

/-- The unit that a received-unit event carries. -/
def received : Instr → Option (List Byte)
  | .downstreamUnitReceived _ unit => some unit
  | .uplinkUnitReceived unit => some unit
  | .hardReset | .startUpLoadCompletes | .silenceTimerExpiry _ | .holdTimerExpiry _ => none
  | .rampExpiry _ _ | .powerFault _ | .stallTimerExpiry _ | .uplinkGrant => none
  | .uplinkSegmentCompletes | .downstreamTransmitStart _ | .rawLineChange _ _ => none
  | .debounceTimerExpiry _ | .periodTimerExpiry _ | .windowExpiry _ _ | .requestTake => none
  | .replayTake | .profileSaveCompletes _ | .bootRevertCompletes _ | .bootSelectCompletes _ => none
  | .profileLoadCompletes => none
  | .describe _ | .resetPart _ _ | .setPort _ _ _ _ | .getPort _ _ | .portReset _ _ => none
  | .readEntry _ _ | .writeEntry _ _ _ | .listFrames _ _ _ | .hold _ _ _ | .release _ _ _ => none
  | .drop _ _ _ | .storeClear _ | .setUplink _ _ | .replay _ _ _ _ | .cancelReplay _ _ => none
  | .trigConfig _ _ _ | .trigStart _ _ | .trigStop _ _ | .trigNow _ _ | .trigStatus _ _ => none
  | .setNoticeMask _ _ | .readCounters _ _ _ | .clearCounters _ _ _ | .profileSave _ _ => none
  | .profileLoad _ _ | .bootSelect _ _ | .profileInfo _ => none

/-- The argument block of the operation has a length that R154 step 3 accepts for its code. -/
def lengthListed (op : HostOp) : Prop := (opArgs op).length ∈ (argLengths (opCode op)).getD []

/-- Ill formed exactly as an empty unit; an operation row's argument block has a listed length. -/
def Statement (i : Instr) : Prop :=
  (i.wellFormed = false ↔ received i = some []) ∧ ∀ op, operation i = some op → lengthListed op

/-- A command that carries no unit, with an operation of a listed length or none. -/
theorem of_wellFormed (i : Instr) (hw : i.wellFormed = true) (hr : received i = none)
    (ho : ∀ op, operation i = some op → lengthListed op) : Statement i :=
  ⟨by simp [hw, hr], ho⟩

theorem hardReset : Statement .hardReset :=
  of_wellFormed _ rfl rfl (by intro op h; cases h)

theorem startUpLoadCompletes : Statement .startUpLoadCompletes :=
  of_wellFormed _ rfl rfl (by intro op h; cases h)

theorem downstreamUnitReceived (port : PortId) (unit : List Byte) : Statement (.downstreamUnitReceived port unit) :=
  ⟨by simp [Instr.wellFormed, unitWellFormed, received], by intro op h; cases h⟩

theorem uplinkUnitReceived (unit : List Byte) : Statement (.uplinkUnitReceived unit) :=
  ⟨by simp [Instr.wellFormed, unitWellFormed, received], by intro op h; cases h⟩

theorem silenceTimerExpiry (link : Link) : Statement (.silenceTimerExpiry link) :=
  of_wellFormed _ rfl rfl (by intro op h; cases h)

theorem holdTimerExpiry (link : Link) : Statement (.holdTimerExpiry link) :=
  of_wellFormed _ rfl rfl (by intro op h; cases h)

theorem rampExpiry (port : PortId) (pgHigh : Bool) : Statement (.rampExpiry port pgHigh) :=
  of_wellFormed _ rfl rfl (by intro op h; cases h)

theorem powerFault (port : PortId) : Statement (.powerFault port) :=
  of_wellFormed _ rfl rfl (by intro op h; cases h)

theorem stallTimerExpiry (entry : EntryId) : Statement (.stallTimerExpiry entry) :=
  of_wellFormed _ rfl rfl (by intro op h; cases h)

theorem uplinkGrant : Statement .uplinkGrant :=
  of_wellFormed _ rfl rfl (by intro op h; cases h)

theorem uplinkSegmentCompletes : Statement .uplinkSegmentCompletes :=
  of_wellFormed _ rfl rfl (by intro op h; cases h)

theorem downstreamTransmitStart (port : PortId) : Statement (.downstreamTransmitStart port) :=
  of_wellFormed _ rfl rfl (by intro op h; cases h)

theorem rawLineChange (line : LineId) (level : Bool) : Statement (.rawLineChange line level) :=
  of_wellFormed _ rfl rfl (by intro op h; cases h)

theorem debounceTimerExpiry (port : PortId) : Statement (.debounceTimerExpiry port) :=
  of_wellFormed _ rfl rfl (by intro op h; cases h)

theorem periodTimerExpiry (port : PortId) : Statement (.periodTimerExpiry port) :=
  of_wellFormed _ rfl rfl (by intro op h; cases h)

theorem windowExpiry (port : PortId) (number : Half) : Statement (.windowExpiry port number) :=
  of_wellFormed _ rfl rfl (by intro op h; cases h)

theorem requestTake : Statement .requestTake :=
  of_wellFormed _ rfl rfl (by intro op h; cases h)

theorem replayTake : Statement .replayTake :=
  of_wellFormed _ rfl rfl (by intro op h; cases h)

theorem describe (tag : Half) : Statement (.describe tag) :=
  of_wellFormed _ rfl rfl (by intro op h; cases h; exact List.mem_singleton.2 rfl)

theorem resetPart (tag : Half) (slot : Byte) : Statement (.resetPart tag slot) :=
  of_wellFormed _ rfl rfl (by intro op h; cases h; exact List.mem_singleton.2 rfl)

theorem setPort (tag : Half) (port enabled powered : Byte) : Statement (.setPort tag port enabled powered) :=
  of_wellFormed _ rfl rfl (by intro op h; cases h; exact List.mem_singleton.2 rfl)

theorem getPort (tag : Half) (port : Byte) : Statement (.getPort tag port) :=
  of_wellFormed _ rfl rfl (by intro op h; cases h; exact List.mem_singleton.2 rfl)

theorem portReset (tag : Half) (port : Byte) : Statement (.portReset tag port) :=
  of_wellFormed _ rfl rfl (by intro op h; cases h; exact List.mem_singleton.2 rfl)

theorem readEntry (tag : Half) (entry : Byte) : Statement (.readEntry tag entry) :=
  of_wellFormed _ rfl rfl (by intro op h; cases h; exact List.mem_singleton.2 rfl)

theorem writeEntry (tag : Half) (entry : Byte) (block : ImageBlock) : Statement (.writeEntry tag entry block) :=
  of_wellFormed _ rfl rfl (by intro op h; cases h; exact List.mem_singleton.2 rfl)

theorem listFrames (tag : Half) (entry start : Byte) : Statement (.listFrames tag entry start) :=
  of_wellFormed _ rfl rfl (by intro op h; cases h; exact List.mem_singleton.2 rfl)

theorem hold (tag : Half) (entry : Byte) (frame : Half) : Statement (.hold tag entry frame) :=
  of_wellFormed _ rfl rfl (by intro op h; cases h; exact List.mem_singleton.2 rfl)

theorem release (tag : Half) (entry : Byte) (frame : Half) : Statement (.release tag entry frame) :=
  of_wellFormed _ rfl rfl (by intro op h; cases h; exact List.mem_singleton.2 rfl)

theorem drop (tag : Half) (entry count : Byte) : Statement (.drop tag entry count) :=
  of_wellFormed _ rfl rfl (by intro op h; cases h; exact List.mem_singleton.2 rfl)

theorem storeClear (tag : Half) : Statement (.storeClear tag) :=
  of_wellFormed _ rfl rfl (by intro op h; cases h; exact List.mem_singleton.2 rfl)

theorem setUplink (tag : Half) (settings : Option UplinkBlock) : Statement (.setUplink tag settings) :=
  of_wellFormed _ rfl rfl (by
    intro op h
    cases h
    cases settings <;> simp [lengthListed, opArgs, opCode, argLengths, uplinkBlockBytes, halfBytes])

theorem replay (tag : Half) (entry : Byte) (first : Half) (count : Byte) : Statement (.replay tag entry first count) :=
  of_wellFormed _ rfl rfl (by intro op h; cases h; exact List.mem_singleton.2 rfl)

theorem cancelReplay (tag : Half) (id : Byte) : Statement (.cancelReplay tag id) :=
  of_wellFormed _ rfl rfl (by intro op h; cases h; exact List.mem_singleton.2 rfl)

theorem trigConfig (tag : Half) (port : Byte) (block : TrigBlock) : Statement (.trigConfig tag port block) :=
  of_wellFormed _ rfl rfl (by intro op h; cases h; exact List.mem_singleton.2 rfl)

theorem trigStart (tag : Half) (port : Byte) : Statement (.trigStart tag port) :=
  of_wellFormed _ rfl rfl (by intro op h; cases h; exact List.mem_singleton.2 rfl)

theorem trigStop (tag : Half) (port : Byte) : Statement (.trigStop tag port) :=
  of_wellFormed _ rfl rfl (by intro op h; cases h; exact List.mem_singleton.2 rfl)

theorem trigNow (tag : Half) (port : Byte) : Statement (.trigNow tag port) :=
  of_wellFormed _ rfl rfl (by intro op h; cases h; exact List.mem_singleton.2 rfl)

theorem trigStatus (tag : Half) (port : Byte) : Statement (.trigStatus tag port) :=
  of_wellFormed _ rfl rfl (by intro op h; cases h; exact List.mem_singleton.2 rfl)

theorem setNoticeMask (tag : Half) (mask : Half) : Statement (.setNoticeMask tag mask) :=
  of_wellFormed _ rfl rfl (by intro op h; cases h; exact List.mem_singleton.2 rfl)

theorem readCounters (tag : Half) (group index : Byte) : Statement (.readCounters tag group index) :=
  of_wellFormed _ rfl rfl (by intro op h; cases h; exact List.mem_singleton.2 rfl)

theorem clearCounters (tag : Half) (group index : Byte) : Statement (.clearCounters tag group index) :=
  of_wellFormed _ rfl rfl (by intro op h; cases h; exact List.mem_singleton.2 rfl)

theorem profileSave (tag : Half) (slot : Byte) : Statement (.profileSave tag slot) :=
  of_wellFormed _ rfl rfl (by intro op h; cases h; exact List.mem_singleton.2 rfl)

theorem profileLoad (tag : Half) (slot : Byte) : Statement (.profileLoad tag slot) :=
  of_wellFormed _ rfl rfl (by intro op h; cases h; exact List.mem_singleton.2 rfl)

theorem bootSelect (tag : Half) (slot : Byte) : Statement (.bootSelect tag slot) :=
  of_wellFormed _ rfl rfl (by intro op h; cases h; exact List.mem_singleton.2 rfl)

theorem profileInfo (tag : Half) : Statement (.profileInfo tag) :=
  of_wellFormed _ rfl rfl (by intro op h; cases h; exact List.mem_singleton.2 rfl)

theorem profileSaveCompletes (verified : Bool) : Statement (.profileSaveCompletes verified) :=
  of_wellFormed _ rfl rfl (by intro op h; cases h)

theorem bootRevertCompletes (verified : Bool) : Statement (.bootRevertCompletes verified) :=
  of_wellFormed _ rfl rfl (by intro op h; cases h)

theorem bootSelectCompletes (verified : Bool) : Statement (.bootSelectCompletes verified) :=
  of_wellFormed _ rfl rfl (by intro op h; cases h)

theorem profileLoadCompletes : Statement .profileLoadCompletes :=
  of_wellFormed _ rfl rfl (by intro op h; cases h)

end Sys2Proof.Laws.Spelled
end

