-- ==== Sys2Proof/Laws/Requests.lean ====
section
/-!
SUPPORT. What an operation row does, said once (R153, R154): when the agent may take a request, the row is the owning
block's answer followed by the reply at the tail of the reply queue. Statements about one operation cite
`hostRequest_read` (refusals and reads) or `hostRequest_write`.
-/

namespace Sys2Proof.Machine

open Sys2Proof

/-- An agent that may take a request is free. -/
theorem agentFree_of_mayTake (s : State) (h : s.mayTake) : agentFree s = true := by
  obtain ⟨h1, h2, h3, h4⟩ := h
  simp [agentFree, h1, h2, h3, Config.replyCapacity]

/-- A reply placed on a state at rest. -/
theorem placeReply_reserved (s : State) (h : s.atRest) (tag : Half) (op st : Byte) (r : List Byte) :
    placeReply ⟨0x0F, tag, op :: st :: r, false⟩ (setReserved true s) = s.withReply tag op st r := by
  have hr : s.agent.reserved = false := h
  simp [placeReply, pushReply, setReserved, mapAgent, State.withReply, hr]

/-- An operation other than RESET_PART that leaves the agent READY: the answer's state with the reply at the tail. -/
theorem hostRequest_eq (tag : Half) (op : HostOp) (s t : State) (st : Status) (r : List Byte) (h : s.mayTake)
    (ho : operate op (setReserved true s) = (t, ⟨st, r⟩)) (hs : t.agent.state = .ready) (hr : isResetPart op = false)
    (hl : isLong op = false ∨ s.agent.longOp = none) :
    hostRequest tag op s = placeReply ⟨0x0F, tag, opCode op :: st.code :: r, false⟩ t := by
  have ha : answer op (setReserved true s) = (t, ⟨st, r⟩) := by
    unfold answer
    rw [if_neg]
    · exact ho
    · rcases hl with hl | hl <;> simp [hl, setReserved]
  have e : executed tag op s = placeReply ⟨0x0F, tag, opCode op :: st.code :: r, false⟩ t := by
    simp only [executed, ha, ownReply, bringsReset, hr, Bool.false_and]
  have hs' : (placeReply ⟨0x0F, tag, opCode op :: st.code :: r, false⟩ t).agent.state = .ready := hs
  simp only [hostRequest, agentFree_of_mayTake s h, executeOp, e, resetIfDown, hs', if_true, ne_eq,
    not_true_eq_false, false_and, if_false]

/-- An operation that changes nothing: a refusal or a read. -/
theorem hostRequest_read (tag : Half) (op : HostOp) (s : State) (st : Status) (r : List Byte) (h : s.mayTake)
    (ho : operate op (setReserved true s) = (setReserved true s, ⟨st, r⟩)) (hr : isResetPart op = false)
    (hl : isLong op = false ∨ s.agent.longOp = none) :
    hostRequest tag op s = s.withReply tag (opCode op) st.code r := by
  rw [hostRequest_eq tag op s _ st r h ho h.2.1 hr hl, placeReply_reserved s h.2.2.2]

/-- An operation that makes `t` of `s`. -/
theorem hostRequest_write (tag : Half) (op : HostOp) (s t : State) (st : Status) (r : List Byte) (h : s.mayTake)
    (ho : operate op (setReserved true s) = (setReserved true t, ⟨st, r⟩)) (hs : t.agent.state = .ready)
    (ht : t.atRest) (hr : isResetPart op = false) (hl : isLong op = false ∨ s.agent.longOp = none) :
    hostRequest tag op s = t.withReply tag (opCode op) st.code r := by
  rw [hostRequest_eq tag op s _ st r h ho hs hr hl, placeReply_reserved t ht]

section setReserved_fields

variable (b : Bool) (s : State)

@[simp] theorem setReserved_partTime : (setReserved b s).partTime = s.partTime := rfl
@[simp] theorem setReserved_tin : (setReserved b s).tin = s.tin := rfl
@[simp] theorem setReserved_pg : (setReserved b s).pg = s.pg := rfl
@[simp] theorem setReserved_store : (setReserved b s).store = s.store := rfl
@[simp] theorem setReserved_uplink : (setReserved b s).uplink = s.uplink := rfl
@[simp] theorem setReserved_replay : (setReserved b s).replay = s.replay := rfl
@[simp] theorem setReserved_notices : (setReserved b s).notices = s.notices := rfl
@[simp] theorem setReserved_flash : (setReserved b s).flash = s.flash := rfl
@[simp] theorem setReserved_longOp : (setReserved b s).agent.longOp = s.agent.longOp := rfl
@[simp] theorem setReserved_state : (setReserved b s).agent.state = s.agent.state := rfl
@[simp] theorem setReserved_port (n : PortId) : (setReserved b s).port n = s.port n := rfl
@[simp] theorem setReserved_gen (n : PortId) : (setReserved b s).gen n = s.gen n := rfl
@[simp] theorem setReserved_entry (e : EntryId) : (setReserved b s).entry e = s.entry e := rfl
@[simp] theorem setReserved_record (r : RecordId) : (setReserved b s).record r = s.record r := rfl
@[simp] theorem setReserved_ringMember (e : EntryId) (k : Half) : ringMember (setReserved b s) e k = ringMember s e k := rfl

end setReserved_fields

end Sys2Proof.Machine
end

