-- ==== Sys2Proof/Tests/Slice0.lean ====
section
/-!
SUPPORT. Tests of the model: the check code and the reading of units on the spec's own bytes, the well-formedness checks,
small steps, and for every statement of Certificates/Slice0/Obligations.lean a state and operands that meet its
hypotheses (theorems named `witness_…`).
-/

section

-- One theorem after the other: the check's memory limit does not hold many kernel evaluations at once.
set_option Elab.async false

namespace Sys2Proof.Tests

open Sys2Proof Sys2Proof.Machine

/-! ## Helpers -/

/-- A part after start-up, with nothing configured. -/
def ready : State :=
  { State.reset with starting := false, flash := { State.reset.flash with controller := .idle, bound := none } }

/-- A port in a state. -/
def portIn (st : PortState) : Port := { Port.atReset with enabled := true, state := st }

/-- `ready` with port 0 in a state. -/
def readyIn (st : PortState) : State := ready.setPort 0 (portIn st)

/-- An image that binds port 0, channel 1, tag 07h. -/
def bound : Image := { Image.default 0 with valid := true, channel := 1, tag := 7, correlated := true }

/-- Port 0 ACTIVE, entry 0 bound to its channel 1, with an assembly. -/
def streaming (a : Assembly) : State :=
  (readyIn .active).setEntry 0 { Entry.atReset 0 with current := bound, assembly := a, stall := some 100 }

/-- Record 5 open on page 9 with 3 bytes. -/
def openRecord : Record := { Record.blank with entry := 0, frame := 4, state := .filling, receiving := true, pages := [9], bytes := 3 }

/-- A frame of entry 0 open in record 5, BODY 1 awaited. -/
def filling : State := (streaming (.filling 5)).setRecord 5 openRecord

/-- Record 5 closed, in entry 0's ring and head of its forward queue, on the reclaim list; the uplink ACTIVE. -/
def stored : State :=
  let s := (streaming .idle).setRecord 5 { openRecord with state := .closed, receiving := false, ring := true, forward := true, close := some .tail }
  let t := s.setEntry 0 { s.entry 0 with ring := [5], forwardQueue := [5] }
  { t with uplink := { t.uplink with state := .active, silence := some 50, tx := none } }

/-- Port 0 ACTIVE with a frame late on its channel 1, which no entry binds. -/
def lateOn (frame : Half) : State :=
  ready.setPort 0 { portIn .active with late := (Vector.replicate 4 none).set 1 (some frame) }

/-- A unit of each frame kind on channel 1. -/
def headUnitOf (frame : Half) (flags trigger : Byte) : List Byte :=
  Segment.unit ⟨.head, false, 1, frame, 0, [0, 8, 0, 4, 1, flags, 0, trigger, 0, 0, 0, 0, 0, 9, 0, 0, 0, 3]⟩
def headUnit : List Byte := Segment.unit ⟨.head, false, 1, 4, 0, [0, 8, 0, 4, 1, 0, 0, 0, 0, 0, 0, 0, 0, 9, 0, 0, 0, 3]⟩
def bodyUnit : List Byte := Segment.unit ⟨.body, false, 1, 4, 1, [10, 20, 30]⟩
def tailUnit : List Byte := Segment.unit ⟨.tail, false, 1, 4, 2, [0, 1, 0, 0, 0, 3, 0]⟩
def linkUnit : List Byte := Segment.filler.unit
/-- A unit with a bad check, and one with a good check whose kind is not listed. -/
def badUnit : List Byte := [0]
def oddUnit : List Byte := [9, 0, 0, 0, 0, 0, 0, 0] ++ wordBytes (checkCode [9, 0, 0, 0, 0, 0, 0, 0])

/-- `s` with the open record 5, or any use of it, changed. -/
def withFive (s : State) (f : Record → Record) : State := s.setRecord 5 (f (s.record 5))
/-- `s` with entry 0 changed. -/
def withEntry (s : State) (f : Entry → Entry) : State := s.setEntry 0 (f (s.entry 0))

/-- The next state of a command. -/
def after (c : Instr) (s : State) : State :=
  match exec c s with
  | .next t => t
  | .fault f => nomatch f
  | .refused _ => s

/-! ## The check code, units and well-formedness -/

/-- The spec's own example (R2). -/
theorem test_check_code :
    checkCode [0x31, 0x32, 0x33, 0x34, 0x35, 0x36, 0x37, 0x38, 0x39] = 0xFC891918 := by decide +kernel

/-- Each class of a received unit (R1, R14). -/
theorem test_units_read :
    classifyDown headUnit = .wellFormed (.head 1 4 ⟨8, 4, 1, none, 9, 3⟩)
      ∧ classifyDown bodyUnit = .wellFormed (.body 1 4 1 [10, 20, 30])
      ∧ classifyDown tailUnit = .wellFormed (.tail 1 4 1 3 0) ∧ classifyDown linkUnit = .wellFormed .link
      ∧ classifyDown badUnit = .badCheck ∧ classifyDown oddUnit = .malformed := by decide +kernel

/-- A kind that the link does not carry (R4). -/
theorem test_mreq_only_from_host :
    classifyUp bodyUnit = .malformed ∧ classifyDown (Mreq.segment ⟨0x0F, 1, 1, []⟩).unit = .malformed := by decide +kernel

/-- The one check: a received unit is not empty (log entry 32). -/
theorem test_empty_unit_down_ill_formed :
    (Instr.downstreamUnitReceived 0 []).wellFormed = false := rfl

theorem test_empty_unit_up_ill_formed :
    (Instr.uplinkUnitReceived []).wellFormed = false := rfl

theorem test_unit_well_formed :
    (Instr.uplinkUnitReceived [0]).wellFormed = true := rfl

/-- No row of the table gives bits. -/
theorem test_no_table_word :
    ∀ n w : Nat, decodeTableWord n w = none := fun _ _ => rfl

theorem test_withFetchWord :
    ∀ (s : State) (n w : Nat), s.withFetchWord n w = s := fun _ _ _ => rfl

/-! ## Small steps -/

theorem test_ready_answers_describe :
    (after (.describe 7) ready).agent.replies.map (·.tag) = [7] := by decide +kernel

/-- HEAD, BODY and TAIL of an undamaged frame (chapter 4). -/
theorem test_whole_frame :
    ((after (.downstreamUnitReceived 0 tailUnit) (after (.downstreamUnitReceived 0 bodyUnit)
      (after (.downstreamUnitReceived 0 headUnit) (streaming .idle)))).entry 0).counters.framesIn = 1
      ∧ ((after (.downstreamUnitReceived 0 tailUnit) (after (.downstreamUnitReceived 0 bodyUnit)
      (after (.downstreamUnitReceived 0 headUnit) (streaming .idle)))).entry 0).counters.framesDamaged = 0 := by decide +kernel

set_option maxRecDepth 100000 in
theorem test_start_up_loads_factory :
    (after .startUpLoadCompletes State.reset).starting = false
      ∧ ((after .startUpLoadCompletes State.reset).port 3).state = .acquiring := by decide +kernel

/-! ## Witnesses: the machine -/

/-- The premise of every statement about an operation. -/
theorem test_mayTake :
    ready.mayTake := ⟨rfl, rfl, by decide +kernel, rfl⟩

theorem witness_EmptyQueueLetsTimePass :
    ready.pending = [] ∧ dueEvents ready = [] ∧ dueEvents { State.reset with partTime := 30000 } ≠ [] := by decide +kernel

theorem witness_EmptyQueue_watched :
    ((ready.setPort 0 { portIn .lost with powered := true }).port 0).powered = true
      ∧ ((ready.setPort 0 { portIn .lost with powered := true }).port 0).state.receiving = true
      ∧ dueEvents (ready.setPort 0 { portIn .lost with powered := true }) = [] := by decide +kernel

theorem witness_StepsKeep :
    ready.atRest ∧ ready.memoryLaw ∧ ready.factoryLaw ∧ ∃ t, step ready = .next t := ⟨rfl, rfl, rfl, _, rfl⟩

theorem witness_StepsKeepQueueCapacities :
    ready.queuesLaw := by
  refine ⟨fun n => ?_, fun n => ?_, ?_, ?_, ?_⟩
  · revert n; unfold Port.queueLaw; decide +kernel
  · revert n; unfold Generator.pendingLaw; decide +kernel
  · unfold NoticeUnit.queueLaw; decide +kernel
  · unfold Agent.queueLaw; decide +kernel
  · unfold ReplayService.queueLaw; decide +kernel

theorem witness_StepsKeepStoreLaws :
    ready.storeLaw := storeLaw_atReset _ (fun e => by simp [ready, State.reset, State.entry]) atReset_mem rfl rfl

theorem witness_StepsKeepBindings :
    ready.bindingLaw := by
  refine ⟨fun e f _ i hi => ?_, asManufactured_binding, fun p hp => by cases hp⟩
  simp [ready, State.reset, State.entry, validImages, Entry.atReset, Image.default] at hi

/-- The longest argument block. -/
theorem witness_RequestUnitsReadBack :
    (Mreq.mk 0x0F 1 0x41 (List.replicate 1023 0)).args.length ≤ 1023 := by decide +kernel

theorem witness_SettingsReadBack :
    (1 ≤ bound.ringDepth ∧ bound.ringDepth ≤ 64 ∧ 1 ≤ bound.maxPages ∧ bound.maxPages ≤ 1024
      ∧ 1 ≤ bound.stallTimeout ∧ bound.stallTimeout ≤ 10000)
      ∧ TrigConfig.factory.debounce ≤ 1000 ∧ TrigConfig.factory.burstCount ≠ 0
      ∧ 10 ≤ TrigConfig.factory.burstPeriod ∧ TrigConfig.factory.burstPeriod ≤ 1000000
      ∧ 1 ≤ TrigConfig.factory.window ∧ TrigConfig.factory.window ≤ 65535 := by decide +kernel

/-! ## Witnesses: units and frames -/

theorem witness_ReceiverOffIgnoresUnits :
    (ready.port 0).state = .off ∧ ((readyIn .powering).port 0).state = .powering := by decide +kernel

theorem witness_UnitsMoveCountersAndRuns :
    ((readyIn .acquiring).port 0).state = .acquiring ∧ classifyDown badUnit = .badCheck
      ∧ ((readyIn .active).port 0).state = .active ∧ classifyDown oddUnit = .malformed
      ∧ classifyDown linkUnit = .wellFormed .link
      ∧ ((ready.setPort 0 { portIn .acquiring with acqRun := 7 }).port 0).acqRun = 7 := by decide +kernel

/-- The runs at 0 and 6 in ACQUIRING, at 0 and 14 in ACTIVE, and LOST. -/
theorem witness_UnitsMove_runs :
    ((readyIn .acquiring).port 0).acqRun < 7 ∧ ((ready.setPort 0 { portIn .acquiring with acqRun := 6 }).port 0).acqRun < 7
      ∧ ((readyIn .active).port 0).badRun < 15 ∧ ((ready.setPort 0 { portIn .active with badRun := 14 }).port 0).badRun < 15
      ∧ ((readyIn .lost).port 0).state = .lost := by decide +kernel

/-- The mrep unit of a camera with 2 bytes of payload. -/
def replyUnit : List Byte := Segment.unit ⟨.mrep, false, 3, 7, 0, [5, 0]⟩

theorem witness_BadChecksAndSilenceLosePort :
    ((ready.setPort 0 { portIn .active with badRun := 15, silence := some 9 }).port 0).state = .active
      ∧ ((ready.setPort 0 { portIn .active with badRun := 15, silence := some 9 }).port 0).badRun = 15
      ∧ ((ready.setPort 0 { portIn .active with badRun := 15, silence := some 9 }).port 0).silence = some 9 := by decide +kernel

theorem witness_SegmentsWithoutPlace_unknown :
    ((readyIn .active).port 0).state = .active ∧ lookup (readyIn .active) 0 1 = none := by decide +kernel

/-- A frame late on channel 1 of port 0, no entry bound: its own number, another one, and a HEAD. -/
theorem witness_SegmentsWithoutPlace_late :
    classifyDown bodyUnit = .wellFormed (.body 1 4 1 [10, 20, 30])
      ∧ classifyDown headUnit = .wellFormed (.head 1 4 ⟨8, 4, 1, none, 9, 3⟩)
      ∧ (∀ k, lookup (lateOn k) 0 1 = none ∧ ((lateOn k).port 0).state = .active ∧ ((lateOn k).port 0).late[(1 : Channel)] = some k)
      ∧ (5 : Half) ≠ 4 := ⟨by decide +kernel, by decide +kernel, fun _ => ⟨rfl, rfl, rfl⟩, by decide⟩

/-- A late frame's BODY without a binding is UNKNOWN_CHANNEL and an orphan, any other's UNKNOWN_CHANNEL alone, and a HEAD
ends the mark (R22, R74; log entry 33). -/
theorem test_late_segments :
    ((after (.downstreamUnitReceived 0 bodyUnit) (lateOn 4)).port 0).counters = ⟨1, 0, 0, 1, 1, 0⟩
      ∧ ((after (.downstreamUnitReceived 0 bodyUnit) (lateOn 5)).port 0).counters = ⟨1, 0, 0, 1, 0, 0⟩
      ∧ ((after (.downstreamUnitReceived 0 headUnit) (lateOn 4)).port 0).late[(1 : Channel)] = none := by decide +kernel

/-- The frames open at a load are late from then on (R74; log entry 33). -/
theorem test_late_frames : ((endAllFrames filling).port 0).late = (Vector.replicate 4 none).set 1 (some 4) := by decide +kernel

theorem witness_SegmentsWithoutPlace_orphan :
    lookup (streaming .idle) 0 1 = some 0 ∧ ((streaming .idle).entry 0).assembly = .idle := by decide +kernel

theorem witness_SegmentsWithoutPlace_stale :
    lookup (filling.setEntry 0 { filling.entry 0 with nextIndex := 2 }) 0 1 = some 0
      ∧ ((filling.setEntry 0 { filling.entry 0 with nextIndex := 2 }).entry 0).assembly = .filling 5
      ∧ (1 : Half).toNat < ((filling.setEntry 0 { filling.entry 0 with nextIndex := 2 }).entry 0).nextIndex := by decide +kernel

theorem witness_SegmentsWithoutPlace_discarding :
    classifyDown bodyUnit = .wellFormed (.body 1 4 1 [10, 20, 30]) ∧ lookup (streaming .discarding) 0 1 = some 0
      ∧ ((streaming .discarding).entry 0).assembly = .discarding := by decide +kernel

/-- A camera's reply, with a reply queue of 15 and of 16. -/
theorem witness_SegmentsWithoutPlace_reply :
    classifyDown replyUnit = .wellFormed (.mrep 7 [5, 0])
      ∧ (List.replicate 15 (⟨0x0F, 1, [1, 0], false⟩ : Reply)).length + false.toNat < 16
      ∧ 16 ≤ (List.replicate 16 (⟨0x0F, 1, [1, 0], false⟩ : Reply)).length + false.toNat := by decide +kernel

theorem witness_HeadOpensFrame :
    ((streaming .idle).port 0).state = .active ∧ lookup (streaming .idle) 0 1 = some 0
      ∧ ((streaming .idle).entry 0).assembly = .idle ∧ ringMember (streaming .idle) 0 4 = none
      ∧ (streaming .idle).store.freeRecords = 0 :: (List.finRange 256).drop 1 := by decide +kernel

/-- A gap, a head report with and without a match, a duplicate that leaves and one that stays, no record. -/
theorem witness_HeadOpensFrame_gap :
    ((withEntry (streaming .idle) fun x => { x with expected := some 3 }).entry 0).expected = some 3
      ∧ bound.continuity = true ∧ (4 : Half) ≠ 3 ∧ (streaming .idle).store.freeRecords ≠ []
      ∧ ((streaming .idle).entry 0).expected = none := by decide +kernel

theorem witness_HeadOpensFrame_report :
    classifyDown (headUnitOf 4 1 3) = .wellFormed (.head 1 4 ⟨8, 4, 1, some 3, 9, 3⟩) ∧ bound.correlated = true
      ∧ (∀ p ∈ ((streaming .idle).gen 0).pendings, ¬ (p.number = 3 ∧ (0 : EntryId) ∈ p.outstanding))
      ∧ (((streaming .idle).setGen 0 { Generator.atReset with pendings := [⟨2, 0, 90, [0]⟩, ⟨3, 0, 100, [0]⟩] }).gen 0).pendings
        = [⟨2, 0, 90, [0]⟩] ++ ⟨3, 0, 100, [0]⟩ :: [] := by decide +kernel

theorem witness_HeadOpensFrame_duplicate :
    (stored.entry 0).assembly = .idle ∧ ringMember stored 0 4 = some 5 ∧ (stored.record 5).held = false
      ∧ (stored.record 5).pin = false ∧ ringMember (withFive stored fun x => { x with held := true }) 0 4 = some 5
      ∧ ((withFive stored fun x => { x with held := true }).record 5).held = true := by decide +kernel

theorem witness_HeadOpensFrame_refused :
    ∀ s : State, s = { streaming .idle with store := { Store.atReset with freeRecords := [] } } →
      s.store.freeRecords = [] ∧ s.store.reclaim = [] ∧ ringMember s 0 4 = none ∧ lookup s 0 1 = some 0
        ∧ (s.entry 0).expected = none := by rintro _ rfl; decide +kernel

theorem witness_HeadOpensFrame_notIdle :
    ((streaming .discarding).entry 0).assembly = .discarding ∧ ((streaming .discarding).entry 0).staged = none
      ∧ classifyDown (headUnitOf 5 0 0) = .wellFormed (.head 1 5 ⟨8, 4, 1, none, 9, 3⟩)
      ∧ (filling.entry 0).assembly = .filling 5 ∧ (filling.record 5).frame ≠ 5 ∧ ringMember filling 0 5 = none
      ∧ (filling.entry 0).ring = [] ∧ filling.store.freeRecords = 0 :: (List.finRange 256).drop 1 := by decide +kernel

theorem witness_BodyPayloadIsStored :
    (filling.port 0).state = .active ∧ lookup filling 0 1 = some 0 ∧ (filling.entry 0).assembly = .filling 5
      ∧ (1 : Half).toNat = (filling.entry 0).nextIndex ∧ (filling.record 5).damage.truncated = false
      ∧ (filling.record 5).pages.Nodup ∧ Memory.wf filling.store.mem = true
      ∧ (filling.record 5).bytes + 3 ≤ (filling.record 5).pages.length * 4096 := by decide +kernel

/-- A skipped index, a TRUNCATED frame, the page limit, a page granted and a page refused. -/
theorem witness_BodyPayload_skip :
    classifyDown (Segment.unit ⟨.body, false, 1, 4, 2, [10, 20, 30]⟩) = .wellFormed (.body 1 4 2 [10, 20, 30])
      ∧ (filling.entry 0).nextIndex < (2 : Half).toNat
      ∧ ((withFive filling fun x => { x with damage := ⟨false, true, false, false⟩ }).record 5).damage.truncated = true := by decide +kernel

theorem witness_BodyPayload_pages :
    ∀ s : State, s = withFive filling (fun x => { x with bytes := 4095 }) →
      (s.record 5).pages.length * 4096 < (s.record 5).bytes + 3
        ∧ (s.record 5).pages.length < (s.entry 0).current.maxPages
        ∧ (s.record 5).bytes + 3 ≤ ((s.record 5).pages.length + 1) * 4096 ∧ ((s.record 5).pages ++ [0]).Nodup
        ∧ s.store.freePages.head? = some 0
        ∧ ((withEntry s fun x => { x with current := { x.current with maxPages := 1 } }).entry 0).current.maxPages
          ≤ (s.record 5).pages.length
        ∧ ({ s with store := { s.store with freePages := [] } } : State).store.reclaim = [] := by rintro _ rfl; decide +kernel

theorem witness_FrameEndsReturnToIdle :
    (filling.entry 0).assembly = .filling 5 ∧ (filling.entry 0).staged = none ∧ (filling.port 0).state = .active
      ∧ lookup filling 0 1 = some 0 ∧ (filling.entry 0).stall = some 100 := by decide +kernel

/-- The retention modes, an undamaged and a damaged record, a ring below and at its depth, a staged image, DISCARDING. -/
theorem witness_FrameEnds_kept :
    bound.retention = .off ∧ (filling.record 5).forward = false ∧ (filling.record 5).pin = false
      ∧ (filling.record 5).ring = false ∧ (filling.record 5).damage = ⟨false, false, false, false⟩
      ∧ ((withFive filling fun x => { x with forward := true }).record 5).forward = true
      ∧ (({ bound with retention := .fill, ringDepth := 1 } : Image).ringDepth ≤ [(6 : RecordId)].length) := by decide +kernel

theorem witness_FrameEnds_joins :
    ∀ s : State, s = withEntry (withFive filling fun x => { x with damage := ⟨true, false, false, false⟩ })
        (fun x => { x with current := { x.current with retention := .oneShot } }) →
      (s.entry 0).current.retention = .oneShot ∧ (s.record 5).notRetainable = false
        ∧ (s.entry 0).ring.length < (s.entry 0).current.ringDepth ∧ (s.record 5).held = false
        ∧ (s.record 5).damage ≠ ⟨false, false, false, false⟩ ∧ Retention.rolling ≠ .oneShot := by rintro _ rfl; decide +kernel

theorem witness_FrameEnds_evicts :
    ∀ s : State, s = withEntry filling (fun x => { x with
        ring := [6], current := { x.current with retention := .rolling, ringDepth := 1 } }) →
      (6 : RecordId) ∈ (s.entry 0).ring.head? ∧ (s.entry 0).current.retention = .rolling
        ∧ (s.entry 0).ring.length = (s.entry 0).current.ringDepth ∧ (5 : RecordId) ≠ 6 ∧ (s.record 6).held = false
        ∧ (s.record 6).pin = false := by rintro _ rfl; decide +kernel

theorem witness_FrameEnds_staged :
    ((withEntry filling fun x => { x with staged := some bound }).entry 0).staged = some bound
      ∧ (filling.entry 0).assembly ≠ .idle ∧ ((streaming .discarding).entry 0).assembly = .discarding
      ∧ ((streaming .discarding).entry 0).stall = some 100
      ∧ classifyDown tailUnit = .wellFormed (.tail 1 4 1 3 0) := by decide +kernel

/-! ## Witnesses: ports -/

theorem witness_HoldTimerStartsAcquisition :
    ((ready.setPort 0 { portIn .lost with hold := some 9 }).port 0).state = .lost
      ∧ ((ready.setPort 0 { portIn .lost with hold := some 9 }).port 0).hold = some 9
      ∧ ({ Uplink.atReset with state := .lost, hold := some 9 } : Uplink).hold = some 9 := by decide +kernel

theorem witness_PowerGoodDecidesPort :
    ((ready.setPort 0 { portIn .powering with ramp := some 9 }).port 0).state = .powering
      ∧ ((ready.setPort 0 { portIn .powering with ramp := some 9 }).port 0).ramp = some 9
      ∧ ((ready.setPort 0 { portIn .lost with powered := true }).port 0).powered = true
      ∧ ((ready.setPort 0 { portIn .lost with powered := true }).port 0).state.receiving = true := by decide +kernel

theorem witness_TransmitterStartsFrontSegment :
    ((ready.setPort 0 { portIn .active with outTrigs := [⟨4, 3, 0xFF⟩] }).port 0).outTrigs = [⟨4, 3, 0xFF⟩]
      ∧ ((ready.setPort 0 { portIn .active with outMreqs := [⟨0, 1, 2, []⟩] }).port 0).outTrigs = []
      ∧ ((ready.setPort 0 { portIn .active with outMreqs := [⟨0, 1, 2, []⟩] }).port 0).outMreqs = [⟨0, 1, 2, []⟩]
      ∧ ((readyIn .active).port 0).outTrigs = [] ∧ ((readyIn .active).port 0).outMreqs = []
      ∧ ((readyIn .lost).port 0).state = .lost ∧ (ready.port 0).state = .off := by decide +kernel

theorem witness_SetPortActsByState :
    (ready.port 0).state = .off ∧ ((readyIn .active).port 0).state ≠ .off ∧ (0x10 : Byte) ≠ 0x0F
      ∧ 8 ≤ (8 : Byte).toNat ∧ (1 : Byte).toNat < 2 := by decide +kernel

/-- The row RECONFIGURED of R27's table: from ACTIVE, from another state, and into the state the port is in. -/
theorem witness_SetPort_reconfigured :
    ((readyIn .active).port 0).powered = !true ∧ ((readyIn .active).port 0).state = .active
      ∧ ((readyIn .lost).port 0).powered = !true ∧ ((readyIn .lost).port 0).state ≠ .active
      ∧ ((ready.setPort 0 { portIn .acquiring with powered := true }).port 0).powered = !false
      ∧ ((ready.setPort 0 { portIn .acquiring with powered := true }).port 0).state = .acquiring := by decide +kernel

/-- A disabled port that was OFF, in LOST and ACTIVE. -/
theorem witness_SetPort_disabled :
    (ready.port 0).state = .off ∧ ((readyIn .lost).port 0).state ≠ .off ∧ ((readyIn .lost).port 0).state ≠ .active
      ∧ (filling.port 0).state = .active ∧ filling.onPort 0 0 := by unfold State.onPort; decide +kernel

theorem witness_PortResetRestartsPort :
    ((readyIn .active).port 0).state = .active ∧ (ready.port 0).state ≠ .active ∧ (ready.port 0).enabled = false := by decide +kernel

/-- The notices of a port that leaves ACTIVE with a frame open: FRAME_DAMAGED, then PORT_STATE (R25, R26). -/
theorem test_port_lost_notices :
    (after (.silenceTimerExpiry (.down 0)) (filling.setPort 0 { filling.port 0 with silence := some 9 })).notices.queue.map (·.body)
      = [.frameDamaged 0 4 ⟨false, false, false, false⟩ .portLost 0 3, .portState 0 .active .lost .silence] := by decide +kernel

/-! ## Witnesses: stream table and frame store -/

/-- A block out of range, and the first index out of range. -/
theorem witness_WriteEntry_range :
    imageOf (blockOfImage { bound with ringDepth := 65 }) = none ∧ 32 ≤ (32 : Byte).toNat := by decide +kernel

theorem witness_WriteEntry_accepted :
    imageOf (blockOfImage bound) = some bound ∧ conflicts ready 0 bound = false
      ∧ (ready.entry 0).assembly = .idle ∧ conflicts filling 0 bound = false ∧ (filling.entry 0).assembly ≠ .idle
      ∧ ¬ (bound.forward = .withhold ∧ (bound.retention = .off ∨ bound.retention = .oneShot)) := by decide +kernel

theorem witness_WriteEntry_refused :
    conflicts filling 1 bound = true
      ∧ imageOf (blockOfImage { bound with forward := .withhold }) = some { bound with forward := .withhold }
      ∧ { bound with forward := .withhold }.retention = .off := by decide +kernel

/-- Activations over `bound` at an IDLE entry: of another identity, of another policy, uncorrelated, of another tag. -/
theorem witness_WriteEntry_activates :
    ((streaming .idle).entry 0).current = bound ∧ ((streaming .idle).entry 0).assembly = .idle
      ∧ conflicts (streaming .idle) 0 { bound with channel := 2 } = false
      ∧ ({ bound with channel := 2 } : Image).channel ≠ bound.channel
      ∧ ({ bound with ringDepth := 2 } : Image).ringDepth ≠ bound.ringDepth
      ∧ bound.correlated = true ∧ ({ bound with correlated := false } : Image).correlated = false
      ∧ ({ bound with tag := 9 } : Image).ringDepth = bound.ringDepth := by decide +kernel

theorem witness_HoldAndRelease :
    ringMember stored 0 4 = some 5 ∧ ringMember ready 0 4 = none ∧ stored.mayTake := ⟨by decide +kernel, by decide +kernel, rfl, rfl, by decide +kernel, rfl⟩

/-- Boundary indices, and a member that qualifies for the reclaim list. -/
theorem witness_Release_joins :
    32 ≤ (32 : Byte).toNat
      ∧ ∀ s : State, s = withFive stored (fun x => { x with forward := false, held := true }) →
        ringMember s 0 4 = some 5 ∧ (s.entry 0).ring.Nodup ∧ (s.record 5).state = .closed ∧ (s.record 5).ring = true
          ∧ (s.record 5).pin = false ∧ (s.record 5).forward = false ∧ (5 : RecordId) ∉ s.store.reclaim
          ∧ (5 : RecordId) ∈ ((after (.release 1 (byteOf 0) 4) s).entry 0).ring
          ∧ ((after (.release 1 (byteOf 0) 4) s).record 5).held = false := by
  refine ⟨by decide, ?_⟩; rintro _ rfl; decide +kernel

theorem witness_DropAndClear :
    1 ≤ (1 : Byte).toNat ∧ (64 : Byte).toNat ≤ 64 ∧ 64 < (65 : Byte).toNat ∧ (stored.entry 0).ring = [5] := by decide +kernel

theorem witness_ListFramesReports :
    (63 : Byte).toNat < 64 ∧ 64 ≤ (64 : Byte).toNat := by decide +kernel

theorem witness_RecordRequestOrder :
    ready.store.freeRecords = 0 :: (List.finRange 256).drop 1
      ∧ ({ stored with store := { stored.store with freeRecords := [], reclaim := [] } } : State).store.reclaim = []
      ∧ (stored.record 6).receiving = false ∧ (stored.record 6).pin = false ∧ (stored.record 6).forward = false
      ∧ ((stored.setRecord 6 { stored.record 6 with state := .closed }).record 6).state = .closed := by decide +kernel

theorem witness_PageRequestOrder :
    ready.store.freePages.head? = some 0
      ∧ ∀ s : State, s = { withFive stored (fun x => { x with forward := false }) with
          store := { (withFive stored fun x => { x with forward := false }).store with freePages := [], reclaim := [5] } } →
        s.store.reclaim = [5] ∧ (s.record 5).state = .closed ∧ (s.record 5).receiving = false
          ∧ (s.record 5).forward = false ∧ (s.record 5).pin = false ∧ (s.record 5).pages = [9] := by
  refine ⟨by decide +kernel, ?_⟩; rintro _ rfl; decide +kernel

/-! ## Witnesses: uplink and replay -/

theorem witness_GrantServesQueuesFirst :
    stored.uplink.state = .active ∧ stored.uplink.tx = none ∧ ready.uplink.state ≠ .active
      ∧ stored.agent.replies = [] ∧ stored.notices.queue = []
      ∧ ∀ c p, memberOffer { ready with uplink := stored.uplink } c p = none := by decide +kernel

theorem witness_GrantRotatesWithinClass :
    (∀ c' < (2 : ClassId), ∀ q, memberOffer stored c' q = none)
      ∧ (∀ k < (0 : Fin 33) - stored.uplink.starts[(2 : ClassId)], memberOffer stored 2 (stored.uplink.starts[(2 : ClassId)] + k) = none)
      ∧ (stored.entry 0).current.priority = 2 ∧ (stored.entry 0).forwardQueue = [5] ∧ (stored.entry 0).cursor = none := by decide +kernel

/-- `stored` part way through its forwarding. -/
def sending (bytes : Nat) : State := withEntry stored fun x => { x with cursor := some ⟨256, 7, 0, bytes, false⟩ }

theorem witness_Grant_turn :
    stored.turn 2 0 ∧ (withFive (sending 0) fun x => { x with bytes := 300 }).turn 2 0 ∧ (sending 0).turn 2 0
      ∧ (sending 3).turn 2 0 := by unfold State.turn; decide +kernel

theorem witness_Grant_segments :
    ((sending 0).entry 0).cursor = some ⟨256, 7, 0, 0, false⟩
      ∧ 256 ≤ ((withFive (sending 0) fun x => { x with bytes := 300 }).record 5).bytes - 0
      ∧ ((sending 0).record 5).bytes - 0 = 3 ∧ ((sending 0).record 5).state = .closed
      ∧ ((sending 0).record 5).close = some .tail ∧ ((sending 3).record 5).bytes ≤ 3 := by decide +kernel

/-- A replay of record 5 alone: the engine at work on one request, with or without a cursor. -/
def atWork (e : EngineState) (k : Option Cursor) : State :=
  { withEntry stored (fun x => { x with forwardQueue := [] }) with
    replay := { ReplayService.atReset with
      queue := [⟨1, 0, 4, 1, true, [], false⟩], engine := e, pinned := some 5, cursor := k } }

theorem witness_Grant_replay :
    (atWork .sending none).turn 3 32 ∧ (atWork .sending (some ⟨256, 7, 0, 0, false⟩)).turn 3 32
      ∧ (atWork .sending (some ⟨256, 7, 1, 3, false⟩)).turn 3 32 ∧ (atWork .closing (some ⟨256, 7, 0, 0, false⟩)).turn 3 32
      ∧ (atWork .sending none).uplink.replayClass = 3 := by unfold State.turn; decide +kernel

theorem witness_CompletedSegmentLeaves :
    Segment.filler.kind = .link ∧ (Reply.segment ⟨0x0F, 1, [1, 0], false⟩).kind = .mrep
      ∧ (Notice.segment ⟨0, 0, .uplinkState .none⟩).kind = .note ∧ (stored.entry 0).forwardQueue = [5]
      ∧ stored.notices.lost = 0 ∧ stored.agent.requests = []
      ∧ (headSegment false 7 (stored.record 5) 0).kind = .head ∧ (tailSegment false 7 (stored.record 5) 1 3 0).kind = .tail := by decide +kernel

/-- Outside ACTIVE filler is on the link; RESET_PART's reply; lost notices. -/
theorem witness_Completed_filler :
    State.reset.uplink.state ≠ .active ∧ State.reset.uplink.tx = some ⟨.filler, ⟨.link, false, 0, 0, 0, []⟩⟩
      ∧ (Reply.mk 0x0F 1 [2, 0, 0xFF] true).resets = true ∧ AgentState.resetPending none = .resetPending none
      ∧ 0 < ({ NoticeUnit.atReset with lost := 1 } : NoticeUnit).lost
      ∧ (∀ x ∈ [(⟨0, 0, .uplinkState .none⟩ : Notice)], x.isLost = false)
      ∧ Notice.isLost ⟨0, 0, .noticesLost 1⟩ = true := by decide +kernel

/-- The pinned record of `atWork` ends its request; with one frame more the next ring member is pinned. -/
theorem witness_Completed_replay :
    (atWork .sending none).replay.pinned = some 5 ∧ ([] : List FrameOutcome).length + 1 = 1
      ∧ ∀ s : State, s = withEntry ((withFive (atWork .sending none) fun x => { x with ring := true }).setRecord 6
            { openRecord with frame := 5, state := .closed, receiving := false, ring := true })
          (fun x => { x with ring := [5, 6] }) →
        (s.record 5).ring = true ∧ (s.entry (s.record 5).entry).ring.length ≤ (s.entry (s.record 5).entry).current.ringDepth
          ∧ ringMember s 0 (4 + BitVec.ofNat 16 (0 + 1)) = some 6 ∧ (6 : RecordId) ≠ 5 := by
  refine ⟨by decide +kernel, by decide, ?_⟩; rintro _ rfl; decide +kernel

theorem witness_SilenceLosesUplink :
    stored.uplink.state = .active ∧ stored.uplink.silence = some 50 ∧ stored.agent.state = .ready
      ∧ stored.replay.engine = .idle := by decide +kernel

theorem witness_SilenceLosesUplink_replay :
    (atWork .sending none).replay.engine ≠ .idle ∧ (atWork .sending none).uplink.silence = some 50
      ∧ (atWork .sending none).replay.queue.head? = some ⟨1, 0, 4, 1, true, [], false⟩
      ∧ ({ stored.agent with state := .resetPending (some 0) } : Agent).state = .resetPending (some 0) := by decide +kernel

theorem witness_UplinkUnitsReachAgent :
    State.reset.starting = true ∧ stored.starting = false ∧ stored.uplink.state = .active
      ∧ classifyUp (Mreq.segment ⟨0, 1, 2, []⟩).unit = .wellFormed (.mreq ⟨0, 1, 2, []⟩)
      ∧ (0 : Byte) = byteOf (0 : PortId).val ∧ (stored.port 0).state = .active ∧ stored.agent.requests = []
      ∧ (stored.port 0).outTrigs.length + (stored.port 0).outMreqs.length < 4
      ∧ classifyUp (Mreq.segment ⟨0x0F, 1, 2, []⟩).unit = .wellFormed (.mreq ⟨0x0F, 1, 2, []⟩)
      ∧ AgentState.resetPending none ≠ .ready := by decide +kernel

theorem witness_UplinkUnits_acquire :
    ({ ready.uplink with acqRun := 7 } : Uplink).acqRun = 7 ∧ ready.uplink.state = .acquiring ∧ ready.starting = false
      ∧ ready.replay.queue = [] ∧ classifyUp badUnit = .badCheck ∧ classifyUp linkUnit ≠ .badCheck
      ∧ ({ stored.uplink with badRun := 15 } : Uplink).badRun = 15 := by decide +kernel

/-- The runs below their ends, a malformed and a LINK unit, and LOST. -/
theorem witness_UplinkUnits_runs :
    ready.uplink.acqRun < 7 ∧ ({ ready.uplink with acqRun := 6 } : Uplink).acqRun < 7 ∧ stored.uplink.badRun < 15
      ∧ ({ stored.uplink with badRun := 14 } : Uplink).badRun < 15 ∧ classifyUp oddUnit = .malformed
      ∧ classifyUp linkUnit = .wellFormed .link ∧ ({ stored.uplink with state := .lost } : Uplink).state = .lost := by decide +kernel

/-- A camera whose port is not ACTIVE, a full output queue, a full reply queue, a full request queue, an operation. -/
theorem witness_UplinkUnits_refused :
    (stored.port 1).state ≠ .active ∧ ¬ 16 ≤ stored.agent.replies.length + stored.agent.reserved.toNat
      ∧ 4 ≤ (List.replicate 4 (⟨1, 1, 1⟩ : Trig)).length
      ∧ 16 ≤ (List.replicate 16 (⟨0x0F, 1, [1, 0], false⟩ : Reply)).length
      ∧ 8 ≤ (List.replicate 8 (⟨0x0F, 1, 1, []⟩ : Mreq)).length ∧ 8 ≤ (0x0F : Byte).toNat
      ∧ classifyUp (Mreq.segment ⟨1, 1, 2, []⟩).unit = .wellFormed (.mreq ⟨1, 1, 2, []⟩)
      ∧ parseOp 1 [] = .ok .describe
      ∧ classifyUp (Mreq.segment ⟨0x0F, 1, 1, []⟩).unit = .wellFormed (.mreq ⟨0x0F, 1, 1, []⟩) := by decide +kernel

theorem witness_UplinkUnits_mayTake :
    stored.mayTake ∧ stored.agent.requests = [] := ⟨⟨rfl, rfl, by decide +kernel, rfl⟩, rfl⟩

theorem witness_SetUplinkStoresSettings :
    (⟨512, byteOf (3 : ClassId).val, 8⟩ : UplinkBlock).segmentSize = 512 ∧ (8 : Byte).toNat ≤ 8 ∧ 8 < (9 : Byte).toNat
      ∧ (⟨511, 0, 1⟩ : UplinkBlock).segmentSize ≠ 512 := by decide +kernel

theorem witness_ReplayJoinsQueue :
    (filling.entry 0).current.valid = true ∧ filling.replay.queue.length < 16 ∧ filling.uplink.state ≠ .active
      ∧ (ready.entry 0).current.valid = false ∧ 1 ≤ (16 : Byte).toNat ∧ (16 : Byte).toNat ≤ 16 ∧ 16 < (17 : Byte).toNat
      ∧ filling.replay.nextId ≠ 0 := by decide +kernel

/-- A request that is taken as it joins: the engine IDLE, the uplink ACTIVE, the queue empty, its first frame stored. -/
theorem witness_ReplayJoins_taken :
    (stored.entry 0).current.valid = true ∧ stored.replay.engine = .idle ∧ stored.uplink.state = .active
      ∧ stored.replay.queue = [] ∧ ringMember stored 0 4 = some 5 := by decide +kernel

/-- A request for frame 4 of entry 0, in a part whose frame is stored. -/
def waiting : ReplayRequest := ⟨1, 0, 4, 1, false, [], false⟩

/-- `stored` with one request in the replay queue. -/
def replaying (q : ReplayRequest) (e : EngineState) : State :=
  { stored with replay := { stored.replay with queue := [q], engine := e, cursor := if e = .idle then none else some ⟨256, 7, 0, 0, false⟩ } }

theorem witness_CancelReplayByState :
    (replaying waiting .idle).replay.queue.find? (fun q => q.id == 1) = some waiting
      ∧ (replaying waiting .idle).replay.queue.find? (fun q => q.id == 2) = none
      ∧ waiting.active = false ∧ waiting.outcomes = [] ∧ { waiting with active := true }.active = true
      ∧ (replaying { waiting with active := true } .sending).replay.cursor ≠ none
      ∧ (replaying { waiting with active := true } .closing).replay.engine = .closing := by decide +kernel

theorem witness_CancelReplay_beforeHead :
    (atWork .sending none).replay.queue.find? (fun q => q.id == 1) = some ⟨1, 0, 4, 1, true, [], false⟩
      ∧ (atWork .sending none).replay.engine = .sending ∧ (atWork .sending none).replay.cursor = none
      ∧ (atWork .sending none).replay.pinned = some 5 := by decide +kernel

theorem witness_ReplayTakeServesHead :
    (replaying waiting .idle).replay.queue = [waiting] ∧ (replaying waiting .idle).replay.engine = .idle
      ∧ (replaying waiting .idle).uplink.state = .active ∧ 0 < waiting.count ∧ waiting.gone = false
      ∧ ringMember (replaying waiting .idle) waiting.entry waiting.first = some 5
      ∧ { waiting with gone := true }.gone = true ∧ (replaying waiting .idle).replay.pinned = none
      ∧ (replaying waiting .sending).replay.engine ≠ .idle := by decide +kernel

/-- Frames 2 and 3 of a request for frames 2 to 4 are MISSING before frame 4 is pinned; one of frames 2 and 3 has none. -/
theorem witness_ReplayTake_missing :
    (2 : Nat) < 3 ∧ (∀ j < 2, ringMember stored 0 (2 + BitVec.ofNat 16 j) = none)
      ∧ ringMember stored 0 (2 + BitVec.ofNat 16 2) = some 5
      ∧ ({ waiting with first := 2, count := 2 } : ReplayRequest).gone = false
      ∧ (replaying { waiting with first := 2, count := 2 } .idle).replay.pinned = none := by decide +kernel

/-! ## Witnesses: triggers -/

/-- A generator on port 0 that watches line 2, with a pending trigger 3. -/
def armed : Generator :=
  { Generator.atReset with
    config := { TrigConfig.factory with source := .line, line := 2 }, state := .armed, debounce := some 9,
    pendings := [⟨3, 0, 100, [0]⟩] }

/-- A burst with this many pulses left. -/
def burst (remaining : Byte) : Generator :=
  { Generator.atReset with
    config := { TrigConfig.factory with source := .burst, gate := some 1 }, state := .running,
    remaining := remaining, period := some 9 }

theorem witness_DebounceFollowsLine :
    ready.tin[(2 : LineId)] = false ∧ ready.tin[(2 : LineId)] ≠ true ∧ ready.starting = false
      ∧ (∀ n, ((ready.setGen 0 armed).gen n).config.watched = some 2 → ((ready.setGen 0 armed).gen n).config.debounce ≠ 0)
      ∧ ((ready.setGen 0 armed).gen 0).debounce = some 9
      ∧ rawLevel (ready.setGen 0 armed) armed.config = armed.level := by decide +kernel

/-- Debounce 0; an edge at an ARMED generator, issued or not configured; a gate that becomes inactive and active. -/
theorem witness_DebounceFollowsLine_edges :
    ({ armed.config with debounce := 0 } : TrigConfig).debounce = 0 ∧ armed.state = .armed ∧ armed.config.source = .line
      ∧ armed.config.edge = .rising
      ∧ rawLevel ({ stored with tin := stored.tin.set 2 true }) armed.config ≠ armed.level
      ∧ rawLevel stored { armed.config with line := 2 } ≠ ({ armed with level := true } : Generator).level
      ∧ (stored.port 0).state = .active ∧ armed.pendings.length < 8
      ∧ (stored.port 0).outTrigs.length + (stored.port 0).outMreqs.length < 4
      ∧ (burst 1).state = .running ∧ (burst 1).config.gateLevel = true
      ∧ rawLevel stored (burst 1).config ≠ (burst 1).config.gateLevel
      ∧ rawLevel stored (burst 1).config ≠ ({ burst 1 with level := true } : Generator).level
      ∧ rawLevel ({ stored with tin := stored.tin.set 1 true }) (burst 1).config = (burst 1).config.gateLevel
      ∧ rawLevel ({ stored with tin := stored.tin.set 1 true }) (burst 1).config ≠ (burst 1).level := by decide +kernel

theorem witness_PeriodExpiryCountsDown :
    ((ready.setGen 0 (burst 1)).gen 0).state = .running ∧ ((ready.setGen 0 (burst 1)).gen 0).period = some 9
      ∧ (burst 1).remaining = 1 ∧ (burst 0xFF).remaining = 0xFF
      ∧ 1 < (burst 2).remaining.toNat ∧ (burst 0xFE).remaining.toNat < 0xFF := by decide +kernel

/-- The attempt: not ACTIVE, 8 pending triggers, room, an MREQ to displace, 4 TRIGs. -/
theorem witness_PeriodExpiry_attempt :
    (ready.port 0).state ≠ .active ∧ (stored.port 0).state = .active
      ∧ 7 ≤ (List.replicate 7 (⟨3, 0, 100, [0]⟩ : PendingTrigger)).length
      ∧ ((stored.setGen 0 (burst 2)).gen 0).pendings.length < 8
      ∧ (stored.port 0).outTrigs.length + (stored.port 0).outMreqs.length < 4
      ∧ 4 ≤ (List.replicate 3 (⟨1, 1, 1⟩ : Trig)).length + [(⟨0, 1, 2, []⟩ : Mreq)].length
      ∧ 4 ≤ (List.replicate 4 (⟨1, 1, 1⟩ : Trig)).length := by decide +kernel

theorem witness_WindowExpiryReportsMissed :
    ((ready.setGen 0 armed).gen 0).pendings.find? (fun p => p.number == 3) = some ⟨3, 0, 100, [0]⟩ := by decide +kernel

/-- Entries still outstanding are reported in ascending order, each once. -/
theorem test_missed_in_order :
    (PendingTrigger.mk 3 0 100 [7, 0, 4, 7]).unanswered = [0, 4, 7] := by decide +kernel

theorem witness_TrigConfigStoresWhenIdle :
    trigConfigOf (blockOfTrig .factory) = some .factory ∧ (ready.gen 0).state = .idle
      ∧ ((ready.setGen 0 armed).gen 0).state ≠ .idle
      ∧ trigConfigOf { blockOfTrig .factory with edge := 3 } = none := by decide +kernel

theorem witness_TrigStartBySource :
    (ready.gen 0).config.source = .none ∧ armed.config.source = .line ∧ armed.state ≠ .idle
      ∧ { armed with state := .idle }.state = .idle ∧ (burst 1).config.source = .burst
      ∧ (∀ l, { burst 1 with level := true }.config.gate = some l → { burst 1 with level := true }.level = (burst 1).config.gateLevel)
      ∧ (burst 1).config.gate = some 1 ∧ (burst 1).level ≠ (burst 1).config.gateLevel := by decide +kernel

theorem witness_TrigNowIssues :
    (ready.port 0).state ≠ .active ∧ (stored.port 0).state = .active ∧ (stored.gen 0).pendings.length < 8
      ∧ (stored.port 0).outTrigs.length + (stored.port 0).outMreqs.length < 4
      ∧ 7 ≤ (List.replicate 7 (⟨3, 0, 100, [0]⟩ : PendingTrigger)).length := by decide +kernel

/-- A full output queue with an MREQ to displace, and one of 4 TRIGs. -/
theorem witness_TrigNow_full :
    (stored.gen 0).pendings.length < 8
      ∧ 4 ≤ (List.replicate 3 (⟨1, 1, 1⟩ : Trig)).length + [(⟨0, 1, 2, []⟩ : Mreq)].length
      ∧ [(⟨0, 1, 2, []⟩ : Mreq)].getLast? = some ⟨0, 1, 2, []⟩
      ∧ 4 ≤ (List.replicate 4 (⟨1, 1, 1⟩ : Trig)).length := by decide +kernel

/-- Slot 0 as manufactured is VALID. -/
theorem factory_valid : (ready.flash.slots[(0 : SlotId)]).code = 0x01 :=
  Slot.code_eq_one.2 (by
    have : ready.flash.slots[(0 : SlotId)] = Slot.factory := rfl
    rw [this, Slot.profile?_factory]; rfl)

/-! ## Witnesses: notices, counters and management -/

theorem witness_NoticeOfferThreeWays :
    (NoticeBody.uplinkState .none).maskable = true ∧ (0 : Half).getLsbD (NoticeBody.uplinkState .none).kind = false
      ∧ (NoticeBody.noticesLost 1).maskable = false ∧ ready.notices.queue.length < 32 ∧ ready.notices.lost ≤ 65535
      ∧ 32 ≤ (List.replicate 32 (⟨0, 0, .uplinkState .none⟩ : Notice)).length := by decide +kernel

theorem witness_NoticeMaskKeepsUnmaskable :
    (0x8000 : Half) &&& 0xE001 ≠ 0 ∧ (0x1FFE : Half) &&& 0xE001 = 0 := by decide +kernel

theorem witness_CountersReadAndCleared :
    6 ≤ (6 : Byte).toNat ∧ 8 ≤ (8 : Byte).toNat ∧ 32 ≤ (32 : Byte).toNat ∧ (1 : Byte) ≠ 0 := by decide +kernel

theorem witness_ResetPartWaitsForItsReply :
    4 ≤ (4 : Byte).toNat ∧ (4 : Byte) ≠ 0xFF ∧ (3 : Byte) = byteOf (3 : SlotId).val ∧ stored.uplink.state = .active
      ∧ ready.uplink.state ≠ .active := by decide +kernel

theorem witness_RequestTakeExecutesOldest :
    argLengths 0x99 = none ∧ argLengths 0x41 = some [2] ∧ [(1 : Byte)].length ∉ [2] ∧ (0x0F : Byte) ≠ 0x10 := by decide +kernel

theorem witness_RequestTake_operation :
    opCode .describe = 1 ∧ opArgs .describe = [] ∧ opCode .storeClear = 0x24
      ∧ ({ ready with agent := { ready.agent with requests := [⟨0x0F, 1, 1, []⟩, ⟨0x0F, 2, 0x24, []⟩] } } : State).mayTake :=
  ⟨by decide, by decide, by decide, rfl, rfl, by decide +kernel, rfl⟩

theorem witness_LongOperationsStart :
    ready.agent.longOp = none ∧ (ready.flash.slots[(0 : SlotId)]).code = 0x01
      ∧ (ready.flash.slots[(1 : SlotId)]).code ≠ 0x01 ∧ (3 : SlotId) ≠ 0
      ∧ ({ ready.agent with longOp := some (.load, 1) } : Agent).longOp ≠ none :=
  ⟨rfl, factory_valid, by decide +kernel, by decide, by decide⟩

theorem witness_FlashWorkCompletes :
    ({ ready.agent with longOp := some (.save, 3) } : Agent).longOp = some (.save, 3) ∧ (3 : SlotId) ≠ 0
      ∧ ({ ready.flash with staging := some .factory } : ProfileStore).staging = some .factory := by decide +kernel

theorem witness_ProfileLoadApplies :
    ({ ready.agent with longOp := some (.load, 0) } : Agent).longOp = some (.load, 0)
      ∧ ready.flash.slots[(0 : SlotId)] = .written .factory (Profile.check .factory) :=
  ⟨rfl, by rw [Profile.check_factory]; rfl⟩

/-- At a load: a frame open, an entry kept and one whose identity changes, settings that differ in each way. -/
theorem witness_ProfileLoad_parts :
    (filling.entry 0).assembly = .filling 5 ∧ (∀ r, ((streaming .idle).entry 0).assembly ≠ .filling r)
      ∧ identityDiffers bound (Image.default 0) = true ∧ identityDiffers bound bound = false
      ∧ ((readyIn .active).port 0).state = .active
      ∧ (true, true) ≠ (((readyIn .active).port 0).enabled, ((readyIn .active).port 0).powered)
      ∧ (readyIn .active).loadedState .factory 1 ≠ (ready.port 1).state := by
  refine ⟨by decide +kernel, fun r => ?_, by decide +kernel, by decide +kernel, by decide +kernel, by decide +kernel, by decide +kernel⟩
  rw [show ((streaming .idle).entry 0).assembly = .idle by decide +kernel]
  exact fun h => by cases h

/-- The one frame open at a load, on channel 1 of port 0, and a channel without one. -/
theorem witness_ProfileLoad_late :
    (filling.entry 0).current.port = 0 ∧ (filling.entry 0).current.channel = 1 ∧ (filling.record 5).frame = 4
      ∧ (∀ f, f ≠ 0 → (filling.entry f).assembly = .idle)
      ∧ ∀ e, (filling.entry e).assembly = .idle ∨ (filling.entry e).current.channel ≠ 0 := by decide +kernel

/-- Settings at a load: a disabled port, a powered setting that changes, an enabled port that was OFF, and equal ones. -/
theorem witness_ProfileLoad_settings :
    (readyIn .active).loadedState { Profile.factory with ports := Vector.replicate 8 (false, false) } 0 = .off
      ∧ (readyIn .active).loadedState { Profile.factory with ports := Vector.replicate 8 (true, true) } 0 = .powering
      ∧ ready.loadedState { Profile.factory with ports := Vector.replicate 8 (true, false) } 0 = .acquiring
      ∧ (readyIn .active).loadedState { Profile.factory with ports := Vector.replicate 8 (true, false) } 0 = .active := by decide +kernel

/-- Each kind of work that a reset can cut, and the slot chosen VALID or not. -/
theorem witness_HardResetRestoresResetValues :
    ready.agent.longOp = none ∧ (ready.flash.slots[(none : Option SlotId).getD (ready.flash.selector.getD 0)]).code = 0x01
      ∧ (ready.flash.slots[(some (1 : SlotId)).getD (ready.flash.selector.getD 0)]).code ≠ 0x01
      ∧ ({ ready.agent with longOp := some (.save, 3) } : Agent).longOp = some (.save, 3)
      ∧ ({ ready.agent with longOp := some (.save, 0) } : Agent).longOp = some (.save, 0)
      ∧ ({ ready.agent with longOp := some (.select, 2) } : Agent).longOp = some (.select, 2)
      ∧ ({ ready.agent with longOp := some (.load, 0) } : Agent).longOp = some (.load, 0) :=
  ⟨rfl, factory_valid, by decide +kernel, rfl, rfl, rfl, rfl⟩

theorem witness_StartUpLoadApplies :
    State.reset.starting = true
      ∧ State.reset.flash.slots[State.reset.flash.record.slot] = .written .factory (Profile.check .factory)
      ∧ (∀ n, State.reset.port n = Port.atReset) ∧ (∀ e, State.reset.entry e = Entry.atReset e)
      ∧ State.reset.notices = NoticeUnit.atReset :=
  ⟨rfl, by rw [Profile.check_factory]; rfl, by decide +kernel, by decide +kernel, rfl⟩

end Sys2Proof.Tests

end
end

section
/-!
GET_PORT (R28): the two result blocks as the statement writes them out, the answer for each class of port byte, and the
statement O23.
-/

namespace Sys2Proof.Machine

open Sys2Proof

/-- What GET_PORT reports as the pending target: ACQUIRING while POWERING, else the state (R28). -/
theorem PortState.code_target (st : PortState) : st.target.code = if st = .powering then 0x02 else st.code := by
  cases st <;> rfl

/-- A downstream port's byte is not the uplink's. -/
theorem byteOf_port_ne_uplink (n : PortId) : byteOf n.val ≠ 0x0F := by
  revert n
  decide

/-- The result block of a downstream port, its eleven one-byte fields in one list. -/
theorem portReport_eq (n : PortId) (p : Port) (powerGood : Bool) :
    portReport n p powerGood =
      [byteOf n.val, if p.enabled then 1 else 0, if p.powered then 1 else 0, p.state.code,
        if p.state = .powering then 0x02 else p.state.code, if p.fault then 1 else 0,
        if powerGood then 1 else 0, byteOf p.acqRun, byteOf p.badRun,
        byteOf p.outTrigs.length, byteOf p.outMreqs.length]
        ++ wordBytes p.counters.segIn ++ wordBytes p.counters.badCheck
        ++ wordBytes p.counters.malformed ++ wordBytes p.counters.unknownChannel
        ++ wordBytes p.counters.orphan ++ wordBytes p.counters.stale := by
  rw [← PortState.code_target]
  rfl

/-- The result block of the uplink, its two unused counter fields as bytes. -/
theorem uplinkReport_eq (u : Uplink) :
    uplinkReport u =
      [0x0F, 1, 0, u.state.code, u.state.code, 0, 0, byteOf u.acqRun, byteOf u.badRun, 0, 0]
        ++ wordBytes u.segIn ++ wordBytes u.badCheck ++ wordBytes u.segOut
        ++ wordBytes u.downSkipped ++ [0, 0, 0, 0] ++ [0, 0, 0, 0] := rfl

theorem opGetPort_port (n : PortId) (s : State) :
    opGetPort (byteOf n.val) s = accept (portReport n (s.port n) s.pg[n]) s := by
  simp only [opGetPort, if_neg (byteOf_port_ne_uplink n), indexBelow_byteOf 8 n (by decide)]

theorem opGetPort_uplink (s : State) : opGetPort 0x0F s = accept (uplinkReport s.uplink) s := rfl

theorem opGetPort_outOfRange (a : Byte) (hu : a ≠ 0x0F) (ha : 8 ≤ a.toNat) (s : State) :
    opGetPort a s = refuse .badArgument s := by
  simp only [opGetPort, if_neg hu, indexBelow_none 8 a ha]

/-- GET_PORT, when the agent may take a request, is a read: whatever its block answers is the reply, and the rest of the
state is as it was. -/
theorem exec_getPort_read (tag : Half) (a : Byte) (s : State) (st : Status) (r : List Byte) (h : s.mayTake)
    (ho : opGetPort a (setReserved true s) = (setReserved true s, ⟨st, r⟩)) :
    exec (.getPort tag a) s = .next (s.withReply tag 0x11 st.code r) :=
  congrArg Host.Outcome.next (hostRequest_read tag (.getPort a) s st r h ho rfl (.inl rfl))

/-- Settles O23: GET_PORT is a read, so each clause is what the port block answers to one class of port byte. -/
theorem getPortReports : Obligations.GetPortReports := by
  intro tag s h
  refine ⟨fun n => ?port, ?uplink, fun a hu ha => ?outOfRange⟩
  case port =>
    rw [← portReport_eq]
    exact exec_getPort_read tag _ s .ok _ h (opGetPort_port n _)
  case uplink =>
    rw [← uplinkReport_eq]
    exact exec_getPort_read tag _ s .ok _ h (opGetPort_uplink _)
  case outOfRange => exact exec_getPort_read tag a s .badArgument [] h (opGetPort_outOfRange a hu ha _)

end Sys2Proof.Machine
end

section
/-!
READ_ENTRY (R52): the answer for each class of entry byte, and the statement O25.
-/

namespace Sys2Proof.Machine

open Sys2Proof

/-- An entry byte 00h to 1Fh is answered with that entry's block, and the state is not touched. -/
theorem opReadEntry_entry (e : EntryId) (s : State) :
    opReadEntry (byteOf e.val) s = accept (entryReport e (s.entry e)) s := by
  simp only [opReadEntry, indexBelow_byteOf 32 e (by decide)]

theorem opReadEntry_outOfRange (a : Byte) (ha : 32 ≤ a.toNat) (s : State) :
    opReadEntry a s = refuse .badArgument s := by
  simp only [opReadEntry, indexBelow_none 32 a ha]

/-- READ_ENTRY, when the agent may take a request, is a read: whatever the stream table answers is the reply, and the
rest of the state is as it was. -/
theorem exec_readEntry_read (tag : Half) (a : Byte) (s : State) (st : Status) (r : List Byte) (h : s.mayTake)
    (ho : opReadEntry a (setReserved true s) = (setReserved true s, ⟨st, r⟩)) :
    exec (.readEntry tag a) s = .next (s.withReply tag 0x18 st.code r) :=
  congrArg Host.Outcome.next (hostRequest_read tag (.readEntry a) s st r h ho rfl (.inl rfl))

/-- Settles O25: READ_ENTRY is a read, so each clause is what the stream table answers to one class of entry byte. The
block that the statement writes out is `entryReport`, with `stagedBytes` and `expectedBytes` in their places. -/
theorem readEntryReports : Obligations.ReadEntryReports := by
  intro tag s h
  refine ⟨fun e => ?entry, fun a ha => ?outOfRange⟩
  case entry =>
    change exec _ s = .next (s.withReply tag 0x18 0x00 (entryReport e (s.entry e)))
    exact exec_readEntry_read tag _ s .ok _ h (opReadEntry_entry e _)
  case outOfRange => exact exec_readEntry_read tag a s .badArgument [] h (opReadEntry_outOfRange a ha _)

end Sys2Proof.Machine
end

section
/-!
LIST_FRAMES (R94): the result block as the statement writes it out, the answer for each class of arguments, and the
statement O30.
-/

namespace Sys2Proof.Machine

open Sys2Proof

theorem within_of_range {a b n : Nat} (h : a ≤ n ∧ n ≤ b) : within a b n = some n := if_pos h

theorem within_above {a b n : Nat} (h : b < n) : within a b n = none :=
  if_neg fun hr => Nat.not_le_of_lt h hr.2

/-- A byte's value, sent as a byte, is that byte. -/
theorem byteOf_toNat (b : Byte) : byteOf b.toNat = b :=
  (BitVec.ofNat_toNat 8 b).trans (BitVec.setWidth_eq b)

/-- The summary of a ring member, its four one-byte fields in one list. -/
theorem summaryBytes_eq (x : Record) :
    summaryBytes x =
      halfBytes x.frame
        ++ [match x.close with | some c => c.code | none => 0, x.damage.code, if x.held then 1 else 0,
          if x.pin then 1 else 0]
        ++ wordOf x.bytes ++ timeBytes x.headTime := by
  unfold summaryBytes
  cases x.close <;> rfl

/-- The result block for a start byte: the header gives it back as requested. -/
theorem framesReport_eq (s : State) (e : EntryId) (b : Byte) :
    framesReport s e b.toNat =
      [byteOf e.val] ++ halfOf (s.entry e).ring.length ++ [b]
        ++ [byteOf (((s.entry e).ring.drop b.toNat).take 32).length]
        ++ (((s.entry e).ring.drop b.toNat).take 32).flatMap fun r => summaryBytes (s.record r) := by
  simp only [framesReport, byteOf_toNat]
  rfl

/-- An entry byte 00h to 1Fh and a start 00h to 3Fh are answered with that entry's ring, and the state is not touched. -/
theorem opListFrames_entry (e : EntryId) (b : Byte) (hb : b.toNat < 64) (s : State) :
    opListFrames (byteOf e.val) b s = accept (framesReport s e b.toNat) s := by
  simp only [opListFrames, indexBelow_byteOf 32 e (by decide),
    within_of_range (⟨Nat.zero_le _, Nat.le_of_lt_succ hb⟩ : 0 ≤ b.toNat ∧ b.toNat ≤ 63)]

theorem opListFrames_outOfRange (a b : Byte) (h : 32 ≤ a.toNat ∨ 64 ≤ b.toNat) (s : State) :
    opListFrames a b s = refuse .badArgument s := by
  unfold opListFrames
  rcases h with ha | hb
  · rw [indexBelow_none 32 a ha]
  · rw [within_above hb]
    cases indexBelow 32 a <;> rfl

/-- LIST_FRAMES, when the agent may take a request, is a read: whatever the frame store answers is the reply, and the
rest of the state is as it was. -/
theorem exec_listFrames_read (tag : Half) (a b : Byte) (s : State) (st : Status) (r : List Byte) (h : s.mayTake)
    (ho : opListFrames a b (setReserved true s) = (setReserved true s, ⟨st, r⟩)) :
    exec (.listFrames tag a b) s = .next (s.withReply tag 0x20 st.code r) :=
  congrArg Host.Outcome.next (hostRequest_read tag (.listFrames a b) s st r h ho rfl (.inl rfl))

/-- Settles O30: LIST_FRAMES is a read, so each clause is what the frame store answers to one class of arguments. The
block that the statement writes out is `framesReport`, with each ring member's `summaryBytes` in its place. -/
theorem listFramesReports : Obligations.ListFramesReports := by
  intro tag s h
  refine ⟨fun a b hab => ?outOfRange, fun e b hb => ?entry⟩
  case outOfRange => exact exec_listFrames_read tag a b s .badArgument [] h (opListFrames_outOfRange a b hab _)
  case entry =>
    have hr := framesReport_eq s e b
    simp only [summaryBytes_eq] at hr
    exact (exec_listFrames_read tag _ b s .ok _ h (opListFrames_entry e b hb _)).trans
      (congrArg (fun r => Host.Outcome.next (s.withReply tag 0x20 0x00 r)) hr)

end Sys2Proof.Machine
end

section
/-!
The offer of a notice (R163): when a body passes the mask, what each of the three outcomes is, and the statement O49.
-/

namespace Sys2Proof.Machine

open Sys2Proof

/-- The mask holds back a body exactly when it is maskable and the bit of its kind is clear. -/
theorem noticeEnabled_eq_false (m : Half) (b : NoticeBody) :
    noticeEnabled m b = false ↔ b.maskable = true ∧ m.getLsbD b.kind = false := by
  simp only [noticeEnabled, Bool.or_eq_false_iff, Bool.not_eq_false']

theorem noticeEnabled_eq_true (m : Half) (b : NoticeBody) :
    noticeEnabled m b = true ↔ b.maskable = false ∨ m.getLsbD b.kind = true := by
  simp only [noticeEnabled, Bool.or_eq_true, Bool.not_eq_true']

theorem pushNotice_eq (b : NoticeBody) (s : State) :
    pushNotice b s = { s with notices := { s.notices with
      queue := s.notices.queue ++ [⟨s.notices.seq, s.partTime, b⟩], seq := s.notices.seq + 1 } } := rfl

/-- A count within its 16 bits grows by one and stays at the top (R163 step 2). -/
theorem loseNotice_eq (s : State) (hl : s.notices.lost ≤ 65535) :
    loseNotice s = { s with notices := { s.notices with lost := min (s.notices.lost + 1) 65535 } } := by
  have hcount : (if s.notices.lost < 65535 then s.notices.lost + 1 else 65535) = min (s.notices.lost + 1) 65535 := by
    split <;> omega
  rw [← hcount]
  rfl

/-- R163 step 1. -/
theorem offerNotice_masked {b : NoticeBody} {s : State} (h : noticeEnabled s.notices.mask b = false) :
    offerNotice b s = s := by
  rw [offerNotice, h, if_neg Bool.false_ne_true]

/-- R163 step 2: the queue of 32 notices is full. -/
theorem offerNotice_full {b : NoticeBody} {s : State} (h : noticeEnabled s.notices.mask b = true)
    (hq : 32 ≤ s.notices.queue.length) : offerNotice b s = loseNotice s := by
  rw [offerNotice, if_pos h]
  exact if_neg (Nat.not_lt_of_le hq)

/-- R163 step 3: the queue has room. -/
theorem offerNotice_room {b : NoticeBody} {s : State} (h : noticeEnabled s.notices.mask b = true)
    (hq : s.notices.queue.length < 32) : offerNotice b s = pushNotice b s := by
  rw [offerNotice, if_pos h]
  exact if_pos hq

/-- Settles O49: the three outcomes are the branches of the offer, in the order of R163's steps. -/
theorem noticeOfferThreeWays : Obligations.NoticeOfferThreeWays := by
  intro b s
  refine ⟨fun hb hm => ?masked, fun h => ?enabled⟩
  case masked => exact offerNotice_masked ((noticeEnabled_eq_false _ b).2 ⟨hb, hm⟩)
  case enabled =>
    have he := (noticeEnabled_eq_true _ b).2 h
    refine ⟨fun hq hl => ?lost, fun hq => ?queued⟩
    case lost => rw [offerNotice_full he hq, loseNotice_eq s hl]
    case queued => rw [offerNotice_room he hq, pushNotice_eq]

end Sys2Proof.Machine
end

section
/-!
The laws of the machine: what a step is (a command at the front of the queue, or the clock), and the statements O1 to O8
about reset, steps and commands.
-/

namespace Sys2Proof.Machine

open Sys2Proof

/-- A step is the command at the front of the queue, on the state with the queue's rest, or the clock's. -/
theorem step_cases {s t : State} (h : step s = .next t) :
    (∃ c rest, s.pending = c :: rest ∧ exec c { s with pending := rest } = .next t) ∨ s.pending = [] ∧ t = idle s := by
  unfold step at h
  split at h
  · next c rest hc => exact .inl ⟨c, rest, hc, h⟩
  · next hc => exact .inr ⟨hc, by cases h; rfl⟩

/-- The clock's step moves the queue of commands, the count of free values, part time and the pins alone. -/
theorem idle_eq (s : State) :
    ∃ p f d g, idle s = { s with pending := p, fresh := f, partTime := d, pg := g } := by
  unfold idle
  split
  · exact ⟨_, _, _, _, rfl⟩
  · exact ⟨_, _, _, _, rfl⟩

/-- A step keeps a law that holds of a state with its queue shortened, that every command keeps, and that reads neither the
queue, the count of free values, part time nor the pins. -/
theorem step_keeps {P : State → Prop} {s t : State} (h : step s = .next t)
    (hidle : ∀ p f d g, P s → P { s with pending := p, fresh := f, partTime := d, pg := g })
    (hexec : ∀ c u, P u → exec c u = .next t → P t) (hs : P s) : P t := by
  obtain ⟨c, rest, -, hc⟩ | ⟨-, rfl⟩ := step_cases h
  · exact hexec c _ (hidle rest s.fresh s.partTime s.pg hs) hc
  · obtain ⟨p, f, d, g, e⟩ := idle_eq s
    exact e ▸ hidle p f d g hs

/-- The next state of a command is the one that `Moves` speaks of. -/
theorem moves_of_exec {c : Instr} {s t : State} (h : exec c s = .next t) (hr : s.atRest) : Moves Touch.all s t := by
  obtain ⟨u, hu, m⟩ := exec_moves c s
  cases hu.symm.trans h
  exact m hr

theorem storeLaw_of_exec {c : Instr} {s t : State} (h : exec c s = .next t) (hb : s.bindingLaw) (hs : s.storeLaw) :
    t.storeLaw := by
  obtain ⟨u, hu, k⟩ := exec_keeps c s
  cases hu.symm.trans h
  exact k hb hs

theorem atRest_of_moves {F : Touch} {s t : State} (m : Moves F s t) (h : s.atRest) : t.atRest := m.reserved.trans h

theorem queuesLaw_of_moves {F : Touch} {s t : State} (m : Moves F s t) (h : s.queuesLaw) : t.queuesLaw := by
  obtain ⟨hports, hgens, hnotices, hagent, hreplay⟩ := h
  exact ⟨m.portQ hports, m.genQ hgens, m.noteQ hnotices, m.agentQ hagent, m.replayQ hreplay⟩

/-- A step leaves no reply place reserved. -/
theorem step_atRest {s t : State} (h : step s = .next t) : s.atRest → t.atRest :=
  step_keeps h (fun _ _ _ _ hs => hs) fun _ _ hu hc => atRest_of_moves (moves_of_exec hc hu) hu

/-- Settles O5: every command keeps the capacities (`Moves`), and the clock does not touch a queue. -/
theorem stepsKeepQueueCapacities : Obligations.StepsKeepQueueCapacities := by
  intro s t hr hq h
  have hlaw : t.atRest ∧ t.queuesLaw :=
    step_keeps (P := fun s => s.atRest ∧ s.queuesLaw) h (fun _ _ _ _ hs => hs)
      (fun _ _ ⟨hu, hq⟩ hc => ⟨atRest_of_moves (moves_of_exec hc hu) hu, queuesLaw_of_moves (moves_of_exec hc hu) hq⟩)
      ⟨hr, hq⟩
  exact hlaw.symm

/-- Settles O6: the canonical form by `Moves`, the laws of store and replay queue by `Keeps`. -/
theorem stepsKeepStoreLaws : Obligations.StepsKeepStoreLaws := by
  intro s t hr h
  refine ⟨fun hm => ?memory, fun hb hs => ?store, step_atRest h hr⟩
  case memory =>
    exact (step_keeps (P := fun s => s.atRest ∧ s.memoryLaw) h (fun _ _ _ _ hs => hs)
      (fun _ _ ⟨hu, hm⟩ hc => ⟨atRest_of_moves (moves_of_exec hc hu) hu, (moves_of_exec hc hu).memory hm⟩) ⟨hr, hm⟩).2
  case store =>
    exact (step_keeps (P := fun s => s.atRest ∧ s.bindingLaw ∧ s.storeLaw) h
      (fun _ _ _ _ ⟨hu, hb, hs⟩ => ⟨hu, ⟨hb.table, hb.slots, hb.staging⟩, storeLaw_congr hs rfl rfl rfl rfl⟩)
      (fun _ _ ⟨hu, hb, hs⟩ hc => ⟨atRest_of_moves (moves_of_exec hc hu) hu, (moves_of_exec hc hu).binding rfl hb,
        storeLaw_of_exec hc hb hs⟩)
      ⟨hr, hb, hs⟩).2.2

/-- Settles O7: both laws by `Moves`. -/
theorem stepsKeepBindingsAndFactorySlot : Obligations.StepsKeepBindingsAndFactorySlot := by
  intro s t hr h
  refine ⟨fun hf => ?factory, fun hb => ?binding, step_atRest h hr⟩
  case factory =>
    exact (step_keeps (P := fun s => s.atRest ∧ s.factoryLaw) h (fun _ _ _ _ hs => hs)
      (fun _ _ ⟨hu, hf⟩ hc => ⟨atRest_of_moves (moves_of_exec hc hu) hu, (moves_of_exec hc hu).factory hf⟩) ⟨hr, hf⟩).2
  case binding =>
    exact (step_keeps (P := fun s => s.atRest ∧ s.bindingLaw) h
      (fun _ _ _ _ ⟨hu, hb⟩ => ⟨hu, ⟨hb.table, hb.slots, hb.staging⟩⟩)
      (fun _ _ ⟨hu, hb⟩ hc => ⟨atRest_of_moves (moves_of_exec hc hu) hu, (moves_of_exec hc hu).binding rfl hb⟩)
      ⟨hr, hb⟩).2

/-- Settles O4: each command's next state, with what `Moves` says of the queue of commands and of the count. -/
theorem commandsAnswerNext : Obligations.CommandsAnswerNext := by
  intro c s
  obtain ⟨t, ht, m⟩ := exec_moves c s
  exact ⟨t, ht, fun hr => ⟨(m hr).pending, (m hr).fresh⟩⟩

/-- Settles O2. -/
theorem stepRunsFrontCommand : Obligations.StepRunsFrontCommand := fun _ _ => rfl

/-- With several events due the free value names one of them; with one it is that one. -/
theorem pickDue_mem {s : State} (h : dueEvents s ≠ []) : ∃ c ∈ dueEvents s, pickDue s = some c := by
  unfold pickDue
  split
  · contradiction
  · next c hc => exact ⟨c, by simp [hc], rfl⟩
  · next c cs _ hc =>
    have hlt : Config.freeIndex s.fresh % (c :: cs).length < (c :: cs).length := Nat.mod_lt _ (by simp)
    exact ⟨_, by rw [hc]; exact List.getElem_mem hlt, List.getElem?_eq_getElem hlt⟩

/-- A watched pin keeps its level when the pins are sampled. -/
theorem samplePower_watched (s : State) (n : PortId) (hp : (s.port n).powered = true)
    (hr : (s.port n).state.receiving = true) : (samplePower s)[n] = s.pg[n] := by
  have hw : watchesPower s n = true := by simp [watchesPower, hp, hr]
  simp [samplePower, hw]

/-- Settles O3: the clock's two branches. -/
theorem emptyQueueLetsTimePass : Obligations.EmptyQueueLetsTimePass := by
  intro s hs
  have hstep : step s = .next (idle s) := by unfold step; rw [hs]
  rw [hstep]
  refine ⟨fun hnone => ?tick, fun hdue => ?due⟩
  case tick =>
    have hpick : pickDue s = none := by unfold pickDue; rw [hnone]
    exact ⟨samplePower s, by unfold idle; rw [hpick]; rfl, samplePower_watched s⟩
  case due =>
    obtain ⟨c, hc, hpick⟩ := pickDue_mem hdue
    exact ⟨c, hc, by unfold idle; rw [hpick]⟩

theorem reset_port (n : PortId) : State.reset.port n = Port.atReset := by
  simp [State.port, State.reset]

theorem reset_gen (n : PortId) : State.reset.gen n = Generator.atReset := by
  simp [State.gen, State.reset]

theorem reset_entry (e : EntryId) : State.reset.entry e = Entry.atReset e := by
  simp [State.entry, State.reset]

theorem reset_store : State.reset.store = { Store.atReset with mem := State.reset.store.mem } := atReset_mem

/-- Settles O1: each block's reset value. -/
theorem resetLeavesSpecValues : Obligations.ResetLeavesSpecValues := by
  obtain ⟨-, hpages, hrecords, hreclaim⟩ := store_atReset reset_store
  refine ⟨rfl, rfl, fun n => ?port, rfl, fun e => ?entry, hpages, hrecords, hreclaim, rfl, rfl, rfl, rfl, rfl, rfl, rfl⟩
  case port =>
    rw [reset_port, reset_gen]
    exact ⟨rfl, rfl, rfl, rfl, rfl, rfl⟩
  case entry =>
    rw [reset_entry]
    exact ⟨rfl, rfl, rfl, rfl⟩

theorem reset_queuesLaw : State.reset.queuesLaw := by
  refine ⟨fun n => ?port, fun n => ?gen, ?notices, ?agent, ?replay⟩
  case port => rw [reset_port]; exact Nat.zero_le 4
  case gen => rw [reset_gen]; exact Nat.zero_le 8
  case notices => exact ⟨Nat.zero_le 32, Nat.zero_le 1, Nat.zero_le 65535⟩
  case agent => exact ⟨Nat.zero_le 8, Nat.zero_le 16⟩
  case replay => exact Nat.zero_le 16

/-- No image is valid at reset, so none collide; the slots are those as manufactured. -/
theorem reset_bindingLaw : State.reset.bindingLaw where
  table e f _ i hi _ _ := by
    rw [reset_entry] at hi
    simp [validImages, Entry.atReset, Image.default] at hi
  slots := asManufactured_binding
  staging p h := by cases h

/-- Settles O8. -/
theorem lawsHoldAtReset : Obligations.LawsHoldAtReset :=
  ⟨reset_queuesLaw, rfl, storeLaw_atReset State.reset reset_entry reset_store rfl rfl, reset_bindingLaw, rfl, rfl⟩

end Sys2Proof.Machine
end

section
/-!
Operation rows, said once for all 27: a row is the execution of its request, so a refusal or a read is the reply alone, and
a write is the owning block's state with the reply. Then the reads of DESCRIBE, PROFILE_INFO and TRIG_STATUS (O52, O56, O48).
-/

namespace Sys2Proof.Machine

open Sys2Proof

/-- An operation row is the execution of its request (R154; log entry 3). -/
theorem exec_commandOf (tag : Half) (op : HostOp) (s : State) :
    exec (commandOf tag op) s = .next (hostRequest tag op s) := by
  cases op <;> rfl

/-- An operation that changes nothing: the reply is the whole. -/
theorem exec_read (tag : Half) (op : HostOp) {s : State} (st : Status) (r : List Byte) (h : s.mayTake)
    (ho : operate op (setReserved true s) = (setReserved true s, ⟨st, r⟩)) (hr : isResetPart op = false := by rfl)
    (hl : isLong op = false ∨ s.agent.longOp = none := by exact .inl rfl) :
    exec (commandOf tag op) s = .next (s.withReply tag (opCode op) st.code r) := by
  rw [exec_commandOf, hostRequest_read tag op s st r h ho hr hl]

/-- An operation that makes `t` of `s`: `t` with the reply. -/
theorem exec_write (tag : Half) (op : HostOp) {s t : State} (st : Status) (r : List Byte) (h : s.mayTake)
    (ho : operate op (setReserved true s) = (setReserved true t, ⟨st, r⟩)) (hs : t.agent.state = .ready) (ht : t.atRest)
    (hr : isResetPart op = false := by rfl) (hl : isLong op = false ∨ s.agent.longOp = none := by exact .inl rfl) :
    exec (commandOf tag op) s = .next (t.withReply tag (opCode op) st.code r) := by
  rw [exec_commandOf, hostRequest_write tag op s t st r h ho hs ht hr hl]

/-- An operation that leaves the agent alone makes `t` of `s`: `t` with the reply. -/
theorem exec_write' (tag : Half) (op : HostOp) {s t : State} (st : Status) (r : List Byte) (h : s.mayTake)
    (ho : operate op (setReserved true s) = (setReserved true t, ⟨st, r⟩)) (ha : t.agent = s.agent)
    (hr : isResetPart op = false := by rfl) (hl : isLong op = false ∨ s.agent.longOp = none := by exact .inl rfl) :
    exec (commandOf tag op) s = .next (t.withReply tag (opCode op) st.code r) := by
  have ⟨_, hready, _, hrest⟩ := h
  exact exec_write tag op st r h ho (ha ▸ hready) ((congrArg Agent.reserved ha).trans hrest) hr hl

/-! ## The three plain reads -/

/-- Settles O52: DESCRIBE is a read of the start-up record, the selector, the controller and part time. -/
theorem describeReports : Obligations.DescribeReports := fun tag _ h => exec_read tag .describe .ok _ h rfl

theorem flagByte_isSome {α : Type} [DecidableEq α] (x : Option α) :
    flagByte x.isSome = [if x = none then (0 : Byte) else 1] := by
  cases x <;> rfl

/-- Settles O56: PROFILE_INFO is a read of the profile store and of the long operation in flight. -/
theorem profileInfoReports : Obligations.ProfileInfoReports := by
  intro tag s h
  refine (exec_read tag .profileInfo .ok _ h rfl).trans ?_
  rw [setReserved_flash, flagByte_isSome]
  rfl

/-- The watched level, as one byte. -/
theorem flagByte_watchedLevel (g : Generator) :
    flagByte (watchedLevel g) = [if g.config.watched ≠ none ∧ g.level = true then (1 : Byte) else 0] := by
  unfold watchedLevel
  cases g.config.watched <;> simp [flagByte]

/-- The result block of TRIG_STATUS, its one-byte fields in one list. -/
theorem triggerReport_eq (n : PortId) (g : Generator) (now : Time) :
    triggerReport n g now = [byteOf n.val, g.state.code, g.config.source.code,
        if g.config.watched ≠ none ∧ g.level = true then 1 else 0, g.remaining]
      ++ halfBytes g.next ++ [byteOf g.pendings.length] ++ g.pendings.flatMap (pendingBytes now) := by
  rw [triggerReport, flagByte_watchedLevel]
  rfl

theorem opTrigStatus_port (n : PortId) (s : State) :
    opTrigStatus (byteOf n.val) s = accept (triggerReport n (s.gen n) s.partTime) s := by
  simp only [opTrigStatus, indexBelow_byteOf 8 n (by decide)]

theorem opTrigStatus_outOfRange (a : Byte) (ha : 8 ≤ a.toNat) (s : State) :
    opTrigStatus a s = refuse .badArgument s := by
  simp only [opTrigStatus, indexBelow_none 8 a ha]

/-- Settles O48: TRIG_STATUS is a read of one generator. -/
theorem trigStatusReports : Obligations.TrigStatusReports := by
  intro tag s h
  refine ⟨fun a ha => exec_read tag (.trigStatus a) .badArgument [] h (opTrigStatus_outOfRange a ha _), fun n => ?_⟩
  have hr := triggerReport_eq n (s.gen n) s.partTime
  exact (exec_read tag (.trigStatus (byteOf n.val)) .ok _ h (opTrigStatus_port n _)).trans
    (congrArg (fun r => Host.Outcome.next (s.withReply tag 0x3C 0x00 r)) hr)

end Sys2Proof.Machine
end

section
/-!
Operations that write one block: HOLD (O27), SET_UPLINK (O37), TRIG_CONFIG (O44), TRIG_START (O45), TRIG_STOP (O46),
SET_NOTICE_MASK (O50), and the counters (O51).
-/

namespace Sys2Proof.Machine

open Sys2Proof

/-! ## HOLD -/

/-- Taking a record that is held off the reclaim list (R81). -/
theorem placeOnReclaim_held (r : RecordId) (s : State) (h : (s.record r).held = true) :
    placeOnReclaim r s = mapStore (fun st => { st with reclaim := st.reclaim.erase r }) s := by
  have hn : (s.record r).reclaimable = false := by simp [Record.reclaimable, h]
  simp [placeOnReclaim, hn]

theorem flagByte_eq (b : Bool) : flagByte b = [if b then 1 else 0] := rfl

theorem opHold_outOfRange (a : Byte) (k : Half) (ha : 32 ≤ a.toNat) (s : State) :
    opHold a k s = refuse .badArgument s := by
  simp only [opHold, indexBelow_none 32 a ha]

theorem opHold_notMember (e : EntryId) (k : Half) (s : State) (h : ringMember s e k = none) :
    opHold (byteOf e.val) k s = refuse .notFound s := by
  simp only [opHold, indexBelow_byteOf 32 e (by decide), h]

theorem opHold_member (e : EntryId) (k : Half) (s : State) (r : RecordId) (h : ringMember s e k = some r) :
    opHold (byteOf e.val) k s = accept [if (s.record r).held then 1 else 0] { s with store := { s.store with
      records := s.store.records.set r { s.record r with held := true }
      reclaim := s.store.reclaim.erase r } } := by
  have hplace := placeOnReclaim_held r (mapRecord r (fun x => { x with held := true }) s) (by rw [mapRecord_record_self])
  simp only [opHold, indexBelow_byteOf 32 e (by decide), h, hplace]
  rfl

/-- Settles O27: one answer for each class of arguments. -/
theorem holdKeepsFrame : Obligations.HoldKeepsFrame := by
  intro tag k s h
  refine ⟨fun a ha => ?outOfRange, fun e => ⟨fun hm => ?notMember, fun r hm => ?member⟩⟩
  case outOfRange => exact exec_read tag (.hold a k) .badArgument [] h (opHold_outOfRange a k ha _)
  case notMember => exact exec_read tag (.hold (byteOf e.val) k) .notFound [] h (opHold_notMember e k _ hm)
  case member => exact exec_write' tag (.hold (byteOf e.val) k) .ok _ h (opHold_member e k _ r hm) rfl

/-! ## SET_UPLINK -/

theorem opSetUplink_report (s : State) :
    opSetUplink none s = accept
      (halfOf s.uplink.segSize ++ [byteOf s.uplink.replayClass.val, byteOf s.uplink.backlog]) s := rfl

/-- The block read back from the settings it set (R110). -/
theorem settingsReport_of_block (b : UplinkBlock) (c : ClassId) (hc : b.replayClass = byteOf c.val) (u : Uplink) :
    settingsReport { u with segSize := b.segmentSize.toNat, replayClass := c, backlog := b.backlog.toNat }
      = halfBytes b.segmentSize ++ [b.replayClass, b.backlog] := by
  simp only [settingsReport, uplinkBlockBytes, byteOf_toNat, hc, BitVec.ofNat_toNat, BitVec.setWidth_eq]

theorem opSetUplink_store (b : UplinkBlock) (c : ClassId) (s : State)
    (hs : b.segmentSize = 256 ∨ b.segmentSize = 512 ∨ b.segmentSize = 1024) (hc : b.replayClass = byteOf c.val)
    (hb : 1 ≤ b.backlog.toNat ∧ b.backlog.toNat ≤ 8) :
    opSetUplink (some b) s = accept (halfBytes b.segmentSize ++ [b.replayClass, b.backlog]) { s with uplink := { s.uplink with
      segSize := b.segmentSize.toNat, replayClass := c, backlog := b.backlog.toNat } } := by
  have hset : uplinkSettingsOf b = some (b.segmentSize.toNat, c, b.backlog.toNat) := by
    simp only [uplinkSettingsOf, if_pos hs, hc, indexBelow_byteOf 4 c (by decide), within_of_range hb]
    rfl
  simp only [opSetUplink, hset]
  exact congrArg (accept · _) (settingsReport_of_block b c hc s.uplink)

theorem within_below {a b n : Nat} (h : n < a) : within a b n = none := if_neg fun hr => Nat.not_le_of_lt h hr.1

theorem uplinkSettingsOf_none (b : UplinkBlock)
    (h : (b.segmentSize ≠ 256 ∧ b.segmentSize ≠ 512 ∧ b.segmentSize ≠ 1024) ∨ 4 ≤ b.replayClass.toNat
      ∨ b.backlog.toNat = 0 ∨ 8 < b.backlog.toNat) : uplinkSettingsOf b = none := by
  unfold uplinkSettingsOf
  rcases h with hs | hc | hb | hb
  · obtain ⟨h256, h512, h1024⟩ := hs
    rw [if_neg (not_or.2 ⟨h256, not_or.2 ⟨h512, h1024⟩⟩)]
    rfl
  · rw [indexBelow_none 4 _ hc]; split <;> rfl
  · rw [within_below (by omega)]; split <;> cases indexBelow 4 b.replayClass <;> rfl
  · rw [within_above hb]; split <;> cases indexBelow 4 b.replayClass <;> rfl

/-- Settles O37. -/
theorem setUplinkStoresSettings : Obligations.SetUplinkStoresSettings := by
  intro tag s h
  refine ⟨?report, fun b => ⟨fun c hs hc h1 h8 => ?store, fun hbad => ?refused⟩⟩
  case report => exact exec_read tag (.setUplink none) .ok _ h (opSetUplink_report _)
  case store => exact exec_write' tag (.setUplink (some b)) .ok _ h (opSetUplink_store b c _ hs hc ⟨h1, h8⟩) rfl
  case refused =>
    refine exec_read tag (.setUplink (some b)) .badArgument [] h ?_
    simp only [operate, opSetUplink, uplinkSettingsOf_none b hbad]
    rfl

/-! ## Trigger operations -/

theorem mapGen_eq (n : PortId) (f : Generator → Generator) (s : State) : mapGen n f s = s.setGen n (f (s.gen n)) := rfl

theorem opTrigConfig_refused (a : Byte) (b : TrigBlock) (s : State) (h : 8 ≤ a.toNat ∨ trigConfigOf b = none) :
    opTrigConfig a b s = refuse .badArgument s := by
  unfold opTrigConfig
  rcases h with ha | hb
  · rw [indexBelow_none 8 a ha]
  · rw [hb]; cases indexBelow 8 a <;> rfl

theorem opTrigConfig_busy (n : PortId) (b : TrigBlock) (c : TrigConfig) (s : State) (hb : trigConfigOf b = some c)
    (hs : (s.gen n).state ≠ .idle) : opTrigConfig (byteOf n.val) b s = refuse .busy s := by
  simp only [opTrigConfig, indexBelow_byteOf 8 n (by decide), hb, if_pos hs]

/-- The configuration is stored and the tracker restarts on the line it now watches (R132, R133). -/
theorem restartTracker_config (n : PortId) (c : TrigConfig) (s : State) :
    restartTracker n (mapGen n (fun g => { g with config := c }) s)
      = s.setGen n { s.gen n with config := c, level := rawLevel s c, debounce := none } := by
  rw [restartTracker, mapGen_mapGen]
  rfl

theorem opTrigConfig_store (n : PortId) (b : TrigBlock) (c : TrigConfig) (s : State) (hb : trigConfigOf b = some c)
    (hs : (s.gen n).state = .idle) : opTrigConfig (byteOf n.val) b s
      = accept [0x00] (s.setGen n { s.gen n with config := c, level := rawLevel s c, debounce := none }) := by
  simp only [opTrigConfig, indexBelow_byteOf 8 n (by decide), hb, hs, ne_eq, not_true_eq_false, if_false,
    restartTracker_config]
  rfl

/-- Settles O44. -/
theorem trigConfigStoresWhenIdle : Obligations.TrigConfigStoresWhenIdle := by
  intro tag b s h
  refine ⟨fun a ha => ?refused, fun n c hb => ⟨fun hs => ?busy, fun hs => ?store⟩⟩
  case refused => exact exec_read tag (.trigConfig a b) .badArgument [] h (opTrigConfig_refused a b _ ha)
  case busy => exact exec_read tag (.trigConfig (byteOf n.val) b) .busy [] h (opTrigConfig_busy n b c _ hb hs)
  case store => exact exec_write' tag (.trigConfig (byteOf n.val) b) .ok _ h (opTrigConfig_store n b c _ hb hs) rfl

theorem opTrigStart_outOfRange (a : Byte) (ha : 8 ≤ a.toNat) (s : State) :
    opTrigStart a s = refuse .badArgument s := by
  simp only [opTrigStart, indexBelow_none 8 a ha]

theorem opTrigStart_none (n : PortId) (s : State) (h : (s.gen n).config.source = .none) :
    opTrigStart (byteOf n.val) s = refuse .badArgument s := by
  simp only [opTrigStart, indexBelow_byteOf 8 n (by decide), if_pos h]

theorem opTrigStart_busy (n : PortId) (s : State) (h : (s.gen n).config.source ≠ .none) (hs : (s.gen n).state ≠ .idle) :
    opTrigStart (byteOf n.val) s = refuse .busy s := by
  simp only [opTrigStart, indexBelow_byteOf 8 n (by decide), if_neg h, if_pos hs]

/-- A generator with a source that is IDLE becomes what its source makes of it (R135). -/
theorem opTrigStart_starts (n : PortId) (s : State) (g : Generator) (h : (s.gen n).config.source ≠ .none)
    (hs : (s.gen n).state = .idle) (hg : startGenerator s (s.gen n) = g) :
    opTrigStart (byteOf n.val) s = accept [g.state.code] (s.setGen n g) := by
  simp only [opTrigStart, indexBelow_byteOf 8 n (by decide), if_neg h, hs, ne_eq, not_true_eq_false, if_false, ← hg]
  rfl

theorem startGenerator_line (s : State) (g : Generator) (h : g.config.source = .line) :
    startGenerator s g = { g with state := .armed } := by
  simp only [startGenerator, h]

theorem startGenerator_open (s : State) (g : Generator) (h : g.config.source = .burst)
    (hgate : ∀ l, g.config.gate = some l → g.level = g.config.gateLevel) :
    startGenerator s g = { g with
      state := .running, remaining := g.config.burstCount, period := some (s.after g.config.burstPeriod) } := by
  have hopen : gateOpen g = true := by
    unfold gateOpen
    cases hl : g.config.gate with
    | none => rfl
    | some l => simp [hgate l hl]
  simp only [startGenerator, h, hopen, if_true]

theorem startGenerator_shut (s : State) (g : Generator) (h : g.config.source = .burst) (l : LineId)
    (hl : g.config.gate = some l) (hgate : g.level ≠ g.config.gateLevel) :
    startGenerator s g = { g with state := .paused, remaining := g.config.burstCount, period := none } := by
  have hshut : gateOpen g = false := by simp [gateOpen, hl, hgate]
  simp [startGenerator, h, hshut]

/-- Settles O45: the refusals in their order, then the start by source. -/
theorem trigStartBySource : Obligations.TrigStartBySource := by
  intro tag s h
  refine ⟨fun a ha => ?outOfRange, fun n => ⟨fun hn => ?none, fun hn hs => ?busy, fun hl hs => ?line,
    fun hb hs hg => ?running, fun l hb hs hl hg => ?paused⟩⟩
  case outOfRange => exact exec_read tag (.trigStart a) .badArgument [] h (opTrigStart_outOfRange a ha _)
  case none => exact exec_read tag (.trigStart (byteOf n.val)) .badArgument [] h (opTrigStart_none n _ hn)
  case busy => exact exec_read tag (.trigStart (byteOf n.val)) .busy [] h (opTrigStart_busy n _ hn hs)
  case line =>
    exact exec_write' tag (.trigStart (byteOf n.val)) .ok _ h
      (opTrigStart_starts n _ _ (hl ▸ by decide) hs (startGenerator_line _ _ hl)) rfl
  case running =>
    exact exec_write' tag (.trigStart (byteOf n.val)) .ok _ h
      (opTrigStart_starts n _ _ (hb ▸ by decide) hs (startGenerator_open _ _ hb hg)) rfl
  case paused =>
    exact exec_write' tag (.trigStart (byteOf n.val)) .ok _ h
      (opTrigStart_starts n _ _ (hb ▸ by decide) hs (startGenerator_shut _ _ hb l hl hg)) rfl

theorem opTrigStop_outOfRange (a : Byte) (ha : 8 ≤ a.toNat) (s : State) : opTrigStop a s = refuse .badArgument s := by
  simp only [opTrigStop, indexBelow_none 8 a ha]

theorem opTrigStop_port (n : PortId) (s : State) : opTrigStop (byteOf n.val) s
    = accept [(s.gen n).state.code, (s.gen n).remaining] (s.setGen n { s.gen n with state := .idle, period := none }) := by
  simp only [opTrigStop, indexBelow_byteOf 8 n (by decide)]
  rfl

/-- Settles O46. -/
theorem trigStopEntersIdle : Obligations.TrigStopEntersIdle := by
  intro tag s h
  exact ⟨fun a ha => exec_read tag (.trigStop a) .badArgument [] h (opTrigStop_outOfRange a ha _),
    fun n => exec_write' tag (.trigStop (byteOf n.val)) .ok _ h (opTrigStop_port n _) rfl⟩

/-! ## SET_NOTICE_MASK -/

/-- Without a reserved bit the maskable bits are all that is left to take. -/
theorem maskOf_of_unreserved (m : Half) (h : m &&& 0xE001 = 0) : maskOf m = m ||| 0x1C20 := by
  refine BitVec.eq_of_getLsbD_eq fun i hi => ?_
  have hbit := congrArg (BitVec.getLsbD · i) h
  simp only [maskOf, maskableBits, unmaskableBits, BitVec.getLsbD_or, BitVec.getLsbD_and] at hbit ⊢
  interval_cases i <;> simp_all

theorem opSetNoticeMask_refused (m : Half) (h : m &&& 0xE001 ≠ 0) (s : State) :
    opSetNoticeMask m s = refuse .badArgument s := if_pos h

theorem opSetNoticeMask_stored (m : Half) (h : m &&& 0xE001 = 0) (s : State) : opSetNoticeMask m s
    = accept (halfBytes (m ||| 0x1C20)) { s with notices := { s.notices with mask := m ||| 0x1C20 } } := by
  rw [opSetNoticeMask, maskOf_of_unreserved m h]
  exact if_neg fun hn => hn h

/-- Settles O50. -/
theorem noticeMaskKeepsUnmaskable : Obligations.NoticeMaskKeepsUnmaskable := by
  intro tag m s h
  exact ⟨fun hm => exec_read tag (.setNoticeMask m) .badArgument [] h (opSetNoticeMask_refused m hm _),
    fun hm => exec_write' tag (.setNoticeMask m) .ok _ h (opSetNoticeMask_stored m hm _) rfl⟩

/-! ## Counters -/

/-- The group and index bytes that name a group (R169). -/
def CounterGroup.bytes : CounterGroup → Byte × Byte
  | .port n => (0, byteOf n.val)
  | .entry e => (1, byteOf e.val)
  | .store => (2, 0)
  | .uplink => (3, 0)
  | .trigger n => (4, byteOf n.val)
  | .management => (5, 0)

theorem counterGroup_bytes (c : CounterGroup) : counterGroup c.bytes.1 c.bytes.2 = some c := by
  cases c with
  | port n => simp [counterGroup, CounterGroup.bytes, indexBelow_byteOf 8 n (by decide)]
  | entry e => simp [counterGroup, CounterGroup.bytes, indexBelow_byteOf 32 e (by decide)]
  | trigger n => simp [counterGroup, CounterGroup.bytes, indexBelow_byteOf 8 n (by decide)]
  | store | uplink | management => rfl

theorem counterGroup_none (g i : Byte) (h : 6 ≤ g.toNat ∨ (g = 0 ∧ 8 ≤ i.toNat) ∨ (g = 1 ∧ 32 ≤ i.toNat)
    ∨ (g = 2 ∧ i ≠ 0) ∨ (g = 3 ∧ i ≠ 0) ∨ (g = 4 ∧ 8 ≤ i.toNat) ∨ (g = 5 ∧ i ≠ 0)) : counterGroup g i = none := by
  rcases h with hg | ⟨rfl, hi⟩ | ⟨rfl, hi⟩ | ⟨rfl, hi⟩ | ⟨rfl, hi⟩ | ⟨rfl, hi⟩ | ⟨rfl, hi⟩
  · unfold counterGroup
    split <;> first | omega | rfl
  · simp [counterGroup, indexBelow_none 8 i hi]
  · simp [counterGroup, indexBelow_none 32 i hi]
  · exact if_neg hi
  · exact if_neg hi
  · simp [counterGroup, indexBelow_none 8 i hi]
  · exact if_neg hi

/-- READ_COUNTERS and CLEAR_COUNTERS of a group that exists: one block, and the group's counters cleared. -/
theorem exec_counters (tag : Half) (c : CounterGroup) (s t : State) (vs : List Word) (h : s.mayTake)
    (hv : groupValues s c = vs) (hc : clearGroup c (setReserved true s) = setReserved true t)
    (hready : t.agent.state = .ready) (hrest : t.atRest) :
    exec (.readCounters tag c.bytes.1 c.bytes.2) s = .next (s.withReply tag 0x41 0x00
        (c.bytes.1 :: c.bytes.2 :: byteOf vs.length :: vs.flatMap wordBytes))
      ∧ exec (.clearCounters tag c.bytes.1 c.bytes.2) s = .next (t.withReply tag 0x42 0x00
        (c.bytes.1 :: c.bytes.2 :: byteOf vs.length :: vs.flatMap wordBytes)) := by
  have hv' : groupValues (setReserved true s) c = vs := by rw [← hv]; cases c <;> rfl
  refine ⟨exec_read tag (.readCounters c.bytes.1 c.bytes.2) .ok _ h ?_,
    exec_write tag (.clearCounters c.bytes.1 c.bytes.2) .ok _ h ?_ hready hrest⟩
  · simp only [operate, opReadCounters, counterGroup_bytes, hv']
    rfl
  · simp only [operate, opClearCounters, counterGroup_bytes, hv', hc]
    rfl

/-- Settles O51: a group and an index out of range name no group; every group is read and cleared alike. -/
theorem countersReadAndCleared : Obligations.CountersReadAndCleared := by
  intro tag g i s h
  refine ⟨fun hbad => ?refused, fun vs t ht => ?named⟩
  case refused =>
    have hnone := counterGroup_none g i hbad
    constructor
    · refine exec_read tag (.readCounters g i) .badArgument [] h ?_
      simp only [operate, opReadCounters, hnone]
      rfl
    · refine exec_read tag (.clearCounters g i) .badArgument [] h ?_
      simp only [operate, opClearCounters, hnone]
      rfl
  case named =>
    have ⟨_, hready, _, hrest⟩ := h
    rcases ht with ⟨n, rfl, rfl, rfl, rfl⟩ | ⟨e, rfl, rfl, rfl, rfl⟩ | ⟨rfl, rfl, rfl, rfl⟩ | ⟨rfl, rfl, rfl, rfl⟩
      | ⟨n, rfl, rfl, rfl, rfl⟩ | ⟨rfl, rfl, rfl, rfl⟩
    · exact exec_counters tag (.port n) s _ _ h rfl rfl hready hrest
    · exact exec_counters tag (.entry e) s _ _ h rfl rfl hready hrest
    · exact exec_counters tag .store s _ _ h rfl rfl hready hrest
    · exact exec_counters tag .uplink s _ _ h rfl rfl hready hrest
    · exact exec_counters tag (.trigger n) s _ _ h rfl rfl hready hrest
    · exact exec_counters tag .management s _ _ h rfl rfl hready hrest

end Sys2Proof.Machine
end

section
/-!
Encodings: an operation is read back from its code and argument block (O9), a request from its unit (O10), and an image
and a trigger configuration from their blocks (O11).
-/

namespace Sys2Proof.Machine

open Sys2Proof

/-! ## Operations -/

theorem lengthListed_all (op : HostOp) : Laws.Spelled.lengthListed op := by
  cases op with
  | setUplink b => cases b <;> simp [Laws.Spelled.lengthListed, opArgs, opCode, argLengths, uplinkBlockBytes, halfBytes]
  | _ => exact List.mem_singleton.2 rfl

theorem imageBlockAt_bytes (x : Byte) (b : ImageBlock) : imageBlockAt (x :: imageBlockBytes b) 1 = b := by
  have hpages : halfAt (x :: imageBlockBytes b) 8 = b.maxPages :=
    halfAt_of _ _ _ rfl rfl
  have hstall : halfAt (x :: imageBlockBytes b) 11 = b.stallTimeout :=
    halfAt_of _ _ _ rfl rfl
  simp only [imageBlockAt, hpages, hstall]
  rfl

theorem trigBlockAt_bytes (x : Byte) (b : TrigBlock) : trigBlockAt (x :: trigBlockBytes b) 1 = b := by
  have hdebounce : halfAt (x :: trigBlockBytes b) 4 = b.debounce := halfAt_of _ _ _ rfl rfl
  have hperiod : wordAt (x :: trigBlockBytes b) 7 = b.burstPeriod := wordAt_of _ _ _ rfl rfl rfl rfl
  have hwindow : halfAt (x :: trigBlockBytes b) 13 = b.window := halfAt_of _ _ _ rfl rfl
  simp only [trigBlockAt, hdebounce, hperiod, hwindow]
  rfl

/-- The block of an operation spells its operands. -/
theorem readOp_opArgs (op : HostOp) : readOp (opCode op) (opArgs op) = op := by
  cases op with
  | writeEntry e b => exact congrArg (HostOp.writeEntry e) (imageBlockAt_bytes e b)
  | hold e f => exact congrArg (HostOp.hold e) (halfAt_of _ _ f rfl rfl)
  | release e f => exact congrArg (HostOp.release e) (halfAt_of _ _ f rfl rfl)
  | setUplink b =>
    cases b with
    | none => rfl
    | some b =>
      exact congrArg (fun h => HostOp.setUplink (some ⟨h, b.replayClass, b.backlog⟩)) (halfAt_of _ _ b.segmentSize rfl rfl)
  | replay e f c => exact congrArg (fun h => HostOp.replay e h c) (halfAt_of _ _ f rfl rfl)
  | trigConfig p b => exact congrArg (HostOp.trigConfig p) (trigBlockAt_bytes p b)
  | setNoticeMask m => exact congrArg HostOp.setNoticeMask (halfAt_of _ _ m rfl rfl)
  | _ => rfl

theorem parseOp_listed {code : Byte} {a : List Byte} {ls : List Nat} (h : argLengths code = some ls)
    (hl : a.length ∈ ls) : parseOp code a = .ok (readOp code a) := by
  rw [parseOp, h]
  exact if_pos hl

/-- Settles O9: the length is a listed one, and the block spells the operands. -/
theorem operationsReadBack : Obligations.OperationsReadBack := by
  intro op
  have hlen := lengthListed_all op
  unfold Laws.Spelled.lengthListed at hlen
  cases hls : argLengths (opCode op) with
  | none => rw [hls] at hlen; cases hlen
  | some ls =>
    rw [hls] at hlen
    rw [parseOp_listed hls hlen, readOp_opArgs]

/-! ## Requests on the uplink -/

theorem protectedBytes_eq (g : Segment) :
    g.protectedBytes = [byteOf (g.kind.code + 128 * g.replay.toNat), g.route, g.tag.extractLsb' 8 8,
      g.tag.extractLsb' 0 8, g.index.extractLsb' 8 8, g.index.extractLsb' 0 8,
      (BitVec.ofNat 16 g.payload.length).extractLsb' 8 8, (BitVec.ofNat 16 g.payload.length).extractLsb' 0 8]
      ++ g.payload := rfl

/-- A sent segment is read back from its unit, header field by header field (R1). -/
theorem rawSegment_unit (g : Segment) : rawSegment g.unit =
    ⟨byteOf (g.kind.code + 128 * g.replay.toNat), g.route, g.tag, g.index, BitVec.ofNat 16 g.payload.length,
      g.payload⟩ := by
  have htag : halfAt g.unit 2 = g.tag := halfAt_of _ _ _ rfl rfl
  have hindex : halfAt g.unit 4 = g.index := halfAt_of _ _ _ rfl rfl
  have hlength : halfAt g.unit 6 = BitVec.ofNat 16 g.payload.length := halfAt_of _ _ _ rfl rfl
  have hpayload : (g.unit.drop 8).take (g.unit.length - 12) = g.payload := by
    have hcheck : (wordBytes (checkCode g.protectedBytes)).length = 4 := rfl
    have hdrop : g.unit.drop 8 = g.payload ++ wordBytes (checkCode g.protectedBytes) := rfl
    have hlen : g.unit.length = g.payload.length + 12 := by
      rw [Segment.unit, protectedBytes_eq, List.length_append, List.length_append, ← protectedBytes_eq, hcheck]
      simp only [List.length_cons, List.length_nil]
      omega
    rw [hdrop, hlen, Nat.add_sub_cancel]
    exact List.take_left
  simp only [rawSegment, htag, hindex, hlength, hpayload]
  rfl

/-- Settles O10: the check code is right, the header is read back, and the request passes the conditions of R14. -/
theorem requestUnitsReadBack : Obligations.RequestUnitsReadBack := by
  intro m hm
  have hgood : goodCheck m.segment.unit = true := goodCheck_unit _ (by simp [protectedBytes_eq])
  have hraw := rawSegment_unit m.segment
  have hlen : m.segment.payload.length = m.args.length + 1 := rfl
  have hheader : headerWellFormed (rawSegment m.segment.unit) = true := by
    rw [hraw]
    have hfits : (BitVec.ofNat 16 (m.args.length + 1)).toNat = m.args.length + 1 := by
      rw [BitVec.toNat_ofNat]
      omega
    simp only [headerWellFormed, hlen, hfits, Bool.and_eq_true, decide_eq_true_eq]
    have hfirst : ((byteOf 5).extractLsb' 4 4 == 0) = true := by decide
    exact ⟨⟨beq_self_eq_true _, by omega⟩, hfirst⟩
  have hkind : kindOf (rawSegment m.segment.unit).first = some .mreq := by rw [hraw]; rfl
  have htest : kindWellFormedUp .mreq (rawSegment m.segment.unit) = true := by
    rw [hraw]
    simp [kindWellFormedUp, Mreq.segment]
  simp only [classifyUp, classify, hgood, hkind, hheader, htest, Bool.and_self, if_true]
  rw [hraw]
  rfl

/-! ## Images and trigger configurations -/

theorem flagOf_flag (b : Bool) : flagOf (if b then 1 else 0) = some b := by cases b <;> rfl

theorem forwardOf_code (m : ForwardMode) : forwardOf m.code = some m := by cases m <;> rfl

theorem retentionOf_code (m : Retention) : retentionOf m.code = some m := by cases m <;> rfl

theorem sourceOf_code (x : GenSource) : sourceOf x.code = some x := by cases x <;> rfl

theorem edgeOf_code (x : EdgeSel) : edgeOf x.code = some x := by cases x <;> rfl

theorem gateOf_line (l : LineId) : gateOf (byteOf l.val) = some (some l) := by
  have hne : byteOf l.val ≠ 0xFF := by revert l; decide
  rw [gateOf, if_neg hne, indexBelow_byteOf 4 l (by decide)]
  rfl

theorem gateOf_blockOfTrig (c : TrigConfig) : gateOf (blockOfTrig c).gateLine = some c.gate := by
  unfold blockOfTrig
  cases c.gate with
  | none => rfl
  | some l => exact gateOf_line l

/-- A number that fits its field and its bounds is read back. -/
theorem within_ofNat (w : Nat) {lo hi n : Nat} (hw : hi < 2 ^ w) (h : lo ≤ n ∧ n ≤ hi) :
    within lo hi (BitVec.ofNat w n).toNat = some n := by
  rw [BitVec.toNat_ofNat, Nat.mod_eq_of_lt (by omega)]
  exact within_of_range h

theorem within_byteOf {lo hi n : Nat} (hw : hi < 256) (h : lo ≤ n ∧ n ≤ hi) : within lo hi (byteOf n).toNat = some n :=
  within_ofNat 8 hw h

theorem imageOf_blockOfImage (i : Image) (hr : 1 ≤ i.ringDepth ∧ i.ringDepth ≤ 64)
    (hp : 1 ≤ i.maxPages ∧ i.maxPages ≤ 1024) (hs : 1 ≤ i.stallTimeout ∧ i.stallTimeout ≤ 10000) :
    imageOf (blockOfImage i) = some i := by
  simp only [imageOf, blockOfImage, flagOf_flag, forwardOf_code, retentionOf_code, indexBelow_byteOf 8 _ (by decide),
    indexBelow_byteOf 4 _ (by decide), within_byteOf (by decide) hr, within_ofNat 16 (by decide) hp,
    within_ofNat 16 (by decide) hs]
  rfl

theorem byteOf_burstCount (b : Byte) (h : b ≠ 0) : within 1 255 b.toNat = some b.toNat :=
  within_of_range ⟨Nat.one_le_iff_ne_zero.2 fun h0 => h (BitVec.eq_of_toNat_eq h0), Nat.le_of_lt_succ b.isLt⟩

theorem trigConfigOf_blockOfTrig (c : TrigConfig) (hd : c.debounce ≤ 1000) (hc : c.burstCount ≠ 0)
    (hp : 10 ≤ c.burstPeriod ∧ c.burstPeriod ≤ 1000000) (hw : 1 ≤ c.window ∧ c.window ≤ 65535) :
    trigConfigOf (blockOfTrig c) = some c := by
  simp only [trigConfigOf, gateOf_blockOfTrig]
  simp only [blockOfTrig, sourceOf_code, indexBelow_byteOf 4 _ (by decide), edgeOf_code,
    within_ofNat 16 (by decide) ⟨Nat.zero_le _, hd⟩, byteOf_burstCount _ hc, within_ofNat 32 (by decide) hp, flagOf_flag,
    within_ofNat 16 (by decide) hw]
  exact congrArg (fun b => some (TrigConfig.mk c.source c.line c.edge c.debounce b c.burstPeriod c.gate c.gateLevel c.window))
    (byteOf_toNat c.burstCount)

theorem imageBlockAt_zero (b : ImageBlock) : imageBlockAt (imageBlockBytes b) 0 = b := imageBlockAt_bytes 0 b

theorem trigBlockAt_zero (b : TrigBlock) : trigBlockAt (trigBlockBytes b) 0 = b := trigBlockAt_bytes 0 b

/-- Settles O11: each block is read back, and each of its fields lies in its range. -/
theorem settingsReadBack : Obligations.SettingsReadBack := by
  refine ⟨fun i hr hr' hp hp' hs hs' => ?image, fun c hd hc hp hp' hw hw' => ?trigger⟩
  case image =>
    rw [imageBytes, imageBlockAt_zero]
    exact imageOf_blockOfImage i ⟨hr, hr'⟩ ⟨hp, hp'⟩ ⟨hs, hs'⟩
  case trigger =>
    rw [trigBlockAt_zero]
    exact trigConfigOf_blockOfTrig c hd hc ⟨hp, hp'⟩ ⟨hw, hw'⟩

end Sys2Proof.Machine
end

section
/-!
Units received on a downstream port: what each class of unit does in each state of the port (O12, O13), and the segments
that have no place (O15). The hold timer (O19) and the transmitter (O21).
-/

namespace Sys2Proof.Machine

open Sys2Proof

/-! ## One port replaced -/

section setPort_fields

variable (n : PortId) (p : Port) (s : State)

theorem mapPort_eq (f : Port → Port) : mapPort n f s = s.setPort n (f (s.port n)) := rfl

@[simp] theorem setPort_port_self : (s.setPort n p).port n = p := by
  simp [State.setPort, State.port]

theorem setPort_port_ne (m : PortId) (h : m ≠ n) : (s.setPort n p).port m = s.port m :=
  mapPort_port_ne n (fun _ => p) s m h

@[simp] theorem setPort_setPort (q : Port) : (s.setPort n p).setPort n q = s.setPort n q := by
  simp [State.setPort]

@[simp] theorem mapPort_setPort (f : Port → Port) : mapPort n f (s.setPort n p) = s.setPort n (f p) := by
  rw [mapPort_eq, setPort_port_self, setPort_setPort]

@[simp] theorem setPort_port : s.setPort n (s.port n) = s := by
  simp [State.setPort, State.port]

@[simp] theorem setPort_entry (e : EntryId) : (s.setPort n p).entry e = s.entry e := rfl
@[simp] theorem setPort_gen (m : PortId) : (s.setPort n p).gen m = s.gen m := rfl
@[simp] theorem setPort_after (d : Nat) : (s.setPort n p).after d = s.after d := rfl

end setPort_fields

/-- The offer of a notice does not read the ports. -/
theorem mapPort_offerNotice (n : PortId) (f : Port → Port) (b : NoticeBody) (s : State) :
    mapPort n f (offerNotice b s) = offerNotice b (mapPort n f s) := by
  unfold offerNotice
  rw [mapPort_notices]
  split
  · split <;> rfl
  · rfl

/-! ## The three steps of R17 -/

/-- Port `p` with a unit counted at time `s` (R17 steps 1 and 2). -/
def Port.counted (s : State) (p : Port) : Port :=
  { p with
    counters := { p.counters with segIn := bump p.counters.segIn }
    silence := if p.state = .active then some (s.after 4000) else p.silence }

theorem countUnit_eq (n : PortId) (s : State) : countUnit n s = s.setPort n ((s.port n).counted s) := rfl

@[simp] theorem counted_state (s : State) (p : Port) : (p.counted s).state = p.state := rfl

/-- A bad-check unit below the sixteenth in a row changes the port alone (R17 step 3). -/
theorem badUnit_setPort (n : PortId) (p : Port) (s : State) (h : p.state = .active → p.badRun < 15) :
    badUnit n (s.setPort n p) = s.setPort n { p with
      counters := { p.counters with badCheck := bump p.counters.badCheck }
      acqRun := if p.state = .acquiring then 0 else p.acqRun
      badRun := if p.state = .active then p.badRun + 1 else p.badRun } := by
  unfold badUnit
  simp only [mapPort_setPort, setPort_port_self]
  refine if_neg fun hlost => ?_
  obtain ⟨hactive, h16⟩ := hlost
  rw [if_pos hactive] at h16
  exact absurd (h hactive) (by simp only [Config.badCheckRun] at h16; omega)

/-- A good-check unit that does not complete acquisition changes the runs alone (R17 step 4). -/
theorem goodUnit_setPort (n : PortId) (p : Port) (s : State) (h : p.state = .acquiring → p.acqRun < 7) :
    goodUnit n (s.setPort n p) = s.setPort n { p with
      badRun := 0, acqRun := if p.state = .acquiring then p.acqRun + 1 else p.acqRun } := by
  unfold goodUnit
  simp only [mapPort_setPort, setPort_port_self]
  refine if_neg fun hdone => ?_
  obtain ⟨hacq, h8⟩ := hdone
  rw [if_pos hacq] at h8
  exact absurd (h hacq) (by simp only [Config.acquisitionRun] at h8; omega)

/-- The eighth good-check unit in a row takes the port to ACTIVE (R18). -/
theorem goodUnit_acquires (n : PortId) (p : Port) (s : State) (h : p.state = .acquiring) (hrun : p.acqRun = 7) :
    goodUnit n (s.setPort n p) = offerNotice (.portState n .acquiring .active .acquired) (s.setPort n { p with
      state := .active, acqRun := 8, badRun := 0, ramp := none, silence := some (s.after 4000), hold := none }) := by
  unfold goodUnit enterPort
  simp only [mapPort_setPort, setPort_port_self, h, hrun, if_true]
  rfl

/-! ## The classes of units -/

/-- A unit that meets a receiver that is off (R17). -/
theorem downUnit_off (n : PortId) (unit : List Byte) (s : State) (h : (s.port n).state.receiving = false) :
    downUnit n unit s = s := by
  simp [downUnit, h]

theorem downUnit_bad (n : PortId) (unit : List Byte) (s : State) (h : (s.port n).state.receiving = true)
    (hc : classifyDown unit = .badCheck) : downUnit n unit s = badUnit n (s.setPort n ((s.port n).counted s)) := by
  simp only [downUnit, h, hc, if_true, countUnit_eq]

theorem downUnit_malformed (n : PortId) (unit : List Byte) (s : State) (h : (s.port n).state.receiving = true)
    (hc : classifyDown unit = .malformed) :
    downUnit n unit s = mapPort n (fun p => { p with counters := { p.counters with malformed := bump p.counters.malformed } })
      (goodUnit n (s.setPort n ((s.port n).counted s))) := by
  simp only [downUnit, h, hc, if_true, countUnit_eq]
  rfl

/-- A well-formed segment outside ACTIVE is discarded (R22). -/
theorem downUnit_discarded (n : PortId) (unit : List Byte) (g : DownSegment) (s : State)
    (h : (s.port n).state.receiving = true) (ha : (s.port n).state ≠ .active) (hc : classifyDown unit = .wellFormed g) :
    downUnit n unit s = goodUnit n (s.setPort n ((s.port n).counted s)) := by
  simp only [downUnit, h, hc, if_true, if_neg ha, countUnit_eq]

/-- Port `p` after a good-check unit in ACTIVE at time `s` (R17 steps 1, 2 and 4). -/
def Port.arrived (s : State) (p : Port) : Port :=
  { p with
    badRun := 0, silence := some (s.after 4000), counters := { p.counters with segIn := bump p.counters.segIn } }

theorem goodUnit_active (n : PortId) (s : State) (h : (s.port n).state = .active) :
    goodUnit n (s.setPort n ((s.port n).counted s)) = s.setPort n ((s.port n).arrived s) := by
  rw [goodUnit_setPort n ((s.port n).counted s) s fun ha => by rw [counted_state, h] at ha; cases ha]
  simp [Port.counted, Port.arrived, h]

/-- A well-formed segment in ACTIVE is disposed of (R22). -/
theorem downUnit_active (n : PortId) (unit : List Byte) (g : DownSegment) (s : State) (h : (s.port n).state = .active)
    (hc : classifyDown unit = .wellFormed g) :
    downUnit n unit s = disposeDown n g (s.setPort n ((s.port n).arrived s)) := by
  have hr : (s.port n).state.receiving = true := by rw [h]; rfl
  simp only [downUnit, if_pos hr, hc, if_pos h, countUnit_eq, goodUnit_active n s h]

/-- Settles O12. -/
theorem receiverOffIgnoresUnits : Obligations.ReceiverOffIgnoresUnits := by
  intro n unit s h
  refine congrArg Host.Outcome.next (downUnit_off n unit s ?_)
  rcases h with h | h <;> rw [h] <;> rfl

/-- Settles O13: the class of the unit and the state of the port choose the branch. -/
theorem unitsMoveCountersAndRuns : Obligations.UnitsMoveCountersAndRuns := by
  intro n unit s p good malformed bad
  refine ⟨fun hst => ?acquiring, fun hst => ?active, fun hst => ?lost⟩
  case acquiring =>
    have hr : (s.port n).state.receiving = true := by rw [hst]; rfl
    have hna : (s.port n).state ≠ .active := by rw [hst]; decide
    have hrun : (s.port n).acqRun < 7 → goodUnit n (s.setPort n ((s.port n).counted s))
        = s.setPort n { p with acqRun := p.acqRun + 1, badRun := 0, counters := good } := fun h7 => by
      rw [goodUnit_setPort n ((s.port n).counted s) s fun _ => h7]
      simp [Port.counted, hst, p, good]
    have hlast : (s.port n).acqRun = 7 → goodUnit n (s.setPort n ((s.port n).counted s))
        = offerNotice (.portState n .acquiring .active .acquired) (s.setPort n { p with
          state := .active, acqRun := 8, badRun := 0, ramp := none, silence := some (s.after 4000), hold := none,
          counters := good }) := fun h7 => goodUnit_acquires n _ s hst h7
    refine ⟨fun hc => ?bad, fun h7 => ⟨fun g hc => ?_, fun hc => ?_⟩, fun h7 => ⟨fun g hc => ?_, fun hc => ?_⟩⟩
    case bad =>
      refine congrArg Host.Outcome.next ?_
      rw [downUnit_bad n unit s hr hc, badUnit_setPort n ((s.port n).counted s) s fun ha => absurd ha hna]
      simp [Port.counted, hst, p, bad, good]
    · exact congrArg Host.Outcome.next ((downUnit_discarded n unit g s hr hna hc).trans (hrun h7))
    · refine congrArg Host.Outcome.next ?_
      rw [downUnit_malformed n unit s hr hc, hrun h7, mapPort_setPort]
    · exact congrArg Host.Outcome.next ((downUnit_discarded n unit g s hr hna hc).trans (hlast h7))
    · refine congrArg Host.Outcome.next ?_
      rw [downUnit_malformed n unit s hr hc, hlast h7, mapPort_offerNotice, mapPort_setPort]
  case active =>
    have hr : (s.port n).state.receiving = true := by rw [hst]; rfl
    refine ⟨fun h15 hc => ?bad, fun hc => ?malformed, fun hc => ?link⟩
    case bad =>
      refine congrArg Host.Outcome.next ?_
      rw [downUnit_bad n unit s hr hc, badUnit_setPort n ((s.port n).counted s) s fun _ => h15]
      simp [Port.counted, hst, p, bad, good]
    case malformed =>
      refine congrArg Host.Outcome.next ?_
      rw [downUnit_malformed n unit s hr hc, goodUnit_active n s hst, mapPort_setPort]
      rfl
    case link => exact congrArg Host.Outcome.next (downUnit_active n unit .link s hst hc)
  case lost =>
    have hr : (s.port n).state.receiving = true := by rw [hst]; rfl
    have hna : (s.port n).state ≠ .active := by rw [hst]; decide
    have hrun : goodUnit n (s.setPort n ((s.port n).counted s)) = s.setPort n { p with badRun := 0, counters := good } := by
      rw [goodUnit_setPort n ((s.port n).counted s) s fun ha => by rw [counted_state, hst] at ha; cases ha]
      simp [Port.counted, hst, p, good]
    refine ⟨fun hc => ?bad, fun g hc => ?good, fun hc => ?malformed⟩
    case bad =>
      refine congrArg Host.Outcome.next ?_
      rw [downUnit_bad n unit s hr hc, badUnit_setPort n ((s.port n).counted s) s fun ha => absurd ha hna]
      simp [Port.counted, hst, p, bad, good]
    case good => exact congrArg Host.Outcome.next ((downUnit_discarded n unit g s hr hna hc).trans hrun)
    case malformed =>
      refine congrArg Host.Outcome.next ?_
      rw [downUnit_malformed n unit s hr hc, hrun, mapPort_setPort]

/-! ## Segments without a place -/

/-- A frame segment meets the entry that lookup finds. -/
theorem toEntry_some {n : PortId} {c : Channel} {e : EntryId} {s : State} (h : lookup s n c = some e)
    (u : State → State) (f : EntryId → State → State) : toEntry n c u f s = f e s := by
  rw [toEntry, h]

theorem toEntry_none {n : PortId} {c : Channel} {s : State} (h : lookup s n c = none)
    (u : State → State) (f : EntryId → State → State) : toEntry n c u f s = u s := by
  rw [toEntry, h]

@[simp] theorem lookup_setPort (n m : PortId) (c : Channel) (p : Port) (s : State) :
    lookup (s.setPort m p) n c = lookup s n c := rfl

theorem countUnknown_setPort (n : PortId) (p : Port) (s : State) : countUnknown n (s.setPort n p)
    = s.setPort n { p with counters := { p.counters with unknownChannel := bump p.counters.unknownChannel } } := by
  rw [countUnknown, countPort, mapPort_setPort]

theorem countOrphan_setPort (n : PortId) (p : Port) (s : State) : countOrphan n (s.setPort n p)
    = s.setPort n { p with counters := { p.counters with orphan := bump p.counters.orphan } } := by
  rw [countOrphan, countPort, mapPort_setPort]

theorem countStale_setPort (n : PortId) (p : Port) (s : State) : countStale n (s.setPort n p)
    = s.setPort n { p with counters := { p.counters with stale := bump p.counters.stale } } := by
  rw [countStale, countPort, mapPort_setPort]

theorem countUnbound_setPort (n : PortId) (c : Channel) (k : Half) (p : Port) (s : State) :
    countUnbound n c k (s.setPort n p) = if p.late[c] = some k
      then countOrphan n (countUnknown n (s.setPort n p)) else countUnknown n (s.setPort n p) := by
  simp only [countUnbound, setPort_port_self]

/-- A BODY or TAIL, with what it does at an entry. -/
theorem disposeDown_bodyOrTail {c : Channel} {k : Half} {g : DownSegment}
    (hg : (∃ i x, g = .body c k i x) ∨ ∃ m b x, g = .tail c k m b x) (n : PortId) (s : State) :
    (lookup s n c = none → disposeDown n g s = countUnbound n c k s)
      ∧ ∀ e, lookup s n c = some e → (s.entry e).assembly = .idle → disposeDown n g s = countOrphan n s := by
  rcases hg with ⟨i, x, rfl⟩ | ⟨m, b, x, rfl⟩
  · refine ⟨fun h => toEntry_none h _ _, fun e h hidle => (toEntry_some h _ _).trans ?_⟩
    simp only [bodyAt, hidle]
  · refine ⟨fun h => toEntry_none h _ _, fun e h hidle => (toEntry_some h _ _).trans ?_⟩
    simp only [tailAt, hidle]

theorem bodyAt_discarding {e : EntryId} {s : State} (h : (s.entry e).assembly = .discarding) (n : PortId) (i : Half)
    (x : List Byte) : bodyAt e n i x s = startStall e (countOrphan n s) := by
  simp only [bodyAt, h]

/-- Settles O15: in ACTIVE each segment goes where its kind and the entry's assembly send it. -/
theorem segmentsWithoutPlaceAreCounted : Obligations.SegmentsWithoutPlaceAreCounted := by
  intro n unit g c s hst hc p arrived orphan unknown
  have hdown : exec (.downstreamUnitReceived n unit) s = .next (disposeDown n g (s.setPort n arrived)) :=
    congrArg Host.Outcome.next (downUnit_active n unit g s hst hc)
  rw [hdown]
  refine ⟨fun hg hl => ?head, fun k hg hl => ?unbound, fun e k hg hl hidle => ?idle, fun e k i x hg hl hd => ?discarding,
    fun e r k i x hg hl hf hi => ?stale, fun tag payload hg => ?mrep⟩
  case head =>
    obtain ⟨k, a, rfl⟩ := hg
    refine congrArg Host.Outcome.next ?_
    simp only [disposeDown, forgetLate, mapPort_setPort]
    rw [toEntry_none (by exact hl), countUnknown_setPort]
  case unbound =>
    have hu := (disposeDown_bodyOrTail hg n (s.setPort n arrived)).1 hl
    rw [hu, countUnbound_setPort]
    refine ⟨fun hlate => congrArg Host.Outcome.next ?_, fun hlate => congrArg Host.Outcome.next ?_⟩
    · rw [if_neg hlate, countUnknown_setPort]
    · rw [if_pos hlate, countUnknown_setPort, countOrphan_setPort]
  case idle =>
    rw [(disposeDown_bodyOrTail hg n (s.setPort n arrived)).2 e hl hidle, countOrphan_setPort]
  case discarding =>
    subst hg
    refine congrArg Host.Outcome.next ((toEntry_some (by exact hl) _ _).trans ?_)
    rw [bodyAt_discarding (by exact hd), countOrphan_setPort]
    rfl
  case stale =>
    subst hg
    refine congrArg Host.Outcome.next ((toEntry_some (by exact hl) _ _).trans ?_)
    simp only [bodyAt, setPort_entry, hf, if_pos hi, countStale_setPort]
    rfl
  case mrep =>
    subst hg
    refine ⟨fun hroom => congrArg Host.Outcome.next ?_, fun hfull => congrArg Host.Outcome.next ?_⟩
    · have hr : replyRoom (s.setPort n arrived) = true := decide_eq_true hroom
      simp only [disposeDown, cameraReply, replyOrDrop, hr, if_true]
      rfl
    · have hr : replyRoom (s.setPort n arrived) = false := decide_eq_false (Nat.not_lt_of_le hfull)
      simp only [disposeDown, cameraReply, replyOrDrop, hr]
      rfl

/-! ## The hold timer and the transmitter -/

/-- Reaching a deadline changes part time alone. -/
theorem atDeadline_eq (d : Time) (s : State) : atDeadline d s = { s with partTime := (atDeadline d s).partTime } := by
  unfold atDeadline
  split <;> rfl

@[simp] theorem atDeadline_port (d : Time) (s : State) (n : PortId) : (atDeadline d s).port n = s.port n := by
  rw [atDeadline_eq]; rfl
@[simp] theorem atDeadline_gen (d : Time) (s : State) (n : PortId) : (atDeadline d s).gen n = s.gen n := by
  rw [atDeadline_eq]; rfl
@[simp] theorem atDeadline_entry (d : Time) (s : State) (e : EntryId) : (atDeadline d s).entry e = s.entry e := by
  rw [atDeadline_eq]; rfl
@[simp] theorem atDeadline_record (d : Time) (s : State) (r : RecordId) : (atDeadline d s).record r = s.record r := by
  rw [atDeadline_eq]; rfl
@[simp] theorem atDeadline_uplink (d : Time) (s : State) : (atDeadline d s).uplink = s.uplink := by
  rw [atDeadline_eq]
@[simp] theorem atDeadline_pg (d : Time) (s : State) : (atDeadline d s).pg = s.pg := by
  rw [atDeadline_eq]

/-- Settles O19: a LOST port and the LOST uplink each start acquisition over. -/
theorem holdTimerStartsAcquisition : Obligations.HoldTimerStartsAcquisition := by
  refine ⟨fun n d s hst hh => congrArg Host.Outcome.next ?port, fun d s hst hh => congrArg Host.Outcome.next ?uplink⟩
  case port =>
    simp only [portHold, hst, hh, enterPort, mapPort_eq, atDeadline_port, Port.enter]
    rfl
  case uplink =>
    simp only [uplinkHold, hst, hh, mapUplink, atDeadline_uplink]

/-- Settles O21: the branches of the transmitter, by the port's state and its output queue. -/
theorem transmitterStartsFrontSegment : Obligations.TransmitterStartsFrontSegment := by
  intro n s
  refine ⟨fun t ts hst ht => ?trig, fun m ms hst ht hm => ?mreq, fun hst ht hm => ?empty, fun hst => ?filler,
    fun hst => ?off⟩
  all_goals
    refine congrArg Host.Outcome.next ?_
    unfold transmitStart
    rw [mapPort_eq]
  case trig => simp only [hst, Port.startSegment, ht]; rfl
  case mreq => simp only [hst, Port.startSegment, ht, hm]; rfl
  case empty => simp only [hst, Port.startSegment, ht, hm]; rfl
  case filler => rcases hst with hst | hst <;> simp only [hst] <;> rfl
  case off => rcases hst with hst | hst <;> simp only [hst, setPort_port]

end Sys2Proof.Machine
end

section
/-!
A port leaves ACTIVE: what the port reset leaves (R25), kept through the port's own changes and its PORT_STATE, and carried
to the state that the event met. The statements about the loss of a port (O14) and about power (O20).
-/

namespace Sys2Proof.Machine

open Sys2Proof

/-! ## The offer of a notice beside other blocks -/

@[simp] theorem offerNotice_ports (b : NoticeBody) (s : State) : (offerNotice b s).ports = s.ports := by
  rw [offerNotice_eq]
@[simp] theorem offerNotice_gens (b : NoticeBody) (s : State) : (offerNotice b s).gens = s.gens := by
  rw [offerNotice_eq]
@[simp] theorem offerNotice_agent (b : NoticeBody) (s : State) : (offerNotice b s).agent = s.agent := by
  rw [offerNotice_eq]
@[simp] theorem offerNotice_pg (b : NoticeBody) (s : State) : (offerNotice b s).pg = s.pg := by
  rw [offerNotice_eq]
@[simp] theorem offerNotice_uplink (b : NoticeBody) (s : State) : (offerNotice b s).uplink = s.uplink := by
  rw [offerNotice_eq]
@[simp] theorem offerNotice_flash (b : NoticeBody) (s : State) : (offerNotice b s).flash = s.flash := by
  rw [offerNotice_eq]
@[simp] theorem offerNotice_replay (b : NoticeBody) (s : State) : (offerNotice b s).replay = s.replay := by
  rw [offerNotice_eq]
@[simp] theorem offerNotice_port (b : NoticeBody) (s : State) (n : PortId) : (offerNotice b s).port n = s.port n := by
  rw [offerNotice_eq]; rfl
@[simp] theorem offerNotice_gen (b : NoticeBody) (s : State) (n : PortId) : (offerNotice b s).gen n = s.gen n := by
  rw [offerNotice_eq]; rfl
@[simp] theorem offerNotice_entry (b : NoticeBody) (s : State) (e : EntryId) : (offerNotice b s).entry e = s.entry e := by
  rw [offerNotice_eq]; rfl
@[simp] theorem offerNotice_record (b : NoticeBody) (s : State) (r : RecordId) :
    (offerNotice b s).record r = s.record r := by
  rw [offerNotice_eq]; rfl

/-! ## The words of the port reset, and the state that they start from -/

/-- `portReset` reads the tables, the store, the replay pin, and the other ports of the state it starts from. -/
theorem portReset_source (s u : State) {t : State} {n : PortId} (he : s.entries = u.entries) (hg : s.gens = u.gens)
    (hu : s.uplink = u.uplink) (hf : s.flash = u.flash) (hv : s.replay = u.replay) (hm : s.store = u.store)
    (hp : ∀ m, m ≠ n → s.port m = u.port m) (h : s.portReset t n) : u.portReset t n := by
  have hentry : ∀ e, s.entry e = u.entry e := fun e => by simp only [State.entry, he]
  have hgen : ∀ m, s.gen m = u.gen m := fun m => by simp only [State.gen, hg]
  have hon : ∀ e, s.onPort n e ↔ u.onPort n e := fun e => by simp only [State.onPort, hentry]
  unfold State.portReset at h ⊢
  simp only [hentry, hgen, hon, hu, hf, hv, hm] at h
  obtain ⟨hout, hin, h1, h2, h3, h4, h5, h6, h7, h8, hother, hrest⟩ := h
  exact ⟨hout, hin, h1, h2, h3, h4, h5, h6, h7, h8, fun m hne => hp m hne ▸ hother m hne, hrest⟩

/-- `portReset` reads of its end state the tables, the store, the records, the uplink, the flash and the ports. -/
theorem portReset_target {s : State} (t v : State) {n : PortId} (he : v.entries = t.entries) (hg : v.gens = t.gens)
    (hu : v.uplink = t.uplink) (hf : v.flash = t.flash) (hv : v.replay = t.replay) (hm : v.store = t.store)
    (hq : (v.port n).outTrigs = [] ∧ (v.port n).outMreqs = []) (hp : ∀ m, m ≠ n → v.port m = t.port m)
    (h : s.portReset t n) : s.portReset v n := by
  have hentry : ∀ e, v.entry e = t.entry e := fun e => by simp only [State.entry, he]
  have hgen : ∀ m, v.gen m = t.gen m := fun m => by simp only [State.gen, hg]
  have hrecord : ∀ r, v.record r = t.record r := fun r => by simp only [State.record, hm]
  unfold State.portReset at h ⊢
  simp only [hentry, hgen, hrecord, hu, hf, hv, hm]
  obtain ⟨hout, hin, h1, h2, h3, h4, h5, h6, -, -, hother, hrest⟩ := h
  exact ⟨hout, hin, h1, h2, h3, h4, h5, h6, hq.1, hq.2, fun m hne => (hp m hne).symm ▸ hother m hne, hrest⟩

/-- The law of claims reads the tables, the records and the replay pin. -/
theorem claimLaw_congr {s u : State} (he : s.entries = u.entries) (hm : s.store = u.store) (hv : s.replay = u.replay)
    (h : s.claimLaw) : u.claimLaw :=
  (Settles.ofSame (s := s) (t := u) (fun r => by simp only [State.record, hm])
    (fun e => by simp only [State.entry, he, and_self]) hv.symm).claimLaw h

theorem closeNotices_source {s u : State} {c : CloseReason} {es : EntryId → Prop} {closes : EntryId → List NoticeBody}
    (he : s.entries = u.entries) (hm : s.store = u.store) (hv : s.replay = u.replay) (h : s.closeNotices c es closes) :
    u.closeNotices c es closes := by
  have hentry : ∀ e, s.entry e = u.entry e := fun e => by simp only [State.entry, he]
  have hrecord : ∀ r, s.record r = u.record r := fun r => by simp only [State.record, hm]
  have hclaim : s.claimLaw ↔ u.claimLaw := ⟨claimLaw_congr he hm hv, claimLaw_congr he.symm hm.symm hv.symm⟩
  unfold State.closeNotices at h ⊢
  simpa only [hentry, hrecord, hclaim] using h

theorem portNotices_source (s u : State) {t : State} {n : PortId} {last : List NoticeBody} (he : s.entries = u.entries)
    (hm : s.store = u.store) (hv : s.replay = u.replay) (hn : s.notices = u.notices) (ht : s.partTime = u.partTime)
    (h : s.portNotices t n last) : u.portNotices t n last := by
  obtain ⟨closes, hcloses, hnotices⟩ := h
  have hon : s.onPort n = u.onPort n := by funext e; simp only [State.onPort, State.entry, he]
  exact ⟨closes, hon ▸ closeNotices_source he hm hv hcloses, hnotices.trans (offerAll_congr _ hn ht)⟩

theorem removedAnswered_source (s u : State) {t : State} {n : PortId} {room : Nat} {after : List Reply} (ha : s.agent = u.agent)
    (hq : (s.port n).outMreqs = (u.port n).outMreqs) (h : s.removedAnswered t n room after) :
    u.removedAnswered t n room after := by
  unfold State.removedAnswered at h ⊢
  rwa [ha, hq] at h

/-! ## Leaving ACTIVE -/

/-- From `s` to `t` port `n` has left ACTIVE: the effects of a port reset, the requests answered or counted, and the
notices of the frames that close with `last` behind them. -/
structure LeftActive (n : PortId) (s t : State) (last : List NoticeBody) : Prop where
  reset : s.portReset t n
  answered : s.removedAnswered t n (16 - (s.agent.replies.length + s.agent.reserved.toNat)) []
  notices : ∃ closes, s.closeNotices .portLost (s.onPort n) closes ∧ Offers s t (allEntries.flatMap closes ++ last)

theorem LeftActive.portNotices {n : PortId} {s t : State} {last : List NoticeBody} (h : LeftActive n s t last) :
    s.portNotices t n last := by
  obtain ⟨closes, hcloses, hoffers⟩ := h.notices
  exact ⟨closes, hcloses, hoffers.notices⟩

/-- The port's own changes keep it, where the output queue stays empty. -/
theorem LeftActive.mapPort {n : PortId} {s t : State} {last : List NoticeBody} (h : LeftActive n s t last)
    (f : Port → Port) (hf : (f (t.port n)).outTrigs = [] ∧ (f (t.port n)).outMreqs = []) :
    LeftActive n s (mapPort n f t) last where
  reset := portReset_target t _ rfl rfl rfl rfl rfl rfl (by rw [mapPort_port_self]; exact hf)
    (fun m hm => mapPort_port_ne n f t m hm) h.reset
  answered := h.answered
  notices := by
    obtain ⟨closes, hcloses, hoffers⟩ := h.notices
    exact ⟨closes, hcloses, hoffers.before ⟨rfl, rfl⟩⟩

theorem LeftActive.offer {n : PortId} {s t : State} {last : List NoticeBody} (h : LeftActive n s t last)
    (b : NoticeBody) : LeftActive n s (offerNotice b t) (last ++ [b]) where
  reset := portReset_target t _ (offerNotice_entries b t) (offerNotice_gens b t) (offerNotice_uplink b t)
    (offerNotice_flash b t) (offerNotice_replay b t) (offerNotice_store b t)
    (by rw [offerNotice_port]; exact ⟨h.reset.2.2.2.2.2.2.2.2.1, h.reset.2.2.2.2.2.2.2.2.2.1⟩)
    (fun m _ => offerNotice_port b t m) h.reset
  answered := by unfold State.removedAnswered; rw [offerNotice_agent]; exact h.answered
  notices := by
    obtain ⟨closes, hcloses, hoffers⟩ := h.notices
    exact ⟨closes, hcloses, by rw [← List.append_assoc]; exact hoffers.trans (Offers.offer b t)⟩

theorem leaveActive_of_ne {n : PortId} {s : State} (h : (s.port n).state ≠ .active) : leaveActive n s = s := if_neg h

/-- The effects of leaving ACTIVE (R25). -/
theorem leaveActive_left {n : PortId} {s : State} (h : (s.port n).state = .active) :
    LeftActive n s (leaveActive n s) [] ∧ (leaveActive n s).port n = { s.port n with outTrigs := [], outMreqs := [] }
      ∧ (leaveActive n s).partTime = s.partTime ∧ (leaveActive n s).pg = s.pg := by
  have he : leaveActive n s = portResetEffects n s := if_pos h
  obtain ⟨hreset, hanswered, hport, htime, hpg⟩ := portResetEffects_spec n s
  obtain ⟨closes, hcloses, hoffers⟩ := portResetEffects_notices n s
  rw [he]
  exact ⟨⟨hreset, hanswered, closes, hcloses, by rw [List.append_nil]; exact hoffers⟩, hport, htime, hpg⟩

/-- Entering a state reads part time alone of the state it is entered in. -/
theorem enter_congr {s t : State} (h : t.partTime = s.partTime) (st : PortState) (p : Port) :
    Port.enter st t p = Port.enter st s p := by
  simp only [Port.enter, timerIf, State.after, h]

theorem enterPort_port_self (n : PortId) (st : PortState) (why : PortReason) (s : State) :
    (enterPort n st why s).port n = Port.enter st s (s.port n) := by
  rw [enterPort, offerNotice_port, mapPort_port_self]

/-- A port in ACTIVE leaves it for `st`. -/
theorem exitPort_left {n : PortId} {s : State} (h : (s.port n).state = .active) (st : PortState) (why : PortReason) :
    LeftActive n s (exitPort n st why s) [.portState n .active st why]
      ∧ (exitPort n st why s).port n = Port.enter st s { s.port n with outTrigs := [], outMreqs := [] }
      ∧ (exitPort n st why s).pg = s.pg := by
  obtain ⟨hleft, hport, htime, hpg⟩ := leaveActive_left h
  have hstate : ((leaveActive n s).port n).state = .active := by rw [hport]; exact h
  refine ⟨?left, ?port, ?pins⟩
  case left =>
    have hmap := hleft.mapPort (Port.enter st (leaveActive n s)) (by rw [hport]; exact ⟨rfl, rfl⟩)
    have hoffer := hmap.offer (.portState n .active st why)
    rw [exitPort, enterPort, hstate]
    exact hoffer
  case port => rw [exitPort, enterPort_port_self, enter_congr htime, hport]
  case pins => rw [exitPort, enterPort, offerNotice_pg]; exact hpg

/-- Settles O14: both events leave ACTIVE by `exitPort`, the one with the unit counted, the other at the deadline. -/
theorem badChecksAndSilenceLosePort : Obligations.BadChecksAndSilenceLosePort := by
  intro n s hst
  refine ⟨fun unit h15 hc => ?bad, fun d hd => ?silence⟩
  case bad =>
    let p : Port := { s.port n with
      badRun := 16, silence := some (s.after 4000)
      counters := { (s.port n).counters with
        segIn := bump (s.port n).counters.segIn, badCheck := bump (s.port n).counters.badCheck } }
    have hact : ((s.setPort n p).port n).state = .active := by rw [setPort_port_self]; exact hst
    have hrun : downUnit n unit s = exitPort n .lost .badChecks (s.setPort n p) := by
      rw [downUnit_bad n unit s (by rw [hst]; rfl) hc]
      simp [badUnit, Port.counted, hst, h15, Config.badCheckRun, p]
    obtain ⟨hleft, hport, -⟩ := exitPort_left hact .lost .badChecks
    rw [setPort_port_self] at hport
    have hst' : p.state = .active := hst
    refine ⟨_, congrArg Host.Outcome.next hrun, ?_⟩
    rw [hport]
    refine ⟨rfl, rfl, rfl, ?_, ?_, rfl, rfl, rfl, ?_, ?_, ?_⟩
    · simp [Port.enter, runAfter, hst']
    · simp [Port.enter, runAfter, hst']
    · exact portReset_source (s.setPort n p) s rfl rfl rfl rfl rfl rfl (fun m hm => setPort_port_ne n p s m hm)
        hleft.reset
    · exact removedAnswered_source (s.setPort n p) s rfl (by rw [setPort_port_self]) hleft.answered
    · exact portNotices_source (s.setPort n p) s rfl rfl rfl rfl rfl hleft.portNotices
  case silence =>
    have hact : ((atDeadline d s).port n).state = .active := by rw [atDeadline_port]; exact hst
    have hrun : portSilence n s = exitPort n .lost .silence (atDeadline d s) := by simp only [portSilence, hst, hd]
    obtain ⟨hleft, hport, -⟩ := exitPort_left hact .lost .silence
    rw [atDeadline_port] at hport
    refine ⟨_, congrArg Host.Outcome.next hrun, ?_⟩
    rw [hport]
    refine ⟨rfl, rfl, rfl, ?_, ?_, rfl, rfl, rfl, ?_, ?_, hleft.portNotices⟩
    · simp [Port.enter, runAfter, hst]
    · simp [Port.enter, runAfter, hst]
    · have he := atDeadline_eq d s
      exact portReset_source (atDeadline d s) s (by rw [he]) (by rw [he]) (by rw [he]) (by rw [he]) (by rw [he]) (by rw [he])
        (fun m _ => atDeadline_port d s m) hleft.reset
    · have ha : (atDeadline d s).agent = s.agent := by rw [atDeadline_eq]
      have hanswered := removedAnswered_source (atDeadline d s) s ha (by rw [atDeadline_port]) hleft.answered
      rwa [ha] at hanswered

/-! ## Power -/

theorem exitPort_of_ne {n : PortId} {s : State} (h : (s.port n).state ≠ .active) (st : PortState) (why : PortReason) :
    exitPort n st why s = enterPort n st why s := by
  rw [exitPort, leaveActive_of_ne h]

/-- At the end of the ramp (R23). -/
theorem rampEnds_high {n : PortId} {d : Time} {s : State} (hst : (s.port n).state = .powering)
    (hd : (s.port n).ramp = some d) :
    rampEnds n true s = enterPort n .acquiring .rampDone { atDeadline d s with pg := s.pg.set n true } := by
  have hpg : setPowerGood n true (atDeadline d s) = { atDeadline d s with pg := s.pg.set n true } := by
    rw [setPowerGood, atDeadline_pg]
  simp only [rampEnds, hst, hd, hpg, if_true]

theorem rampEnds_low {n : PortId} {d : Time} {s : State} (hst : (s.port n).state = .powering)
    (hd : (s.port n).ramp = some d) :
    rampEnds n false s = enterPort n .off .powerFault (setFault n true { atDeadline d s with pg := s.pg.set n false }) := by
  have hpg : setPowerGood n false (atDeadline d s) = { atDeadline d s with pg := s.pg.set n false } := by
    rw [setPowerGood, atDeadline_pg]
  simp only [rampEnds, hst, hd, hpg, Bool.false_eq_true, if_false]

/-- PGn going low at a port whose power the part watches (R24). -/
theorem powerFails_watched {n : PortId} {s : State} (hp : (s.port n).powered = true)
    (hr : (s.port n).state.receiving = true) :
    powerFails n s = setFault n true (exitPort n .off .powerFault { s with pg := s.pg.set n false }) := by
  simp only [powerFails, hp, hr, Bool.and_self, if_true]
  rfl

/-- Settles O20: the sample at the end of the ramp, and the fall of PGn with and without an ACTIVE port to leave. -/
theorem powerGoodDecidesPort : Obligations.PowerGoodDecidesPort := by
  refine ⟨fun n d s hst hd => ⟨congrArg Host.Outcome.next ?high, congrArg Host.Outcome.next ?low⟩,
    fun n s hp hr => ?fault⟩
  case high =>
    have hport : ({ atDeadline d s with pg := s.pg.set n true } : State).port n = s.port n := atDeadline_port d s n
    rw [rampEnds_high hst hd, enterPort, mapPort_eq, hport, hst]
    simp [Port.enter, runAfter, timerIf, hst, PortState.receiving]
  case low =>
    have hport : ({ atDeadline d s with pg := s.pg.set n false } : State).port n = s.port n := atDeadline_port d s n
    rw [rampEnds_low hst hd, setFault, mapPort_eq, enterPort, mapPort_setPort, setPort_port_self, hport, hst]
    simp [Port.enter, runAfter, timerIf, PortState.receiving]
  case fault =>
    let u : State := { s with pg := s.pg.set n false }
    refine ⟨_, congrArg Host.Outcome.next (powerFails_watched hp hr), ?_⟩
    by_cases hst : (s.port n).state = .active
    case pos =>
      obtain ⟨hleft, hport, hpg⟩ := exitPort_left (s := u) hst .off .powerFault
      have hfault := hleft.mapPort (fun p => { p with fault := true }) (by rw [hport]; exact ⟨rfl, rfl⟩)
      simp only [setFault, mapPort_port_self, u, hport] at hfault ⊢
      refine ⟨rfl, trivial, rfl, hp, ?_, rfl, rfl, rfl, hpg, fun _ => ⟨?_, ?_, ?_⟩, fun h => absurd hst h⟩
      · simp [Port.powerEnable, Port.enter]
      · exact portReset_source u s rfl rfl rfl rfl rfl rfl (fun _ _ => rfl) hfault.reset
      · exact removedAnswered_source u s rfl rfl hfault.answered
      · exact portNotices_source u s rfl rfl rfl rfl rfl hfault.portNotices
    case neg =>
      rw [exitPort_of_ne (s := u) hst]
      simp only [setFault, mapPort_port_self, enterPort_port_self]
      refine ⟨rfl, trivial, rfl, hp, ?_, rfl, rfl, rfl, ?_, fun h => absurd h hst, fun _ => ?_⟩
      · simp [Port.powerEnable, Port.enter]
      · rw [mapPort_pg, enterPort, offerNotice_pg, mapPort_pg]
      · rw [mapPort_notices, enterPort]
        exact offerNotice_congr _ rfl rfl

end Sys2Proof.Machine
end

section
/-!
SET_PORT and PORT_RESET (O22, O24): what becomes of the settings of a port (R27) and what a port reset leaves of it (R29),
each behind the effects of leaving ACTIVE and before the reply.
-/

namespace Sys2Proof.Machine

open Sys2Proof

/-! ## The reply of an operation that moves the queues -/

/-- An operation that leaves the agent READY, whatever else it does: the reply is placed on the state it makes. -/
theorem exec_change (tag : Half) (op : HostOp) {s t : State} (st : Status) (r : List Byte) (h : s.mayTake)
    (ho : operate op (setReserved true s) = (t, ⟨st, r⟩)) (hs : t.agent.state = .ready)
    (hr : isResetPart op = false := by rfl) (hl : isLong op = false ∨ s.agent.longOp = none := by exact .inl rfl) :
    exec (commandOf tag op) s = .next (placeReply ⟨0x0F, tag, opCode op :: st.code :: r, false⟩ t) := by
  rw [exec_commandOf, hostRequest_eq tag op s t st r h ho hs hr hl]

theorem placeReply_lastReply (tag : Half) (op st : Byte) (r : List Byte) (t : State) :
    (placeReply ⟨0x0F, tag, op :: st :: r, false⟩ t).lastReply tag op st r := List.getLast?_concat

@[simp] theorem placeReply_port (r : Reply) (t : State) (n : PortId) : (placeReply r t).port n = t.port n := rfl
@[simp] theorem placeReply_entries (r : Reply) (t : State) : (placeReply r t).entries = t.entries := rfl
@[simp] theorem placeReply_gens (r : Reply) (t : State) : (placeReply r t).gens = t.gens := rfl
@[simp] theorem placeReply_notices (r : Reply) (t : State) : (placeReply r t).notices = t.notices := rfl

/-! ## Entering a state with a notice when it changes -/

theorem movePort_stays {n : PortId} {st : PortState} {s : State} (h : (s.port n).state = st) (why : PortReason) :
    movePort n st why s = mapPort n (Port.enter st s) s := if_pos h

theorem movePort_changes {n : PortId} {st : PortState} {s : State} (h : (s.port n).state ≠ st) (why : PortReason) :
    movePort n st why s = enterPort n st why s := if_neg h

/-- The two ways of a move, for a fact that holds of both. -/
theorem movePort_or (n : PortId) (st : PortState) (why : PortReason) (s : State) :
    movePort n st why s = mapPort n (Port.enter st s) s ∨ movePort n st why s = enterPort n st why s := by
  rcases eq_or_ne (s.port n).state st with h | h
  · exact .inl (movePort_stays h why)
  · exact .inr (movePort_changes h why)

theorem movePort_port_self (n : PortId) (st : PortState) (why : PortReason) (s : State) :
    (movePort n st why s).port n = Port.enter st s (s.port n) := by
  rcases movePort_or n st why s with h | h <;> rw [h]
  · exact mapPort_port_self n _ s
  · exact enterPort_port_self n st why s

/-- A move leaves the other ports, the stream table, the generators and the agent. -/
theorem movePort_leaves (n : PortId) (st : PortState) (why : PortReason) (s : State) :
    (∀ m, m ≠ n → (movePort n st why s).port m = s.port m) ∧ (movePort n st why s).entries = s.entries
      ∧ (movePort n st why s).gens = s.gens ∧ (movePort n st why s).agent = s.agent := by
  rcases movePort_or n st why s with h | h <;> rw [h]
  · exact ⟨fun m hm => mapPort_port_ne n _ s m hm, rfl, rfl, rfl⟩
  · exact ⟨fun m hm => (offerNotice_port ..).trans (mapPort_port_ne n _ s m hm), offerNotice_entries .., offerNotice_gens ..,
      offerNotice_agent ..⟩

theorem enterPort_notices (n : PortId) (st : PortState) (why : PortReason) (s : State) :
    (enterPort n st why s).notices = (offerNotice (.portState n (s.port n).state st why) s).notices :=
  offerNotice_congr _ rfl rfl

/-- A port in ACTIVE that moves to another state leaves ACTIVE. -/
theorem movePort_leaveActive {n : PortId} {st : PortState} {s : State} (h : (s.port n).state = .active)
    (hne : st ≠ .active) (why : PortReason) : movePort n st why (leaveActive n s) = exitPort n st why s := by
  obtain ⟨-, hport, -⟩ := leaveActive_left h
  exact movePort_changes (by rw [hport]; exact h ▸ hne.symm) why

/-! ## Leaving ACTIVE at a request -/

/-- What leaves ACTIVE with the port's own fields changed leaves it from the state before. -/
theorem LeftActive.of_mapPort {n : PortId} {f : Port → Port} {s t : State} {last : List NoticeBody}
    (h : LeftActive n (Machine.mapPort n f s) t last) (hf : (f (s.port n)).outMreqs = (s.port n).outMreqs) :
    LeftActive n s t last where
  reset := portReset_source (Machine.mapPort n f s) s rfl rfl rfl rfl rfl rfl (fun m hm => mapPort_port_ne n f s m hm)
    h.reset
  answered := removedAnswered_source (Machine.mapPort n f s) s rfl (by rw [mapPort_port_self, hf]) h.answered
  notices := by
    obtain ⟨closes, hcloses, hoffers⟩ := h.notices
    have hon : (Machine.mapPort n f s).onPort n = s.onPort n := rfl
    exact ⟨closes, closeNotices_source (s := Machine.mapPort n f s) rfl rfl rfl (hon ▸ hcloses), hoffers.behind rfl rfl⟩

/-- Leaving ACTIVE keeps the agent's state. -/
theorem LeftActive.state {n : PortId} {s t : State} {last : List NoticeBody} (h : LeftActive n s t last) :
    t.agent.state = s.agent.state := by
  rw [h.answered]

/-- At a request: the place of the reply is reserved, and the reply is placed behind the removed requests' replies. -/
theorem LeftActive.placeReply {n : PortId} {s t : State} {last : List NoticeBody}
    (h : LeftActive n (setReserved true s) t last) (hs : s.atRest) (tag : Half) (op st : Byte) (r : List Byte) :
    s.portReset (Machine.placeReply ⟨0x0F, tag, op :: st :: r, false⟩ t) n
      ∧ s.removedAnswered (Machine.placeReply ⟨0x0F, tag, op :: st :: r, false⟩ t) n (15 - s.agent.replies.length)
          [⟨0x0F, tag, op :: st :: r, false⟩]
      ∧ s.portNotices (Machine.placeReply ⟨0x0F, tag, op :: st :: r, false⟩ t) n last := by
  have hreset := h.reset
  have hanswered := h.answered
  have hrest : s.agent.reserved = false := hs
  refine ⟨?reset, ?answered, portNotices_source (setReserved true s) s rfl rfl rfl rfl rfl h.portNotices⟩
  case reset =>
    have hqueue := hreset.2.2.2.2.2.2.2.2
    exact portReset_target t _ rfl rfl rfl rfl rfl rfl ⟨hqueue.1, hqueue.2.1⟩ (fun _ _ => rfl)
      (portReset_source (setReserved true s) s rfl rfl rfl rfl rfl rfl (fun _ _ => rfl) hreset)
  case answered =>
    have hroom : 16 - ((setReserved true s).agent.replies.length + (setReserved true s).agent.reserved.toNat)
        = 15 - s.agent.replies.length := by
      simp only [setReserved, mapAgent, Bool.toNat_true]
      omega
    rw [hroom] at hanswered
    unfold State.removedAnswered at hanswered ⊢
    simp only [Machine.placeReply, pushReply, setReserved, mapAgent, hanswered, List.append_nil, hrest]
    rfl

/-- A port in ACTIVE leaves it with its own fields changed first. -/
theorem exitPort_mapPort_left {n : PortId} {f : Port → Port} {s : State} (h : (f (s.port n)).state = .active)
    (hf : (f (s.port n)).outMreqs = (s.port n).outMreqs) (st : PortState) (why : PortReason) :
    LeftActive n s (exitPort n st why (mapPort n f s)) [.portState n .active st why]
      ∧ (exitPort n st why (mapPort n f s)).port n
        = Port.enter st s { f (s.port n) with outTrigs := [], outMreqs := [] } := by
  have hact : ((mapPort n f s).port n).state = .active := by rw [mapPort_port_self]; exact h
  obtain ⟨hleft, hport, -⟩ := exitPort_left hact st why
  rw [mapPort_port_self] at hport
  exact ⟨hleft.of_mapPort hf, hport⟩

/-- A port that moves to another state than ACTIVE, its own fields changed first, from ACTIVE. -/
theorem movePort_leaveActive_left {n : PortId} {f : Port → Port} {s : State} {st : PortState}
    (h : (f (s.port n)).state = .active) (hf : (f (s.port n)).outMreqs = (s.port n).outMreqs) (hne : st ≠ .active)
    (why : PortReason) :
    LeftActive n s (movePort n st why (leaveActive n (mapPort n f s))) [.portState n .active st why]
      ∧ (movePort n st why (leaveActive n (mapPort n f s))).port n
        = Port.enter st s { f (s.port n) with outTrigs := [], outMreqs := [] } := by
  rw [movePort_leaveActive (by rw [mapPort_port_self]; exact h) hne]
  exact exitPort_mapPort_left h hf st why

/-- From `s` to `t` port `n` becomes `p` in state `st`, with a PORT_STATE notice when its state changes (R26, R27). -/
structure Restated (n : PortId) (st : PortState) (why : PortReason) (p : Port) (s t : State) : Prop where
  port : t.port n = p
  ports : ∀ m, m ≠ n → t.port m = s.port m
  entries : t.entries = s.entries
  gens : t.gens = s.gens
  agent : t.agent = s.agent
  stays : (s.port n).state = st → t.notices = s.notices
  changes : (s.port n).state ≠ st → t.notices = (offerNotice (.portState n (s.port n).state st why) s).notices

/-- The same from another state than ACTIVE. -/
theorem movePort_leaveActive_restated {n : PortId} {f : Port → Port} {s : State} (h : (s.port n).state ≠ .active)
    (hf : (f (s.port n)).state = (s.port n).state) (st : PortState) (why : PortReason) :
    Restated n st why (Port.enter st s (f (s.port n))) s (movePort n st why (leaveActive n (mapPort n f s))) := by
  have hstate : ((mapPort n f s).port n).state = (s.port n).state := by rw [mapPort_port_self, hf]
  obtain ⟨hports, hentries, hgens, hagent⟩ := movePort_leaves n st why (mapPort n f s)
  rw [leaveActive_of_ne (by rw [hstate]; exact h)]
  refine ⟨?_, fun m hm => (hports m hm).trans (mapPort_port_ne n f s m hm), hentries, hgens, hagent, fun hs => ?_,
    fun hc => ?_⟩
  · rw [movePort_port_self, mapPort_port_self]
    rfl
  · rw [movePort_stays (hstate.trans hs)]
    rfl
  · rw [movePort_changes (by rw [hstate]; exact hc), enterPort_notices, hstate]
    exact offerNotice_congr _ rfl rfl

theorem Restated.mapPort {n : PortId} {st : PortState} {why : PortReason} {p : Port} {s t : State}
    (h : Restated n st why p s t) (f : Port → Port) : Restated n st why (f p) s (Machine.mapPort n f t) where
  port := by rw [mapPort_port_self, h.port]
  ports m hm := (mapPort_port_ne n f t m hm).trans (h.ports m hm)
  entries := h.entries
  gens := h.gens
  agent := h.agent
  stays := h.stays
  changes := h.changes

/-! ## The settings of a port (R27) -/

/-- A port that takes the two settings, before its state changes. -/
def Port.configured (e p : Bool) (q : Port) : Port := { q with enabled := e, powered := p }

theorem applyPortSettings_disabled (n : PortId) (p : Bool) (s : State) :
    applyPortSettings n false p s
      = setFault n false (movePort n .off .disabled (leaveActive n (mapPort n (Port.configured false p) s))) := rfl

theorem applyPortSettings_off {n : PortId} {s : State} (h : (s.port n).state = .off) (p : Bool) :
    applyPortSettings n true p s
      = setFault n false (movePort n (startState p) .enabled (mapPort n (Port.configured true p) s)) := by
  simp only [applyPortSettings, h, Bool.not_true, Bool.false_eq_true, if_false, if_true]
  rfl

theorem applyPortSettings_kept {n : PortId} {s : State} (h : (s.port n).state ≠ .off) :
    applyPortSettings n true (s.port n).powered s = s.setPort n { s.port n with enabled := true } := by
  simp only [applyPortSettings, h, Bool.not_true, Bool.false_eq_true, if_false, reconfigurePort, if_true, mapPort_eq]

theorem applyPortSettings_changed {n : PortId} {s : State} {p : Bool} (h : (s.port n).state ≠ .off)
    (hp : (s.port n).powered ≠ p) :
    applyPortSettings n true p s
      = movePort n (startState p) .reconfigured (leaveActive n (mapPort n (Port.configured true p) s)) := by
  simp only [applyPortSettings, h, Bool.not_true, Bool.false_eq_true, if_false, reconfigurePort, if_neg hp]
  rfl

theorem startState_ne_active (p : Bool) : startState p ≠ .active := by cases p <;> decide

/-- A port in ACTIVE that is disabled leaves it. -/
theorem applyPortSettings_disabled_left {n : PortId} {s : State} (h : (s.port n).state = .active) (p : Bool) :
    LeftActive n s (applyPortSettings n false p s) [.portState n .active .off .disabled]
      ∧ (applyPortSettings n false p s).port n
        = { Port.enter .off s { (s.port n).configured false p with outTrigs := [], outMreqs := [] } with
            fault := false } := by
  obtain ⟨hleft, hport⟩ := movePort_leaveActive_left (n := n) (f := Port.configured false p) h rfl
    (by decide : PortState.off ≠ .active) .disabled
  rw [applyPortSettings_disabled, setFault, mapPort_port_self, hport]
  exact ⟨hleft.mapPort (fun q => { q with fault := false }) (by rw [hport]; exact ⟨rfl, rfl⟩), rfl⟩

/-! ## SET_PORT -/

theorem opSetPort_uplink (b c : Byte) (s : State) : opSetPort 0x0F b c s = refuse .readOnly s := rfl

theorem flagOf_none {b : Byte} (h : 2 ≤ b.toNat) : flagOf b = none := by
  have h0 : b ≠ 0 := fun e => by rw [e] at h; exact absurd h (by decide)
  have h1 : b ≠ 1 := fun e => by rw [e] at h; exact absurd h (by decide)
  simp only [flagOf, if_neg h0, if_neg h1]

theorem flagOf_some {b : Byte} (h : b.toNat < 2) : ∃ p, flagOf b = some p := by
  rcases (by omega : b.toNat = 0 ∨ b.toNat = 1) with h0 | h1
  · exact ⟨false, by rw [BitVec.eq_of_toNat_eq (y := (0 : Byte)) h0]; rfl⟩
  · exact ⟨true, by rw [BitVec.eq_of_toNat_eq (y := (1 : Byte)) h1]; rfl⟩

theorem opSetPort_outOfRange {a b c : Byte} (hu : a ≠ 0x0F) (h : 8 ≤ a.toNat ∨ 2 ≤ b.toNat ∨ 2 ≤ c.toNat) (s : State) :
    opSetPort a b c s = refuse .badArgument s := by
  rw [opSetPort, if_neg hu]
  rcases h with h | h | h
  · rw [indexBelow_none 8 a h]
  · rw [flagOf_none h]
    cases indexBelow 8 a <;> rfl
  · rw [flagOf_none h]
    cases indexBelow 8 a <;> cases flagOf b <;> rfl

theorem opSetPort_port {n : PortId} {b c : Byte} {e p : Bool} (hb : flagOf b = some e) (hc : flagOf c = some p)
    (s : State) :
    opSetPort (byteOf n.val) b c s
      = accept [((applyPortSettings n e p s).port n).state.code] (applyPortSettings n e p s) := by
  simp only [opSetPort, if_neg (byteOf_port_ne_uplink n), indexBelow_byteOf 8 n (by decide), hb, hc]

/-- SET_PORT that is done: the settings are applied, and the reply names the state. -/
theorem exec_setPort (tag : Half) {s t : State} (h : s.mayTake) {n : PortId} {b c : Byte} {e p : Bool}
    (hb : flagOf b = some e) (hc : flagOf c = some p) (ht : applyPortSettings n e p (setReserved true s) = t)
    {st : PortState} (hst : (t.port n).state = st) (hs : t.agent.state = .ready) :
    exec (.setPort tag (byteOf n.val) b c) s
      = .next (placeReply ⟨0x0F, tag, [0x10, 0x00, st.code], false⟩ t) := by
  have ho := opSetPort_port (n := n) hb hc (setReserved true s)
  rw [ht, hst] at ho
  exact exec_change tag (.setPort (byteOf n.val) b c) .ok _ h ho hs

theorem offerNotice_mapAgent (b : NoticeBody) (f : Agent → Agent) (s : State) :
    offerNotice b (mapAgent f s) = mapAgent f (offerNotice b s) := by
  have hn : (offerNotice b (mapAgent f s)).notices = (offerNotice b s).notices := offerNotice_congr b rfl rfl
  rw [offerNotice_eq b (mapAgent f s), hn, offerNotice_eq b s]
  rfl

theorem offerNotice_setReserved (b : NoticeBody) (x : Bool) (s : State) :
    offerNotice b (setReserved x s) = setReserved x (offerNotice b s) := offerNotice_mapAgent b _ s

/-- Of the timers only the ramp runs where an enabled port starts. -/
theorem enter_startState_timers (p : Bool) (s : State) :
    (∀ q, (Port.enter (startState p) s q).ramp = if p then some (s.after 20000) else none)
      ∧ (∀ q, (Port.enter (startState p) s q).silence = none) ∧ ∀ q, (Port.enter (startState p) s q).hold = none := by
  cases p <;> exact ⟨fun _ => rfl, fun _ => rfl, fun _ => rfl⟩

/-- An enabled port in OFF starts. -/
theorem applyPortSettings_starts {n : PortId} {s : State} (h : (s.port n).state = .off) (p : Bool) :
    applyPortSettings n true p (setReserved true s)
      = setReserved true (offerNotice (.portState n .off (startState p) .enabled) (s.setPort n
          { Port.enter (startState p) s ((s.port n).configured true p) with fault := false })) := by
  have hne : PortState.off ≠ startState p := by cases p <;> decide
  have hst : ((mapPort n (Port.configured true p) (setReserved true s)).port n).state = .off := by
    rw [mapPort_port_self]; exact h
  rw [applyPortSettings_off (s := setReserved true s) h, movePort_changes (hst ▸ hne), enterPort, hst, setFault,
    mapPort_offerNotice, ← offerNotice_setReserved]
  simp only [mapPort_eq, setPort_setPort, setPort_port_self]
  rfl

/-- The reply names the state that the port is in. -/
theorem exec_setPort_starts (tag : Half) {s : State} (h : s.mayTake) {n : PortId} (hst : (s.port n).state = .off)
    (p : Bool) :
    exec (.setPort tag (byteOf n.val) 1 (if p then 1 else 0)) s
      = .next ((offerNotice (.portState n .off (startState p) .enabled) (s.setPort n
          { Port.enter (startState p) s ((s.port n).configured true p) with fault := false })).withReply tag
          0x10 0x00 [(startState p).code]) := by
  have ho := opSetPort_port (n := n) (b := 1) (e := true) rfl (flagOf_flag p) (setReserved true s)
  rw [applyPortSettings_starts hst, setReserved_port, offerNotice_port, setPort_port_self] at ho
  exact exec_write' tag (.setPort (byteOf n.val) 1 (if p then 1 else 0)) .ok _ h ho (offerNotice_agent ..)

/-- Settles O22: the cases of R27. -/
theorem setPortActsByState : Obligations.SetPortActsByState := by
  intro tag s h
  refine ⟨fun b c => ?uplink, fun a b c hu hr => ?range, fun n hst => ⟨?powering, ?acquiring⟩, fun n hst => ?kept,
    fun n p st hst hp hs => ?changed, fun n c hc => ?disabled⟩
  case uplink => exact exec_read tag (.setPort 0x0F b c) .readOnly [] h (opSetPort_uplink b c _)
  case range => exact exec_read tag (.setPort a b c) .badArgument [] h (opSetPort_outOfRange hu hr _)
  case powering =>
    refine (exec_setPort_starts tag h hst true).trans ?_
    simp [Port.enter, Port.configured, startState, timerIf, runAfter, PortState.receiving, hst, PortState.code, Config.rampTime]
  case acquiring =>
    refine (exec_setPort_starts tag h hst false).trans ?_
    simp [Port.enter, Port.configured, startState, timerIf, runAfter, PortState.receiving, hst, PortState.code]
  case kept =>
    have ho := opSetPort_port (n := n) (b := 1) (e := true) rfl (flagOf_flag (s.port n).powered) (setReserved true s)
    rw [← setReserved_port true s n, applyPortSettings_kept (s := setReserved true s) hst, setPort_port_self] at ho
    exact exec_write' tag (.setPort (byteOf n.val) 1 _) .ok _ h ho rfl
  case changed =>
    obtain rfl : st = startState p := hs
    have hp' : (s.port n).powered ≠ p := by rw [hp]; exact Bool.not_ne_self p
    obtain ⟨t, ht⟩ : ∃ t, applyPortSettings n true p (setReserved true s) = t := ⟨_, rfl⟩
    have hmove := (applyPortSettings_changed (s := setReserved true s) hst hp').symm.trans ht
    obtain ⟨hramp, hsilence, hhold⟩ := enter_startState_timers p s
    by_cases ha : (s.port n).state = .active
    case pos =>
      obtain ⟨hleft, hport⟩ := movePort_leaveActive_left (n := n) (s := setReserved true s)
        (f := Port.configured true p) ha rfl (startState_ne_active p) .reconfigured
      rw [hmove] at hleft hport
      have hstate : (t.port n).state = startState p := by rw [hport]; rfl
      refine ⟨_, exec_setPort tag h rfl (flagOf_flag p) ht hstate (hleft.state.trans h.2.1), ?_⟩
      rw [placeReply_port, hport]
      exact ⟨rfl, rfl, rfl, rfl, hramp _, hsilence _, hhold _, rfl, placeReply_lastReply .., fun hne => absurd ha hne,
        fun _ => hleft.placeReply h.2.2.2 tag 0x10 0x00 [(startState p).code]⟩
    case neg =>
      have hrest := movePort_leaveActive_restated (n := n) (s := setReserved true s) (f := Port.configured true p) ha
        rfl (startState p) .reconfigured
      rw [hmove] at hrest
      have hstate : (t.port n).state = startState p := by rw [hrest.port]; rfl
      refine ⟨_, exec_setPort tag h rfl (flagOf_flag p) ht hstate ((congrArg Agent.state hrest.agent).trans h.2.1), ?_⟩
      rw [placeReply_port, hrest.port]
      exact ⟨rfl, rfl, rfl, rfl, hramp _, hsilence _, hhold _, rfl, placeReply_lastReply ..,
        fun _ => ⟨hrest.ports, hrest.entries, hrest.gens, hrest.stays,
          fun hc => (hrest.changes hc).trans (offerNotice_congr _ rfl rfl)⟩,
        fun hact => absurd hact ha⟩
  case disabled =>
    obtain ⟨p, hp⟩ := flagOf_some hc
    obtain ⟨t, ht⟩ : ∃ t, applyPortSettings n false p (setReserved true s) = t := ⟨_, rfl⟩
    by_cases ha : (s.port n).state = .active
    case pos =>
      obtain ⟨hleft, hport⟩ := applyPortSettings_disabled_left (s := setReserved true s) ha p
      rw [ht] at hleft hport
      have hstate : (t.port n).state = .off := by rw [hport]; rfl
      refine ⟨_, exec_setPort tag h rfl hp ht hstate (hleft.state.trans h.2.1), ?_⟩
      rw [placeReply_port, hport]
      exact ⟨rfl, rfl, rfl, rfl, rfl, rfl, placeReply_lastReply ..,
        fun _ => hleft.placeReply h.2.2.2 tag 0x10 0x00 [0x00],
        fun hoff => absurd (ha.symm.trans hoff) (by decide), fun hne => absurd ha hne⟩
    case neg =>
      have hrest := (movePort_leaveActive_restated (n := n) (s := setReserved true s) (f := Port.configured false p) ha
        rfl .off .disabled).mapPort (fun q => { q with fault := false })
      have hmove : setFault n false (movePort n .off .disabled (leaveActive n
        (mapPort n (Port.configured false p) (setReserved true s)))) = t := ht
      rw [← setFault, hmove] at hrest
      have hstate : (t.port n).state = .off := by rw [hrest.port]; rfl
      refine ⟨_, exec_setPort tag h rfl hp ht hstate ((congrArg Agent.state hrest.agent).trans h.2.1), ?_⟩
      rw [placeReply_port, hrest.port]
      exact ⟨rfl, rfl, rfl, rfl, rfl, rfl, placeReply_lastReply .., fun hact => absurd hact ha, hrest.stays,
        fun _ hc => (hrest.changes hc).trans (offerNotice_congr _ rfl rfl)⟩

/-! ## PORT_RESET -/

theorem opPortReset_outOfRange {a : Byte} (hu : a ≠ 0x0F) (ha : 8 ≤ a.toNat) (s : State) :
    opPortReset a s = refuse .badArgument s := by
  simp only [opPortReset, if_neg hu, indexBelow_none 8 a ha]

theorem opPortReset_port (n : PortId) (s : State) :
    opPortReset (byteOf n.val) s = accept [((resetPort n s).port n).state.code] (resetPort n s) := by
  simp only [opPortReset, if_neg (byteOf_port_ne_uplink n), indexBelow_byteOf 8 n (by decide)]

/-- The state that a port reset leaves a port in (R29). -/
def Port.restarted (p : Port) : PortState := if p.enabled then startState p.powered else .off

/-- The notice of PORT_RESET (R29): none at a disabled port. -/
def resetNotice (n : PortId) (p : Port) (st : PortState) : List NoticeBody :=
  if p.enabled then [.portState n p.state st .portReset] else []

/-- What leaving ACTIVE changes of the port, a port reset clears. -/
theorem leaveActive_cleared (n : PortId) (s : State) :
    ((leaveActive n s).port n).cleared = (s.port n).cleared ∧ ((leaveActive n s).port n).state = (s.port n).state
      ∧ (leaveActive n s).partTime = s.partTime := by
  by_cases h : (s.port n).state = .active
  case pos =>
    obtain ⟨-, hport, htime, -⟩ := leaveActive_left h
    rw [hport]
    exact ⟨rfl, rfl, htime⟩
  case neg =>
    rw [leaveActive_of_ne h]
    exact ⟨rfl, rfl, rfl⟩

theorem resetPort_enabled {n : PortId} {s : State} (h : (s.port n).enabled = true) :
    resetPort n s = enterPort n (s.port n).restarted .portReset (mapPort n Port.cleared (leaveActive n s)) := by
  simp only [resetPort, Port.restarted, h, if_true]

theorem resetPort_disabled {n : PortId} {s : State} (h : (s.port n).enabled = false) :
    resetPort n s = mapPort n (Port.enter (s.port n).restarted (mapPort n Port.cleared (leaveActive n s)))
      (mapPort n Port.cleared (leaveActive n s)) := by
  simp only [resetPort, Port.restarted, h, Bool.false_eq_true, if_false]

/-- What PORT_RESET leaves of the port (R29). -/
theorem resetPort_port (n : PortId) (s : State) :
    (resetPort n s).port n = Port.enter (s.port n).restarted s (s.port n).cleared := by
  obtain ⟨hcleared, -, htime⟩ := leaveActive_cleared n s
  have henter := enter_congr (s := s) (t := mapPort n Port.cleared (leaveActive n s)) htime
  cases h : (s.port n).enabled
  case true => rw [resetPort_enabled h, enterPort_port_self, mapPort_port_self, hcleared, henter]
  case false => rw [resetPort_disabled h, mapPort_port_self, mapPort_port_self, hcleared, henter]

/-- A reset of a port in ACTIVE leaves ACTIVE, with the notice behind those of the frames. -/
theorem resetPort_left {n : PortId} {s : State} (h : (s.port n).state = .active) :
    LeftActive n s (resetPort n s) (resetNotice n (s.port n) (s.port n).restarted) := by
  obtain ⟨hleft, -, -⟩ := leaveActive_left h
  obtain ⟨-, hstate, -⟩ := leaveActive_cleared n s
  have hcleared := hleft.mapPort Port.cleared ⟨rfl, rfl⟩
  have hentered := hcleared.mapPort
    (Port.enter (s.port n).restarted (mapPort n Port.cleared (leaveActive n s)))
    (by rw [mapPort_port_self]; exact ⟨rfl, rfl⟩)
  cases he : (s.port n).enabled
  case true =>
    have hoffer := hentered.offer (.portState n (s.port n).state (s.port n).restarted .portReset)
    rw [resetPort_enabled he, resetNotice, if_pos he, enterPort, mapPort_port_self,
      show ((leaveActive n s).port n).cleared.state = (s.port n).state from hstate]
    exact hoffer
  case false =>
    rw [resetPort_disabled he, resetNotice, if_neg (by rw [he]; decide)]
    exact hentered

/-- A reset of a port in another state offers its notice alone. -/
theorem resetPort_still {n : PortId} {s : State} (h : (s.port n).state ≠ .active) :
    (resetPort n s).notices = (forEach (resetNotice n (s.port n) (s.port n).restarted) offerNotice s).notices
      ∧ (resetPort n s).agent = s.agent := by
  have hl := leaveActive_of_ne h
  cases he : (s.port n).enabled
  case true =>
    rw [resetPort_enabled he, resetNotice, if_pos he, hl, enterPort_notices, mapPort_port_self]
    exact ⟨offerNotice_congr _ rfl rfl, offerNotice_agent ..⟩
  case false =>
    rw [resetPort_disabled he, resetNotice, if_neg (by rw [he]; decide), hl]
    exact ⟨rfl, rfl⟩

/-- Of the timers only the ramp runs behind a reset (R29). -/
theorem enter_restarted_timers (p q : Port) (s : State) :
    (Port.enter p.restarted s q).ramp = (if p.enabled && p.powered then some (s.after 20000) else none)
      ∧ (Port.enter p.restarted s q).silence = none ∧ (Port.enter p.restarted s q).hold = none := by
  unfold Port.restarted
  cases p.enabled
  case false => exact ⟨rfl, rfl, rfl⟩
  case true => cases p.powered <;> exact ⟨rfl, rfl, rfl⟩

theorem runAfter_zero (b : Bool) : runAfter b 0 = 0 := by cases b <;> rfl

/-- Settles O24: PORT_RESET by what it leaves of the port, from ACTIVE and from another state. -/
theorem portResetRestartsPort : Obligations.PortResetRestartsPort := by
  intro tag s h
  refine ⟨exec_read tag (.portReset 0x0F) .readOnly [] h rfl,
    fun a hu ha => exec_read tag (.portReset a) .badArgument [] h (opPortReset_outOfRange hu ha _), fun n => ?_⟩
  let u := setReserved true s
  have hport : (resetPort n u).port n = Port.enter (s.port n).restarted u (s.port n).cleared := resetPort_port n u
  have hstate : (resetPort n u).agent.state = .ready := by
    by_cases ha : (s.port n).state = .active
    · exact (resetPort_left (s := u) ha).state.trans h.2.1
    · exact (congrArg Agent.state (resetPort_still (s := u) ha).2).trans h.2.1
  refine ⟨_, exec_change tag (.portReset (byteOf n.val)) .ok _ h (opPortReset_port n u) hstate, ?_⟩
  obtain ⟨hramp, hsilence, hhold⟩ := enter_restarted_timers (s.port n) (s.port n).cleared u
  rw [placeReply_port, hport]
  refine ⟨rfl, hramp, hsilence, hhold, runAfter_zero _, runAfter_zero _, rfl, rfl, rfl, rfl, placeReply_lastReply ..,
    fun ha => ?left, fun ha => ?notices, fun ha => ?still⟩
  case left =>
    obtain ⟨hreset, hanswered, -⟩ := (resetPort_left (s := u) ha).placeReply h.2.2.2 tag 0x12 0x00 _
    exact ⟨hreset, hanswered⟩
  case notices => exact ((resetPort_left (s := u) ha).placeReply h.2.2.2 tag 0x12 0x00 _).2.2
  case still => exact (resetPort_still (s := u) ha).1.trans (offerAll_congr _ rfl rfl)

end Sys2Proof.Machine
end

section
/-!
Attempts to issue a trigger (R139), each outcome said once; then TRIG_NOW (O47), the period timer of a burst (O42) and a
window's expiry (O43).
-/

namespace Sys2Proof.Machine

open Sys2Proof

/-! ## Replacing one generator -/

section setGen_fields

variable (s : State) (n : PortId) (g : Generator)

@[simp] theorem setGen_gen_self : (s.setGen n g).gen n = g := by simp [State.setGen, State.gen]
theorem setGen_gen_ne {m : PortId} (h : m ≠ n) : (s.setGen n g).gen m = s.gen m := mapGen_gen_ne n (fun _ => g) s m h
@[simp] theorem setGen_setGen (x : Generator) : (s.setGen n g).setGen n x = s.setGen n x := by simp [State.setGen]
@[simp] theorem setGen_gen : s.setGen n (s.gen n) = s := by simp [State.setGen, State.gen]
@[simp] theorem setGen_port (m : PortId) : (s.setGen n g).port m = s.port m := rfl
@[simp] theorem setGen_entry (e : EntryId) : (s.setGen n g).entry e = s.entry e := rfl
@[simp] theorem setGen_partTime : (s.setGen n g).partTime = s.partTime := rfl

end setGen_fields

section atDeadline_fields

variable (d : Time) (s : State)

@[simp] theorem atDeadline_pending : (atDeadline d s).pending = s.pending := by rw [atDeadline_eq]
@[simp] theorem atDeadline_fresh : (atDeadline d s).fresh = s.fresh := by rw [atDeadline_eq]
@[simp] theorem atDeadline_starting : (atDeadline d s).starting = s.starting := by rw [atDeadline_eq]
@[simp] theorem atDeadline_tin : (atDeadline d s).tin = s.tin := by rw [atDeadline_eq]
@[simp] theorem atDeadline_ports : (atDeadline d s).ports = s.ports := by rw [atDeadline_eq]
@[simp] theorem atDeadline_gens : (atDeadline d s).gens = s.gens := by rw [atDeadline_eq]
@[simp] theorem atDeadline_entries : (atDeadline d s).entries = s.entries := by rw [atDeadline_eq]
@[simp] theorem atDeadline_store : (atDeadline d s).store = s.store := by rw [atDeadline_eq]
@[simp] theorem atDeadline_replay : (atDeadline d s).replay = s.replay := by rw [atDeadline_eq]
@[simp] theorem atDeadline_agent : (atDeadline d s).agent = s.agent := by rw [atDeadline_eq]
@[simp] theorem atDeadline_notices : (atDeadline d s).notices = s.notices := by rw [atDeadline_eq]
@[simp] theorem atDeadline_flash : (atDeadline d s).flash = s.flash := by rw [atDeadline_eq]

end atDeadline_fields

theorem countTrig_eq (n : PortId) (f : TrigCounters → TrigCounters) (s : State) :
    countTrig n f s = s.setGen n { s.gen n with counters := f (s.gen n).counters } := rfl

/-! ## The outcomes of an attempt (R139) -/

/-- The generator after an attempt that is suppressed. -/
def Generator.suppressed (g : Generator) : Generator :=
  { g with counters := { g.counters with suppressed := bump g.counters.suppressed } }

/-- The generator after an attempt that overruns the pending list. -/
def Generator.overran (g : Generator) : Generator :=
  { g with counters := { g.counters with overrun := bump g.counters.overrun } }

/-- The generator of port `n` after it has issued a trigger (R139 steps 4 and 5). -/
def Generator.issue (n : PortId) (s : State) (g : Generator) : Generator :=
  { g with
    next := g.next + 1
    counters := { g.counters with issued := bump g.counters.issued }
    pendings := g.pendings ++ (if correlatedOn s n = [] then [] else
      [⟨g.next, s.partTime, s.after (g.config.window * 100), correlatedOn s n⟩]) }

theorem countSuppressed_eq (n : PortId) (s : State) : countSuppressed n s = s.setGen n (s.gen n).suppressed := rfl

theorem recordIssue_eq (n : PortId) (s : State) : recordIssue n s = s.setGen n ((s.gen n).issue n s) := by
  rw [recordIssue, mapGen_eq, Generator.issue]
  by_cases hc : correlatedOn s n = []
  case pos => simp only [hc, List.isEmpty_nil, if_true, List.append_nil]
  case neg =>
    have hne : (correlatedOn s n).isEmpty = false := List.isEmpty_eq_false_iff.2 hc
    simp only [hne, hc, Bool.false_eq_true, if_false]
    rfl

section attempt

variable {n : PortId} {s : State} (src : TrigSource) (line : Byte)

theorem attemptIssue_inactive (h : (s.port n).state ≠ .active) :
    attemptIssue n src line s = (s.setGen n (s.gen n).suppressed, .suppressed) := by
  simp only [attemptIssue, if_pos h, countSuppressed_eq]

theorem attemptIssue_overrun {q : PendingTrigger} {qs : List PendingTrigger} (h : (s.port n).state = .active)
    (hp : (s.gen n).pendings = q :: qs) (hq : 7 ≤ qs.length) :
    attemptIssue n src line s
      = (offerNotice (.triggerOverrun n src q.number) (s.setGen n (s.gen n).overran), .overrun) := by
  have hfull : Config.pendingCapacity ≤ (s.gen n).pendings.length := by
    rw [hp, List.length_cons]
    exact Nat.succ_le_succ hq
  rw [attemptIssue, if_neg (not_not.2 h), if_pos hfull, hp]
  rfl

/-- With room in the pending list an attempt is what the output queue makes of the TRIG (R31). -/
theorem attemptIssue_accepted {t : State} (h : (s.port n).state = .active) (hp : (s.gen n).pendings.length < 8)
    (ho : offerTrig n ⟨(s.gen n).next, src.code, line⟩ s = (t, true)) :
    attemptIssue n src line s = (t.setGen n ((t.gen n).issue n t), .issued (s.gen n).next) := by
  have hp' : ¬ Config.pendingCapacity ≤ (s.gen n).pendings.length := Nat.not_le_of_lt hp
  simp only [attemptIssue, if_neg (not_not.2 h), if_neg hp', ho, recordIssue_eq]

theorem attemptIssue_rejected {t : State} (h : (s.port n).state = .active) (hp : (s.gen n).pendings.length < 8)
    (ho : offerTrig n ⟨(s.gen n).next, src.code, line⟩ s = (t, false)) :
    attemptIssue n src line s = (t.setGen n (t.gen n).suppressed, .suppressed) := by
  have hp' : ¬ Config.pendingCapacity ≤ (s.gen n).pendings.length := Nat.not_le_of_lt hp
  simp only [attemptIssue, if_neg (not_not.2 h), if_neg hp', ho, countSuppressed_eq]

theorem attemptIssue_room (h : (s.port n).state = .active) (hp : (s.gen n).pendings.length < 8)
    (hroom : (s.port n).outTrigs.length + (s.port n).outMreqs.length < 4) :
    attemptIssue n src line s = ((s.setPort n { s.port n with
        outTrigs := (s.port n).outTrigs ++ [⟨(s.gen n).next, src.code, line⟩] }).setGen n ((s.gen n).issue n s),
      .issued (s.gen n).next) := by
  have hoffer : offerTrig n ⟨(s.gen n).next, src.code, line⟩ s = (s.setPort n { s.port n with
      outTrigs := (s.port n).outTrigs ++ [⟨(s.gen n).next, src.code, line⟩] }, true) := if_pos hroom
  exact attemptIssue_accepted src line h hp hoffer

/-- The agent after a forwarded request has been displaced (R31). -/
def Agent.displace (m : Mreq) (a : Agent) : Agent :=
  { a with
    dropped := bump a.dropped
    replies := a.replies ++ (if a.replies.length + a.reserved.toNat < 16
      then [⟨0x0F, m.tag, [m.op, 0x09, 0x01], false⟩] else []) }

theorem refuseDisplaced_eq (m : Mreq) (s : State) :
    refuseDisplaced m s = { s with agent := s.agent.displace m } := by
  have hcap : (replyRoom s = true) = (s.agent.replies.length + s.agent.reserved.toNat < 16) := decide_eq_true_eq
  unfold refuseDisplaced Agent.displace
  by_cases hr : s.agent.replies.length + s.agent.reserved.toNat < 16
  · rw [if_pos (hcap ▸ hr), if_pos hr]
    rfl
  · rw [if_neg (hcap ▸ hr), if_neg hr, List.append_nil]
    rfl

/-- The place of the reply in progress does not count. -/
theorem displace_setReserved (m : Mreq) (s : State) : (setReserved true s).agent.displace m
    = { s.agent with
        reserved := true
        dropped := bump s.agent.dropped
        replies := s.agent.replies ++ (if s.agent.replies.length < 15
          then [⟨0x0F, m.tag, [m.op, 0x09, 0x01], false⟩] else []) } := by
  have hroom : (s.agent.replies.length + 1 < 16) = (s.agent.replies.length < 15) := by
    rw [Nat.succ_lt_succ_iff]
  simp only [Agent.displace, setReserved, mapAgent, Bool.toNat_true, hroom]

theorem attemptIssue_displaces {m : Mreq} (h : (s.port n).state = .active) (hp : (s.gen n).pendings.length < 8)
    (hfull : 4 ≤ (s.port n).outTrigs.length + (s.port n).outMreqs.length)
    (hm : (s.port n).outMreqs.getLast? = some m) :
    attemptIssue n src line s = ({ (s.setPort n { s.port n with
        outTrigs := (s.port n).outTrigs ++ [⟨(s.gen n).next, src.code, line⟩]
        outMreqs := (s.port n).outMreqs.dropLast }).setGen n ((s.gen n).issue n s) with
        agent := s.agent.displace m }, .issued (s.gen n).next) := by
  have hoffer : offerTrig n ⟨(s.gen n).next, src.code, line⟩ s = ({ s.setPort n { s.port n with
      outTrigs := (s.port n).outTrigs ++ [⟨(s.gen n).next, src.code, line⟩]
      outMreqs := (s.port n).outMreqs.dropLast } with agent := s.agent.displace m }, true) := by
    have hq : ¬ outputLength s n < Config.outputCapacity := Nat.not_lt_of_le hfull
    rw [offerTrig, if_neg hq, hm]
    exact congrArg (·, _) (refuseDisplaced_eq m _)
  exact attemptIssue_accepted src line h hp hoffer

theorem attemptIssue_refused (h : (s.port n).state = .active) (hp : (s.gen n).pendings.length < 8)
    (hfull : 4 ≤ (s.port n).outTrigs.length) (hm : (s.port n).outMreqs = []) :
    attemptIssue n src line s = (s.setGen n (s.gen n).suppressed, .suppressed) := by
  have hoffer : offerTrig n ⟨(s.gen n).next, src.code, line⟩ s = (s, false) := by
    have hq : ¬ outputLength s n < Config.outputCapacity := Nat.not_lt_of_le (Nat.le_add_right_of_le hfull)
    rw [offerTrig, if_neg hq, hm]
    rfl
  exact attemptIssue_rejected src line h hp hoffer

end attempt

/-! ## TRIG_NOW -/

theorem opTrigNow_outOfRange (a : Byte) (ha : 8 ≤ a.toNat) (s : State) : opTrigNow a s = refuse .badArgument s := by
  simp only [opTrigNow, indexBelow_none 8 a ha]

theorem opTrigNow_attempt {n : PortId} {s t : State} {r : IssueResult}
    (h : attemptIssue n .request 0xFF s = (t, r)) :
    opTrigNow (byteOf n.val) s = accept (issueReport (s.gen n).next r) t := by
  simp only [opTrigNow, indexBelow_byteOf 8 n (by decide), h]

/-- Settles O47: the outcomes of an attempt, each behind the reply of the request. -/
theorem trigNowIssues : Obligations.TrigNowIssues := by
  intro tag s h
  refine ⟨fun a ha => exec_read tag (.trigNow a) .badArgument [] h (opTrigNow_outOfRange a ha _), fun n => ?_⟩
  let u := setReserved true s
  refine ⟨fun hs => ?inactive, fun p ps ha hp hq => ?overrun, fun ha hp hroom => ?room, fun m ha hp hfull hm => ?displaces,
    fun ha hp hfull hm => ?refused⟩
  case inactive =>
    exact exec_write' tag (.trigNow (byteOf n.val)) .ok _ h
      (opTrigNow_attempt (attemptIssue_inactive (s := u) .request 0xFF hs)) rfl
  case overrun =>
    have ho := opTrigNow_attempt (attemptIssue_overrun (s := u) .request 0xFF ha hp hq)
    exact exec_write' tag (.trigNow (byteOf n.val)) .ok _ h
      (ho.trans (congrArg _ (offerNotice_setReserved _ true (s.setGen n (s.gen n).overran)))) (offerNotice_agent ..)
  case room =>
    exact exec_write' tag (.trigNow (byteOf n.val)) .ok _ h
      (opTrigNow_attempt (attemptIssue_room (s := u) .request 0xFF ha hp hroom)) rfl
  case displaces =>
    have ho := opTrigNow_attempt (attemptIssue_displaces (s := u) .request 0xFF ha hp hfull hm)
    rw [displace_setReserved] at ho
    exact exec_write tag (.trigNow (byteOf n.val)) .ok _ h ho h.2.1 h.2.2.2
  case refused =>
    exact exec_write' tag (.trigNow (byteOf n.val)) .ok _ h
      (opTrigNow_attempt (attemptIssue_refused (s := u) .request 0xFF ha hp hfull hm)) rfl

/-! ## What an attempt leaves -/

/-- The fields of a generator that an attempt leaves. -/
def Generator.sameBurst (g x : Generator) : Prop :=
  x.config = g.config ∧ x.state = g.state ∧ x.remaining = g.remaining ∧ x.period = g.period ∧ x.level = g.level
    ∧ x.debounce = g.debounce

/-- Whatever becomes of an attempt on port `n`, it changes that port and its generator, the agent and the notices
alone, and leaves the fields of the burst and of the tracker. -/
theorem attemptIssue_leaves (n : PortId) (src : TrigSource) (line : Byte) (s : State) : ∃ p g a b,
    (attemptIssue n src line s).1 = { (s.setPort n p).setGen n g with agent := a, notices := b }
      ∧ (s.gen n).sameBurst g := by
  by_cases ha : (s.port n).state = .active
  case neg =>
    refine ⟨s.port n, (s.gen n).suppressed, s.agent, s.notices, ?_, rfl, rfl, rfl, rfl, rfl, rfl⟩
    rw [attemptIssue_inactive src line ha, setPort_port]
    rfl
  by_cases hp : (s.gen n).pendings.length < 8
  case neg =>
    obtain ⟨q, qs, hqs⟩ := List.exists_cons_of_length_pos (l := (s.gen n).pendings) (by omega)
    have hlen : 7 ≤ qs.length := by rw [hqs, List.length_cons] at hp; omega
    refine ⟨s.port n, (s.gen n).overran, s.agent, (offerNotice (.triggerOverrun n src q.number)
      (s.setGen n (s.gen n).overran)).notices, ?_, rfl, rfl, rfl, rfl, rfl, rfl⟩
    rw [attemptIssue_overrun src line ha hqs hlen, setPort_port]
    exact offerNotice_eq _ _
  by_cases hroom : (s.port n).outTrigs.length + (s.port n).outMreqs.length < 4
  case pos =>
    exact ⟨_, (s.gen n).issue n s, s.agent, s.notices, congrArg Prod.fst (attemptIssue_room src line ha hp hroom),
      rfl, rfl, rfl, rfl, rfl, rfl⟩
  cases hm : (s.port n).outMreqs.getLast?
  case none =>
    have hnil : (s.port n).outMreqs = [] := List.getLast?_eq_none_iff.1 hm
    have hfull : 4 ≤ (s.port n).outTrigs.length := by rw [hnil, List.length_nil] at hroom; omega
    refine ⟨s.port n, (s.gen n).suppressed, s.agent, s.notices, ?_, rfl, rfl, rfl, rfl, rfl, rfl⟩
    rw [attemptIssue_refused src line ha hp hfull hnil, setPort_port]
    rfl
  case some m =>
    exact ⟨_, (s.gen n).issue n s, s.agent.displace m, s.notices,
      congrArg Prod.fst (attemptIssue_displaces src line ha hp (Nat.le_of_not_lt hroom) hm), rfl, rfl, rfl, rfl, rfl, rfl⟩

/-! ## The period timer of a burst (R136) -/

/-- The generator after an attempt of its burst (R136). -/
def Generator.countedDown (s : State) (g : Generator) : Generator :=
  if g.remaining = 0xFF then { g with period := some (s.after g.config.burstPeriod) }
  else if g.remaining.toNat ≤ 1 then { g with remaining := 0, period := none, state := .idle }
  else { g with remaining := g.remaining - 1, period := some (s.after g.config.burstPeriod) }

theorem countDown_eq (n : PortId) (s : State) : countDown n s = s.setGen n ((s.gen n).countedDown s) := rfl

/-- Counting down changes the number, the state and the timer of the burst alone. -/
theorem countedDown_rest (s : State) (g : Generator) : g.countedDown s = { g with
    remaining := (g.countedDown s).remaining, state := (g.countedDown s).state, period := (g.countedDown s).period } := by
  unfold Generator.countedDown
  split
  · rfl
  · split <;> rfl

theorem countedDown_forever {s : State} {g : Generator} (h : g.remaining = 0xFF) :
    g.countedDown s = { g with period := some (s.after g.config.burstPeriod) } := if_pos h

theorem countedDown_last {s : State} {g : Generator} (h : g.remaining = 1) :
    g.countedDown s = { g with remaining := 0, period := none, state := .idle } := by
  rw [Generator.countedDown, h, if_neg (by decide), if_pos (by decide)]

theorem countedDown_next {s : State} {g : Generator} (h1 : 1 < g.remaining.toNat) (hn : g.remaining.toNat < 0xFF) :
    g.countedDown s = { g with remaining := g.remaining - 1, period := some (s.after g.config.burstPeriod) } := by
  have hne : g.remaining ≠ 0xFF := fun e => absurd hn (by rw [e]; decide)
  rw [Generator.countedDown, if_neg hne, if_neg (Nat.not_le_of_lt h1)]

theorem periodExpiry_attempt {n : PortId} {d : Time} {s : State} (hst : (s.gen n).state = .running)
    (hd : (s.gen n).period = some d) :
    periodExpiry n s = countDown n (attemptIssue n .burst 0xFF (atDeadline d s)).1 := by
  simp only [periodExpiry, hst, hd]

theorem correlatedOn_congr {s t : State} (h : t.entries = s.entries) (n : PortId) :
    correlatedOn t n = correlatedOn s n := by
  simp only [correlatedOn, State.entry, h]

/-- What an attempt makes of port `n`, its generator, the agent and the notices. -/
structure Attempted (n : PortId) (t : State) (g : Generator) (p : Port) (a : Agent) (b : NoticeUnit) : Prop where
  gen : t.gen n = g
  port : t.port n = p
  agent : t.agent = a
  notices : t.notices = b

section attempted

variable {n : PortId} {s : State} (src : TrigSource) (line : Byte)

theorem attempted_inactive (h : (s.port n).state ≠ .active) :
    Attempted n (attemptIssue n src line s).1 (s.gen n).suppressed (s.port n) s.agent s.notices := by
  rw [attemptIssue_inactive src line h]
  exact ⟨setGen_gen_self .., rfl, rfl, rfl⟩

theorem attempted_overrun {q : PendingTrigger} {qs : List PendingTrigger} (h : (s.port n).state = .active)
    (hp : (s.gen n).pendings = q :: qs) (hq : 7 ≤ qs.length) :
    Attempted n (attemptIssue n src line s).1 (s.gen n).overran (s.port n) s.agent
      (offerNotice (.triggerOverrun n src q.number) s).notices := by
  rw [attemptIssue_overrun src line h hp hq]
  exact ⟨(offerNotice_gen ..).trans (setGen_gen_self ..), offerNotice_port .., offerNotice_agent ..,
    offerNotice_congr _ rfl rfl⟩

theorem attempted_room (h : (s.port n).state = .active) (hp : (s.gen n).pendings.length < 8)
    (hroom : (s.port n).outTrigs.length + (s.port n).outMreqs.length < 4) :
    Attempted n (attemptIssue n src line s).1 ((s.gen n).issue n s)
      { s.port n with outTrigs := (s.port n).outTrigs ++ [⟨(s.gen n).next, src.code, line⟩] } s.agent s.notices := by
  rw [attemptIssue_room src line h hp hroom]
  exact ⟨setGen_gen_self .., setPort_port_self .., rfl, rfl⟩

theorem attempted_displaces {m : Mreq} (h : (s.port n).state = .active) (hp : (s.gen n).pendings.length < 8)
    (hfull : 4 ≤ (s.port n).outTrigs.length + (s.port n).outMreqs.length)
    (hm : (s.port n).outMreqs.getLast? = some m) :
    Attempted n (attemptIssue n src line s).1 ((s.gen n).issue n s)
      { s.port n with
        outTrigs := (s.port n).outTrigs ++ [⟨(s.gen n).next, src.code, line⟩]
        outMreqs := (s.port n).outMreqs.dropLast } (s.agent.displace m) s.notices := by
  rw [attemptIssue_displaces src line h hp hfull hm]
  exact ⟨setGen_gen_self (s.setPort n _) n _, setPort_port_self .., rfl, rfl⟩

theorem attempted_refused (h : (s.port n).state = .active) (hp : (s.gen n).pendings.length < 8)
    (hfull : 4 ≤ (s.port n).outTrigs.length) (hm : (s.port n).outMreqs = []) :
    Attempted n (attemptIssue n src line s).1 (s.gen n).suppressed (s.port n) s.agent s.notices := by
  rw [attemptIssue_refused src line h hp hfull hm]
  exact ⟨setGen_gen_self .., rfl, rfl, rfl⟩

end attempted

/-- What an attempt and the countdown behind it leave of the state that they meet. -/
theorem countDown_leaves (n : PortId) (src : TrigSource) (line : Byte) (s : State) :
    ∃ p g a b, countDown n (attemptIssue n src line s).1
        = { (s.setPort n p).setGen n (g.countedDown s) with agent := a, notices := b }
      ∧ (s.gen n).sameBurst g := by
  obtain ⟨p, g, a, b, heq, hsame⟩ := attemptIssue_leaves n src line s
  refine ⟨p, g, a, b, ?_, hsame⟩
  have hgen : (attemptIssue n src line s).1.gen n = g := by rw [heq]; exact setGen_gen_self _ n g
  rw [countDown_eq, hgen, heq]
  exact congrArg (fun z : State => { z with agent := a, notices := b })
    (setGen_setGen (s.setPort n p) n g (g.countedDown s))

/-- Counting down leaves all but the fields of the burst as the attempt made them. -/
theorem Attempted.countDown {n : PortId} {t : State} {g : Generator} {p : Port} {a : Agent} {b : NoticeUnit}
    (h : Attempted n t g p a b) :
    (Machine.countDown n t).gen n = { g with
        remaining := ((Machine.countDown n t).gen n).remaining, state := ((Machine.countDown n t).gen n).state
        period := ((Machine.countDown n t).gen n).period }
      ∧ (Machine.countDown n t).port n = p ∧ (Machine.countDown n t).agent = a
      ∧ (Machine.countDown n t).notices = b := by
  refine ⟨?_, h.port, h.agent, h.notices⟩
  rw [countDown_eq, setGen_gen_self, h.gen]
  exact countedDown_rest t g

/-- Settles O42: an attempt (R139) and the countdown behind it. -/
theorem periodExpiryCountsDown : Obligations.PeriodExpiryCountsDown := by
  intro n d s hst hd g p u pending
  have hg : u.gen n = g := atDeadline_gen d s n
  have hp : u.port n = p := atDeadline_port d s n
  have ha' : u.agent = s.agent := atDeadline_agent d s
  have hn' : u.notices = s.notices := atDeadline_notices d s
  have hissue : (u.gen n).issue n u = { g with
      next := g.next + 1, pendings := pending, counters := { g.counters with issued := bump g.counters.issued } } := by
    rw [hg, Generator.issue, correlatedOn_congr (atDeadline_entries d s)]
  obtain ⟨q, x, a, b, heq, hconfig, hstate, hremaining, -⟩ := countDown_leaves n .burst 0xFF u
  have hx : (countDown n (attemptIssue n .burst 0xFF u).1).gen n = x.countedDown u := by
    rw [heq]; exact setGen_gen_self _ n _
  rw [hg] at hconfig hstate hremaining
  refine ⟨countDown n (attemptIssue n .burst 0xFF u).1, congrArg Host.Outcome.next (periodExpiry_attempt hst hd),
    fun m hm => ?gens, ?entries, ?store, fun m hm => ?ports, ?uplink, ?replay,
    ?time, ?flash, ?tin, ?pg, ?starting, ?pending, ?fresh, fun hr => ?forever, fun hr => ?last, fun h1 hn => ?next,
    fun ha => ?inactive, fun q qs ha hps hqs => ?overrun, fun ha hps hroom => ?room, fun m ha hps hfull hm => ?displaces,
    fun ha hps hfull hm => ?refused⟩
  case gens => rw [heq]; exact (setGen_gen_ne _ n _ hm).trans (atDeadline_gen d s m)
  case ports => rw [heq]; exact (setPort_port_ne n q u m hm).trans (atDeadline_port d s m)
  case time => rw [heq]; rfl
  case entries => rw [heq]; exact atDeadline_entries d s
  case store => rw [heq]; exact atDeadline_store d s
  case uplink => rw [heq]; exact atDeadline_uplink d s
  case replay => rw [heq]; exact atDeadline_replay d s
  case flash => rw [heq]; exact atDeadline_flash d s
  case tin => rw [heq]; exact atDeadline_tin d s
  case pg => rw [heq]; exact atDeadline_pg d s
  case starting => rw [heq]; exact atDeadline_starting d s
  case pending => rw [heq]; exact atDeadline_pending d s
  case fresh => rw [heq]; exact atDeadline_fresh d s
  case forever =>
    rw [hx, countedDown_forever (hremaining.trans hr), hconfig]
    exact ⟨hremaining.trans hr, hstate.trans hst, rfl⟩
  case last =>
    rw [hx, countedDown_last (hremaining.trans hr)]
    exact ⟨rfl, rfl, rfl⟩
  case next =>
    rw [← hremaining] at h1 hn ⊢
    rw [hx, countedDown_next h1 hn, hconfig]
    exact ⟨rfl, hstate.trans hst, rfl⟩
  case inactive =>
    have h := (attempted_inactive (s := u) (n := n) .burst 0xFF (by rw [hp]; exact ha)).countDown
    rw [hg, hp, ha', hn'] at h
    exact h
  case overrun =>
    have h := (attempted_overrun (s := u) (n := n) .burst 0xFF (by rw [hp]; exact ha) (by rw [hg]; exact hps) hqs).countDown
    rw [hg, hp, ha'] at h
    exact h
  case room =>
    have h := (attempted_room (s := u) (n := n) .burst 0xFF (by rw [hp]; exact ha) (by rw [hg]; exact hps)
      (by rw [hp]; exact hroom)).countDown
    rw [hissue, hg, hp, ha', hn'] at h
    exact h
  case displaces =>
    have h := (attempted_displaces (s := u) (n := n) .burst 0xFF (by rw [hp]; exact ha) (by rw [hg]; exact hps)
      (by rw [hp]; exact hfull) (by rw [hp]; exact hm)).countDown
    rw [hissue, hg, hp, ha', hn'] at h
    obtain ⟨h1, h2, h3, h4⟩ := h
    exact ⟨h1, h2, h4, h3⟩
  case refused =>
    have h := (attempted_refused (s := u) (n := n) .burst 0xFF (by rw [hp]; exact ha) (by rw [hg]; exact hps)
      (by rw [hp]; exact hfull) (by rw [hp]; exact hm)).countDown
    rw [hg, hp, ha', hn'] at h
    exact h

/-! ## A window's expiry (R143) -/

/-- The generator after `k` more entries have been reported missed. -/
def Generator.missedMore (k : Nat) (g : Generator) : Generator :=
  { g with counters := { g.counters with missed := bump^[k] g.counters.missed } }

/-- Reports of missed entries count and offer, and leave the rest. -/
theorem forEach_reportMissed {α : Type} (n : PortId) (w : Bool) (k : α → Half) (e : α → EntryId) (xs : List α)
    (s : State) : ∃ b, forEach xs (fun x => reportMissed n (k x) w (e x)) s
      = { s.setGen n ((s.gen n).missedMore xs.length) with notices := b } := by
  induction xs generalizing s with
  | nil => exact ⟨s.notices, by rw [show (s.gen n).missedMore [].length = s.gen n from rfl, setGen_gen]; rfl⟩
  | cons x xs ih =>
    have hstep : reportMissed n (k x) w (e x) s = { s.setGen n ((s.gen n).missedMore 1) with
        notices := (reportMissed n (k x) w (e x) s).notices } := offerNotice_eq _ _
    have hgen : (reportMissed n (k x) w (e x) s).gen n = (s.gen n).missedMore 1 := by
      rw [hstep]; exact setGen_gen_self s n _
    obtain ⟨b, hb⟩ := ih (reportMissed n (k x) w (e x) s)
    refine ⟨b, hb.trans ?_⟩
    rw [hgen, hstep]
    exact congrArg (fun z : State => { z with notices := b }) (setGen_setGen s n _ _)

/-- The entries still outstanding, in ascending index. -/
theorem unanswered_eq (p : PendingTrigger) : p.unanswered = (List.finRange 32).filter fun e => e ∈ p.outstanding :=
  List.filter_congr fun e _ => List.contains_eq_mem e p.outstanding

/-- Settles O43. -/
theorem windowExpiryReportsMissed : Obligations.WindowExpiryReportsMissed := by
  intro n k p s hp missed
  have hk := List.find?_some hp
  obtain rfl : p.number = k := eq_of_beq hk
  have hmissed : p.unanswered = missed := unanswered_eq p
  have hrun : windowExpiry n p.number s = expireWindow n p s := by simp only [windowExpiry, hp]
  have hnotices := (expireWindow_offers n p s).notices
  have htime := (expireWindow_offers n p s).time
  obtain ⟨b, hb⟩ := forEach_reportMissed n true (fun _ => p.number) id p.unanswered (atDeadline p.deadline s)
  have heq : expireWindow n p s = { (atDeadline p.deadline s).setGen n
      { (s.gen n).missedMore p.unanswered.length with pendings := (s.gen n).pendings.erase p } with notices := b } := by
    have hgen : ({ (atDeadline p.deadline s).setGen n (((atDeadline p.deadline s).gen n).missedMore p.unanswered.length)
        with notices := b } : State).gen n = ((atDeadline p.deadline s).gen n).missedMore p.unanswered.length :=
      setGen_gen_self (atDeadline p.deadline s) n _
    have hreports : forEach p.unanswered (reportMissed n p.number true) (atDeadline p.deadline s) = _ := hb
    rw [expireWindow, hreports, mapGen_eq, hgen, atDeadline_gen]
    exact congrArg (fun z : State => { z with notices := b }) (setGen_setGen (atDeadline p.deadline s) n _ _)
  rw [hmissed] at hnotices heq
  refine ⟨_, congrArg Host.Outcome.next hrun, ?_, hnotices, fun m hm => ?_, ?_, ?_, ?_, ?_, htime⟩
  · rw [heq]
    exact setGen_gen_self _ n _
  · rw [heq]
    exact (setGen_gen_ne _ n _ hm).trans (atDeadline_gen ..)
  · rw [heq]
    exact atDeadline_ports ..
  · rw [heq]
    exact atDeadline_entries ..
  · rw [heq]
    exact atDeadline_store ..
  · rw [heq]
    exact atDeadline_agent ..

end Sys2Proof.Machine
end

section
/-!
The debounced line with its edges (O41): the settling of a level (R133), the edges that it brings (R134, R137), and the
trackers of one line, visited one after the other.
-/

namespace Sys2Proof.Machine

open Sys2Proof

/-! ## The debounced line (R133, R134, R137) -/

/-- The generator whose debounced level settles (R133). -/
def Generator.settled (level : Bool) (g : Generator) : Generator := { g with level := level, debounce := none }

section settle

variable {n : PortId} {s : State}

/-- No edge, or a generator that watches nothing: the level alone. -/
theorem settleLine_same (h : rawLevel s (s.gen n).config = (s.gen n).level) :
    settleLine n s = s.setGen n ((s.gen n).settled (rawLevel s (s.gen n).config)) := if_pos h

theorem settleLine_line (h : rawLevel s (s.gen n).config ≠ (s.gen n).level) (hs : (s.gen n).config.source = .line) :
    settleLine n s = lineEdge n (rawLevel s (s.gen n).config)
      (s.setGen n ((s.gen n).settled (rawLevel s (s.gen n).config))) := by
  simp only [settleLine, if_neg h, hs]
  rfl

theorem settleLine_burst (h : rawLevel s (s.gen n).config ≠ (s.gen n).level) (hs : (s.gen n).config.source = .burst) :
    settleLine n s = gateEdge n (rawLevel s (s.gen n).config)
      (s.setGen n ((s.gen n).settled (rawLevel s (s.gen n).config))) := by
  simp only [settleLine, if_neg h, hs]
  rfl

theorem settleLine_none (hs : (s.gen n).config.source = .none) :
    settleLine n s = s.setGen n ((s.gen n).settled (rawLevel s (s.gen n).config)) := by
  by_cases h : rawLevel s (s.gen n).config = (s.gen n).level
  · exact settleLine_same h
  · simp only [settleLine, if_neg h, hs]
    rfl

theorem lineEdge_still {rising : Bool} (h : (s.gen n).state ≠ .armed ∨ (s.gen n).config.edge.takes rising = false) :
    lineEdge n rising s = s := by
  refine if_neg fun ⟨ha, ht⟩ => ?_
  rcases h with h | h
  · exact h ha
  · exact absurd (h.symm.trans ht) (by decide)

theorem lineEdge_takes {rising : Bool} (h : (s.gen n).state = .armed) (ht : (s.gen n).config.edge.takes rising = true) :
    lineEdge n rising s = (attemptIssue n .line (byteOf (s.gen n).config.line.val) s).1 := if_pos ⟨h, ht⟩

theorem gateEdge_pauses {level : Bool} (h : (s.gen n).state = .running) (hl : level ≠ (s.gen n).config.gateLevel) :
    gateEdge n level s = s.setGen n { s.gen n with state := .paused, period := none } := if_pos ⟨h, hl⟩

theorem gateEdge_resumes {level : Bool} (h : (s.gen n).state = .paused) (hl : level = (s.gen n).config.gateLevel) :
    gateEdge n level s
      = s.setGen n { s.gen n with state := .running, period := some (s.after (s.gen n).config.burstPeriod) } := by
  rw [gateEdge, if_neg (fun hr => absurd (h.symm.trans hr.1) (by decide)), if_pos ⟨h, hl⟩]
  rfl

theorem gateEdge_still {level : Bool} (h : (s.gen n).state ≠ .running) (h' : (s.gen n).state ≠ .paused) :
    gateEdge n level s = s := by
  rw [gateEdge, if_neg (fun hr => h hr.1), if_neg (fun hp => h' hp.1)]

/-- At an IDLE generator an edge does nothing. -/
theorem settleLine_idle (h : (s.gen n).state = .idle) :
    settleLine n s = s.setGen n ((s.gen n).settled (rawLevel s (s.gen n).config)) := by
  have hg : ((s.setGen n ((s.gen n).settled (rawLevel s (s.gen n).config))).gen n).state = .idle := by
    rw [setGen_gen_self]; exact h
  by_cases hl : rawLevel s (s.gen n).config = (s.gen n).level
  case pos => exact settleLine_same hl
  cases hs : (s.gen n).config.source
  case none => exact settleLine_none hs
  case line => rw [settleLine_line hl hs, lineEdge_still (.inl (by rw [hg]; decide))]
  case burst => rw [settleLine_burst hl hs, gateEdge_still (by rw [hg]; decide) (by rw [hg]; decide)]

end settle

/-- From `s` to `t` port `n`, its generator, the agent and the notices change alone, and the generator keeps its
configuration and its line tracker. -/
def edgeOnly (n : PortId) (s t : State) : Prop :=
  ∃ p g a b, t = { (s.setPort n p).setGen n g with agent := a, notices := b }
    ∧ g.config = (s.gen n).config ∧ g.level = (s.gen n).level ∧ g.debounce = (s.gen n).debounce

theorem edgeOnly_refl (n : PortId) (s : State) : edgeOnly n s s :=
  ⟨s.port n, s.gen n, s.agent, s.notices, by rw [setPort_port, setGen_gen], rfl, rfl, rfl⟩

theorem edgeOnly_setGen (n : PortId) (s : State) (g : Generator) (hc : g.config = (s.gen n).config)
    (hl : g.level = (s.gen n).level) (hd : g.debounce = (s.gen n).debounce) : edgeOnly n s (s.setGen n g) :=
  ⟨s.port n, g, s.agent, s.notices, by rw [setPort_port]; rfl, hc, hl, hd⟩

theorem lineEdge_edgeOnly (n : PortId) (rising : Bool) (s : State) : edgeOnly n s (lineEdge n rising s) := by
  unfold lineEdge
  split
  · obtain ⟨p, g, a, b, heq, hconfig, -, -, -, hlevel, hdebounce⟩ := attemptIssue_leaves n .line
      (byteOf (s.gen n).config.line.val) s
    exact ⟨p, g, a, b, heq, hconfig, hlevel, hdebounce⟩
  · exact edgeOnly_refl n s

theorem gateEdge_edgeOnly (n : PortId) (level : Bool) (s : State) : edgeOnly n s (gateEdge n level s) := by
  unfold gateEdge
  split
  · exact edgeOnly_setGen n s _ rfl rfl rfl
  · split
    · exact edgeOnly_setGen n s _ rfl rfl rfl
    · exact edgeOnly_refl n s

/-- Whatever the edge brings, the level is settled and the rest of the machine stays. -/
theorem settleLine_edgeOnly (n : PortId) (s : State) :
    edgeOnly n (s.setGen n ((s.gen n).settled (rawLevel s (s.gen n).config))) (settleLine n s) := by
  by_cases hl : rawLevel s (s.gen n).config = (s.gen n).level
  case pos => rw [settleLine_same hl]; exact edgeOnly_refl n _
  cases hs : (s.gen n).config.source
  case none => rw [settleLine_none hs]; exact edgeOnly_refl n _
  case line => rw [settleLine_line hl hs]; exact lineEdge_edgeOnly n _ _
  case burst => rw [settleLine_burst hl hs]; exact gateEdge_edgeOnly n _ _

/-- The debounced level settles: what becomes of the tracker, and what stays. -/
theorem settleLine_leaves (n : PortId) (s : State) :
    ((settleLine n s).gen n).level = rawLevel s (s.gen n).config ∧ ((settleLine n s).gen n).debounce = none
      ∧ ((settleLine n s).gen n).config = (s.gen n).config
      ∧ (∀ m, m ≠ n → (settleLine n s).gen m = s.gen m) ∧ (∀ m, m ≠ n → (settleLine n s).port m = s.port m)
      ∧ (settleLine n s).entries = s.entries ∧ (settleLine n s).store = s.store
      ∧ (settleLine n s).tin = s.tin ∧ (settleLine n s).partTime = s.partTime := by
  obtain ⟨p, g, a, b, heq, hc, hl, hd⟩ := settleLine_edgeOnly n s
  rw [setGen_gen_self] at hc hl hd
  have hgen : (settleLine n s).gen n = g := by rw [heq]; exact setGen_gen_self _ n g
  rw [hgen, hc, hl, hd, heq]
  exact ⟨rfl, rfl, rfl, fun m hm => (setGen_gen_ne _ n g hm).trans (setGen_gen_ne s n _ hm),
    fun m hm => setPort_port_ne n p _ m hm, rfl, rfl, rfl, rfl⟩

/-! ## The trackers of one line -/

/-- What a change of the raw level of line `l` to `level` at `s` makes of generator `g` (R133; log entry 23). -/
def tracked (s : State) (l : LineId) (level : Bool) (g x : Generator) : Prop :=
  (g.config.watched ≠ some l → x = g)
    ∧ (g.config.watched = some l → level = g.level → x = { g with debounce := none })
    ∧ (g.config.watched = some l → level ≠ g.level → g.config.debounce ≠ 0 →
        x = { g with debounce := some (s.after g.config.debounce) })
    ∧ (g.config.watched = some l → level ≠ g.level → g.config.debounce = 0 →
        x.level = level ∧ x.debounce = none ∧ x.config = g.config
        ∧ (g.state = .idle → x = { g with level := level, debounce := none }))

theorem trackLine_unwatched {l : LineId} {n : PortId} {s : State} (h : (s.gen n).config.watched ≠ some l) :
    trackLine l n s = s := if_neg h

theorem trackLine_agrees {l : LineId} {n : PortId} {s : State} (h : (s.gen n).config.watched = some l)
    (hl : s.tin[l] = (s.gen n).level) : trackLine l n s = s.setGen n { s.gen n with debounce := none } := by
  rw [trackLine, if_pos h, if_pos hl]
  rfl

theorem trackLine_debounces {l : LineId} {n : PortId} {s : State} (h : (s.gen n).config.watched = some l)
    (hl : s.tin[l] ≠ (s.gen n).level) (hd : (s.gen n).config.debounce ≠ 0) :
    trackLine l n s = s.setGen n { s.gen n with debounce := some (s.after (s.gen n).config.debounce) } := by
  rw [trackLine, if_pos h, if_neg hl, if_neg hd]
  rfl

theorem trackLine_settles {l : LineId} {n : PortId} {s : State} (h : (s.gen n).config.watched = some l)
    (hl : s.tin[l] ≠ (s.gen n).level) (hd : (s.gen n).config.debounce = 0) : trackLine l n s = settleLine n s := by
  rw [trackLine, if_pos h, if_neg hl, if_pos hd]

theorem rawLevel_watched {l : LineId} {c : TrigConfig} (h : c.watched = some l) (s : State) : rawLevel s c = s.tin[l] := by
  rw [rawLevel, h]

theorem trackLine_tracked (l : LineId) (n : PortId) (s : State) :
    tracked s l s.tin[l] (s.gen n) ((trackLine l n s).gen n) := by
  refine ⟨fun hw => ?_, fun hw hl => ?_, fun hw hl hd => ?_, fun hw hl hd => ?_⟩
  · rw [trackLine_unwatched hw]
  · rw [trackLine_agrees hw hl, setGen_gen_self]
  · rw [trackLine_debounces hw hl hd, setGen_gen_self]
  · obtain ⟨hlevel, hdebounce, hconfig, -⟩ := settleLine_leaves n s
    rw [rawLevel_watched hw] at hlevel
    rw [trackLine_settles hw hl hd]
    refine ⟨hlevel, hdebounce, hconfig, fun hi => ?_⟩
    rw [settleLine_idle hi, setGen_gen_self, rawLevel_watched hw]
    rfl

/-- From `s` to `t` the lines, part time, the stream table and the frame store stay. -/
def sameLines (s t : State) : Prop :=
  t.tin = s.tin ∧ t.partTime = s.partTime ∧ t.entries = s.entries ∧ t.store = s.store

/-- A tracker changes its own generator, and beside the lines no table. -/
theorem trackLine_leaves (l : LineId) (n : PortId) (s : State) :
    (∀ m, m ≠ n → (trackLine l n s).gen m = s.gen m) ∧ sameLines s (trackLine l n s) := by
  unfold trackLine
  split
  · split
    · exact ⟨fun m hm => mapGen_gen_ne n _ s m hm, rfl, rfl, rfl, rfl⟩
    · split
      · obtain ⟨-, -, -, hgen, -, hentries, hstore, htin, htime⟩ := settleLine_leaves n s
        exact ⟨hgen, htin, htime, hentries, hstore⟩
      · exact ⟨fun m hm => mapGen_gen_ne n _ s m hm, rfl, rfl, rfl, rfl⟩
  · exact ⟨fun _ _ => rfl, rfl, rfl, rfl, rfl⟩

/-- A tracker with a debounce offers nothing. -/
theorem trackLine_quiet {l : LineId} {n : PortId} {s : State}
    (h : (s.gen n).config.watched = some l → (s.gen n).config.debounce ≠ 0) :
    (trackLine l n s).ports = s.ports ∧ (trackLine l n s).notices = s.notices ∧ (trackLine l n s).agent = s.agent := by
  by_cases hw : (s.gen n).config.watched = some l
  case neg => rw [trackLine_unwatched hw]; exact ⟨rfl, rfl, rfl⟩
  by_cases hl : s.tin[l] = (s.gen n).level
  · rw [trackLine_agrees hw hl]; exact ⟨rfl, rfl, rfl⟩
  · rw [trackLine_debounces hw hl (h hw)]; exact ⟨rfl, rfl, rfl⟩

/-- A visit of table places one after the other, where each visit keeps `R` and what `get` reads of the other places: each
place is visited once, with what it read before. -/
theorem forEach_visit {ι α : Type} [DecidableEq ι] (get : ι → State → α) (f : ι → State → State)
    (R : State → State → Prop) (hrefl : ∀ s, R s s) (htrans : ∀ s t u, R s t → R t u → R s u) (hR : ∀ i s, R s (f i s))
    (hf : ∀ i j s, j ≠ i → get j (f i s) = get j s) (xs : List ι) (hxs : xs.Nodup) (s : State) :
    R s (forEach xs f s) ∧ (∀ j, j ∉ xs → get j (forEach xs f s) = get j s)
      ∧ ∀ j ∈ xs, ∃ t, R s t ∧ get j t = get j s ∧ get j (forEach xs f s) = get j (f j t)
        ∧ R (f j t) (forEach xs f s) := by
  induction xs generalizing s with
  | nil => exact ⟨hrefl s, fun _ _ => rfl, fun j hj => absurd hj List.not_mem_nil⟩
  | cons x xs ih =>
    obtain ⟨hx, hnd⟩ := List.nodup_cons.1 hxs
    obtain ⟨hr, hout, hin⟩ := ih hnd (f x s)
    refine ⟨htrans _ _ _ (hR x s) hr, fun j hj => ?_, fun j hj => ?_⟩
    · obtain ⟨hne, hj'⟩ := not_or.1 (mt List.mem_cons.2 hj)
      exact (hout j hj').trans (hf x j s hne)
    · by_cases hjx : j = x
      case pos =>
        subst hjx
        exact ⟨s, hrefl s, rfl, hout j hx, hr⟩
      case neg =>
        obtain ⟨t, hst, ht, hend, hrest⟩ := hin j ((List.mem_cons.1 hj).resolve_left hjx)
        exact ⟨t, htrans _ _ _ (hR x s) hst, ht.trans (hf x j s hjx), hend, hrest⟩

/-- The same of the generators. -/
theorem forEach_gen (f : PortId → State → State) (R : State → State → Prop) (hrefl : ∀ s, R s s)
    (htrans : ∀ s t u, R s t → R t u → R s u) (hR : ∀ n s, R s (f n s)) (hf : ∀ n m s, m ≠ n → (f n s).gen m = s.gen m)
    (xs : List PortId) (hxs : xs.Nodup) (s : State) :
    R s (forEach xs f s) ∧ (∀ m, m ∉ xs → (forEach xs f s).gen m = s.gen m)
      ∧ ∀ m ∈ xs, ∃ t, R s t ∧ t.gen m = s.gen m ∧ (forEach xs f s).gen m = (f m t).gen m := by
  obtain ⟨hr, hout, hin⟩ := forEach_visit (fun m t => t.gen m) f R hrefl htrans hR hf xs hxs s
  refine ⟨hr, hout, fun m hm => ?_⟩
  obtain ⟨t, hst, ht, hend, -⟩ := hin m hm
  exact ⟨t, hst, ht, hend⟩

/-- Every generator that watches line `l` has a debounce. -/
def debounced (l : LineId) (s : State) : Prop := ∀ n, (s.gen n).config.watched = some l → (s.gen n).config.debounce ≠ 0

/-- What trackers leave: the lines and tables, and with a debounce everywhere the ports, notices and replies. -/
def trackersLeave (l : LineId) (s t : State) : Prop :=
  sameLines s t ∧ (debounced l s → debounced l t ∧ t.ports = s.ports ∧ t.notices = s.notices ∧ t.agent = s.agent)

theorem tracked_config {s : State} {l : LineId} {level : Bool} {g x : Generator} (h : tracked s l level g x) :
    x.config = g.config := by
  obtain ⟨hother, hagrees, htimer, hsettles⟩ := h
  by_cases hw : g.config.watched = some l
  case neg => rw [hother hw]
  by_cases hl : level = g.level
  case pos => rw [hagrees hw hl]
  by_cases hd : g.config.debounce = 0
  case pos => exact (hsettles hw hl hd).2.2.1
  case neg => rw [htimer hw hl hd]

theorem trackLine_trackersLeave (l : LineId) (n : PortId) (s : State) : trackersLeave l s (trackLine l n s) := by
  obtain ⟨hgen, hsame⟩ := trackLine_leaves l n s
  have hconfig : ∀ m, ((trackLine l n s).gen m).config = (s.gen m).config := fun m => by
    by_cases hm : m = n
    case pos => rw [hm, tracked_config (trackLine_tracked l n s)]
    case neg => rw [hgen m hm]
  refine ⟨hsame, fun hd => ⟨fun m => ?_, trackLine_quiet (hd n)⟩⟩
  rw [hconfig]
  exact hd m

theorem trackersLeave_refl (l : LineId) (s : State) : trackersLeave l s s :=
  ⟨⟨rfl, rfl, rfl, rfl⟩, fun h => ⟨h, rfl, rfl, rfl⟩⟩

theorem trackersLeave_trans (l : LineId) (s t u : State) (h : trackersLeave l s t) (g : trackersLeave l t u) :
    trackersLeave l s u := by
  obtain ⟨⟨h1, h2, h3, h4⟩, hq⟩ := h
  obtain ⟨⟨g1, g2, g3, g4⟩, gq⟩ := g
  refine ⟨⟨g1.trans h1, g2.trans h2, g3.trans h3, g4.trans h4⟩, fun hd => ?_⟩
  obtain ⟨hd', q1, q2, q3⟩ := hq hd
  obtain ⟨hd'', r1, r2, r3⟩ := gq hd'
  exact ⟨hd'', r1.trans q1, r2.trans q2, r3.trans q3⟩

/-- A change of a line's level, with every tracker visited. -/
theorem rawLineChange_tracked {l : LineId} {level : Bool} {s : State} (h : s.tin[l] ≠ level) (hs : s.starting = false) :
    trackersLeave l { s with tin := s.tin.set l level } (rawLineChange l level s)
      ∧ ∀ n, tracked s l level (s.gen n) ((rawLineChange l level s).gen n) := by
  let u : State := { s with tin := s.tin.set l level }
  have hrun : rawLineChange l level s = forEach allPorts (trackLine l) u := by
    rw [rawLineChange, if_neg h]
    simp only [hs, Bool.false_eq_true, if_false, u]
  obtain ⟨hleave, -, hvisit⟩ := forEach_gen (trackLine l) (trackersLeave l) (trackersLeave_refl l) (trackersLeave_trans l)
    (trackLine_trackersLeave l) (fun n m t hm => (trackLine_leaves l n t).1 m hm) allPorts (List.nodup_finRange 8) u
  rw [hrun]
  refine ⟨hleave, fun n => ?_⟩
  obtain ⟨t, ⟨⟨htin, htime, -⟩, -⟩, hgen, hend⟩ := hvisit n (List.mem_finRange n)
  have ht := trackLine_tracked l n t
  have hlevel : t.tin[l] = level := by rw [htin]; exact Vector.getElem_set_self _
  have hafter : ∀ d, t.after d = s.after d := fun d => by rw [State.after, htime]; rfl
  rw [← hend, hgen, hlevel] at ht
  simp only [tracked, hafter] at ht
  exact ht

/-- An edge of a LINE generator that finds room: the trigger is issued from the generator whose level is settled. -/
theorem settleLine_issues {n : PortId} {s : State} (hl : rawLevel s (s.gen n).config ≠ (s.gen n).level)
    (hs : (s.gen n).config.source = .line) (ha : (s.gen n).state = .armed)
    (ht : (s.gen n).config.edge.takes (rawLevel s (s.gen n).config) = true) (hp : (s.port n).state = .active)
    (hps : (s.gen n).pendings.length < 8) (hroom : (s.port n).outTrigs.length + (s.port n).outMreqs.length < 4) :
    settleLine n s = (s.setPort n { s.port n with
        outTrigs := (s.port n).outTrigs ++ [⟨(s.gen n).next, 0x01, byteOf (s.gen n).config.line.val⟩] }).setGen n
      (((s.gen n).settled (rawLevel s (s.gen n).config)).issue n s) := by
  let u := s.setGen n ((s.gen n).settled (rawLevel s (s.gen n).config))
  have hg : u.gen n = (s.gen n).settled (rawLevel s (s.gen n).config) := setGen_gen_self s n _
  have hissue := attemptIssue_room (s := u) (n := n) .line (byteOf (s.gen n).config.line.val) hp
    (by rw [hg]; exact hps) hroom
  rw [hg] at hissue
  rw [settleLine_line hl hs, lineEdge_takes (by rw [hg]; exact ha) (by rw [hg]; exact ht), hg]
  refine (congrArg Prod.fst hissue).trans ?_
  exact setGen_setGen (s.setPort n _) n _ _

/-- A LINE generator whose configured edge is the other one does nothing at this edge. -/
theorem settleLine_otherEdge {n : PortId} {s : State} (hl : rawLevel s (s.gen n).config ≠ (s.gen n).level)
    (hs : (s.gen n).config.source = .line)
    (ht : (s.gen n).config.edge.takes (rawLevel s (s.gen n).config) = false) :
    settleLine n s = s.setGen n ((s.gen n).settled (rawLevel s (s.gen n).config)) := by
  rw [settleLine_line hl hs, lineEdge_still (.inr (by rw [setGen_gen_self]; exact ht))]

theorem settleLine_pauses {n : PortId} {s : State} (hl : rawLevel s (s.gen n).config ≠ (s.gen n).level)
    (hs : (s.gen n).config.source = .burst) (hr : (s.gen n).state = .running)
    (hg : rawLevel s (s.gen n).config ≠ (s.gen n).config.gateLevel) :
    settleLine n s = s.setGen n
      { (s.gen n).settled (rawLevel s (s.gen n).config) with state := .paused, period := none } := by
  rw [settleLine_burst hl hs, gateEdge_pauses (by rw [setGen_gen_self]; exact hr) (by rw [setGen_gen_self]; exact hg),
    setGen_setGen, setGen_gen_self]

theorem settleLine_resumes {n : PortId} {s : State} (hl : rawLevel s (s.gen n).config ≠ (s.gen n).level)
    (hs : (s.gen n).config.source = .burst) (hr : (s.gen n).state = .paused)
    (hg : rawLevel s (s.gen n).config = (s.gen n).config.gateLevel) :
    settleLine n s = s.setGen n
      { (s.gen n).settled (rawLevel s (s.gen n).config) with
        state := .running, period := some (s.after (s.gen n).config.burstPeriod) } := by
  rw [settleLine_burst hl hs, gateEdge_resumes (by rw [setGen_gen_self]; exact hr) (by rw [setGen_gen_self]; exact hg),
    setGen_setGen, setGen_gen_self]
  rfl

/-- Settles O41: the trackers of the line, and the settling of one. -/
theorem debounceFollowsLine : Obligations.DebounceFollowsLine := by
  refine ⟨fun l level s => ⟨fun h => congrArg Host.Outcome.next (if_pos h), fun h hs => ?starting, fun h hs => ?tracked⟩,
    fun n d s hd => ?expiry⟩
  case starting =>
    have hrun : rawLineChange l level s = { s with tin := s.tin.set l level } := by
      rw [rawLineChange, if_neg h]
      simp only [hs, if_true]
    exact congrArg Host.Outcome.next hrun
  case tracked =>
    obtain ⟨⟨⟨htin, htime, hentries, hstore⟩, hquiet⟩, htracked⟩ := rawLineChange_tracked h hs
    exact ⟨_, rfl, htin, fun n => (htracked n).1, fun n => (htracked n).2.1, fun n => (htracked n).2.2.1,
      fun n => (htracked n).2.2.2, fun hd => (hquiet hd).2, hentries, hstore, htime⟩
  case expiry =>
    intro g level settled u
    have hrun : exec (.debounceTimerExpiry n) s = .next (settleLine n u) := by
      refine congrArg Host.Outcome.next ?_
      simp only [debounceExpiry, hd]
      rfl
    have hg : u.gen n = g := atDeadline_gen d s n
    have hp : u.port n = s.port n := atDeadline_port d s n
    have hlevel : rawLevel u (u.gen n).config = level := by
      rw [hg, rawLevel, atDeadline_tin]
      rfl
    have hpending (x : Generator) : x.issue n u = { x with
        next := x.next + 1
        counters := { x.counters with issued := bump x.counters.issued }
        pendings := x.pendings ++ (if correlatedOn s n = [] then [] else
          [⟨x.next, u.partTime, u.after (x.config.window * 100), correlatedOn s n⟩]) } := by
      rw [Generator.issue, correlatedOn_congr (atDeadline_entries d s)]
    refine ⟨?leaves, fun h => ?quiet, fun hl hs ha => ⟨fun he => ?other, fun he hact hps hroom => ?issues⟩,
      fun hl hs => ⟨fun hr hgate => ?pauses, fun hr hgate => ?resumes⟩⟩
    case leaves =>
      obtain ⟨h1, h2, h3, hgens, hports, hentries, hstore, -, -⟩ := settleLine_leaves n u
      refine ⟨_, hrun, h1.trans hlevel, h2, h3.trans (congrArg Generator.config hg), fun m hm => ?_, fun m hm => ?_,
        hentries.trans (atDeadline_entries d s), hstore.trans (atDeadline_store d s)⟩
      · exact (hgens m hm).trans (atDeadline_gen d s m)
      · exact (hports m hm).trans (atDeadline_port d s m)
    case quiet =>
      have heq : settleLine n u = u.setGen n ((u.gen n).settled (rawLevel u (u.gen n).config)) := by
        rcases h with h | h
        · exact settleLine_same (by rw [hlevel, hg]; exact h)
        · exact settleLine_idle (by rw [hg]; exact h)
      rw [hlevel, hg] at heq
      exact hrun.trans (congrArg Host.Outcome.next heq)
    case other =>
      have ht : (u.gen n).config.edge.takes (rawLevel u (u.gen n).config) = false := by
        rw [hlevel, hg]
        rcases he with ⟨he, hv⟩ | ⟨he, hv⟩ <;> rw [he, hv] <;> rfl
      have heq := settleLine_otherEdge (n := n) (s := u) (by rw [hlevel, hg]; exact hl) (by rw [hg]; exact hs) ht
      rw [hlevel, hg] at heq
      exact hrun.trans (congrArg Host.Outcome.next heq)
    case issues =>
      have ht : (u.gen n).config.edge.takes (rawLevel u (u.gen n).config) = true := by
        rw [hlevel, hg]
        rcases he with he | ⟨he, hv⟩ | ⟨he, hv⟩
        · rw [he]; rfl
        · rw [he, hv]; rfl
        · rw [he, hv]; rfl
      have heq := settleLine_issues (n := n) (s := u) (by rw [hlevel, hg]; exact hl) (by rw [hg]; exact hs)
        (by rw [hg]; exact ha) ht (by rw [hp]; exact hact) (by rw [hg]; exact hps) (by rw [hp]; exact hroom)
      rw [hlevel, hg, hp, hpending] at heq
      exact hrun.trans (congrArg Host.Outcome.next heq)
    case pauses =>
      have heq := settleLine_pauses (n := n) (s := u) (by rw [hlevel, hg]; exact hl) (by rw [hg]; exact hs)
        (by rw [hg]; exact hr) (by rw [hlevel, hg]; exact hgate)
      rw [hlevel, hg] at heq
      exact hrun.trans (congrArg Host.Outcome.next heq)
    case resumes =>
      have heq := settleLine_resumes (n := n) (s := u) (by rw [hlevel, hg]; exact hl) (by rw [hg]; exact hs)
        (by rw [hg]; exact hr) (by rw [hlevel, hg]; exact hgate)
      rw [hlevel, hg] at heq
      exact hrun.trans (congrArg Host.Outcome.next heq)

end Sys2Proof.Machine
end

section
/-!
The frame store without its laws: what reexamination, a leave of a ring and depth enforcement do to records, rings and the
reclaim list in every state. Then RELEASE (O28), DROP and STORE_CLEAR (O29), and the supply of records and pages (O31).
-/

namespace Sys2Proof.Machine

open Sys2Proof

/-! ## Reexamination -/

theorem freeIfUnclaimed_claimed {r : RecordId} {s : State} (h : (s.record r).unclaimed = false) :
    freeIfUnclaimed r s = s := if_neg fun hu => absurd (h.symm.trans hu.2) (by decide)

theorem freeIfUnclaimed_frees {r : RecordId} {s : State} (hs : (s.record r).state ≠ .free)
    (h : (s.record r).unclaimed = true) : freeIfUnclaimed r s = freeRecord r s := if_pos ⟨hs, h⟩

theorem placeOnReclaim_records (r : RecordId) (s : State) : (placeOnReclaim r s).store.records = s.store.records := by
  unfold placeOnReclaim
  split
  · split <;> rfl
  · rfl

/-- A record that is not looked at keeps its fields and its place on the reclaim list. -/
theorem reexamine_other {q r : RecordId} (h : q ≠ r) (s : State) :
    (reexamine r s).record q = s.record q ∧ (q ∈ (reexamine r s).store.reclaim ↔ q ∈ s.store.reclaim) := by
  have hfree : (freeIfUnclaimed r s).record q = s.record q
      ∧ (q ∈ (freeIfUnclaimed r s).store.reclaim ↔ q ∈ s.store.reclaim) := by
    unfold freeIfUnclaimed
    split
    · exact ⟨mapRecord_record_ne r _ _ q h, List.mem_erase_of_ne h⟩
    · exact ⟨rfl, Iff.rfl⟩
  obtain ⟨hrecord, hlisted⟩ := hfree
  refine ⟨?_, Iff.trans ?_ hlisted⟩
  · rw [← hrecord]
    simp only [reexamine, State.record, placeOnReclaim_records]
  · unfold reexamine placeOnReclaim
    split
    · split
      · exact Iff.rfl
      · simp only [mapStore_store, List.mem_append, List.mem_singleton, h, or_false]
    · exact List.mem_erase_of_ne h

/-- A record that has no claim left, with the rest of the record blank. -/
theorem reexamine_self (r : RecordId) (s : State) :
    (reexamine r s).record r = s.record r ∨ (reexamine r s).record r = .blank := by
  have hplace : (reexamine r s).record r = (freeIfUnclaimed r s).record r := by
    simp only [reexamine, State.record, placeOnReclaim_records]
  rw [hplace]
  by_cases h : (s.record r).state ≠ .free ∧ (s.record r).unclaimed = true
  · exact .inr (by rw [freeIfUnclaimed, if_pos h, freeRecord, mapRecord_record_self])
  · exact .inl (by rw [freeIfUnclaimed, if_neg h])

/-- A claimed record that is reclaimable is listed, at the tail unless it was listed before (R81). -/
theorem reexamine_joins {r : RecordId} {s : State} (h : (s.record r).reclaimable = true) :
    (reexamine r s).record r = s.record r ∧ r ∈ (reexamine r s).store.reclaim
      ∧ (r ∉ s.store.reclaim → (reexamine r s).store.reclaim.getLast? = some r) := by
  have hring : (s.record r).ring = true := by
    simp only [Record.reclaimable, Bool.and_eq_true] at h
    exact h.1.1.1.1
  have hclaimed : freeIfUnclaimed r s = s := freeIfUnclaimed_claimed (by simp [Record.unclaimed, hring])
  rw [reexamine, hclaimed, placeOnReclaim, if_pos h]
  by_cases hm : r ∈ s.store.reclaim
  · rw [if_pos hm]
    exact ⟨rfl, hm, fun hn => absurd hm hn⟩
  · rw [if_neg hm]
    exact ⟨rfl, List.mem_append_right _ (List.mem_singleton.2 rfl), fun _ => List.getLast?_concat⟩

/-! ## Claims that drop and flags that clear -/

/-- From `s` to `t` no ring claim, held flag, forward claim or pin comes to a record. -/
structure Lowers (s t : State) : Prop where
  ring : ∀ q, (s.record q).ring = false → (t.record q).ring = false
  held : ∀ q, (s.record q).held = false → (t.record q).held = false
  forward : ∀ q, (s.record q).forward = false → (t.record q).forward = false

namespace Lowers

variable {s t u : State}

theorem refl (s : State) : Lowers s s := ⟨fun _ h => h, fun _ h => h, fun _ h => h⟩

theorem trans (h : Lowers s t) (g : Lowers t u) : Lowers s u :=
  ⟨fun q a => g.ring q (h.ring q a), fun q a => g.held q (h.held q a), fun q a => g.forward q (h.forward q a)⟩

theorem same (h : t.store.records = s.store.records) : Lowers s t := by
  have e : ∀ q, t.record q = s.record q := fun q => by simp only [State.record, h]
  exact ⟨fun q a => e q ▸ a, fun q a => e q ▸ a, fun q a => e q ▸ a⟩

/-- Each record stays, or is blank. -/
theorem ofBlank (h : ∀ q, t.record q = s.record q ∨ t.record q = .blank) : Lowers s t := by
  refine ⟨fun q a => ?_, fun q a => ?_, fun q a => ?_⟩ <;> rcases h q with e | e <;> rw [e]
  · exact a
  · rfl
  · exact a
  · rfl
  · exact a
  · rfl

theorem record (s : State) (r : RecordId) (f : Record → Record)
    (hr : (s.record r).ring = false → (f (s.record r)).ring = false)
    (hh : (s.record r).held = false → (f (s.record r)).held = false)
    (hf : (s.record r).forward = false → (f (s.record r)).forward = false) : Lowers s (mapRecord r f s) := by
  refine ⟨fun q a => ?_, fun q a => ?_, fun q a => ?_⟩ <;> by_cases hq : q = r
  · subst hq; rw [mapRecord_record_self]; exact hr a
  · rw [mapRecord_record_ne r f s q hq]; exact a
  · subst hq; rw [mapRecord_record_self]; exact hh a
  · rw [mapRecord_record_ne r f s q hq]; exact a
  · subst hq; rw [mapRecord_record_self]; exact hf a
  · rw [mapRecord_record_ne r f s q hq]; exact a

theorem reexamine (r : RecordId) (s : State) : Lowers s (Machine.reexamine r s) :=
  ofBlank fun q => by
    by_cases hq : q = r
    · rw [hq]; exact reexamine_self r s
    · exact .inl (reexamine_other hq s).1

theorem leaveRing (e : EntryId) (r : RecordId) (s : State) : Lowers s (Machine.leaveRing e r s) := by
  have hentry : Lowers s (mapEntry e (fun x => { x with ring := x.ring.erase r }) s) := same rfl
  exact (hentry.trans (record _ r _ (fun _ => rfl) (fun _ => rfl) fun h => h)).trans (reexamine r _)

theorem dropForward (r : RecordId) (s : State) : Lowers s (Machine.dropForward r s) :=
  (record s r _ (fun h => h) (fun h => h) fun _ => rfl).trans (reexamine r _)

theorem forEach {α : Type} (xs : List α) (f : α → State → State) (s : State) (h : ∀ x t, Lowers t (f x t)) :
    Lowers s (Machine.forEach xs f s) := by
  induction xs generalizing s with
  | nil => exact refl s
  | cons x xs ih => exact (h x s).trans (ih (f x s))

theorem evictions (k : Nat) (e : EntryId) (s : State) : Lowers s (Machine.evictions k e s) := by
  induction k generalizing s with
  | zero => exact refl s
  | succ k ih =>
    unfold Machine.evictions
    split
    · split
      · next r _ =>
        have hcount : Lowers s (countEntry e (fun c => { c with evictedDepth := bump c.evictedDepth }) s) := same rfl
        exact (hcount.trans (leaveRing e r _)).trans (ih _)
      · exact refl s
    · exact refl s

theorem enforceDepth (e : EntryId) (s : State) : Lowers s (Machine.enforceDepth e s) := evictions _ e s

end Lowers

/-- The record that leaves a ring has neither ring claim nor held flag. -/
theorem leaveRing_self (e : EntryId) (r : RecordId) (s : State) :
    ((leaveRing e r s).record r).ring = false ∧ ((leaveRing e r s).record r).held = false := by
  unfold leaveRing
  rcases reexamine_self r (mapRecord r (fun x => { x with ring := false, held := false })
    (mapEntry e (fun x => { x with ring := x.ring.erase r }) s)) with h | h <;> rw [h]
  · rw [mapRecord_record_self]
    exact ⟨rfl, rfl⟩
  · exact ⟨rfl, rfl⟩

theorem dropForward_self (r : RecordId) (s : State) : ((dropForward r s).record r).forward = false := by
  unfold dropForward
  rcases reexamine_self r (mapRecord r (fun x => { x with forward := false }) s) with h | h <;> rw [h]
  · rw [mapRecord_record_self]
  · rfl

/-! ## Leaving a ring -/

theorem leaveRing_entry (e : EntryId) (r : RecordId) (s : State) :
    (leaveRing e r s).entry e = { s.entry e with ring := (s.entry e).ring.erase r } := by
  rw [leaveRing, Core.reexamine_entry, mapRecord_entry, mapEntry_entry_self]

/-- The oldest members leave in turn: the ring is the rest. -/
theorem leaveRingAll_entry (e : EntryId) (rs rest : List RecordId) (s : State) (h : (s.entry e).ring = rs ++ rest) :
    (leaveRingAll e rs s).entry e = { s.entry e with ring := rest } := by
  induction rs generalizing s with
  | nil => rw [← (List.nil_append rest), ← h]; rfl
  | cons r rs ih =>
    have hstep := leaveRing_entry e r s
    rw [h, List.cons_append, List.erase_cons_head] at hstep
    have hrest := ih (leaveRing e r s) (by rw [hstep])
    rw [hstep] at hrest
    exact hrest

/-- The whole ring leaves. -/
theorem leaveRingAll_whole (e : EntryId) (s : State) :
    (leaveRingAll e (s.entry e).ring s).entry e = { s.entry e with ring := [] } :=
  leaveRingAll_entry e (s.entry e).ring [] s (List.append_nil _).symm

theorem leaveRingAll_members (e : EntryId) (rs : List RecordId) (s : State) {r : RecordId} (h : r ∈ rs) :
    ((leaveRingAll e rs s).record r).ring = false ∧ ((leaveRingAll e rs s).record r).held = false := by
  induction rs generalizing s with
  | nil => exact absurd h List.not_mem_nil
  | cons q rs ih =>
    have hlower : Lowers (leaveRing e q s) (leaveRingAll e (q :: rs) s) := Lowers.forEach rs _ _ (Lowers.leaveRing e)
    rcases List.mem_cons.1 h with rfl | hr
    · obtain ⟨hring, hheld⟩ := leaveRing_self e r s
      exact ⟨hlower.ring r hring, hlower.held r hheld⟩
    · exact ih (leaveRing e q s) hr

/-! ## Depth enforcement -/

theorem evictions_within {k : Nat} {e : EntryId} {s : State}
    (h : (s.entry e).ring.length ≤ (s.entry e).current.ringDepth) : evictions k e s = s := by
  cases k with
  | zero => rfl
  | succ k => rw [evictions, if_neg (Nat.not_lt_of_le h)]

/-- One eviction, counted. -/
def evict (e : EntryId) (r : RecordId) (s : State) : State :=
  leaveRing e r (countEntry e (fun c => { c with evictedDepth := bump c.evictedDepth }) s)

theorem evict_entry (e : EntryId) (r : RecordId) (s : State) :
    (evict e r s).entry e = { s.entry e with
      ring := (s.entry e).ring.erase r
      counters := { (s.entry e).counters with evictedDepth := bump (s.entry e).counters.evictedDepth } } := by
  rw [evict, leaveRing_entry, countEntry, mapEntry_entry_self]

/-- Enforcement, eviction by eviction: a property of the states that each eviction of an evictable member above the depth
carries on, holds at the end. -/
theorem evictions_induction {e : EntryId} {P : State → State → Prop} (hrefl : ∀ s, P s s)
    (hstep : ∀ s t r, (s.entry e).current.ringDepth < (s.entry e).ring.length → r ∈ (s.entry e).ring →
      evictable s r = true → P (evict e r s) t → P s t) (k : Nat) (s : State) : P s (evictions k e s) := by
  induction k generalizing s with
  | zero => exact hrefl s
  | succ k ih =>
    unfold evictions
    split
    · next hlt =>
      split
      · next r hr => exact hstep s _ r hlt (List.mem_of_find?_eq_some hr) (List.find?_some hr) (ih (evict e r s))
      · exact hrefl s
    · exact hrefl s

/-- The ring is within its depth, or of held and pinned members (R80). -/
def ringEnforced (e : EntryId) (depth : Nat) (s : State) : Prop :=
  (s.entry e).ring.length ≤ depth ∨ ∀ r ∈ (s.entry e).ring, (s.record r).held = true ∨ (s.record r).pin = true

theorem evictions_enforced (k : Nat) (e : EntryId) (s : State)
    (hk : (s.entry e).ring.length ≤ k + (s.entry e).current.ringDepth) :
    ringEnforced e (s.entry e).current.ringDepth (evictions k e s) := by
  induction k generalizing s with
  | zero => exact .inl (by rw [evictions]; omega)
  | succ k ih =>
    unfold evictions
    split
    · next hlt =>
      split
      · next r hr =>
        have hm := List.mem_of_find?_eq_some hr
        have hentry := evict_entry e r s
        have hdepth : ((evict e r s).entry e).current.ringDepth = (s.entry e).current.ringDepth := by rw [hentry]
        rw [← hdepth]
        refine ih (evict e r s) ?_
        rw [hentry]
        simp only [List.length_erase_of_mem hm]
        omega
      · next hn =>
        refine .inr fun r hr => ?_
        have hkept := List.find?_eq_none.1 hn r hr
        cases hheld : (s.record r).held
        case true => exact .inl rfl
        case false =>
          cases hpin : (s.record r).pin
          case true => exact .inr rfl
          case false => exact absurd (by simp [evictable, hheld, hpin]) hkept
    · exact .inl (Nat.le_of_not_lt ‹_›)

theorem enforceDepth_enforced (e : EntryId) (s : State) :
    ringEnforced e (s.entry e).current.ringDepth (enforceDepth e s) :=
  evictions_enforced _ e s (Nat.le_add_right _ _)

/-- A member that stays in a ring without repeats keeps its record and its place on the reclaim list. -/
theorem enforceDepth_kept (e : EntryId) (s : State) (hn : (s.entry e).ring.Nodup) {r : RecordId}
    (hr : r ∈ ((enforceDepth e s).entry e).ring) :
    (enforceDepth e s).record r = s.record r ∧ (r ∈ (enforceDepth e s).store.reclaim ↔ r ∈ s.store.reclaim) := by
  have key : (s.entry e).ring.Nodup → r ∈ ((enforceDepth e s).entry e).ring →
      r ∈ (s.entry e).ring ∧ (enforceDepth e s).record r = s.record r
        ∧ (r ∈ (enforceDepth e s).store.reclaim ↔ r ∈ s.store.reclaim) := by
    refine evictions_induction (e := e) (P := fun s t => (s.entry e).ring.Nodup → r ∈ (t.entry e).ring →
      r ∈ (s.entry e).ring ∧ t.record r = s.record r ∧ (r ∈ t.store.reclaim ↔ r ∈ s.store.reclaim))
      (fun s _ hr => ⟨hr, rfl, Iff.rfl⟩) (fun s t q _ _ _ ih hn hr => ?_) _ s
    have hring : ((evict e q s).entry e).ring = (s.entry e).ring.erase q := by rw [evict_entry]
    rw [hring] at ih
    obtain ⟨hmem, hrecord, hlisted⟩ := ih (hn.erase q) hr
    obtain ⟨hne, hin⟩ := hn.mem_erase_iff.1 hmem
    obtain ⟨hsame, hplace⟩ := reexamine_other hne (mapRecord q (fun x => { x with ring := false, held := false })
      (mapEntry e (fun x => { x with ring := x.ring.erase q })
        (countEntry e (fun c => { c with evictedDepth := bump c.evictedDepth }) s)))
    exact ⟨hin, hrecord.trans (hsame.trans (mapRecord_record_ne q _ _ r hne)), hlisted.trans hplace⟩
  exact (key hn hr).2

/-! ## RELEASE -/

theorem opRelease_outOfRange (a : Byte) (k : Half) (ha : 32 ≤ a.toNat) (s : State) :
    opRelease a k s = refuse .badArgument s := by
  simp only [opRelease, indexBelow_none 32 a ha]

theorem opRelease_notMember (e : EntryId) (k : Half) (s : State) (h : ringMember s e k = none) :
    opRelease (byteOf e.val) k s = refuse .notFound s := by
  simp only [opRelease, indexBelow_byteOf 32 e (by decide), h]

theorem opRelease_member (e : EntryId) (k : Half) (s : State) (r : RecordId) (h : ringMember s e k = some r) :
    opRelease (byteOf e.val) k s
      = accept [if (s.record r).held then 1 else 0, if r ∈ ((releaseRecord e r s).entry e).ring then 1 else 0]
          (releaseRecord e r s) := by
  simp only [opRelease, indexBelow_byteOf 32 e (by decide), h, flagByte_eq, List.contains_eq_mem, decide_eq_true_eq]
  rfl

theorem releaseRecord_rings (e : EntryId) (r : RecordId) (s : State) : Rings (· = e) s (releaseRecord e r s) :=
  ((mapRecord_rings r _ s).trans (enforceDepth_rings (P := (· = e)) e _ rfl)).trans (reexamine_rings r _)

theorem releaseRecord_quiet (e : EntryId) (r : RecordId) (s : State) : Offers s (releaseRecord e r s) [] := by
  have hflag : Offers s (mapRecord r (fun x => { x with held := false }) s) [] := ⟨rfl, rfl⟩
  exact (hflag.after (enforceDepth_quiet e _)).after (reexamine_quiet r _)

/-- What a release makes of the record and of the ring (R91). -/
theorem releaseRecord_spec (e : EntryId) (r : RecordId) (s : State) :
    ((releaseRecord e r s).record r).held = false
      ∧ ringEnforced e (s.entry e).current.ringDepth (releaseRecord e r s)
      ∧ (r ∈ ((releaseRecord e r s).entry e).ring → (s.entry e).ring.Nodup → (s.record r).state = .closed →
          (s.record r).ring = true → (s.record r).pin = false → (s.record r).forward = false →
          r ∈ (releaseRecord e r s).store.reclaim
            ∧ (r ∉ s.store.reclaim → (releaseRecord e r s).store.reclaim.getLast? = some r)) := by
  let u := mapRecord r (fun x => { x with held := false }) s
  let v := enforceDepth e u
  have hu : u.record r = { s.record r with held := false } := mapRecord_record_self r _ s
  have hheld : (v.record r).held = false := (Lowers.enforceDepth e u).held r (by rw [hu])
  have hring : ((releaseRecord e r s).entry e).ring = (v.entry e).ring := by rw [releaseRecord, Core.reexamine_entry]
  refine ⟨(Lowers.reexamine r v).held r hheld, ?enforced, fun hr hn hs hc hp hf => ?listed⟩
  case enforced =>
    rcases enforceDepth_enforced e u with hlen | hall
    · exact .inl (hring ▸ hlen)
    · refine .inr fun x hx => ?_
      rw [hring] at hx
      by_cases hxr : x = r
      case pos =>
        subst hxr
        have hpin : (v.record x).pin = true := (hall x hx).resolve_left (by rw [hheld]; decide)
        have hkept : freeIfUnclaimed x v = v := freeIfUnclaimed_claimed (by simp [Record.unclaimed, hpin])
        refine .inr ?_
        rw [releaseRecord, reexamine, hkept, State.record, placeOnReclaim_records]
        exact hpin
      case neg =>
        have hsame : (releaseRecord e r s).record x = v.record x := (reexamine_other hxr v).1
        rw [hsame]
        exact hall x hx
  case listed =>
    rw [hring] at hr
    obtain ⟨hrecord, hlisted⟩ := enforceDepth_kept e u hn hr
    have hok : (v.record r).reclaimable = true := by
      rw [hrecord, hu]
      simp [Record.reclaimable, hs, hc, hp, hf]
    obtain ⟨-, hin, htail⟩ := reexamine_joins hok
    exact ⟨hin, fun hout => htail (mt hlisted.1 hout)⟩

/-- Settles O28. -/
theorem releaseEnforcesDepth : Obligations.ReleaseEnforcesDepth := by
  intro tag k s h
  refine ⟨fun a ha => ?outOfRange, fun e => ⟨fun hm => ?notMember, fun r hm => ?member⟩⟩
  case outOfRange => exact exec_read tag (.release a k) .badArgument [] h (opRelease_outOfRange a k ha _)
  case notMember => exact exec_read tag (.release (byteOf e.val) k) .notFound [] h (opRelease_notMember e k _ hm)
  case member =>
    let u := setReserved true s
    have hop := opRelease_member e k u r hm
    have hmoves := releaseRecord_moves Touch.storeOnly_hasStore e r u
    have hrings := releaseRecord_rings e r u
    have hquiet := releaseRecord_quiet e r u
    obtain ⟨hheld, henforced, hlisted⟩ := releaseRecord_spec e r u
    generalize releaseRecord e r u = t at hop hmoves hrings hquiet hheld henforced hlisted
    refine ⟨_, exec_change tag (.release (byteOf e.val) k) .ok _ h hop
      ((congrArg Agent.state (hmoves.agent rfl)).trans h.2.1), hheld, ?_, henforced, hlisted, hrings.outside,
      hmoves.ports rfl, hmoves.gens rfl, hmoves.uplink rfl, hmoves.replay rfl, hquiet.notices, hrings.mem⟩
    exact placeReply_lastReply ..

/-! ## DROP and STORE_CLEAR -/

theorem opDrop_count {e : EntryId} {count : Byte} (s : State) (h : 1 ≤ count.toNat ∧ count.toNat ≤ 64) :
    opDrop (byteOf e.val) count s
      = accept [byteOf e.val, byteOf (min count.toNat (s.entry e).ring.length)]
          (leaveRingAll e ((s.entry e).ring.take count.toNat) s) := by
  simp only [opDrop, indexBelow_byteOf 32 e (by decide), within_of_range h, List.length_take]

theorem opDrop_outOfRange {e : EntryId} {count : Byte} (s : State) (h : count.toNat = 0 ∨ 64 < count.toNat) :
    opDrop (byteOf e.val) count s = refuse .badArgument s := by
  have hw : within 1 64 count.toNat = none := by
    rcases h with h | h
    · exact within_below (by omega)
    · exact within_above h
  simp only [opDrop, indexBelow_byteOf 32 e (by decide), hw]

theorem leaveRingAll_quiet (e : EntryId) (rs : List RecordId) (s : State) : Offers s (leaveRingAll e rs s) [] :=
  Offers.forEach rs _ s (leaveRing_quiet e)

/-- The visited rings are emptied, the others stay. -/
theorem clearRings_entry (es : List EntryId) (s : State) (f : EntryId) :
    (forEach es (fun e t => leaveRingAll e (t.entry e).ring t) s).entry f
      = if f ∈ es then { s.entry f with ring := [] } else s.entry f := by
  induction es generalizing s with
  | nil => rw [if_neg List.not_mem_nil]; rfl
  | cons e es ih =>
    have hrest := ih (leaveRingAll e (s.entry e).ring s)
    have hcons : forEach (e :: es) (fun e t => leaveRingAll e (t.entry e).ring t) s
        = forEach es (fun e t => leaveRingAll e (t.entry e).ring t) (leaveRingAll e (s.entry e).ring s) := rfl
    rw [hcons, hrest]
    by_cases hfe : f = e
    case pos =>
      subst hfe
      rw [leaveRingAll_whole, if_pos List.mem_cons_self]
      split <;> rfl
    case neg =>
      have hout : (leaveRingAll e (s.entry e).ring s).entry f = s.entry f :=
        (leaveRingAll_rings (P := (· = e)) e _ s rfl).outside f hfe
      simp only [hout, List.mem_cons, hfe, false_or]

/-- Settles O29. -/
theorem dropAndClearRemoveFrames : Obligations.DropAndClearRemoveFrames := by
  refine ⟨fun tag e count s h => ⟨fun hc => ?refused, fun h1 h64 => ?drop⟩, fun tag s h => ?clear⟩
  case refused => exact exec_read tag (.drop (byteOf e.val) count) .badArgument [] h (opDrop_outOfRange _ hc)
  case drop =>
    let u := setReserved true s
    let rs := (u.entry e).ring.take count.toNat
    have hmoves := leaveRingAll_moves Touch.storeOnly_hasStore e rs u
    have hrings := leaveRingAll_rings (P := (· = e)) e rs u rfl
    exact ⟨_, exec_change tag (.drop (byteOf e.val) count) .ok _ h (opDrop_count u ⟨h1, h64⟩)
      ((congrArg Agent.state (hmoves.agent rfl)).trans h.2.1),
      leaveRingAll_entry e rs _ u (List.take_append_drop ..).symm, hrings.outside, placeReply_lastReply ..,
      (leaveRingAll_quiet e rs u).notices, hmoves.replay rfl, hmoves.uplink rfl, hrings.mem⟩
  case clear =>
    let u := setReserved true s
    have hmoves := clearRings_moves Touch.storeOnly_hasStore u
    have hrings : Rings (fun _ => True) u (clearRings u) := Rings.forEach _ _ u fun e _ t => leaveRingAll_rings e _ t trivial
    have hquiet : Offers u (clearRings u) [] := Offers.forEach _ _ u fun e t => leaveRingAll_quiet e _ t
    have hop : operate .storeClear u = accept (halfOf (ringTotal u)) (clearRings u) := rfl
    have hentries := clearRings_entry allEntries u
    rw [show forEach allEntries (fun e t => leaveRingAll e (t.entry e).ring t) u = clearRings u from rfl] at hentries
    generalize clearRings u = t at hop hmoves hrings hquiet hentries
    refine ⟨_, exec_change tag .storeClear .ok _ h hop ((congrArg Agent.state (hmoves.agent rfl)).trans h.2.1),
      fun e => ?_, placeReply_lastReply .., hquiet.notices, hmoves.replay rfl, hmoves.uplink rfl, hmoves.ports rfl,
      hmoves.gens rfl, hrings.mem⟩
    exact (hentries e).trans (if_pos (List.mem_finRange e))

/-! ## The supply of records and pages -/

/-- A CLOSED record with no claim but the ring's that leaves the ring is freed (R77, R78). -/
theorem leaveRing_frees {e : EntryId} {r : RecordId} {s : State} (hs : (s.record r).state = .closed)
    (hr : (s.record r).receiving = false) (hf : (s.record r).forward = false) (hp : (s.record r).pin = false) :
    (leaveRing e r s).store.freePages = s.store.freePages ++ (s.record r).pages
      ∧ (leaveRing e r s).store.freeRecords = s.store.freeRecords ++ [r]
      ∧ (leaveRing e r s).store.reclaims = s.store.reclaims := by
  let u := mapRecord r (fun x => { x with ring := false, held := false })
    (mapEntry e (fun x => { x with ring := x.ring.erase r }) s)
  have hu : u.record r = { s.record r with ring := false, held := false } := mapRecord_record_self r _ _
  have hfrees : freeIfUnclaimed r u = freeRecord r u :=
    freeIfUnclaimed_frees (by rw [hu]; simp [hs]) (by rw [hu]; simp [Record.unclaimed, hr, hf, hp])
  have hblank : ((freeRecord r u).record r).reclaimable = false := by
    rw [freeRecord, mapRecord_record_self]
    rfl
  have hpages : (u.record r).pages = (s.record r).pages := by rw [hu]
  have heq : leaveRing e r s = mapStore (fun st => { st with reclaim := st.reclaim.erase r }) (freeRecord r u) := by
    rw [leaveRing, reexamine, hfrees, placeOnReclaim, if_neg (by rw [hblank]; decide)]
  rw [heq]
  exact ⟨congrArg (s.store.freePages ++ ·) hpages, rfl, rfl⟩

/-- What the oldest record of the reclaim list leaves when it is taken back (R84). -/
theorem reclaimOldest_frees {r : RecordId} {rs : List RecordId} {s : State} (hq : s.store.reclaim = r :: rs)
    (hs : (s.record r).state = .closed) (hr : (s.record r).receiving = false) (hf : (s.record r).forward = false)
    (hp : (s.record r).pin = false) :
    (reclaimOldest s).store.freePages = s.store.freePages ++ (s.record r).pages
      ∧ (reclaimOldest s).store.freeRecords = s.store.freeRecords ++ [r]
      ∧ (reclaimOldest s).store.reclaims = bump s.store.reclaims
      ∧ ((reclaimOldest s).entry (s.record r).entry).ring = (s.entry (s.record r).entry).ring.erase r
      ∧ ((reclaimOldest s).entry (s.record r).entry).counters.evictedSpace
        = bump (s.entry (s.record r).entry).counters.evictedSpace := by
  let e := (s.record r).entry
  let u := mapStore (fun st => { st with reclaims := bump st.reclaims })
    (countEntry e (fun c => { c with evictedSpace := bump c.evictedSpace }) s)
  have heq : reclaimOldest s = leaveRing e r u := by simp only [reclaimOldest, hq]; rfl
  have hentry : u.entry e = { s.entry e with
      counters := { (s.entry e).counters with evictedSpace := bump (s.entry e).counters.evictedSpace } } :=
    mapEntry_entry_self e (fun x => { x with counters := { x.counters with
      evictedSpace := bump x.counters.evictedSpace } }) s
  obtain ⟨hpages, hrecords, hreclaims⟩ := leaveRing_frees (e := e) (s := u) hs hr hf hp
  rw [heq, leaveRing_entry, hentry]
  exact ⟨hpages, hrecords, hreclaims, rfl, rfl⟩

/-- With a free page there is nothing to take back. -/
theorem reclaimForPage_free {k : Nat} {s : State} (h : s.store.freePages.isEmpty = false) : reclaimForPage k s = s := by
  cases k with
  | zero => rfl
  | succ k => rw [reclaimForPage, if_neg (by rw [h, Bool.false_and]; decide)]

/-- Settles O31. -/
theorem recordRequestOrder : Obligations.RecordRequestOrder := by
  intro s
  refine ⟨fun r rs h => ?granted, fun h hq => ?refused, fun r rs h hq hs hr hf hp => ?reclaimed,
    fun p ps h => ?page, fun h hq => ?noPage, fun r rs p ps h hq hs hr hf hp hpages => ?reclaimedPage⟩
  case granted => simp only [requestRecord, takeRecord, h, List.isEmpty_cons, Bool.false_eq_true, if_false]; rfl
  case refused =>
    have hempty : s.store.freeRecords.isEmpty = true := by rw [h]; rfl
    have hnone : reclaimOldest s = s := by simp only [reclaimOldest, hq]
    have htake : takeRecord s = (s, none) := by simp only [takeRecord, h]
    rw [requestRecord, if_pos hempty, hnone, htake]
    rfl
  case reclaimed =>
    obtain ⟨h1, h2, h3, h4, -⟩ := reclaimOldest_frees hq hs hr hf hp
    rw [h, List.nil_append] at h2
    refine ⟨mapStore (fun st => { st with freeRecords := [] }) (reclaimOldest s), ?_, rfl, h3, h1, h4⟩
    simp only [requestRecord, takeRecord, h, List.isEmpty_nil, if_true, h2]
  case page =>
    rw [requestPage, reclaimForPage_free (by rw [h]; rfl), h]
    rfl
  case noPage =>
    have hlen : s.store.reclaim.length = 0 := by rw [hq]; rfl
    rw [requestPage, hlen, reclaimForPage, h]
    rfl
  case reclaimedPage =>
    obtain ⟨h1, h2, h3, h4, h5⟩ := reclaimOldest_frees hq hs hr hf hp
    rw [h, List.nil_append, hpages] at h1
    have hlen : s.store.reclaim.length = rs.length + 1 := by rw [hq]; rfl
    have hreclaim : reclaimForPage (rs.length + 1) s = reclaimOldest s := by
      rw [reclaimForPage, if_pos (by rw [h, hq]; rfl), reclaimForPage_free (by rw [h1]; rfl)]
    refine ⟨mapStore (fun st => { st with freePages := ps }) (reclaimOldest s), ?_, rfl, h2, h3, h4, h5⟩
    rw [requestPage, hlen, hreclaim, h1]

end Sys2Proof.Machine
end

section
/-!
WRITE_ENTRY (O26): the three checks of R40 to R42, and what an activation leaves of the entry, its records, the generators
and the replay requests (R45 to R50).
-/

namespace Sys2Proof.Machine

open Sys2Proof

/-! ## Leaving the outstanding sets (R145) -/

theorem strikePending_eq (e : EntryId) (ps : List PendingTrigger) :
    dropEmpty (ps.map (PendingTrigger.strike e)) = strikePending e ps := by
  have hstrike : PendingTrigger.strike e = fun p => { p with outstanding := p.outstanding.filter (· ≠ e) } := by
    funext p
    simp only [PendingTrigger.strike, ne_eq, decide_not]
    congr 2
  rw [dropEmpty, strikePending, hstrike]
  exact List.filter_congr fun p _ => by cases p.outstanding <;> rfl

theorem leavePending_gens (e : EntryId) (s : State) (n : PortId) :
    (leavePending e s).gen n = { s.gen n with pendings := strikePending e (s.gen n).pendings } := by
  obtain ⟨-, -, hvisit⟩ := forEach_gen
    (fun n => mapGen n fun g => { g with pendings := dropEmpty (g.pendings.map (PendingTrigger.strike e)) })
    (fun _ _ => True) (fun _ => trivial) (fun _ _ _ _ _ => trivial) (fun _ _ => trivial)
    (fun n m s hm => mapGen_gen_ne n _ s m hm) allPorts (List.nodup_finRange 8) s
  obtain ⟨t, -, hgen, hend⟩ := hvisit n (List.mem_finRange n)
  rw [leavePending, hend, mapGen_gen_self, hgen, strikePending_eq]

theorem leavePending_entries (e : EntryId) (s : State) : (leavePending e s).entries = s.entries :=
  (leavePending_moves (F := { gens := true }) rfl e s).entries rfl

theorem leavePending_store (e : EntryId) (s : State) : (leavePending e s).store = s.store :=
  (leavePending_moves (F := { gens := true }) rfl e s).store rfl

theorem leavePending_replay (e : EntryId) (s : State) : (leavePending e s).replay = s.replay :=
  (leavePending_moves (F := { gens := true }) rfl e s).replay rfl

/-! ## The end of a stream (R46, R47) -/

theorem dropForwards_entry (rs : List RecordId) (s : State) (e : EntryId) :
    (forEach rs dropForward s).entry e = s.entry e := by
  induction rs generalizing s with
  | nil => rfl
  | cons r rs ih =>
    have hstep : (dropForward r s).entry e = s.entry e := by rw [dropForward, Core.reexamine_entry, mapRecord_entry]
    exact (ih (dropForward r s)).trans hstep

theorem dropForwards_members (rs : List RecordId) (s : State) {r : RecordId} (h : r ∈ rs) :
    ((forEach rs dropForward s).record r).forward = false := by
  induction rs generalizing s with
  | nil => exact absurd h List.not_mem_nil
  | cons q rs ih =>
    rcases List.mem_cons.1 h with rfl | hr
    · exact (Lowers.forEach rs dropForward (dropForward r s) Lowers.dropForward).forward r (dropForward_self r s)
    · exact ih (dropForward q s) hr

theorem emptyForward_entry (e : EntryId) (s : State) :
    (emptyForward e s).entry e = { s.entry e with forwardQueue := beingSent (s.entry e) } := by
  rw [emptyForward, dropForwards_entry, mapEntry_entry_self]

theorem emptyForward_lowers (e : EntryId) (s : State) : Lowers s (emptyForward e s) := by
  have hentry : Lowers s (mapEntry e (fun x => { x with forwardQueue := beingSent x }) s) := Lowers.same rfl
  exact hentry.trans (Lowers.forEach _ _ _ Lowers.dropForward)

theorem beingSent_eq (x : Entry) : beingSent x = if x.cursor = none then [] else x.forwardQueue.take 1 := by
  unfold beingSent
  cases x.cursor <;> rfl

theorem notBegun_eq (x : Entry) : notBegun x = x.forwardQueue.drop (if x.cursor = none then 0 else 1) := by
  unfold notBegun
  cases x.cursor <;> rfl

/-- The store after the old stream has ended, before the pending lists and the replay requests follow. -/
def endedStore (e : EntryId) (s : State) : State := emptyForward e (leaveRingAll e (s.entry e).ring s)

theorem endedStore_entry (e : EntryId) (s : State) :
    (endedStore e s).entry e = { s.entry e with ring := [], forwardQueue := beingSent (s.entry e) } := by
  rw [endedStore, emptyForward_entry, leaveRingAll_whole]
  rfl

/-- What follows the store leaves the entries and the records. -/
theorem markGone_leavePending (e : EntryId) (u : State) :
    (markGone e (leavePending e u)).entries = u.entries ∧ (markGone e (leavePending e u)).store = u.store :=
  ⟨leavePending_entries e u, leavePending_store e u⟩

theorem endStream_eq (e : EntryId) (s : State) : endStream e s
    = markGone e (leavePending e (mapEntry e (fun x => { x with expected := none }) (endedStore e s))) := rfl

theorem endStream_entry (e : EntryId) (s : State) :
    (endStream e s).entry e
      = { s.entry e with ring := [], forwardQueue := beingSent (s.entry e), expected := none } := by
  rw [endStream_eq, State.entry, (markGone_leavePending e _).1, ← State.entry, mapEntry_entry_self, endedStore_entry]

theorem endStream_record (e : EntryId) (s : State) (r : RecordId) :
    (endStream e s).record r = (endedStore e s).record r := by
  rw [endStream_eq, State.record, (markGone_leavePending e _).2]
  rfl

theorem endedStore_moves (e : EntryId) (s : State) : Moves Touch.storeOnly s (endedStore e s) :=
  (leaveRingAll_moves Touch.storeOnly_hasStore e _ s).trans (emptyForward_moves Touch.storeOnly_hasStore e _)

theorem endStream_gen (e : EntryId) (s : State) (n : PortId) :
    (endStream e s).gen n = { s.gen n with pendings := strikePending e (s.gen n).pendings } := by
  have hgens : (endedStore e s).gens = s.gens := (endedStore_moves e s).gens rfl
  have hgen : (mapEntry e (fun x => { x with expected := none }) (endedStore e s)).gen n = s.gen n := by
    rw [mapEntry_gen, State.gen, hgens]
    rfl
  rw [endStream_eq, markGone, mapReplay_gen, leavePending_gens, hgen]

theorem endStream_replay (e : EntryId) (s : State) : (endStream e s).replay = { s.replay with
    queue := s.replay.queue.map fun q => if q.entry = e then { q with gone := true } else q } := by
  have hreplay : (endedStore e s).replay = s.replay := (endedStore_moves e s).replay rfl
  rw [endStream_eq, markGone, mapReplay_replay, leavePending_replay, mapEntry_replay, hreplay]

/-- The end of a stream (R46, R47, R127, R145). -/
theorem endStream_ended (e : EntryId) (s : State) : s.streamEnded (endStream e s) e := by
  have hentry := endStream_entry e s
  have hcursor : (leaveRingAll e (s.entry e).ring s).entry e = { s.entry e with ring := [] } := leaveRingAll_whole e s
  refine ⟨by rw [hentry], fun r hr => ?members, ?queue, fun r hr => ?dropped, by rw [hentry], by rw [hentry],
    endStream_gen e s, endStream_replay e s, by rw [hentry]⟩
  case members =>
    obtain ⟨hring, hheld⟩ := leaveRingAll_members e (s.entry e).ring s hr
    have hlower := emptyForward_lowers e (leaveRingAll e (s.entry e).ring s)
    rw [endStream_record]
    exact ⟨hlower.ring r hring, hlower.held r hheld⟩
  case queue => rw [hentry]; exact beingSent_eq _
  case dropped =>
    rw [endStream_record, endedStore, emptyForward]
    refine dropForwards_members _ _ ?_
    rw [notBegun_eq, hcursor]
    exact hr

/-! ## Depth enforcement of one entry -/

/-- Of the entry, enforcement changes the ring and the counter of evictions (R80). -/
theorem enforceDepth_entry (e : EntryId) (s : State) : ∃ ring, ring.Sublist (s.entry e).ring
    ∧ (enforceDepth e s).entry e = { s.entry e with
        ring := ring
        counters := { (s.entry e).counters with
          evictedDepth := bump^[(s.entry e).ring.length - ring.length] (s.entry e).counters.evictedDepth } } := by
  refine evictions_induction (e := e) (P := fun s t => ∃ ring, ring.Sublist (s.entry e).ring
    ∧ t.entry e = { s.entry e with
        ring := ring
        counters := { (s.entry e).counters with
          evictedDepth := bump^[(s.entry e).ring.length - ring.length] (s.entry e).counters.evictedDepth } })
    (fun s => ⟨(s.entry e).ring, List.Sublist.refl _, by rw [Nat.sub_self]; rfl⟩) (fun s t r _ hr _ ih => ?_) _ s
  obtain ⟨ring, hsub, heq⟩ := ih
  rw [evict_entry] at hsub heq
  have hlen : ring.length ≤ (s.entry e).ring.length - 1 := List.length_erase_of_mem hr ▸ hsub.length_le
  have hpos : 0 < (s.entry e).ring.length := List.length_pos_of_mem hr
  have hcount : (s.entry e).ring.length - ring.length = (s.entry e).ring.length - 1 - ring.length + 1 := by omega
  refine ⟨ring, hsub.trans List.erase_sublist, heq.trans ?_⟩
  simp only [List.length_erase_of_mem hr, hcount, Function.iterate_succ_apply]

/-! ## Activation (R45 to R50) -/

theorem identityDiffers_iff (a b : Image) :
    identityDiffers a b = true ↔ b.valid ≠ a.valid ∨ b.port ≠ a.port ∨ b.channel ≠ a.channel := by
  rw [ne_comm (a := b.valid), ne_comm (a := b.port), ne_comm (a := b.channel)]
  simp only [identityDiffers, Bool.or_eq_true, bne_iff_ne, or_assoc]

theorem policyDiffers_iff (a b : Image) : policyDiffers a b = true
    ↔ b.retention ≠ a.retention ∨ b.ringDepth ≠ a.ringDepth ∨ b.priority ≠ a.priority := by
  rw [ne_comm (a := b.retention), ne_comm (a := b.ringDepth), ne_comm (a := b.priority)]
  simp only [policyDiffers, Bool.or_eq_true, bne_iff_ne, or_assoc]

theorem installImage_entry (e : EntryId) (i : Image) (s : State) :
    (installImage e i s).entry e = { s.entry e with current := i, staged := none } := mapEntry_entry_self e _ s

/-- The store after an activation that keeps the stream. -/
def activatedStore (e : EntryId) (i : Image) (s : State) : State :=
  if policyDiffers (s.entry e).current i then enforceDepth e (installImage e i s) else installImage e i s

theorem activate_identity {e : EntryId} {i : Image} {s : State} (h : identityDiffers (s.entry e).current i = true) :
    activate e i s = endStream e (installImage e i s) := if_pos h

theorem activate_uncorrelated {e : EntryId} {i : Image} {s : State}
    (h : identityDiffers (s.entry e).current i = false) (hc : (s.entry e).current.correlated = true)
    (hn : i.correlated = false) : activate e i s = leavePending e (activatedStore e i s) := by
  simp only [activate, applyDifferences, h, hc, hn, Bool.false_eq_true, if_false, Bool.not_false, Bool.and_self, if_true]
  rfl

theorem activate_correlated {e : EntryId} {i : Image} {s : State}
    (h : identityDiffers (s.entry e).current i = false)
    (hc : (s.entry e).current.correlated = false ∨ i.correlated = true) :
    activate e i s = activatedStore e i s := by
  have hand : ((s.entry e).current.correlated && !i.correlated) = false := by
    rcases hc with hc | hc <;> rw [hc]
    · rfl
    · exact Bool.and_false _
  simp only [activate, applyDifferences, h, hand, Bool.false_eq_true, if_false]
  rfl

/-- An activation that keeps the stream: what it leaves beside the generators. -/
theorem activate_kept {e : EntryId} {i : Image} {s : State} (h : identityDiffers (s.entry e).current i = false) :
    (activate e i s).entries = (activatedStore e i s).entries ∧ (activate e i s).store = (activatedStore e i s).store
      ∧ (activate e i s).replay = (activatedStore e i s).replay := by
  by_cases hc : (s.entry e).current.correlated = true ∧ i.correlated = false
  case pos =>
    rw [activate_uncorrelated h hc.1 hc.2]
    exact ⟨leavePending_entries e _, leavePending_store e _, leavePending_replay e _⟩
  case neg =>
    have hor : (s.entry e).current.correlated = false ∨ i.correlated = true := by
      cases ho : (s.entry e).current.correlated
      case false => exact .inl rfl
      case true =>
        cases hn : i.correlated
        case false => exact absurd ⟨ho, hn⟩ hc
        case true => exact .inr rfl
    rw [activate_correlated h hor]
    exact ⟨rfl, rfl, rfl⟩

/-- Enforcement at the activation: nothing where the policy is the same. -/
theorem activatedStore_entry (e : EntryId) (i : Image) (s : State) : ∃ ring, ring.Sublist (s.entry e).ring
    ∧ (activatedStore e i s).entry e = { s.entry e with
        current := i
        staged := none
        ring := ring
        counters := { (s.entry e).counters with
          evictedDepth := bump^[(s.entry e).ring.length - ring.length] (s.entry e).counters.evictedDepth } } := by
  unfold activatedStore
  split
  · obtain ⟨ring, hsub, heq⟩ := enforceDepth_entry e (installImage e i s)
    rw [installImage_entry] at hsub heq
    exact ⟨ring, hsub, heq⟩
  · exact ⟨(s.entry e).ring, List.Sublist.refl _, by rw [installImage_entry, Nat.sub_self]; rfl⟩

theorem activatedStore_still {e : EntryId} {i : Image} {s : State} (h : policyDiffers (s.entry e).current i = false) :
    activatedStore e i s = installImage e i s := if_neg (by rw [h]; decide)

theorem activatedStore_enforced {e : EntryId} {i : Image} {s : State} (h : policyDiffers (s.entry e).current i = true) :
    ringEnforced e i.ringDepth (activatedStore e i s) := by
  have henforced := enforceDepth_enforced e (installImage e i s)
  rw [installImage_entry] at henforced
  rw [activatedStore, if_pos h]
  exact henforced

/-- What every activation makes of the entry's images and its assembly. -/
theorem activate_images (e : EntryId) (i : Image) (s : State) : ((activate e i s).entry e).current = i
    ∧ ((activate e i s).entry e).staged = none ∧ ((activate e i s).entry e).assembly = (s.entry e).assembly := by
  by_cases h : identityDiffers (s.entry e).current i = true
  case pos =>
    rw [activate_identity h, endStream_entry, installImage_entry]
    exact ⟨rfl, rfl, rfl⟩
  case neg =>
    obtain ⟨hentries, -, -⟩ := activate_kept (Bool.not_eq_true _ ▸ h)
    obtain ⟨ring, -, heq⟩ := activatedStore_entry e i s
    rw [State.entry, hentries, ← State.entry, heq]
    exact ⟨rfl, rfl, rfl⟩

/-- The parts of the state that an activation may change. -/
def Touch.table : Touch :=
  { gens := true, entries := true, store := true, replay := true, notices := true, images := true, rebinds := true }

theorem activate_table (e : EntryId) (i : Image) (s : State) : Moves Touch.table s (activate e i s) :=
  activate_moves ⟨⟨⟨rfl, rfl, rfl⟩, rfl⟩, rfl⟩ e i s (.inl rfl) (.inl rfl)

/-- An activation that changes the identity ends the old stream. -/
theorem activate_ends {e : EntryId} {i : Image} {s : State} (h : identityDiffers (s.entry e).current i = true) :
    s.streamEnded (activate e i s) e := by
  have hended := endStream_ended e (installImage e i s)
  rw [← activate_identity h, State.streamEnded, installImage_entry] at hended
  exact hended

theorem activatedStore_moves (e : EntryId) (i : Image) (s : State) :
    (activatedStore e i s).gens = s.gens ∧ (activatedStore e i s).replay = s.replay := by
  unfold activatedStore
  split
  · have hmoves := enforceDepth_moves Touch.storeOnly_hasStore e (installImage e i s)
    exact ⟨hmoves.gens rfl, hmoves.replay rfl⟩
  · exact ⟨rfl, rfl⟩

/-! ## WRITE_ENTRY -/

theorem opWriteEntry_outOfRange {a : Byte} {b : ImageBlock} (h : 32 ≤ a.toNat ∨ imageOf b = none) (s : State) :
    opWriteEntry a b s = refuse .badArgument s := by
  unfold opWriteEntry
  rcases h with h | h
  · rw [indexBelow_none 32 a h]
  · rw [h]
    cases indexBelow 32 a <;> rfl

theorem opWriteEntry_image {e : EntryId} {b : ImageBlock} {i : Image} (h : imageOf b = some i) (s : State) :
    opWriteEntry (byteOf e.val) b s = if !combinationAllowed i then refuse .badArgument s
      else if conflicts s e i then refuse .conflict s else disposeImage e i s := by
  simp only [opWriteEntry, indexBelow_byteOf 32 e (by decide), h]

theorem combinationAllowed_iff (i : Image) :
    combinationAllowed i = true ↔ ¬ (i.forward = .withhold ∧ (i.retention = .off ∨ i.retention = .oneShot)) := by
  simp only [combinationAllowed, Bool.not_eq_true', ← Bool.not_eq_true, Bool.and_eq_true, Bool.or_eq_true, beq_iff_eq]

theorem disposeImage_idle {e : EntryId} {i : Image} {s : State} (h : (s.entry e).assembly = .idle) :
    disposeImage e i s = accept [byteOf e.val, 0] (activate e i s) := by
  simp only [disposeImage, h]

theorem disposeImage_open {e : EntryId} {i : Image} {s : State} (h : (s.entry e).assembly ≠ .idle) :
    disposeImage e i s = accept [byteOf e.val, 1] (s.setEntry e { s.entry e with staged := some i }) := by
  unfold disposeImage
  split
  · next hi => exact absurd hi h
  · rfl
  · rfl

/-- The conflict check (R42). -/
theorem conflicts_iff (s : State) (e : EntryId) (i : Image) : conflicts s e i = true
    ↔ i.valid = true ∧ ∃ f, f ≠ e ∧ ∃ j, (j = (s.entry f).current ∨ (s.entry f).staged = some j) ∧ j.valid = true
        ∧ ((i.port = j.port ∧ i.channel = j.channel) ∨ i.tag = j.tag) := by
  have hcollides (j : Image) : collides i j = true
      ↔ (i.port = j.port ∧ i.channel = j.channel) ∨ i.tag = j.tag := by
    simp only [collides, Bool.or_eq_true, Bool.and_eq_true, beq_iff_eq]
  have hvalid (x : Entry) (j : Image) : j ∈ validImages x
      ↔ (j = x.current ∨ x.staged = some j) ∧ j.valid = true := by
    simp only [validImages, List.mem_filter, List.mem_cons, Option.mem_toList]
  simp only [conflicts, Bool.and_eq_true, List.any_eq_true, allEntries, List.mem_finRange, true_and, bne_iff_ne,
    hvalid, hcollides, and_assoc]

/-- The effects of an accepted image at an IDLE entry, as the statement lists them. -/
theorem activate_effects (e : EntryId) (i : Image) (s : State) :
    let old := (s.entry e).current
    let t := activate e i s
    let identity := i.valid ≠ old.valid ∨ i.port ≠ old.port ∨ i.channel ≠ old.channel
    let policy := i.retention ≠ old.retention ∨ i.ringDepth ≠ old.ringDepth ∨ i.priority ≠ old.priority
    (identity → s.streamEnded t e)
      ∧ (¬ identity → (t.entry e).expected = (s.entry e).expected
        ∧ (t.entry e).forwardQueue = (s.entry e).forwardQueue ∧ (t.entry e).cursor = (s.entry e).cursor
        ∧ t.replay = s.replay
        ∧ (old.correlated = true → i.correlated = false →
            ∀ n, t.gen n = { s.gen n with pendings := strikePending e (s.gen n).pendings })
        ∧ (old.correlated = false ∨ i.correlated = true → t.gens = s.gens)
        ∧ (policy → ringEnforced e i.ringDepth t ∧ (t.entry e).ring.Sublist (s.entry e).ring
            ∧ (t.entry e).counters = { (s.entry e).counters with evictedDepth :=
                bump^[(s.entry e).ring.length - (t.entry e).ring.length] (s.entry e).counters.evictedDepth })
        ∧ (¬ policy → t.entry e = { s.entry e with current := i, staged := none } ∧ t.store = s.store)) := by
  intro old t identity policy
  have hidentity : identityDiffers old i = true ↔ identity := identityDiffers_iff old i
  have hpolicy : policyDiffers old i = true ↔ policy := policyDiffers_iff old i
  refine ⟨fun h => activate_ends (hidentity.2 h), fun h => ?_⟩
  have hsame : identityDiffers old i = false := Bool.eq_false_iff.2 (mt hidentity.1 h)
  obtain ⟨hentries, hstore, hreplay⟩ := activate_kept hsame
  obtain ⟨hgens, hreplay'⟩ := activatedStore_moves e i s
  have hentry : t.entry e = (activatedStore e i s).entry e := by
    rw [State.entry, hentries]
    rfl
  obtain ⟨ring, hsub, heq⟩ := activatedStore_entry e i s
  have hall := hentry.trans heq
  refine ⟨by rw [hall], by rw [hall], by rw [hall], hreplay.trans hreplay', fun hc hn n => ?_, fun hc => ?_,
    fun hp => ⟨?_, by rw [hall]; exact hsub, by rw [hall]⟩, fun hp => ?_⟩
  · have hgen : (activatedStore e i s).gen n = s.gen n := by rw [State.gen, hgens]; rfl
    rw [show t = leavePending e (activatedStore e i s) from activate_uncorrelated hsame hc hn, leavePending_gens, hgen]
  · rw [show t = activatedStore e i s from activate_correlated hsame hc]
    exact hgens
  · have henforced := activatedStore_enforced (hpolicy.2 hp)
    rw [ringEnforced, ← hentry] at henforced
    have hrecord : ∀ r, t.record r = (activatedStore e i s).record r := record_of_store hstore
    simpa only [ringEnforced, hrecord] using henforced
  · have hstill := activatedStore_still (e := e) (i := i) (s := s) (Bool.eq_false_iff.2 (mt hpolicy.1 hp))
    rw [hentry, hstore, hstill]
    exact ⟨installImage_entry e i s, rfl⟩

/-- Settles O26: the checks in their order, the staged image, and the activation. -/
theorem writeEntryChecksThenInstalls : Obligations.WriteEntryChecksThenInstalls := by
  refine ⟨fun tag b s h => ⟨fun a ha => ?range, fun e i hi => ⟨fun hc => ?combination, fun hc =>
    ⟨fun hx => ?conflict, fun hx ha => ?staged, fun hx ha => ?activated⟩⟩⟩, conflicts_iff⟩
  case range => exact exec_read tag (.writeEntry a b) .badArgument [] h (opWriteEntry_outOfRange ha _)
  case combination =>
    have hnot : combinationAllowed i = false := Bool.eq_false_iff.2 fun hall => (combinationAllowed_iff i).1 hall hc
    have hop := opWriteEntry_image (e := e) hi (setReserved true s)
    rw [hnot, Bool.not_false, if_pos rfl] at hop
    exact exec_read tag (.writeEntry (byteOf e.val) b) .badArgument [] h hop
  all_goals
    have hop := opWriteEntry_image (e := e) hi (setReserved true s)
    have hconflicts : conflicts (setReserved true s) e i = conflicts s e i := rfl
    rw [(combinationAllowed_iff i).2 hc, Bool.not_true, if_neg Bool.false_ne_true, hconflicts, hx] at hop
  case conflict => exact exec_read tag (.writeEntry (byteOf e.val) b) .conflict [] h (hop.trans (if_pos rfl))
  case staged =>
    rw [if_neg Bool.false_ne_true, disposeImage_open (s := setReserved true s) ha] at hop
    exact exec_write' tag (.writeEntry (byteOf e.val) b) .ok _ h hop rfl
  case activated =>
    rw [if_neg Bool.false_ne_true, disposeImage_idle (s := setReserved true s) ha] at hop
    have heffects := activate_effects e i (setReserved true s)
    have hmoves := activate_table e i (setReserved true s)
    have hstreams := activate_streams e i (setReserved true s)
    have hquiet := activate_quiet e i (setReserved true s)
    obtain ⟨hcurrent, hstaged, hassembly⟩ := activate_images e i (setReserved true s)
    generalize activate e i (setReserved true s) = t at hop heffects hmoves hstreams hquiet hcurrent hstaged hassembly
    refine ⟨_, exec_change tag (.writeEntry (byteOf e.val) b) .ok _ h hop
      ((congrArg Agent.state (hmoves.agent rfl)).trans h.2.1), hcurrent, hstaged, hassembly.trans ha, hstreams.outside, ?_,
      hmoves.ports rfl, hmoves.uplink rfl, hmoves.flash rfl, hquiet.notices, hstreams.mem, ?_⟩
    · exact placeReply_lastReply ..
    · exact heffects

end Sys2Proof.Machine
end

section
/-!
BODY at an open frame (O17): what becomes of its payload (R66), and what the record and the entry count (R65).
-/

namespace Sys2Proof.Machine

open Sys2Proof

/-! ## The payload of a BODY (R66) -/

/-- From `s` to `t` a payload of record `r` is disposed of: nothing but the record, the free page list, the bytes of the
store and the notices changes. -/
structure PayloadStep (r : RecordId) (s t : State) : Prop where
  record : ∀ y, y ≠ r → t.record y = s.record y
  bodies : (t.record r).bodies = (s.record r).bodies
  entries : t.entries = s.entries
  ports : t.ports = s.ports
  gens : t.gens = s.gens
  uplink : t.uplink = s.uplink
  agent : t.agent = s.agent
  replay : t.replay = s.replay
  time : t.partTime = s.partTime

section payload

variable {e : EntryId} {r : RecordId} {payload : List Byte} {s : State}

theorem appendPayload_truncated (h : (s.record r).damage.truncated = true) : appendPayload e r payload s = s := if_pos h

theorem appendPayload_fits (h : (s.record r).damage.truncated = false)
    (hfit : (s.record r).bytes + payload.length ≤ (s.record r).pages.length * 4096) :
    appendPayload e r payload s = writePayload r (s.record r).pages payload s := by
  have hfits : payloadFits (s.record r) payload = true := decide_eq_true hfit
  simp only [appendPayload, h, hfits, Bool.false_eq_true, if_false, if_true]

/-- What a payload that does not fit waits for. -/
theorem appendPayload_full (h : (s.record r).damage.truncated = false)
    (hfit : (s.record r).pages.length * 4096 < (s.record r).bytes + payload.length) :
    ((s.entry e).current.maxPages ≤ (s.record r).pages.length → appendPayload e r payload s = markTruncated r s)
      ∧ ((s.record r).pages.length < (s.entry e).current.maxPages →
        (∀ t p, requestPage s = (t, some p) →
          appendPayload e r payload s = writePayload r ((t.record r).pages ++ [p]) payload t)
        ∧ ∀ t, requestPage s = (t, none) → appendPayload e r payload s
          = offerNotice (.storeExhausted true e (t.record r).frame) (markTruncated r t)) := by
  have hfits : payloadFits (s.record r) payload = false := decide_eq_false (Nat.not_le_of_lt hfit)
  refine ⟨fun hlimit => ?_, fun hlimit => ⟨fun t p hp => ?_, fun t hp => ?_⟩⟩
  · simp only [appendPayload, h, hfits, Bool.false_eq_true, if_false, if_pos hlimit]
  · simp only [appendPayload, h, hfits, Bool.false_eq_true, if_false, if_neg (Nat.not_le_of_lt hlimit), hp]
  · simp only [appendPayload, h, hfits, Bool.false_eq_true, if_false, if_neg (Nat.not_le_of_lt hlimit), hp]

theorem writePayload_step (pages : List PageId) : PayloadStep r s (writePayload r pages payload s) where
  record y hy := by rw [writePayload, mapStore_record _ _ rfl, mapRecord_record_ne r _ s y hy]
  bodies := by rw [writePayload, mapStore_record _ _ rfl, mapRecord_record_self]
  entries := rfl
  ports := rfl
  gens := rfl
  uplink := rfl
  agent := rfl
  replay := rfl
  time := rfl

theorem markTruncated_step : PayloadStep r s (markTruncated r s) where
  record y hy := mapRecord_record_ne r _ s y hy
  bodies := by rw [markTruncated, mapRecord_record_self]
  entries := rfl
  ports := rfl
  gens := rfl
  uplink := rfl
  agent := rfl
  replay := rfl
  time := rfl

theorem PayloadStep.refl (r : RecordId) (s : State) : PayloadStep r s s :=
  ⟨fun _ _ => rfl, rfl, rfl, rfl, rfl, rfl, rfl, rfl, rfl⟩

/-- A change of the store's pools and counters before. -/
theorem PayloadStep.behindStore {f : Store → Store} {t : State} (h : PayloadStep r (mapStore f s) t)
    (hf : (f s.store).records = s.store.records) : PayloadStep r s t := by
  have hrecord := mapStore_record f s hf
  exact ⟨fun y hy => (h.record y hy).trans (hrecord y), h.bodies.trans (congrArg Record.bodies (hrecord r)), h.entries,
    h.ports, h.gens, h.uplink, h.agent, h.replay, h.time⟩

theorem PayloadStep.offer {t : State} (h : PayloadStep r s t) (b : NoticeBody) : PayloadStep r s (offerNotice b t) where
  record y hy := (offerNotice_record b t y).trans (h.record y hy)
  bodies := (congrArg Record.bodies (offerNotice_record b t r)).trans h.bodies
  entries := (offerNotice_entries b t).trans h.entries
  ports := (offerNotice_ports b t).trans h.ports
  gens := (offerNotice_gens b t).trans h.gens
  uplink := (offerNotice_uplink b t).trans h.uplink
  agent := (offerNotice_agent b t).trans h.agent
  replay := (offerNotice_replay b t).trans h.replay
  time := (offerNotice_partTime b t).trans h.time

/-- A payload that is stored behind the bytes of the frame is read back there, and the rest of the store reads as before. -/
theorem writePayload_stored {pages : List PageId} (hw : s.memoryLaw) (hp : pages.Nodup)
    (hfit : (s.record r).bytes + payload.length ≤ pages.length * 4096) :
    let t := writePayload r pages payload s
    (t.record r).bytes = (s.record r).bytes + payload.length ∧ (t.record r).damage = (s.record r).damage
      ∧ (t.record r).pages = pages ∧ loadBytes t.store.mem pages (s.record r).bytes payload.length = payload
      ∧ (∀ y, (∀ j < payload.length, y ≠ frameAddress pages ((s.record r).bytes + j)) →
          Memory.read t.store.mem y = Memory.read s.store.mem y) := by
  intro t
  have hrecord : t.record r = { s.record r with pages := pages, bytes := (s.record r).bytes + payload.length } := by
    rw [show t = writePayload r pages payload s from rfl, writePayload, mapStore_record _ _ rfl, mapRecord_record_self]
  rw [hrecord]
  exact ⟨rfl, rfl, rfl, loadBytes_storeBytes pages hp _ payload _ hw hfit,
    fun y hy => read_storeBytes_of_outside pages _ payload _ hw y hy⟩

end payload

/-! ## An accepted BODY (R65) -/

/-- The record after it has counted a BODY of index `i` where `next` was awaited. -/
def Record.counted (next i : Nat) (x : Record) : Record :=
  { x with
    bodies := x.bodies + 1
    damage := { x.damage with segmentLost := x.damage.segmentLost || decide (next < i) } }

/-- The state in which the payload of a BODY is disposed of. -/
def bodyCounted (r : RecordId) (next i : Nat) (s : State) : State := mapRecord r (Record.counted next i) s

/-- The entry after the payload: the next index, and the stall timer anew. -/
def bodyTaken (e : EntryId) (i : Nat) (s : State) : State :=
  startStall e (mapEntry e (fun x => { x with nextIndex := i + 1 }) s)

theorem acceptBody_eq (e : EntryId) (r : RecordId) (i : Nat) (payload : List Byte) (s : State) :
    acceptBody e r i payload s
      = bodyTaken e i (appendPayload e r payload (bodyCounted r (s.entry e).nextIndex i s)) := rfl

theorem bodyTaken_entry (e : EntryId) (i : Nat) (s : State) : (bodyTaken e i s).entry e = { s.entry e with
    nextIndex := i + 1, stall := some (s.after ((s.entry e).current.stallTimeout * 100)) } := by
  rw [bodyTaken, startStall, mapEntry_entry_self, mapEntry_entry_self]
  rfl

theorem exec_body {n : PortId} {unit : List Byte} {c : Channel} {k i : Half} {payload : List Byte} {e : EntryId}
    {r : RecordId} {s : State} (h : (s.port n).state = .active) (hc : classifyDown unit = .wellFormed (.body c k i payload))
    (hl : lookup s n c = some e) (ha : (s.entry e).assembly = .filling r) (hi : (s.entry e).nextIndex ≤ i.toNat) :
    exec (.downstreamUnitReceived n unit) s = .next (bodyTaken e i.toNat (appendPayload e r payload
      (bodyCounted r (s.entry e).nextIndex i.toNat (s.setPort n ((s.port n).arrived s))))) := by
  have hbody : disposeDown n (.body c k i payload) (s.setPort n ((s.port n).arrived s))
      = bodyAt e n i payload (s.setPort n ((s.port n).arrived s)) :=
    toEntry_some (s := s.setPort n ((s.port n).arrived s)) hl _ _
  refine congrArg Host.Outcome.next ?_
  rw [downUnit_active n unit _ s h hc, hbody, bodyAt, setPort_entry, ha]
  exact if_neg (Nat.not_lt_of_le hi)

/-- What a BODY does to the rest, whatever becomes of its payload. -/
theorem bodyTaken_frame {n : PortId} {e : EntryId} {r : RecordId} {i next : Nat} {p : Port} {s t : State}
    (ha : (s.entry e).assembly = .filling r) (h : PayloadStep r (bodyCounted r next i (s.setPort n p)) t) :
    let u := bodyTaken e i t
    (u.record r).bodies = (s.record r).bodies + 1 ∧ (u.entry e).nextIndex = i + 1
      ∧ (u.entry e).assembly = .filling r
      ∧ (u.entry e).stall = some (s.after ((s.entry e).current.stallTimeout * 100))
      ∧ (∀ y, y ≠ r → u.record y = s.record y) ∧ (∀ f, f ≠ e → u.entry f = s.entry f)
      ∧ (∀ m, m ≠ n → u.port m = s.port m) ∧ u.gens = s.gens ∧ u.uplink = s.uplink ∧ u.agent = s.agent
      ∧ u.replay = s.replay := by
  intro u
  have hentry : ∀ f, t.entry f = s.entry f := fun f => by
    rw [State.entry, h.entries]
    rfl
  have hu : u.entry e = _ := bodyTaken_entry e i t
  have hafter : ∀ d, t.after d = s.after d := fun d => by
    rw [State.after, h.time]
    rfl
  have hbodies : (t.record r).bodies = (s.record r).bodies + 1 := by
    rw [h.bodies, bodyCounted, mapRecord_record_self]
    rfl
  rw [hu, hentry, hafter]
  refine ⟨hbodies, rfl, ha, rfl, fun y hy => ?_, fun f hf => ?_, fun m hm => ?_, h.gens, h.uplink, h.agent, h.replay⟩
  · exact (h.record y hy).trans (mapRecord_record_ne r _ _ y hy)
  · exact ((mapEntry_entry_ne e _ _ f hf).trans (mapEntry_entry_ne e _ t f hf)).trans (hentry f)
  · have hports : u.port m = (s.setPort n p).port m := congrArg (fun ps : Vector Port 8 => ps[m]) h.ports
    exact hports.trans (setPort_port_ne n p s m hm)

/-- The supply of a page where one is free, and where there is none to be had (R86). -/
theorem requestPage_free {s : State} {p : PageId} {ps : List PageId} (h : s.store.freePages = p :: ps) :
    requestPage s = (mapStore (fun st => { st with freePages := ps }) s, some p) := (recordRequestOrder s).2.2.2.1 p ps h

theorem requestPage_none {s : State} (h : s.store.freePages = []) (hr : s.store.reclaim = []) :
    requestPage s = (mapStore (fun st => { st with pageExhausted := bump st.pageExhausted }) s, none) :=
  (recordRequestOrder s).2.2.2.2.1 h hr

/-- Settles O17: the payload by what the frame and the store have room for, each over the same count of the BODY. -/
theorem bodyPayloadIsStored : Obligations.BodyPayloadIsStored := by
  intro n unit c k i payload e r s hst hc hl ha hi hw x lost frame stored dropped
  let p := (s.port n).arrived s
  obtain ⟨v, hv⟩ : ∃ v, bodyCounted r (s.entry e).nextIndex i.toNat (s.setPort n p) = v := ⟨_, rfl⟩
  have hexec := exec_body hst hc hl ha hi
  rw [hv] at hexec
  have hframe (t : State) (h : PayloadStep r v t) := bodyTaken_frame (n := n) (p := p) (s := s) ha (hv ▸ h)
  have hrecord : v.record r = x.counted (s.entry e).nextIndex i.toNat := hv ▸ mapRecord_record_self r _ _
  have hmax : (v.entry e).current.maxPages = (s.entry e).current.maxPages := by rw [← hv]; rfl
  have hstore : v.store.mem = s.store.mem ∧ v.store.freePages = s.store.freePages ∧ v.store.reclaim = s.store.reclaim
      ∧ v.store.pageExhausted = s.store.pageExhausted := by rw [← hv]; exact ⟨rfl, rfl, rfl, rfl⟩
  obtain ⟨hmem, hfreePages, hreclaimList, hexhausted⟩ := hstore
  have hnotices : v.notices = s.notices ∧ v.partTime = s.partTime := by rw [← hv]; exact ⟨rfl, rfl⟩
  have hw' : v.memoryLaw := by rw [State.memoryLaw, hmem]; exact hw
  have hpages : (v.record r).pages = x.pages := by rw [hrecord]; rfl
  have hbytes : (v.record r).bytes = x.bytes := by rw [hrecord]; rfl
  have hname : (v.record r).frame = x.frame := by rw [hrecord]; rfl
  have hdamage : (v.record r).damage = { x.damage with segmentLost := lost } := by rw [hrecord]; rfl
  clear hv hrecord
  have hmarked : ((markTruncated r v).record r).bytes = x.bytes ∧ ((markTruncated r v).record r).pages = x.pages
      ∧ ((markTruncated r v).record r).damage = { x.damage with segmentLost := lost, truncated := true } := by
    rw [markTruncated, mapRecord_record_self, hbytes, hpages, hdamage]
    exact ⟨rfl, rfl, rfl⟩
  refine ⟨fun ht => ?truncated, fun ht hfit hn => ?fits, fun ht hover => ?overflow⟩
  case truncated =>
    rw [appendPayload_truncated (by rw [hdamage]; exact ht)] at hexec
    exact ⟨_, hexec, hframe v (PayloadStep.refl r v), ⟨hbytes, hpages, hdamage.trans (by rw [← ht]), hmem⟩,
      hnotices.1, hfreePages⟩
  case fits =>
    rw [appendPayload_fits (by rw [hdamage]; exact ht) (by rw [hbytes, hpages]; exact hfit), hpages] at hexec
    obtain ⟨h1, h2, h3, h4, h5⟩ := writePayload_stored hw' hn (by rw [hbytes]; exact hfit)
    rw [hbytes] at h1 h4 h5
    rw [hmem] at h5
    exact ⟨_, hexec, hframe _ (writePayload_step x.pages), ⟨h1, h2.trans hdamage, h3, h4, h5, hnotices.1⟩, hfreePages⟩
  case overflow =>
    have hfull := appendPayload_full (e := e) (r := r) (payload := payload) (s := v) (by rw [hdamage]; exact ht)
      (by rw [hbytes, hpages]; exact hover)
    rw [hmax, hpages] at hfull
    obtain ⟨hlimit, hpage⟩ := hfull
    refine ⟨fun hmaxed => ?limit, fun q qs hbelow hfree hfit hn => ?page, fun hbelow hfree hreclaim => ?exhausted⟩
    case limit =>
      rw [hlimit hmaxed] at hexec
      obtain ⟨h1, h2, h3⟩ := hmarked
      exact ⟨_, hexec, hframe _ markTruncated_step, ⟨h1, h2, h3, hmem⟩, hnotices.1, hfreePages⟩
    case page =>
      let w := mapStore (fun st => { st with freePages := qs }) v
      have hreq : requestPage v = (w, some q) := requestPage_free (hfreePages.trans hfree)
      have hwr : w.record r = v.record r := rfl
      rw [(hpage hbelow).1 w q hreq, hwr, hpages] at hexec
      have hlen : (x.pages ++ [q]).length = x.pages.length + 1 := List.length_append
      obtain ⟨h1, h2, h3, h4, h5⟩ := writePayload_stored (s := w) (r := r) (payload := payload) hw' hn
        (by rw [hwr, hbytes, hlen]; exact hfit)
      rw [hwr, hbytes] at h1 h4 h5
      have hwm : w.store.mem = s.store.mem := hmem
      rw [hwm] at h5
      have hstep : PayloadStep r v (writePayload r (x.pages ++ [q]) payload w) :=
        PayloadStep.behindStore (f := fun st => { st with freePages := qs }) (writePayload_step (x.pages ++ [q])) rfl
      have hleft : (writePayload r (x.pages ++ [q]) payload w).store.freePages = qs := rfl
      exact ⟨_, hexec, hframe _ hstep, ⟨h1, h2.trans hdamage, h3, h4, h5, hnotices.1⟩, hleft⟩
    case exhausted =>
      let w := mapStore (fun st => { st with pageExhausted := bump st.pageExhausted }) v
      have hreq : requestPage v = (w, none) := requestPage_none (hfreePages.trans hfree) (hreclaimList.trans hreclaim)
      have hwr : (w.record r).frame = x.frame := hname
      rw [(hpage hbelow).2 w hreq, hwr] at hexec
      obtain ⟨h1, h2, h3⟩ := hmarked
      have hsame : (markTruncated r w).record r = (markTruncated r v).record r := rfl
      have hcount : (markTruncated r w).store.pageExhausted = bump s.store.pageExhausted := congrArg bump hexhausted
      have hoffer := offerNotice_record (.storeExhausted true e x.frame) (markTruncated r w) r
      have hstep : PayloadStep r v (markTruncated r w) :=
        PayloadStep.behindStore (f := fun st => { st with pageExhausted := bump st.pageExhausted }) markTruncated_step rfl
      refine ⟨_, hexec, hframe _ (hstep.offer _), ⟨?_, ?_, ?_, ?_⟩, ?_, ?_⟩
      · exact (congrArg Record.bytes (hoffer.trans hsame)).trans h1
      · exact (congrArg Record.pages (hoffer.trans hsame)).trans h2
      · exact (congrArg Record.damage (hoffer.trans hsame)).trans h3
      · exact (congrArg Store.mem (offerNotice_store _ _)).trans hmem
      · exact (congrArg Store.pageExhausted (offerNotice_store _ _)).trans hcount
      · exact offerNotice_congr (s := s) _ hnotices.1 hnotices.2

end Sys2Proof.Machine
end

section
/-!
The end of a frame (O18): the retention decision by its outcomes (R82, R83), the close of the open record (R71, R72), and the
two events that bring it, a TAIL and the expiry of the stall timer.
-/

namespace Sys2Proof.Machine

open Sys2Proof

/-! ## The retention decision -/

/-- The decision leaves the record out of the ring (R82, R83). -/
def keptOut (i : Image) (x : Record) (ring : List RecordId) : Prop :=
  i.retention = .off ∨ x.notRetainable = true ∨ i.retention = .fill ∧ i.ringDepth ≤ ring.length

/-- The entry's counters after a decision that leaves the record out. -/
def EntryCounters.leftOut (m : Retention) (c : EntryCounters) : EntryCounters :=
  { c with retainSkipped := if m = .off then c.retainSkipped else bump c.retainSkipped }

theorem countRetainSkipped_eq {e : EntryId} {s : State} (h : (s.entry e).current.retention ≠ .off) :
    countRetainSkipped e s
      = mapEntry e (fun x => { x with counters := x.counters.leftOut (s.entry e).current.retention }) s := by
  simp only [EntryCounters.leftOut, if_neg h]
  rfl

theorem decideRetention_keptOut {e : EntryId} {r : RecordId} {s : State}
    (h : keptOut (s.entry e).current (s.record r) (s.entry e).ring) :
    decideRetention e r s
      = mapEntry e (fun x => { x with counters := x.counters.leftOut (s.entry e).current.retention }) s := by
  cases hm : (s.entry e).current.retention
  case off =>
    have hsame : mapEntry e (fun x => { x with counters := x.counters.leftOut .off }) s = s := by
      rw [mapEntry]
      exact congrArg (fun es => { s with entries := es }) (Vector.set_getElem_self _)
    simp only [decideRetention, hm]
    exact hsame.symm
  case rolling =>
    have hx : (s.record r).notRetainable = true := by simpa [keptOut, hm] using h
    simp only [decideRetention, hm, hx, if_true]
    exact (countRetainSkipped_eq (by rw [hm]; decide)).trans (by rw [hm])
  case fill =>
    have hx : (!(s.record r).notRetainable && decide ((s.entry e).ring.length < (s.entry e).current.ringDepth)) = false := by
      have hout : (s.record r).notRetainable = true ∨ (s.entry e).current.ringDepth ≤ (s.entry e).ring.length := by
        simpa [keptOut, hm] using h
      rcases hout with hn | hfull
      · rw [hn]; rfl
      · rw [decide_eq_false (Nat.not_lt_of_le hfull), Bool.and_false]
    simp only [decideRetention, hm, hx, Bool.false_eq_true, if_false]
    exact (countRetainSkipped_eq (by rw [hm]; decide)).trans (by rw [hm])
  case oneShot =>
    have hx : (s.record r).notRetainable = true := by simpa [keptOut, hm] using h
    simp only [decideRetention, hm, hx, if_true]
    exact (countRetainSkipped_eq (by rw [hm]; decide)).trans (by rw [hm])

theorem decideRetention_retains {e : EntryId} {r : RecordId} {s : State}
    (h : ¬ keptOut (s.entry e).current (s.record r) (s.entry e).ring) :
    decideRetention e r s = if (s.entry e).current.retention = .oneShot
      then clearOneShot e r (s.record r).frame (retainRecord e r s) else retainRecord e r s := by
  simp only [keptOut, not_or, not_and, Nat.not_le, Bool.not_eq_true] at h
  obtain ⟨hoff, hx, hfull⟩ := h
  cases hm : (s.entry e).current.retention
  case off => exact absurd hm hoff
  case rolling => simp only [decideRetention, hm, hx, Bool.false_eq_true, if_false, reduceCtorEq]
  case fill =>
    simp only [decideRetention, hm, hx, hfull hm, Bool.not_false, decide_true, Bool.and_self, if_true, reduceCtorEq,
      if_false]
  case oneShot => simp only [decideRetention, hm, hx, Bool.false_eq_true, if_false, if_true]

/-! ## A record that is retained -/

/-- The state in which the depth is enforced: the record at the tail of the ring, RETAINED counted (R82). -/
def joined (e : EntryId) (r : RecordId) (s : State) : State :=
  countEntry e (fun c => { c with retained := bump c.retained })
    (mapRecord r (fun x => { x with ring := true }) (mapEntry e (fun x => { x with ring := x.ring ++ [r] }) s))

theorem retainRecord_eq (e : EntryId) (r : RecordId) (s : State) : retainRecord e r s = enforceDepth e (joined e r s) := rfl

theorem joined_entry (e : EntryId) (r : RecordId) (s : State) : (joined e r s).entry e = { s.entry e with
    ring := (s.entry e).ring ++ [r]
    counters := { (s.entry e).counters with retained := bump (s.entry e).counters.retained } } := by
  rw [joined, countEntry, mapEntry_entry_self, mapRecord_entry, mapEntry_entry_self]

theorem joined_record (e : EntryId) (r : RecordId) (s : State) :
    (joined e r s).record r = { s.record r with ring := true } ∧ ∀ q, q ≠ r → (joined e r s).record q = s.record q :=
  ⟨mapRecord_record_self r (fun x => { x with ring := true })
      (mapEntry e (fun x => { x with ring := x.ring ++ [r] }) s),
    fun q hq => mapRecord_record_ne r (fun x => { x with ring := true })
      (mapEntry e (fun x => { x with ring := x.ring ++ [r] }) s) q hq⟩

/-- Below its depth the ring takes the record and evicts nothing. -/
theorem retainRecord_room {e : EntryId} {r : RecordId} {s : State}
    (h : (s.entry e).ring.length < (s.entry e).current.ringDepth) : retainRecord e r s = joined e r s := by
  refine evictions_within (s := joined e r s) ?_
  rw [joined_entry]
  simp only [List.length_append, List.length_singleton]
  exact h

/-- At its depth the ring evicts its oldest member, when that is neither held nor pinned. -/
theorem retainRecord_evicts {e : EntryId} {r o : RecordId} {rest : List RecordId} {s : State}
    (h : (s.entry e).ring = o :: rest) (hd : (s.entry e).ring.length = (s.entry e).current.ringDepth) (hro : r ≠ o)
    (hh : (s.record o).held = false) (hp : (s.record o).pin = false) :
    retainRecord e r s = evict e o (joined e r s) := by
  have hring : ((joined e r s).entry e).ring = o :: (rest ++ [r]) := by rw [joined_entry, h]; rfl
  have hdepth : ((joined e r s).entry e).current.ringDepth = rest.length + 1 := by
    rw [joined_entry]
    exact hd.symm.trans (congrArg List.length h)
  have hfree : evictable (joined e r s) o = true := by
    simp [evictable, (joined_record e r s).2 o hro.symm, hh, hp]
  have hfind : ((joined e r s).entry e).ring.find? (evictable (joined e r s)) = some o := by
    rw [hring, List.find?_cons_of_pos hfree]
  have hlen : ((joined e r s).entry e).ring.length = (rest.length + 1) + 1 := by
    rw [hring, List.length_cons, List.length_append, List.length_singleton]
  have hstep : enforceDepth e (joined e r s) = evictions (rest.length + 1) e (evict e o (joined e r s)) := by
    rw [enforceDepth, hlen, evictions, hlen, hdepth, if_pos (Nat.lt_succ_self _), hfind]
    rfl
  rw [retainRecord_eq, hstep]
  refine evictions_within ?_
  rw [evict_entry, hring]
  simp only [List.erase_cons_head, hdepth, List.length_append, List.length_singleton]
  exact Nat.le_refl _

/-- The entry after a retention: its images and counters but RETAINED and EVICTED_DEPTH stay. -/
theorem retainRecord_entry (e : EntryId) (r : RecordId) (s : State) : ∃ ring v,
    (retainRecord e r s).entry e = { s.entry e with
      ring := ring
      counters := { (s.entry e).counters with retained := bump (s.entry e).counters.retained, evictedDepth := v } } := by
  obtain ⟨ring, -, heq⟩ := enforceDepth_entry e (joined e r s)
  rw [joined_entry] at heq
  exact ⟨ring, _, heq⟩

/-! ## The close of the open record (R71, R72) -/

/-- The record as it closes, before the decision. -/
def Record.closing (c : CloseReason) (x : Record) : Record :=
  { x with state := .closed, close := some c, receiving := false }

/-- The state after the decision of a close (R82). -/
def decided (e : EntryId) (r : RecordId) (c : CloseReason) (s : State) : State :=
  decideRetention e r (mapRecord r (Record.closing c) s)

/-- The counters of a close (R72). -/
def EntryCounters.closed (damaged : Bool) (c : EntryCounters) : EntryCounters :=
  { c with
    framesIn := bump c.framesIn
    framesDamaged := if damaged then bump c.framesDamaged else c.framesDamaged }

/-- The notice of a damaged close (R72). -/
def closeNotice (e : EntryId) (x : Record) (c : CloseReason) : NoticeBody :=
  .frameDamaged e x.frame x.damage c x.bodies x.bytes

theorem countClose_entry (e : EntryId) (x : Record) (c : CloseReason) (s : State) :
    (countClose e x c s).entry e
      = { s.entry e with counters := (s.entry e).counters.closed (damagedClose x.damage c) } := by
  cases hd : damagedClose x.damage c
  case false =>
    simp only [countClose, hd, Bool.false_eq_true, if_false, countEntry, mapEntry_entry_self]
    rfl
  case true =>
    simp only [countClose, hd, if_true, offerNotice_entry, countEntry, mapEntry_entry_self]
    rfl

theorem countClose_notices (e : EntryId) (x : Record) (c : CloseReason) (s : State) :
    (countClose e x c s).notices
      = if damagedClose x.damage c then (offerNotice (closeNotice e x c) s).notices else s.notices := by
  cases hd : damagedClose x.damage c
  case false => simp only [countClose, hd, Bool.false_eq_true, if_false]; rfl
  case true =>
    simp only [countClose, hd, if_true]
    exact offerNotice_congr _ rfl rfl

theorem closeOpen_entry (e : EntryId) (r : RecordId) (c : CloseReason) (s : State) :
    (closeOpen e r c s).entry e = { (decided e r c s).entry e with
      assembly := .idle, stall := none, nextIndex := 1
      counters := ((decided e r c s).entry e).counters.closed (damagedClose (s.record r).damage c) } := by
  have hclose : (closeRecord e r c s).entry e = (decided e r c s).entry e := Core.reexamine_entry r (decided e r c s) e
  rw [closeOpen, assemblyIdle, mapEntry_entry_self, countClose_entry, hclose]

theorem closeOpen_store (e : EntryId) (r : RecordId) (c : CloseReason) (s : State) :
    (closeOpen e r c s).store = (reexamine r (decided e r c s)).store :=
  (countClose_sheds_record e (s.record r) c (closeRecord e r c s)).1

theorem closeOpen_notices (e : EntryId) (r : RecordId) (c : CloseReason) (s : State) :
    (closeOpen e r c s).notices = if damagedClose (s.record r).damage c
      then (offerNotice (closeNotice e (s.record r) c) (decided e r c s)).notices else (decided e r c s).notices := by
  have hquiet := reexamine_quiet r (decided e r c s)
  have hcount := countClose_notices e (s.record r) c (reexamine r (decided e r c s))
  rw [hquiet.notices, offerNotice_congr _ hquiet.notices hquiet.time] at hcount
  exact hcount

theorem damagedClose_iff (d : Damage) (c : CloseReason) :
    damagedClose d c = true ↔ d ≠ ⟨false, false, false, false⟩ ∨ c ≠ .tail := by
  simp only [damagedClose, Bool.or_eq_true, bne_iff_ne]
  rfl

/-- The record as it closes, at the decision. -/
theorem closing_record (r : RecordId) (c : CloseReason) (s : State) :
    (mapRecord r (Record.closing c) s).record r = (s.record r).closing c := mapRecord_record_self r _ s

/-! ## What a close leaves, by the outcome of the decision -/

section closed

variable {e : EntryId} {r : RecordId} {c : CloseReason} {s : State}

theorem decided_keptOut (h : keptOut (s.entry e).current (s.record r) (s.entry e).ring) :
    decided e r c s = mapEntry e (fun x => { x with counters := x.counters.leftOut (s.entry e).current.retention })
      (mapRecord r (Record.closing c) s) := by
  refine decideRetention_keptOut (s := mapRecord r (Record.closing c) s) ?_
  rw [closing_record]
  exact h

/-- The retention, before a ONE_SHOT becomes OFF. -/
def retained (e : EntryId) (r : RecordId) (c : CloseReason) (s : State) : State :=
  retainRecord e r (mapRecord r (Record.closing c) s)

theorem decided_retains (h : ¬ keptOut (s.entry e).current (s.record r) (s.entry e).ring) :
    decided e r c s = if (s.entry e).current.retention = .oneShot
      then clearOneShot e r (s.record r).frame (retained e r c s) else retained e r c s := by
  have hdecide := decideRetention_retains (e := e) (r := r) (s := mapRecord r (Record.closing c) s)
    (by rw [closing_record]; exact h)
  rw [closing_record] at hdecide
  exact hdecide

/-- A one-shot that ends changes the retention mode and offers its notice. -/
theorem clearOneShot_spec (e : EntryId) (r : RecordId) (k : Half) (s : State) :
    (clearOneShot e r k s).entry e
        = { s.entry e with current := { (s.entry e).current with retention := .off } }
      ∧ (clearOneShot e r k s).store = s.store
      ∧ (clearOneShot e r k s).notices = (offerNotice (.oneShotTaken e k ((s.entry e).ring.contains r)) s).notices
      ∧ (clearOneShot e r k s).partTime = s.partTime := by
  refine ⟨?_, offerNotice_store .., offerNotice_congr _ rfl rfl, offerNotice_partTime ..⟩
  rw [clearOneShot, offerNotice_entry, mapEntry_entry_self]

/-- What a retention makes of the entry, whatever the ring holds. -/
theorem decided_retains_entry (h : ¬ keptOut (s.entry e).current (s.record r) (s.entry e).ring) :
    ∃ v, (decided e r c s).entry e = { s.entry e with
      ring := ((retained e r c s).entry e).ring
      current := { (s.entry e).current with
        retention := if (s.entry e).current.retention = .oneShot then .off else (s.entry e).current.retention }
      counters := { (s.entry e).counters with retained := bump (s.entry e).counters.retained, evictedDepth := v } } := by
  obtain ⟨ring, v, heq⟩ := retainRecord_entry e r (mapRecord r (Record.closing c) s)
  have hretained : (retained e r c s).entry e = _ := heq
  refine ⟨v, ?_⟩
  by_cases hm : (s.entry e).current.retention = .oneShot
  case pos =>
    obtain ⟨hentry, -⟩ := clearOneShot_spec e r (s.record r).frame (retained e r c s)
    rw [decided_retains h, if_pos hm, hentry, hretained, if_pos hm]
    rfl
  case neg =>
    rw [decided_retains h, if_neg hm, hretained, if_neg hm]
    rfl

theorem decided_retains_store (h : ¬ keptOut (s.entry e).current (s.record r) (s.entry e).ring) :
    (decided e r c s).store = (retained e r c s).store := by
  rw [decided_retains h]
  split
  · exact (clearOneShot_spec e r _ _).2.1
  · rfl

/-- A record with a claim stays at the reexamination, one without is freed. -/
theorem reexamine_claimed (h : (s.record r).unclaimed = false) : (reexamine r s).record r = s.record r := by
  rw [reexamine, State.record, placeOnReclaim_records, freeIfUnclaimed_claimed h]
  rfl

theorem reexamine_frees (hs : (s.record r).state ≠ .free) (h : (s.record r).unclaimed = true) :
    (reexamine r s).record r = .blank ∧ (reexamine r s).store.freePages = s.store.freePages ++ (s.record r).pages
      ∧ (reexamine r s).store.freeRecords = s.store.freeRecords ++ [r] := by
  have hblank : (freeRecord r s).record r = .blank := mapRecord_record_self r (fun _ => .blank) _
  have heq : reexamine r s = mapStore (fun st => { st with reclaim := st.reclaim.erase r }) (freeRecord r s) := by
    rw [reexamine, freeIfUnclaimed_frees hs h, placeOnReclaim, hblank]
    rfl
  rw [heq]
  exact ⟨hblank, rfl, rfl⟩

end closed

section frameClosed

variable {e : EntryId} {r : RecordId} {c : CloseReason} {s : State}

/-- The record is freed, or CLOSED for the reason with its damage (R71). -/
theorem closeOpen_record (e : EntryId) (r : RecordId) (c : CloseReason) (s : State) :
    ((closeOpen e r c s).record r).state = .free ∨ ((closeOpen e r c s).record r).state = .closed
      ∧ ((closeOpen e r c s).record r).close = some c ∧ ((closeOpen e r c s).record r).damage = (s.record r).damage
      ∧ ((closeOpen e r c s).record r).receiving = false := by
  have hsheds := (decideRetention_sheds e r (mapRecord r (Record.closing c) s)).trans (reexamine_sheds r _)
  rw [record_of_store (closeOpen_store e r c s) r]
  rcases hsheds.record r with hfree | htold
  · exact .inl hfree.1
  · rw [closing_record] at htold
    exact .inr ⟨congrArg (·.1) htold, congrArg (·.2.1) htold, congrArg (·.2.2.2.2.1) htold, congrArg (·.2.2.1) htold⟩

/-- A record that is left out: the ring and the images stay, and without another claim it is freed (R78, R82). -/
theorem closeOpen_keptOut (h : keptOut (s.entry e).current (s.record r) (s.entry e).ring) :
    let t := closeOpen e r c s
    t.entry e = { s.entry e with
        assembly := .idle, stall := none, nextIndex := 1
        counters := ((s.entry e).counters.leftOut (s.entry e).current.retention).closed
          (damagedClose (s.record r).damage c) }
      ∧ t.notices = (if damagedClose (s.record r).damage c
          then (offerNotice (closeNotice e (s.record r) c) s).notices else s.notices)
      ∧ ((s.record r).forward = true ∨ (s.record r).pin = true ∨ (s.record r).ring = true →
          t.record r = (s.record r).closing c)
      ∧ ((s.record r).forward = false → (s.record r).pin = false → (s.record r).ring = false → t.record r = .blank
          ∧ t.store.freePages = s.store.freePages ++ (s.record r).pages
          ∧ t.store.freeRecords = s.store.freeRecords ++ [r]) := by
  intro t
  have hd := decided_keptOut (c := c) h
  have hentry : (decided e r c s).entry e = { s.entry e with
      counters := (s.entry e).counters.leftOut (s.entry e).current.retention } := by
    rw [hd, mapEntry_entry_self, mapRecord_entry]
  have hrecord : (decided e r c s).record r = (s.record r).closing c := by
    rw [hd, mapEntry_record, closing_record]
  have hstore : t.store = (reexamine r (decided e r c s)).store := closeOpen_store e r c s
  have hnotices : (decided e r c s).notices = s.notices ∧ (decided e r c s).partTime = s.partTime := by
    rw [hd]; exact ⟨rfl, rfl⟩
  refine ⟨?entry, ?notices, fun hclaim => ?claimed, fun hf hp hr => ?freed⟩
  case entry => rw [show t.entry e = _ from closeOpen_entry e r c s, hentry]
  case notices =>
    rw [show t.notices = _ from closeOpen_notices e r c s, offerNotice_congr _ hnotices.1 hnotices.2, hnotices.1]
  case claimed =>
    rw [record_of_store hstore r, reexamine_claimed, hrecord]
    rw [hrecord]
    rcases hclaim with hf | hp | hr
    · simp [Record.unclaimed, Record.closing, hf]
    · simp [Record.unclaimed, Record.closing, hp]
    · simp [Record.unclaimed, Record.closing, hr]
  case freed =>
    have hfrees := reexamine_frees (r := r) (s := decided e r c s) (by rw [hrecord]; simp [Record.closing])
      (by rw [hrecord]; simp [Record.unclaimed, Record.closing, hf, hp, hr])
    rw [hrecord] at hfrees
    rw [record_of_store hstore r, hstore]
    refine ⟨hfrees.1, hfrees.2.1.trans ?_, hfrees.2.2.trans ?_⟩ <;> rw [hd] <;> rfl

/-- A record that is retained: what becomes of the entry but its ring (R82, R83). -/
theorem closeOpen_retains (h : ¬ keptOut (s.entry e).current (s.record r) (s.entry e).ring) :
    ∃ v, (closeOpen e r c s).entry e = { s.entry e with
      ring := ((retained e r c s).entry e).ring
      current := { (s.entry e).current with
        retention := if (s.entry e).current.retention = .oneShot then .off else (s.entry e).current.retention }
      assembly := .idle, stall := none, nextIndex := 1
      counters := EntryCounters.closed (damagedClose (s.record r).damage c) { (s.entry e).counters with
        retained := bump (s.entry e).counters.retained, evictedDepth := v } } := by
  obtain ⟨v, hentry⟩ := decided_retains_entry (c := c) h
  exact ⟨v, by rw [closeOpen_entry, hentry]⟩

/-- Into a ring below its depth the record joins at the tail (R82). -/
theorem retained_room (h : (s.entry e).ring.length < (s.entry e).current.ringDepth) :
    retained e r c s = joined e r (mapRecord r (Record.closing c) s) :=
  retainRecord_room (s := mapRecord r (Record.closing c) s) h

theorem closeOpen_room (h : ¬ keptOut (s.entry e).current (s.record r) (s.entry e).ring)
    (hroom : (s.entry e).ring.length < (s.entry e).current.ringDepth) :
    let t := closeOpen e r c s
    (t.entry e).ring = (s.entry e).ring ++ [r] ∧ t.record r = { (s.record r).closing c with ring := true }
      ∧ ((s.record r).held = false → (s.record r).pin = false → (s.record r).forward = false → r ∈ t.store.reclaim) := by
  intro t
  obtain ⟨v, hentry⟩ := closeOpen_retains (c := c) h
  have hring : ((retained e r c s).entry e).ring = (s.entry e).ring ++ [r] := by
    rw [retained_room hroom, joined_entry]; rfl
  have hstore : (decided e r c s).store = (joined e r (mapRecord r (Record.closing c) s)).store := by
    rw [decided_retains_store h, retained_room hroom]
  have hrecord : (decided e r c s).record r = { (s.record r).closing c with ring := true } := by
    rw [record_of_store hstore r, (joined_record e r _).1, closing_record]
  have hend : t.store = (reexamine r (decided e r c s)).store := closeOpen_store e r c s
  refine ⟨by rw [show t.entry e = _ from hentry, hring], ?_, fun hh hp hf => ?_⟩
  · rw [record_of_store hend r, reexamine_claimed, hrecord]
    rw [hrecord]
    simp [Record.unclaimed]
  · rw [hend]
    refine (reexamine_joins ?_).2.1
    rw [hrecord]
    simp [Record.reclaimable, Record.closing, hh, hp, hf]

/-- The notices of a close into a ring below its depth: ONE_SHOT_TAKEN in front where the frame ends a one-shot (R72,
R83). -/
theorem closeOpen_room_notices (h : ¬ keptOut (s.entry e).current (s.record r) (s.entry e).ring)
    (hroom : (s.entry e).ring.length < (s.entry e).current.ringDepth) :
    let u := if (s.entry e).current.retention = .oneShot then offerNotice (.oneShotTaken e (s.record r).frame true) s
      else s
    (closeOpen e r c s).notices = if damagedClose (s.record r).damage c
      then (offerNotice (closeNotice e (s.record r) c) u).notices else u.notices := by
  intro u
  have hdecided : (decided e r c s).notices = u.notices ∧ (decided e r c s).partTime = u.partTime := by
    rw [decided_retains h, retained_room hroom]
    have hrest : (joined e r (mapRecord r (Record.closing c) s)).notices = s.notices
        ∧ (joined e r (mapRecord r (Record.closing c) s)).partTime = s.partTime := ⟨rfl, rfl⟩
    by_cases hm : (s.entry e).current.retention = .oneShot
    case pos =>
      obtain ⟨-, -, hnotices, htime⟩ := clearOneShot_spec e r (s.record r).frame
        (joined e r (mapRecord r (Record.closing c) s))
      have hin : (((joined e r (mapRecord r (Record.closing c) s)).entry e).ring).contains r = true := by
        rw [joined_entry]
        simp
      rw [hin] at hnotices
      simp only [u, if_pos hm]
      exact ⟨hnotices.trans (offerNotice_congr _ hrest.1 hrest.2),
        htime.trans (hrest.2.trans (offerNotice_partTime (.oneShotTaken e (s.record r).frame true) s).symm)⟩
    case neg =>
      simp only [u, if_neg hm]
      exact hrest
  rw [closeOpen_notices, offerNotice_congr _ hdecided.1 hdecided.2, hdecided.1]

/-- A rolling ring at its depth gives up its oldest member for the record (R80, R82). -/
theorem closeOpen_evicts (h : ¬ keptOut (s.entry e).current (s.record r) (s.entry e).ring)
    (hm : (s.entry e).current.retention = .rolling) {o : RecordId} {rest : List RecordId}
    (hring : (s.entry e).ring = o :: rest) (hfull : (s.entry e).ring.length = (s.entry e).current.ringDepth)
    (hro : r ≠ o) (hh : (s.record o).held = false) (hp : (s.record o).pin = false) :
    ((closeOpen e r c s).entry e).ring = rest ++ [r]
      ∧ ((closeOpen e r c s).entry e).counters.evictedDepth = bump (s.entry e).counters.evictedDepth := by
  let u := mapRecord r (Record.closing c) s
  have ho : u.record o = s.record o := mapRecord_record_ne r _ s o hro.symm
  have hretained : retained e r c s = evict e o (joined e r u) :=
    retainRecord_evicts (s := u) hring hfull hro (by rw [ho]; exact hh) (by rw [ho]; exact hp)
  have hentry : u.entry e = s.entry e := rfl
  rw [closeOpen_entry, decided_retains h, if_neg (by rw [hm]; decide), hretained, evict_entry, joined_entry, hentry, hring]
  exact ⟨List.erase_cons_head .., rfl⟩

end frameClosed

/-- A close leaves what R71, R72, R82 and R83 say. -/
theorem closeOpen_frameClosed (e : EntryId) (r : RecordId) (c : CloseReason) (s : State) :
    s.frameClosed (closeOpen e r c s) e r c := by
  have hdamaged := damagedClose_iff (s.record r).damage c
  have hrecord := closeOpen_record e r c s
  unfold State.frameClosed
  intro x i ring counters damaged notice kept
  have hyes (h : damaged) : damagedClose x.damage c = true := hdamaged.2 h
  have hno (h : ¬ damaged) : damagedClose x.damage c = false := Bool.eq_false_iff.2 (mt hdamaged.1 h)
  by_cases hk : kept
  case pos =>
    obtain ⟨hentry, hnotices, hclaimed, hfreed⟩ := closeOpen_keptOut (c := c) hk
    rw [hentry]
    exact ⟨rfl, fun h => if_pos (hyes h), fun h => if_neg (by rw [hno h]; decide), hrecord,
      fun _ => ⟨rfl, rfl, rfl, rfl, fun h => hnotices.trans (if_pos (hyes h)),
        fun h => hnotices.trans (if_neg (by rw [hno h]; decide)), hclaimed, hfreed⟩, fun h => absurd hk h⟩
  case neg =>
    obtain ⟨v, hentry⟩ := closeOpen_retains (c := c) hk
    refine ⟨by rw [hentry]; rfl, fun h => ?_, fun h => ?_, hrecord, fun h => absurd h hk,
      fun _ => ⟨by rw [hentry]; rfl, by rw [hentry]; rfl, by rw [hentry], fun hroom => ?room,
        fun o ho hm hfull hro hh hp => ?evicts⟩⟩
    · rw [hentry]; exact if_pos (hyes h)
    · rw [hentry]; exact if_neg (by rw [show damagedClose (s.record r).damage c = false from hno h]; decide)
    case room =>
      obtain ⟨hring, hfinal, hlisted⟩ := closeOpen_room (c := c) hk hroom
      have hnotices := closeOpen_room_notices (c := c) hk hroom
      refine ⟨hring, hfinal, hlisted, fun hm => ?_, fun hm => ?_⟩
      · rw [if_neg hm] at hnotices
        exact ⟨fun h => hnotices.trans (if_pos (hyes h)), fun h => hnotices.trans (if_neg (by rw [hno h]; decide))⟩
      · rw [if_pos hm] at hnotices
        exact ⟨fun h => hnotices.trans (if_pos (hyes h)), fun h => hnotices.trans (if_neg (by rw [hno h]; decide))⟩
    case evicts =>
      obtain ⟨rest, hrest⟩ := List.head?_eq_some_iff.1 ho
      have hring : ring.tail = rest := by rw [hrest]; rfl
      rw [hring]
      exact closeOpen_evicts hk hm hrest hfull hro hh hp

/-- `frameClosed` reads of the state before the close the tables, the store, the notice unit and part time. -/
theorem frameClosed_source {s u t : State} {e : EntryId} {r : RecordId} {c : CloseReason} (he : s.entries = u.entries)
    (hm : s.store = u.store) (hn : s.notices = u.notices) (ht : s.partTime = u.partTime) (h : s.frameClosed t e r c) :
    u.frameClosed t e r c := by
  have hentry : ∀ f, s.entry f = u.entry f := fun f => by simp only [State.entry, he]
  have hrecord : ∀ q, s.record q = u.record q := fun q => by simp only [State.record, hm]
  have hoffer : ∀ b, (offerNotice b s).notices = (offerNotice b u).notices := fun b => offerNotice_congr b hn ht
  have htwice : ∀ b d, (offerNotice b (offerNotice d s)).notices = (offerNotice b (offerNotice d u)).notices :=
    fun b d => offerNotice_congr b (hoffer d) (by rw [offerNotice_partTime, offerNotice_partTime, ht])
  unfold State.frameClosed at h ⊢
  simpa only [hentry, hrecord, hm, hn, hoffer, htwice] using h

/-! ## The return to IDLE (R44, R71) -/

/-- The images of an entry whose open frame closes: the retention mode alone may change. -/
theorem closeOpen_images (e : EntryId) (r : RecordId) (c : CloseReason) (s : State) :
    ((closeOpen e r c s).entry e).staged = (s.entry e).staged
      ∧ ((closeOpen e r c s).entry e).current = { (s.entry e).current with
        retention := ((closeOpen e r c s).entry e).current.retention } := by
  have hrings := (decideRetention_rings (P := (· = e)) e r (mapRecord r (Record.closing c) s) rfl).inside e
  have hentry : (decided e r c s).entry e = _ := hrings
  rw [closeOpen_entry, hentry]
  exact ⟨rfl, rfl⟩

theorem endAssembly_staged (e : EntryId) (c : CloseReason) (s : State) :
    ((endAssembly e c s).entry e).staged = (s.entry e).staged := by
  cases ha : (s.entry e).assembly
  case idle => simp only [endAssembly, ha]
  case filling r => simp only [endAssembly, ha]; exact (closeOpen_images e r c s).1
  case discarding => simp only [endAssembly, ha, assemblyIdle, mapEntry_entry_self]

theorem returnToIdle_unstaged {e : EntryId} {s : State} (h : (s.entry e).staged = none) (c : CloseReason) :
    returnToIdle e c s = endAssembly e c s := by
  rw [returnToIdle, activateStaged, endAssembly_staged, h]

theorem returnToIdle_filling {e : EntryId} {r : RecordId} {s : State} (ha : (s.entry e).assembly = .filling r)
    (h : (s.entry e).staged = none) (c : CloseReason) : returnToIdle e c s = closeOpen e r c s := by
  rw [returnToIdle_unstaged h, endAssembly, ha]

theorem returnToIdle_discarding {e : EntryId} {s : State} (ha : (s.entry e).assembly = .discarding)
    (h : (s.entry e).staged = none) (c : CloseReason) :
    returnToIdle e c s = s.setEntry e { s.entry e with assembly := .idle, stall := none, nextIndex := 1 } := by
  rw [returnToIdle_unstaged h, endAssembly, ha]
  rfl

/-- A staged image becomes the current one. -/
theorem returnToIdle_staged {e : EntryId} {i : Image} {s : State} (h : (s.entry e).staged = some i) (c : CloseReason) :
    ((returnToIdle e c s).entry e).current = i ∧ ((returnToIdle e c s).entry e).staged = none := by
  have heq : returnToIdle e c s = activate e i (endAssembly e c s) := by
    rw [returnToIdle, activateStaged, endAssembly_staged, h]
  obtain ⟨hcurrent, hstaged, -⟩ := activate_images e i (endAssembly e c s)
  rw [heq]
  exact ⟨hcurrent, hstaged⟩

/-- What the close of the open frame leaves beside the entry, its record and the notices. -/
theorem returnToIdle_leaves {e : EntryId} {r : RecordId} {s : State} (ha : (s.entry e).assembly = .filling r)
    (h : (s.entry e).staged = none) (c : CloseReason) :
    let t := returnToIdle e c s
    (t.entry e).assembly = .idle ∧ (t.entry e).nextIndex = 1 ∧ (t.entry e).stall = none
      ∧ (t.entry e).counters.framesIn = bump (s.entry e).counters.framesIn ∧ s.frameClosed t e r c
      ∧ (∀ f, f ≠ e → t.entry f = s.entry f) ∧ t.ports = s.ports ∧ t.gens = s.gens ∧ t.uplink = s.uplink
      ∧ t.agent = s.agent ∧ t.replay = s.replay ∧ t.store.mem = s.store.mem := by
  intro t
  obtain ⟨hout, hidle, hstop, -, hmem⟩ := returnToIdle_entry e c s
  obtain ⟨hstall, hnext⟩ := hstop (by rw [ha]; exact nofun)
  have heq : t = closeOpen e r c s := returnToIdle_filling ha h c
  have hmoves := closeOpen_moves Touch.storeOnly_hasStore e r c s
  have hclosed := closeOpen_frameClosed e r c s
  rw [← heq] at hmoves hclosed
  exact ⟨hidle, hnext, hstall, hclosed.1, hclosed, hout, hmoves.ports rfl, hmoves.gens rfl, hmoves.uplink rfl,
    hmoves.agent rfl, hmoves.replay rfl, hmem⟩

/-! ## The two events -/

theorem exec_tail {n : PortId} {unit : List Byte} {c : Channel} {k count : Half} {bytes : Word} {status : Byte}
    {e : EntryId} {s : State} (h : (s.port n).state = .active)
    (hc : classifyDown unit = .wellFormed (.tail c k count bytes status)) (hl : lookup s n c = some e) :
    exec (.downstreamUnitReceived n unit) s
      = .next (tailAt e n count bytes status (s.setPort n ((s.port n).arrived s))) := by
  refine congrArg Host.Outcome.next ?_
  rw [downUnit_active n unit _ s h hc]
  exact toEntry_some (s := s.setPort n ((s.port n).arrived s)) hl _ _

/-- A TAIL ends whatever the entry is at, but IDLE. -/
theorem tailAt_ends {e : EntryId} {s : State} (h : (s.entry e).assembly ≠ .idle) (n : PortId) (count : Half)
    (bytes : Word) (status : Byte) : ∃ u, tailAt e n count bytes status s = returnToIdle e .tail u
      ∧ u.entries = s.entries := by
  cases ha : (s.entry e).assembly
  case idle => exact absurd ha h
  case filling r => exact ⟨checkTail e r count bytes status s, by simp only [tailAt, ha], rfl⟩
  case discarding => exact ⟨s, by simp only [tailAt, ha], rfl⟩

theorem exec_stall {e : EntryId} {d : Time} {s : State} (h : (s.entry e).stall = some d) :
    exec (.stallTimerExpiry e) s = .next (returnToIdle e .stalled (atDeadline d s)) := by
  refine congrArg Host.Outcome.next ?_
  simp only [stallExpiry, h]

/-- The damage that a TAIL marks (R68). -/
def tailDamage (x : Record) (next : Nat) (count : Half) (bytes : Word) (status : Byte) : Damage :=
  { x.damage with
    lengthMismatch := x.damage.lengthMismatch
      || (decide (count.toNat ≠ next - 1)
        || (!x.damage.truncated && decide (bytes.toNat ≠ x.bytes))
        || (decide (x.attributes.announced ≠ 0) && decide (x.attributes.announced ≠ bytes)))
    cameraFault := x.damage.cameraFault || decide (status ≠ 0) }

theorem checkTail_eq (e : EntryId) (r : RecordId) (count : Half) (bytes : Word) (status : Byte) (s : State) :
    checkTail e r count bytes status s = s.setRecord r { s.record r with
      damage := tailDamage (s.record r) (s.entry e).nextIndex count bytes status } := by
  have hbne {α : Type} [DecidableEq α] (a b : α) : (a != b) = decide (a ≠ b) := by
    simp only [bne, beq_eq_decide, decide_not]
  simp only [checkTail, tailDamage, lengthMismatch, hbne]
  rfl

/-- Settles O18: the close, the activation of a staged image, and the end of discarding, by either event. -/
theorem frameEndsReturnToIdle : Obligations.FrameEndsReturnToIdle := by
  intro e s
  refine ⟨fun r ha hs => ⟨fun n unit c k count bytes status hst hc hl => ?tail, fun d hd => ?stall⟩,
    fun i ha hs => ⟨fun n unit c k count bytes status hst hc hl => ?stagedTail, fun d hd => ?stagedStall⟩,
    fun ha hs => ⟨fun n unit c k count bytes status hst hc hl => ?endTail, fun d hd => ?endStall⟩⟩
  case tail =>
    let u := s.setPort n ((s.port n).arrived s)
    let w := checkTail e r count bytes status u
    have htail : tailAt e n count bytes status u = returnToIdle e .tail w := by simp only [tailAt, u, setPort_entry, ha, w]
    have hw : w = u.setRecord r { s.record r with
        damage := tailDamage (s.record r) (s.entry e).nextIndex count bytes status } := checkTail_eq ..
    obtain ⟨h1, h2, h3, h4, h5, h6, h7, h8, h9, h10, h11, h12⟩ := returnToIdle_leaves (s := w) ha hs .tail
    generalize returnToIdle e .tail w = t at htail h1 h2 h3 h4 h5 h6 h7 h8 h9 h10 h11 h12
    refine ⟨t, (exec_tail hst hc hl).trans (congrArg Host.Outcome.next htail), h1, h2, h3, h4, ?_, h6, fun m hm => ?_,
      h8, h9, h10, h11, h12⟩
    · rw [hw] at h5
      exact frameClosed_source (s := u.setRecord r _) (u := s.setRecord r _) rfl rfl rfl rfl h5
    · have hport : t.port m = u.port m := congrArg (fun ps : Vector Port 8 => ps[m]) h7
      exact hport.trans (setPort_port_ne n _ s m hm)
  case stall =>
    have ha' : ((atDeadline d s).entry e).assembly = .filling r := by rw [atDeadline_entry]; exact ha
    have hs' : ((atDeadline d s).entry e).staged = none := by rw [atDeadline_entry]; exact hs
    have himages := (closeOpen_images e r .stalled (atDeadline d s)).2
    rw [← returnToIdle_filling ha' hs' .stalled, atDeadline_entry] at himages
    obtain ⟨h1, h2, h3, h4, h5, h6, h7, h8, h9, h10, h11, h12⟩ := returnToIdle_leaves ha' hs' .stalled
    rw [atDeadline_entry] at h4
    refine ⟨_, exec_stall hd, h1, h2, h3, h4, h5, by rw [himages], by rw [himages], by rw [himages], by rw [himages],
      fun f hf => (h6 f hf).trans (atDeadline_entry d s f), h7.trans (atDeadline_ports d s),
      h8.trans (atDeadline_gens d s), h9.trans (atDeadline_uplink d s), h10.trans (atDeadline_agent d s),
      h11.trans (atDeadline_replay d s), h12.trans (congrArg Store.mem (atDeadline_store d s))⟩
  case stagedTail =>
    obtain ⟨u, htail, hu⟩ := tailAt_ends (s := s.setPort n ((s.port n).arrived s)) ha n count bytes status
    have hentry : ∀ f, u.entry f = s.entry f := fun f => by rw [State.entry, hu]; rfl
    obtain ⟨hout, hidle, hstop, -, -⟩ := returnToIdle_entry e .tail u
    obtain ⟨hstall, hnext⟩ := hstop (by rw [hentry]; exact ha)
    obtain ⟨hcurrent, hstaged⟩ := returnToIdle_staged (by rw [hentry]; exact hs : (u.entry e).staged = some i) .tail
    exact ⟨_, (exec_tail hst hc hl).trans (congrArg Host.Outcome.next htail), hidle, hnext, hstall, hcurrent, hstaged,
      fun f hf => (hout f hf).trans (hentry f)⟩
  case stagedStall =>
    obtain ⟨hout, hidle, hstop, -, -⟩ := returnToIdle_entry e .stalled (atDeadline d s)
    obtain ⟨hstall, hnext⟩ := hstop (by rw [atDeadline_entry]; exact ha)
    obtain ⟨hcurrent, hstaged⟩ := returnToIdle_staged (s := atDeadline d s) (by rw [atDeadline_entry]; exact hs) .stalled
    exact ⟨_, exec_stall hd, hidle, hnext, hstall, hcurrent, hstaged,
      fun f hf => (hout f hf).trans (atDeadline_entry d s f)⟩
  case endTail =>
    refine (exec_tail hst hc hl).trans (congrArg Host.Outcome.next ?_)
    simp only [tailAt, setPort_entry, ha]
    exact returnToIdle_discarding (s := s.setPort n ((s.port n).arrived s)) ha hs .tail
  case endStall =>
    refine (exec_stall hd).trans (congrArg Host.Outcome.next ?_)
    rw [returnToIdle_discarding (by rw [atDeadline_entry]; exact ha) (by rw [atDeadline_entry]; exact hs), atDeadline_entry]

end Sys2Proof.Machine
end

section
/-!
A HEAD, step by step (R56 to R62): the continuity check, the duplicate check, the record, the forward claim and the refusal,
and the match of its trigger number (R142), each said once.
-/

namespace Sys2Proof.Machine

open Sys2Proof

/-! ## The number of the frame (R56 step 1, R57) -/

/-- The gap counter after a HEAD of number `k` (R57). -/
def Entry.gapsAfter (k : Half) (x : Entry) : Word :=
  match x.expected with
  | some y => if x.current.continuity && k != y then bumpBy (k - y).toNat x.counters.frameGaps else x.counters.frameGaps
  | none => x.counters.frameGaps

/-- The state after the number of a HEAD has been taken. -/
def numbered (e : EntryId) (k : Half) (s : State) : State := expectAfter e k (checkContinuity e k s)

theorem gapsAfter_gap {x : Entry} {y k : Half} (h : x.expected = some y) (hc : x.current.continuity = true) (hk : k ≠ y) :
    x.gapsAfter k = bumpBy (k - y).toNat x.counters.frameGaps := by
  simp only [Entry.gapsAfter, h, hc, bne_iff_ne.2 hk, Bool.and_self, if_true]

theorem gapsAfter_none {x : Entry} {k : Half}
    (h : x.expected = none ∨ x.expected = some k ∨ x.current.continuity = false) :
    x.gapsAfter k = x.counters.frameGaps := by
  rcases h with h | h | h
  · simp only [Entry.gapsAfter, h]
  · simp only [Entry.gapsAfter, h, bne_self_eq_false, Bool.and_false, Bool.false_eq_true, if_false]
  · unfold Entry.gapsAfter
    cases x.expected <;> simp [h]

theorem checkContinuity_gap {e : EntryId} {k y : Half} {s : State} (h : (s.entry e).expected = some y)
    (hc : (s.entry e).current.continuity = true) (hk : k ≠ y) : checkContinuity e k s
      = offerNotice (.frameGap e y k (k - y))
          (countEntry e (fun c => { c with frameGaps := bumpBy (k - y).toNat c.frameGaps }) s) := by
  simp only [checkContinuity, h, hc, bne_iff_ne.2 hk, Bool.and_self, if_true]

theorem checkContinuity_none {e : EntryId} {k : Half} {s : State}
    (h : (s.entry e).expected = none ∨ (s.entry e).expected = some k ∨ (s.entry e).current.continuity = false) :
    checkContinuity e k s = s := by
  rcases h with h | h | h
  · simp only [checkContinuity, h]
  · simp only [checkContinuity, h, bne_self_eq_false, Bool.and_false, Bool.false_eq_true, if_false]
  · unfold checkContinuity
    cases (s.entry e).expected <;> simp [h]

/-- Either the number is as expected, or a gap is counted. -/
theorem continuity_cases (x : Entry) (k : Half) : (∃ y, x.expected = some y ∧ x.current.continuity = true ∧ k ≠ y)
    ∨ x.expected = none ∨ x.expected = some k ∨ x.current.continuity = false := by
  cases hx : x.expected
  case none => exact .inr (.inl rfl)
  case some y =>
    by_cases hk : k = y
    case pos => exact .inr (.inr (.inl (congrArg some hk.symm)))
    case neg =>
      cases hc : x.current.continuity
      case false => exact .inr (.inr (.inr rfl))
      case true => exact .inl ⟨y, rfl, rfl, hk⟩

theorem checkContinuity_entry (e : EntryId) (k : Half) (s : State) :
    (checkContinuity e k s).entry e = { s.entry e with
        counters := { (s.entry e).counters with frameGaps := (s.entry e).gapsAfter k } }
      ∧ (∀ f, f ≠ e → (checkContinuity e k s).entry f = s.entry f) ∧ (checkContinuity e k s).store = s.store := by
  rcases continuity_cases (s.entry e) k with ⟨y, h, hc, hk⟩ | h
  · rw [checkContinuity_gap h hc hk, offerNotice_store, gapsAfter_gap h hc hk]
    refine ⟨?_, fun f hf => ?_, rfl⟩
    · rw [offerNotice_entry, countEntry, mapEntry_entry_self]
    · rw [offerNotice_entry, countEntry, mapEntry_entry_ne e _ s f hf]
  · rw [checkContinuity_none h, gapsAfter_none h]
    exact ⟨rfl, fun _ _ => rfl, rfl⟩

theorem numbered_entry (e : EntryId) (k : Half) (s : State) :
    (numbered e k s).entry e = { s.entry e with
        expected := some (k + 1)
        counters := { (s.entry e).counters with frameGaps := (s.entry e).gapsAfter k } }
      ∧ (∀ f, f ≠ e → (numbered e k s).entry f = s.entry f) ∧ (numbered e k s).store = s.store := by
  obtain ⟨hself, hother, hstore⟩ := checkContinuity_entry e k s
  refine ⟨?_, fun f hf => (mapEntry_entry_ne e _ _ f hf).trans (hother f hf), hstore⟩
  rw [numbered, expectAfter, mapEntry_entry_self, hself]

theorem numbered_moves (e : EntryId) (k : Half) (s : State) : Moves Touch.storeOnly s (numbered e k s) :=
  (checkContinuity_moves Touch.storeOnly_hasStore e k s).trans
    (Moves.mapEntry (checkContinuity e k s) e (fun x => { x with expected := some (k + 1) }) rfl)

theorem numbered_notices_gap {e : EntryId} {k y : Half} {s : State} (h : (s.entry e).expected = some y)
    (hc : (s.entry e).current.continuity = true) (hk : k ≠ y) :
    (numbered e k s).notices = (offerNotice (.frameGap e y k (k - y)) s).notices := by
  have heq : (numbered e k s).notices = (checkContinuity e k s).notices := rfl
  rw [heq, checkContinuity_gap h hc hk]
  exact offerNotice_congr _ rfl rfl

theorem numbered_notices_none {e : EntryId} {k : Half} {s : State}
    (h : (s.entry e).expected = none ∨ (s.entry e).expected = some k ∨ (s.entry e).current.continuity = false) :
    (numbered e k s).notices = s.notices := by
  have heq : (numbered e k s).notices = (checkContinuity e k s).notices := rfl
  rw [heq, checkContinuity_none h]

/-! ## The duplicate check (R58) -/

theorem ringMember_congr {s t : State} {e : EntryId} (hr : (t.entry e).ring = (s.entry e).ring)
    (hs : t.store = s.store) (k : Half) : ringMember t e k = ringMember s e k := by
  have hrecord := record_of_store hs
  simp only [ringMember, hr, hrecord]

theorem checkDuplicate_new {e : EntryId} {k : Half} {s : State} (h : ringMember s e k = none) :
    checkDuplicate e k s = (s, false) := by
  simp only [checkDuplicate, h]

theorem checkDuplicate_guarded {e : EntryId} {k : Half} {d : RecordId} {s : State} (h : ringMember s e k = some d)
    (hg : (s.record d).held = true ∨ (s.record d).pin = true) : checkDuplicate e k s = (s, true) := by
  have hor : ((s.record d).held || (s.record d).pin) = true := by
    rcases hg with hg | hg <;> simp [hg]
  simp only [checkDuplicate, h, hor, if_true]

theorem checkDuplicate_replaces {e : EntryId} {k : Half} {d : RecordId} {s : State} (h : ringMember s e k = some d)
    (hg : (s.record d).held = false ∧ (s.record d).pin = false) :
    checkDuplicate e k s
      = (leaveRing e d (countEntry e (fun c => { c with duplicateReplaced := bump c.duplicateReplaced }) s), false) := by
  simp only [checkDuplicate, h, hg.1, hg.2, Bool.or_self, Bool.false_eq_true, if_false]

/-- A record that leaves a ring may go free, to the tail of the list. -/
theorem leaveRing_freeRecords (e : EntryId) (r : RecordId) (s : State) :
    ∃ more, (leaveRing e r s).store.freeRecords = s.store.freeRecords ++ more := by
  have hplace (t : State) : (placeOnReclaim r t).store.freeRecords = t.store.freeRecords := by
    unfold placeOnReclaim
    split
    · split <;> rfl
    · rfl
  have hfree (t : State) : ∃ more, (freeIfUnclaimed r t).store.freeRecords = t.store.freeRecords ++ more := by
    unfold freeIfUnclaimed
    split
    · exact ⟨[r], rfl⟩
    · exact ⟨[], (List.append_nil _).symm⟩
  obtain ⟨more, hmore⟩ := hfree (mapRecord r (fun x => { x with ring := false, held := false })
    (mapEntry e (fun x => { x with ring := x.ring.erase r }) s))
  exact ⟨more, (hplace _).trans hmore⟩

/-- The entry after a duplicate has been replaced. -/
theorem replaced_entry (e : EntryId) (d : RecordId) (s : State) :
    (leaveRing e d (countEntry e (fun c => { c with duplicateReplaced := bump c.duplicateReplaced }) s)).entry e
      = { s.entry e with
          ring := (s.entry e).ring.erase d
          counters := { (s.entry e).counters with duplicateReplaced := bump (s.entry e).counters.duplicateReplaced } } := by
  rw [leaveRing_entry, countEntry, mapEntry_entry_self]

/-- The duplicate check changes of the entry the ring and one counter, and the store by one record at most. -/
theorem checkDuplicate_leaves (e : EntryId) (k : Half) (s : State) :
    (∃ ring v, (checkDuplicate e k s).1.entry e = { s.entry e with
        ring := ring, counters := { (s.entry e).counters with duplicateReplaced := v } })
      ∧ (∀ f, f ≠ e → (checkDuplicate e k s).1.entry f = s.entry f)
      ∧ (∃ more, (checkDuplicate e k s).1.store.freeRecords = s.store.freeRecords ++ more)
      ∧ (checkDuplicate e k s).1.notices = s.notices ∧ (checkDuplicate e k s).1.store.mem = s.store.mem := by
  have hkept : (∃ ring v, s.entry e = { s.entry e with
        ring := ring, counters := { (s.entry e).counters with duplicateReplaced := v } })
      ∧ (∀ f, f ≠ e → s.entry f = s.entry f) ∧ (∃ more, s.store.freeRecords = s.store.freeRecords ++ more)
      ∧ s.notices = s.notices ∧ s.store.mem = s.store.mem :=
    ⟨⟨_, _, rfl⟩, fun _ _ => rfl, ⟨[], (List.append_nil _).symm⟩, rfl, rfl⟩
  cases h : ringMember s e k
  case none => rw [checkDuplicate_new h]; exact hkept
  case some d =>
    by_cases hg : (s.record d).held = true ∨ (s.record d).pin = true
    case pos => rw [checkDuplicate_guarded h hg]; exact hkept
    case neg =>
      obtain ⟨hh, hp⟩ := not_or.1 hg
      rw [checkDuplicate_replaces h ⟨Bool.eq_false_iff.2 hh, Bool.eq_false_iff.2 hp⟩]
      let u := countEntry e (fun c => { c with duplicateReplaced := bump c.duplicateReplaced }) s
      have hrings := (countEntry_rings (P := (· = e)) s e (fun c => { c with duplicateReplaced := bump c.duplicateReplaced })
        rfl).trans (leaveRing_rings e d u rfl)
      have hquiet := (leaveRing_quiet e d u).notices
      exact ⟨⟨_, _, replaced_entry e d s⟩, hrings.outside, leaveRing_freeRecords e d u, hquiet, hrings.mem⟩

/-! ## The record request, for any entry (R85) -/

/-- An entry whose ring, counter of evictions for space and nothing else changes. -/
def spaced (x y : Entry) : Prop :=
  ∃ ring v, y = { x with ring := ring, counters := { x.counters with evictedSpace := v } }

theorem requestRecord_entries (s : State) (f : EntryId) : spaced (s.entry f) ((requestRecord s).1.entry f) := by
  have hreclaim : spaced (s.entry f) ((reclaimOldest s).entry f) := by
    unfold reclaimOldest
    split
    · exact ⟨_, _, rfl⟩
    · next r rs _ =>
      by_cases hf : f = (s.record r).entry
      case pos =>
        refine ⟨(s.entry f).ring.erase r, bump (s.entry f).counters.evictedSpace, ?_⟩
        rw [← hf, leaveRing_entry, mapStore_entry, countEntry, mapEntry_entry_self]
      case neg =>
        have hout := (leaveRing_rings (P := (· = (s.record r).entry)) (s.record r).entry r
          (mapStore (fun st => { st with reclaims := bump st.reclaims })
            (countEntry (s.record r).entry (fun c => { c with evictedSpace := bump c.evictedSpace }) s)) rfl).outside f hf
        rw [hout, mapStore_entry, countEntry, mapEntry_entry_ne _ _ s f hf]
        exact ⟨_, _, rfl⟩
  have hif : spaced (s.entry f) ((if s.store.freeRecords.isEmpty then reclaimOldest s else s).entry f) := by
    split
    · exact hreclaim
    · exact ⟨_, _, rfl⟩
  unfold requestRecord takeRecord
  generalize (if s.store.freeRecords.isEmpty then reclaimOldest s else s) = u at hif ⊢
  cases u.store.freeRecords <;> exact hif

/-! ## The forward claim (R61, R99) -/

/-- What the offer of a forward claim leaves: the entry, the record and the uplink's counter of skipped frames. -/
structure ForwardOffered (e : EntryId) (r : RecordId) (s t : State) : Prop where
  entry : t.entry e = { s.entry e with
    forwardQueue := (s.entry e).forwardQueue
      ++ (if (s.entry e).current.forward = .live ∧ s.uplink.state = .active
          ∧ (s.entry e).forwardQueue.length < s.uplink.backlog then [r] else [])
    counters := { (s.entry e).counters with
      forwardSkipped := if (s.entry e).current.forward = .live
          ∧ ¬ (s.uplink.state = .active ∧ (s.entry e).forwardQueue.length < s.uplink.backlog)
        then bump (s.entry e).counters.forwardSkipped else (s.entry e).counters.forwardSkipped } }
  others : ∀ f, f ≠ e → t.entry f = s.entry f
  record : ∃ b, t.record r = { s.record r with forward := b }
  records : ∀ x, x ≠ r → t.record x = s.record x
  uplink : t.uplink = { s.uplink with downSkipped :=
    if (s.entry e).current.forward = .live ∧ s.uplink.state ≠ .active then bump s.uplink.downSkipped
    else s.uplink.downSkipped }
  rest : t = { s with
    entries := t.entries, store := { s.store with records := t.store.records }, uplink := t.uplink }

theorem offerForward_offered (e : EntryId) (r : RecordId) (s : State) : ForwardOffered e r s (offerForward e r s) := by
  cases hm : (s.entry e).current.forward
  case withhold =>
    have heq : offerForward e r s = s := by simp only [offerForward, hm]
    rw [heq]
    exact ⟨by simp [hm], fun _ _ => rfl, ⟨_, rfl⟩, fun _ _ => rfl, by simp [hm], rfl⟩
  case live =>
    by_cases ha : s.uplink.state = .active
    case neg =>
      have heq : offerForward e r s = mapUplink (fun u => { u with downSkipped := bump u.downSkipped })
          (countForwardSkipped e s) := by simp only [offerForward, hm, ne_eq, ha, not_false_eq_true, if_true]
      rw [heq]
      refine ⟨?_, fun f hf => ?_, ⟨_, rfl⟩, fun _ _ => rfl, ?_, rfl⟩
      · rw [mapUplink_entry, countForwardSkipped, countEntry, mapEntry_entry_self]
        simp [hm, ha]
      · rw [mapUplink_entry, countForwardSkipped, countEntry, mapEntry_entry_ne e _ s f hf]
      · rw [if_pos ⟨hm, ha⟩]
        rfl
    case pos =>
      have hnone : s.uplink = { s.uplink with downSkipped :=
          if (s.entry e).current.forward = .live ∧ s.uplink.state ≠ .active then bump s.uplink.downSkipped
          else s.uplink.downSkipped } := by rw [if_neg fun h => h.2 ha]
      by_cases hl : (s.entry e).forwardQueue.length < s.uplink.backlog
      case neg =>
        have heq : offerForward e r s = countForwardSkipped e s := by
          simp only [offerForward, hm, ne_eq, ha, not_true_eq_false, if_false, if_pos (Nat.le_of_not_lt hl)]
        rw [heq]
        refine ⟨?_, fun f hf => ?_, ⟨_, rfl⟩, fun _ _ => rfl, hnone, rfl⟩
        · rw [countForwardSkipped, countEntry, mapEntry_entry_self]
          simp [hm, ha, hl]
        · rw [countForwardSkipped, countEntry, mapEntry_entry_ne e _ s f hf]
      case pos =>
        have heq : offerForward e r s = mapRecord r (fun x => { x with forward := true })
            (mapEntry e (fun x => { x with forwardQueue := x.forwardQueue ++ [r] }) s) := by
          simp only [offerForward, hm, ne_eq, ha, not_true_eq_false, if_false, if_neg (Nat.not_le_of_lt hl)]
        rw [heq]
        refine ⟨?_, fun f hf => ?_, ⟨true, mapRecord_record_self r _ _⟩, fun x hx => mapRecord_record_ne r _ _ x hx, hnone,
          rfl⟩
        · rw [mapRecord_entry, mapEntry_entry_self]
          simp [hm, ha, hl]
        · rw [mapRecord_entry, mapEntry_entry_ne e _ s f hf]

/-! ## The frame opens, or is refused (R59, R62) -/

/-- The state in which the opened frame is offered a forward claim. -/
def opened (e : EntryId) (r : RecordId) (n : Half) (a : Attributes) (b : Bool) (s : State) : State :=
  startStall e (mapEntry e (fun x => { x with assembly := .filling r, nextIndex := 1 })
    (mapRecord r (fun _ => recordAtHead e n a b s) s))

theorem openFrame_eq (e : EntryId) (r : RecordId) (n : Half) (a : Attributes) (b : Bool) (s : State) :
    openFrame e r n a b s = offerForward e r (opened e r n a b s) := rfl

theorem opened_entry (e : EntryId) (r : RecordId) (n : Half) (a : Attributes) (b : Bool) (s : State) :
    (opened e r n a b s).entry e = { s.entry e with
        assembly := .filling r, nextIndex := 1
        stall := some (s.after ((s.entry e).current.stallTimeout * 100)) }
      ∧ (∀ f, f ≠ e → (opened e r n a b s).entry f = s.entry f) := by
  refine ⟨?_, fun f hf => ?_⟩
  · rw [opened, startStall, mapEntry_entry_self, mapEntry_entry_self, mapRecord_entry]
    rfl
  · rw [opened, startStall, mapEntry_entry_ne e _ _ f hf, mapEntry_entry_ne e _ _ f hf, mapRecord_entry]

theorem opened_record (e : EntryId) (r : RecordId) (n : Half) (a : Attributes) (b : Bool) (s : State) :
    (opened e r n a b s).record r = recordAtHead e n a b s
      ∧ ∀ x, x ≠ r → (opened e r n a b s).record x = s.record x :=
  ⟨mapRecord_record_self r (fun _ => recordAtHead e n a b s) s,
    fun x hx => mapRecord_record_ne r (fun _ => recordAtHead e n a b s) s x hx⟩

/-- The frame opened: the record of the HEAD, the entry, and the uplink's counter (R59, R61). -/
theorem openFrame_spec (e : EntryId) (r : RecordId) (n : Half) (a : Attributes) (b : Bool) (s : State) :
    let t := openFrame e r n a b s
    t.entry e = { s.entry e with
        assembly := .filling r, nextIndex := 1
        stall := some (s.after ((s.entry e).current.stallTimeout * 100))
        forwardQueue := (s.entry e).forwardQueue
          ++ (if (s.entry e).current.forward = .live ∧ s.uplink.state = .active
              ∧ (s.entry e).forwardQueue.length < s.uplink.backlog then [r] else [])
        counters := { (s.entry e).counters with
          forwardSkipped := if (s.entry e).current.forward = .live
              ∧ ¬ (s.uplink.state = .active ∧ (s.entry e).forwardQueue.length < s.uplink.backlog)
            then bump (s.entry e).counters.forwardSkipped else (s.entry e).counters.forwardSkipped } }
      ∧ (∀ f, f ≠ e → t.entry f = s.entry f)
      ∧ (∃ x, t.record r = { recordAtHead e n a b s with forward := x })
      ∧ (∀ x, x ≠ r → t.record x = s.record x)
      ∧ t.uplink = { s.uplink with downSkipped :=
          if (s.entry e).current.forward = .live ∧ s.uplink.state ≠ .active then bump s.uplink.downSkipped
          else s.uplink.downSkipped }
      ∧ t = { s with
          entries := t.entries, store := { s.store with records := t.store.records }, uplink := t.uplink } := by
  intro t
  obtain ⟨hentry, hothers⟩ := opened_entry e r n a b s
  obtain ⟨hrecord, hrecords⟩ := opened_record e r n a b s
  have h := offerForward_offered e r (opened e r n a b s)
  have huplink : (opened e r n a b s).uplink = s.uplink := rfl
  obtain ⟨hself, hout, ⟨x, hx⟩, hrest, hup, hall⟩ := h
  rw [hentry, huplink] at hself hup
  rw [hrecord] at hx
  exact ⟨hself, fun f hf => (hout f hf).trans (hothers f hf), ⟨x, hx⟩, fun y hy => (hrest y hy).trans (hrecords y hy),
    hup, hall⟩

/-- A HEAD that is refused: the entry discards, with the count and the notice (R62). -/
theorem refuseFrame_spec (e : EntryId) (k : Half) (s : State) :
    (refuseFrame e k s).entry e = { s.entry e with
        assembly := .discarding, nextIndex := 1
        stall := some (s.after ((s.entry e).current.stallTimeout * 100))
        counters := { (s.entry e).counters with framesRefused := bump (s.entry e).counters.framesRefused } }
      ∧ (∀ f, f ≠ e → (refuseFrame e k s).entry f = s.entry f) ∧ (refuseFrame e k s).store = s.store
      ∧ (refuseFrame e k s).uplink = s.uplink
      ∧ (refuseFrame e k s).notices = (offerNotice (.storeExhausted false e k) s).notices := by
  refine ⟨?_, fun f hf => ?_, offerNotice_store .., offerNotice_uplink .., offerNotice_congr _ rfl rfl⟩
  · rw [refuseFrame, offerNotice_entry, countEntry, mapEntry_entry_self, startStall, mapEntry_entry_self,
      mapEntry_entry_self]
    rfl
  · rw [refuseFrame, offerNotice_entry, countEntry, mapEntry_entry_ne e _ _ f hf, startStall,
      mapEntry_entry_ne e _ _ f hf, mapEntry_entry_ne e _ s f hf]

/-! ## The match of a trigger number (R60, R142) -/

theorem answers_iff (g : Half) (e : EntryId) (p : PendingTrigger) :
    PendingTrigger.answers g e p = true ↔ p.number = g ∧ e ∈ p.outstanding := by
  simp only [PendingTrigger.answers, Bool.and_eq_true, beq_iff_eq, List.contains_iff_mem]

theorem findIdx_behind {α : Type} (f : α → Bool) (older newer : List α) (x : α) (hx : f x = true)
    (ho : ∀ y ∈ older, f y = false) : (older ++ x :: newer).findIdx? f = some older.length := by
  induction older with
  | nil => simp [List.findIdx?_cons, hx]
  | cons y ys ih =>
    have hy : f y = false := ho y List.mem_cons_self
    rw [List.cons_append, List.findIdx?_cons, hy, ih fun z hz => ho z (List.mem_cons_of_mem y hz)]
    rfl

theorem matchHead_unsolicited {n : PortId} {e : EntryId} {g : Half} {s : State}
    (h : ∀ p ∈ (s.gen n).pendings, ¬ (p.number = g ∧ e ∈ p.outstanding)) :
    matchHead n e g s = s.setGen n { s.gen n with
      counters := { (s.gen n).counters with unsolicited := bump (s.gen n).counters.unsolicited } } := by
  have hnone : (s.gen n).pendings.findIdx? (PendingTrigger.answers g e) = none :=
    List.findIdx?_eq_none_iff.2 fun p hp => Bool.eq_false_iff.2 (mt (answers_iff g e p).1 (h p hp))
  simp only [matchHead, hnone]
  rfl

/-- The generator after the pending entry behind `older` has been answered (R142 steps 2 to 4). -/
def Generator.matched (e : EntryId) (older : List PendingTrigger) (p : PendingTrigger) (newer : List PendingTrigger)
    (g : Generator) : Generator :=
  { g with
    pendings := strikePending e (older ++ [p]) ++ newer
    counters := { g.counters with
      matched := bump g.counters.matched
      missed := bump^[(older.filter fun q => e ∈ q.outstanding).length] g.counters.missed } }

theorem strikeUpTo_eq (e : EntryId) (older newer : List PendingTrigger) (p : PendingTrigger) :
    strikeUpTo e older.length (older ++ p :: newer) = strikePending e (older ++ [p]) ++ newer := by
  have hsplit : older ++ p :: newer = (older ++ [p]) ++ newer := by rw [List.append_assoc]; rfl
  have hlen : older.length + 1 = (older ++ [p]).length := by rw [List.length_append]; rfl
  rw [strikeUpTo, hsplit, hlen, List.take_left, List.drop_left, strikePending_eq]

theorem matchHead_matched {n : PortId} {e : EntryId} {g : Half} {s : State} {older newer : List PendingTrigger}
    {p : PendingTrigger} (hp : (s.gen n).pendings = older ++ p :: newer) (hn : p.number = g) (he : e ∈ p.outstanding)
    (ho : ∀ q ∈ older, ¬ (q.number = g ∧ e ∈ q.outstanding)) :
    ∃ b, matchHead n e g s = { s.setGen n ((s.gen n).matched e older p newer) with notices := b } := by
  have hfind : (s.gen n).pendings.findIdx? (PendingTrigger.answers g e) = some older.length := by
    rw [hp]
    exact findIdx_behind _ older newer p ((answers_iff g e p).2 ⟨hn, he⟩)
      fun q hq => Bool.eq_false_iff.2 (mt (answers_iff g e q).1 (ho q hq))
  have hskipped : ((s.gen n).pendings.take older.length).filter (fun q => q.outstanding.contains e)
      = older.filter fun q => e ∈ q.outstanding := by
    rw [hp, List.take_left]
    exact List.filter_congr fun q _ => List.contains_eq_mem e q.outstanding
  let u := mapGen n (fun x => { x with pendings := strikeUpTo e older.length x.pendings })
    (countTrig n (fun c => { c with matched := bump c.matched }) s)
  have hu : u = s.setGen n { s.gen n with
      pendings := strikePending e (older ++ [p]) ++ newer
      counters := { (s.gen n).counters with matched := bump (s.gen n).counters.matched } } := by
    simp only [u, countTrig_eq, mapGen_eq, setGen_setGen, setGen_gen_self, hp, strikeUpTo_eq]
  obtain ⟨b, hb⟩ := forEach_reportMissed n false id (fun _ => e)
    ((older.filter fun q => e ∈ q.outstanding).map (·.number)) u
  have hrun : matchHead n e g s
      = forEach ((older.filter fun q => e ∈ q.outstanding).map (·.number)) (fun m => reportMissed n m false e) u := by
    simp only [matchHead, hfind, hskipped]
    rfl
  have hgen : u.gen n = _ := hu ▸ setGen_gen_self s n _
  refine ⟨b, hrun.trans (hb.trans ?_)⟩
  rw [hgen, hu, setGen_setGen, List.length_map]
  rfl

/-- A match changes the port's generator and the notices alone. -/
theorem matchHead_leaves (n : PortId) (e : EntryId) (m : Half) (s : State) :
    ∃ g b, matchHead n e m s = { s.setGen n g with notices := b } := by
  unfold matchHead
  cases (s.gen n).pendings.findIdx? (PendingTrigger.answers m e) with
  | none => exact ⟨_, s.notices, countTrig_eq n _ s⟩
  | some k =>
    let skipped := ((s.gen n).pendings.take k).filter fun p => p.outstanding.contains e
    let u := mapGen n (fun g => { g with pendings := strikeUpTo e k g.pendings })
      (countTrig n (fun c => { c with matched := bump c.matched }) s)
    obtain ⟨b, hb⟩ := forEach_reportMissed n false id (fun _ => e) (skipped.map (·.number)) u
    have hu : ∃ g, u = s.setGen n g :=
      ⟨_, by simp only [u, countTrig_eq, mapGen_eq, setGen_setGen, setGen_gen_self]; rfl⟩
    obtain ⟨g, hg⟩ := hu
    refine ⟨g.missedMore (skipped.map (·.number)).length, b, hb.trans ?_⟩
    rw [hg, setGen_gen_self, setGen_setGen]

/-- A head report changes the port's generator and the notices alone. -/
theorem reportHead_leaves (n : PortId) (e : EntryId) (trigger : Option Half) (s : State) :
    ∃ g b, reportHead n e trigger s = { s.setGen n g with notices := b } := by
  have hsame : ∃ g b, s = { s.setGen n g with notices := b } := ⟨s.gen n, s.notices, by rw [setGen_gen]⟩
  cases trigger with
  | none => exact hsame
  | some g =>
    cases hc : (s.entry e).current.correlated with
    | true =>
      have heq : reportHead n e (some g) s = matchHead n e g s := by simp only [reportHead, hc, if_true]
      rw [heq]
      exact matchHead_leaves n e g s
    | false =>
      have heq : reportHead n e (some g) s = s := by
        simp only [reportHead, hc, Bool.false_eq_true, if_false]
      rw [heq]
      exact hsame

end Sys2Proof.Machine
end

section
/-!
Settles O16, a HEAD in each state of the entry: the frame sought after the number and the duplicate check, then the head report.
-/

namespace Sys2Proof.Machine

open Sys2Proof

/-! ## The frame that a HEAD seeks -/

/-- The duplicate check of a HEAD, behind its number. -/
def checked (e : EntryId) (k : Half) (s : State) : State := (checkDuplicate e k (numbered e k s)).1

/-- The new frame is not retainable (R58). -/
def barred (e : EntryId) (k : Half) (s : State) : Bool := (checkDuplicate e k (numbered e k s)).2

/-- All that a HEAD does but its report. -/
def sought (e : EntryId) (k : Half) (a : Attributes) (s : State) : State :=
  seekRecord e k a (barred e k s) (checked e k s)

theorem headTaken_eq (e : EntryId) (n : PortId) (k : Half) (a : Attributes) (s : State) :
    headTaken e n k a s = reportHead n e a.trigger (sought e k a s) := rfl

/-- What no frame sought touches: ports, triggers, agent, replay, flash and the time. -/
structure Stays (s t : State) : Prop where
  ports : t.ports = s.ports
  gens : t.gens = s.gens
  agent : t.agent = s.agent
  replay : t.replay = s.replay
  flash : t.flash = s.flash
  time : t.partTime = s.partTime

namespace Stays

theorem trans {s t u : State} (h : Stays s t) (g : Stays t u) : Stays s u :=
  ⟨g.ports.trans h.ports, g.gens.trans h.gens, g.agent.trans h.agent, g.replay.trans h.replay, g.flash.trans h.flash,
    g.time.trans h.time⟩

theorem ofMoves {s t : State} (h : Moves Touch.storeOnly s t) : Stays s t :=
  ⟨h.ports rfl, h.gens rfl, h.agent rfl, h.replay rfl, h.flash rfl, h.time rfl⟩

end Stays

theorem checked_moves (e : EntryId) (k : Half) (s : State) : Moves Touch.storeOnly s (checked e k s) :=
  (numbered_moves e k s).trans (checkDuplicate_moves Touch.storeOnly_hasStore e k (numbered e k s))

/-- The entry of a HEAD before its record is sought. -/
theorem checked_entry (e : EntryId) (k : Half) (s : State) :
    (∃ ring v, (checked e k s).entry e = { s.entry e with
        expected := some (k + 1), ring := ring
        counters := { (s.entry e).counters with frameGaps := (s.entry e).gapsAfter k, duplicateReplaced := v } })
      ∧ (∀ f, f ≠ e → (checked e k s).entry f = s.entry f)
      ∧ (∃ more, (checked e k s).store.freeRecords = s.store.freeRecords ++ more)
      ∧ (checked e k s).notices = (numbered e k s).notices ∧ (checked e k s).store.mem = s.store.mem := by
  obtain ⟨hself, hother, hstore⟩ := numbered_entry e k s
  obtain ⟨⟨ring, v, hring⟩, hothers, ⟨more, hmore⟩, hnotices, hmem⟩ := checkDuplicate_leaves e k (numbered e k s)
  rw [hself] at hring
  rw [hstore] at hmore hmem
  exact ⟨⟨ring, v, hring⟩, fun f hf => (hothers f hf).trans (hother f hf), ⟨more, hmore⟩, hnotices, hmem⟩

/-- The three ends of the duplicate check of a HEAD. -/
theorem checked_new {e : EntryId} {k : Half} {s : State} (h : ringMember s e k = none) :
    checked e k s = numbered e k s ∧ barred e k s = false := by
  obtain ⟨hself, -, hstore⟩ := numbered_entry e k s
  have hnone := (ringMember_congr (by rw [hself]) hstore k).trans h
  rw [checked, barred, checkDuplicate_new hnone]
  exact ⟨rfl, rfl⟩

theorem checked_guarded {e : EntryId} {k : Half} {d : RecordId} {s : State} (h : ringMember s e k = some d)
    (hg : (s.record d).held = true ∨ (s.record d).pin = true) :
    checked e k s = numbered e k s ∧ barred e k s = true := by
  obtain ⟨hself, -, hstore⟩ := numbered_entry e k s
  have hsome := (ringMember_congr (by rw [hself]) hstore k).trans h
  rw [checked, barred, checkDuplicate_guarded hsome (by rw [record_of_store hstore]; exact hg)]
  exact ⟨rfl, rfl⟩

theorem checked_replaces {e : EntryId} {k : Half} {d : RecordId} {s : State} (h : ringMember s e k = some d)
    (hg : (s.record d).held = false ∧ (s.record d).pin = false) :
    ((checked e k s).entry e).ring = (s.entry e).ring.erase d
      ∧ ((checked e k s).entry e).counters.duplicateReplaced = bump (s.entry e).counters.duplicateReplaced
      ∧ barred e k s = false := by
  obtain ⟨hself, -, hstore⟩ := numbered_entry e k s
  have hsome := (ringMember_congr (by rw [hself]) hstore k).trans h
  rw [checked, barred, checkDuplicate_replaces hsome (by rw [record_of_store hstore]; exact hg), replaced_entry, hself]
  exact ⟨rfl, rfl, rfl⟩

/-! ## With a record free, and with none -/

theorem requestRecord_free {r : RecordId} {rs : List RecordId} {s : State} (h : s.store.freeRecords = r :: rs) :
    requestRecord s = (mapStore (fun st => { st with freeRecords := rs }) s, some r) := (recordRequestOrder s).1 r rs h

theorem requestRecord_none {s : State} (h : s.store.freeRecords = []) (hr : s.store.reclaim = []) :
    requestRecord s = (mapStore (fun st => { st with recordExhausted := bump st.recordExhausted }) s, none) :=
  (recordRequestOrder s).2.1 h hr

theorem seekRecord_granted {e : EntryId} {k : Half} {a : Attributes} {b : Bool} {r : RecordId} {s t : State}
    (h : requestRecord s = (t, some r)) : seekRecord e k a b s = openFrame e r k a b t := by
  simp only [seekRecord, h]

theorem seekRecord_refused {e : EntryId} {k : Half} {a : Attributes} {b : Bool} {s t : State}
    (h : requestRecord s = (t, none)) : seekRecord e k a b s = refuseFrame e k t := by
  simp only [seekRecord, h]

/-- A record request leaves the bytes of the store. -/
theorem requestRecord_mem (s : State) : (requestRecord s).1.store.mem = s.store.mem := by
  have htake (u : State) : (takeRecord u).1.store.mem = u.store.mem := by
    unfold takeRecord
    cases u.store.freeRecords <;> rfl
  have hif : (if s.store.freeRecords.isEmpty then reclaimOldest s else s).store.mem = s.store.mem := by
    split
    · exact (reclaimOldest_rings (P := fun _ => True) s fun _ => trivial).mem
    · rfl
  unfold requestRecord
  generalize (if s.store.freeRecords.isEmpty then reclaimOldest s else s) = u at hif ⊢
  have h := (htake u).trans hif
  cases hu : takeRecord u with
  | mk t o => rw [hu] at h; cases o <;> exact h

/-- What every HEAD does to its entry, with or without a record. -/
theorem seekRecord_always (e : EntryId) (k : Half) (a : Attributes) (b : Bool) (s : State) :
    let t := seekRecord e k a b s
    (t.entry e).nextIndex = 1 ∧ (t.entry e).expected = (s.entry e).expected
      ∧ (t.entry e).stall = some (s.after ((s.entry e).current.stallTimeout * 100))
      ∧ (t.entry e).current = (s.entry e).current
      ∧ (t.entry e).counters.frameGaps = (s.entry e).counters.frameGaps ∧ t.store.mem = s.store.mem ∧ Stays s t := by
  intro t
  obtain ⟨ring, v, hspaced⟩ := requestRecord_entries s e
  have hmem := requestRecord_mem s
  have hstays := Stays.ofMoves (requestRecord_moves Touch.storeOnly_hasStore s)
  have hafter : ∀ d, (requestRecord s).1.after d = s.after d := fun d => by rw [State.after, hstays.time]; rfl
  obtain ⟨u, o, hreq⟩ : ∃ u o, requestRecord s = (u, o) := ⟨_, _, rfl⟩
  rw [hreq] at hspaced hmem hafter hstays
  cases o with
  | some r =>
    have ht : t = openFrame e r k a b u := seekRecord_granted hreq
    obtain ⟨hself, -, -, -, -, hrest⟩ := openFrame_spec e r k a b u
    rw [← ht] at hself hrest
    rw [hspaced, hafter] at hself
    have hopen : Stays u t := by rw [hrest]; exact ⟨rfl, rfl, rfl, rfl, rfl, rfl⟩
    rw [hself, hrest]
    exact ⟨rfl, rfl, rfl, rfl, rfl, hmem, hrest ▸ hstays.trans hopen⟩
  | none =>
    have ht : t = refuseFrame e k u := seekRecord_refused hreq
    obtain ⟨hself, -, hstore, -, -⟩ := refuseFrame_spec e k u
    rw [← ht] at hself hstore
    rw [hspaced, hafter] at hself
    rw [hself, hstore]
    exact ⟨rfl, rfl, rfl, rfl, rfl, hmem,
      hstays.trans (ht ▸ Stays.ofMoves (refuseFrame_moves Touch.storeOnly_hasStore e k u))⟩

/-- What every HEAD does, with or without a record, before its report. -/
theorem sought_always (e : EntryId) (k : Half) (a : Attributes) (s : State) :
    let t := sought e k a s
    (t.entry e).nextIndex = 1 ∧ (t.entry e).expected = some (k + 1)
      ∧ (t.entry e).stall = some (s.after ((s.entry e).current.stallTimeout * 100))
      ∧ (t.entry e).current = (s.entry e).current
      ∧ (t.entry e).counters.frameGaps = (s.entry e).gapsAfter k ∧ t.store.mem = s.store.mem ∧ Stays s t := by
  obtain ⟨⟨ring, v, hself⟩, -, -, -, hmem⟩ := checked_entry e k s
  have hstays := Stays.ofMoves (checked_moves e k s)
  have hafter : ∀ d, (checked e k s).after d = s.after d := fun d => by rw [State.after, hstays.time]; rfl
  obtain ⟨hnext, hexpected, hstall, hcurrent, hgaps, hm, hs⟩ := seekRecord_always e k a (barred e k s) (checked e k s)
  rw [hself] at hexpected hstall hcurrent hgaps
  rw [hafter] at hstall
  exact ⟨hnext, hexpected, hstall, hcurrent, hgaps, hm.trans hmem, hstays.trans hs⟩

/-- What a HEAD does where a record is free. -/
structure Opened (e : EntryId) (k : Half) (a : Attributes) (r : RecordId) (rs : List RecordId) (s t : State) : Prop where
  assembly : (t.entry e).assembly = .filling r
  queue : (t.entry e).forwardQueue = (s.entry e).forwardQueue
    ++ (if (s.entry e).current.forward = .live ∧ s.uplink.state = .active
        ∧ (s.entry e).forwardQueue.length < s.uplink.backlog then [r] else [])
  skipped : (t.entry e).counters.forwardSkipped = (if (s.entry e).current.forward = .live
      ∧ ¬ (s.uplink.state = .active ∧ (s.entry e).forwardQueue.length < s.uplink.backlog)
    then bump (s.entry e).counters.forwardSkipped else (s.entry e).counters.forwardSkipped)
  framesIn : (t.entry e).counters.framesIn = (s.entry e).counters.framesIn
  framesDamaged : (t.entry e).counters.framesDamaged = (s.entry e).counters.framesDamaged
  checked : (t.entry e).ring = ((checked e k s).entry e).ring
    ∧ (t.entry e).counters.duplicateReplaced = ((checked e k s).entry e).counters.duplicateReplaced
  record : ∃ b, t.record r = { Record.blank with
    entry := e, frame := k, tagAtHead := (s.entry e).current.tag, attributes := a, headTime := s.partTime,
    state := .filling, notRetainable := barred e k s, receiving := true, forward := b }
  uplink : t.uplink = { s.uplink with downSkipped :=
    if (s.entry e).current.forward = .live ∧ s.uplink.state ≠ .active then bump s.uplink.downSkipped
    else s.uplink.downSkipped }
  others : ∀ f, f ≠ e → t.entry f = s.entry f
  notices : t.notices = (numbered e k s).notices
  new : ringMember s e k = none → t.store.freeRecords = rs ∧ (∀ x, x ≠ r → t.record x = s.record x)
    ∧ t.store.freePages = s.store.freePages ∧ t.store.reclaim = s.store.reclaim

theorem sought_opened {e : EntryId} {k : Half} {a : Attributes} {r : RecordId} {rs : List RecordId} {s : State}
    (h : s.store.freeRecords = r :: rs) : Opened e k a r rs s (sought e k a s) := by
  obtain ⟨⟨ring, v, hself⟩, hothers, ⟨more, hmore⟩, hnotices, -⟩ := checked_entry e k s
  have hmoves := checked_moves e k s
  have huplink : (checked e k s).uplink = s.uplink := hmoves.uplink rfl
  have htime : (checked e k s).partTime = s.partTime := hmoves.time rfl
  rw [h, List.cons_append] at hmore
  let u := mapStore (fun st => { st with freeRecords := rs ++ more }) (checked e k s)
  have hopen : sought e k a s = openFrame e r k a (barred e k s) u := seekRecord_granted (requestRecord_free hmore)
  obtain ⟨hentry, hout, ⟨b, hrecord⟩, hrecords, hup, hrest⟩ := openFrame_spec e r k a (barred e k s) u
  have hue : u.entry e = (checked e k s).entry e := rfl
  have huu : u.uplink = s.uplink := huplink
  rw [← hopen] at hentry hout hrecord hrecords hup hrest
  rw [huu] at hentry hup
  have hring : ((sought e k a s).entry e).ring = ((checked e k s).entry e).ring
      ∧ ((sought e k a s).entry e).counters.duplicateReplaced
        = ((checked e k s).entry e).counters.duplicateReplaced := by
    rw [hentry]
    exact ⟨rfl, rfl⟩
  rw [hue, hself] at hentry hup
  refine ⟨?_, ?_, ?_, ?_, ?_, hring, ⟨b, ?_⟩, hup, fun f hf => (hout f hf).trans (hothers f hf), ?_, fun hn => ?_⟩
  · rw [hentry]
  · rw [hentry]
  · rw [hentry]
  · rw [hentry]
  · rw [hentry]
  · rw [hrecord, recordAtHead, hue, hself]
    exact congrArg (fun t => { Record.blank with
      entry := e, frame := k, tagAtHead := (s.entry e).current.tag, attributes := a, headTime := t,
      state := .filling, notRetainable := barred e k s, receiving := true, forward := b }) htime
  · rw [hrest]
    exact hnotices
  · have hstore : (checked e k s).store = s.store := by rw [(checked_new hn).1, (numbered_entry e k s).2.2]
    rw [hstore, h] at hmore
    have hrs : rs ++ more = rs := (List.cons.inj hmore).2.symm
    refine ⟨?_, fun x hx => (hrecords x hx).trans (record_of_store hstore x), ?_, ?_⟩
    · rw [hrest]
      exact hrs
    · have hpages : (checked e k s).store.freePages = s.store.freePages := congrArg Store.freePages hstore
      rw [hrest]
      exact hpages
    · have hreclaim : (checked e k s).store.reclaim = s.store.reclaim := congrArg Store.reclaim hstore
      rw [hrest]
      exact hreclaim

/-- What a HEAD does where no record is to be had. -/
theorem sought_refused {e : EntryId} {k : Half} (a : Attributes) {s : State} (h : s.store.freeRecords = [])
    (hr : s.store.reclaim = []) (hn : ringMember s e k = none) :
    let t := sought e k a s
    (t.entry e).assembly = .discarding
      ∧ (t.entry e).counters.framesRefused = bump (s.entry e).counters.framesRefused
      ∧ (t.entry e).ring = (s.entry e).ring ∧ (t.entry e).forwardQueue = (s.entry e).forwardQueue
      ∧ t.store = { s.store with recordExhausted := bump s.store.recordExhausted }
      ∧ t.uplink = s.uplink ∧ (∀ f, f ≠ e → t.entry f = s.entry f)
      ∧ ((s.entry e).expected = none → t.notices = (offerNotice (.storeExhausted false e k) s).notices) := by
  intro t
  obtain ⟨hself, hothers, hstore⟩ := numbered_entry e k s
  have hmoves := numbered_moves e k s
  have hchecked := (checked_new hn).1
  let u := mapStore (fun st => { st with recordExhausted := bump st.recordExhausted }) (numbered e k s)
  have hreq : requestRecord (checked e k s) = (u, none) := by
    rw [hchecked]
    exact requestRecord_none ((congrArg Store.freeRecords hstore).trans h) ((congrArg Store.reclaim hstore).trans hr)
  have ht : t = refuseFrame e k u := seekRecord_refused hreq
  obtain ⟨hentry, hout, hst, huplink, hnotices⟩ := refuseFrame_spec e k u
  have hue : ∀ f, u.entry f = (numbered e k s).entry f := fun _ => rfl
  have hus : u.store = { s.store with recordExhausted := bump s.store.recordExhausted } := by
    rw [← hstore]
    rfl
  rw [hue, hself] at hentry
  rw [ht, hentry]
  refine ⟨rfl, rfl, rfl, rfl, hst.trans hus, huplink.trans (hmoves.uplink rfl),
    fun f hf => (hout f hf).trans ((hue f).trans (hothers f hf)), fun hx => hnotices.trans ?_⟩
  exact offerNotice_congr (s := s) (t := u) _ (numbered_notices_none (.inl hx)) (hmoves.time rfl)

/-! ## The head report -/

theorem reportHead_ignored {n : PortId} {e : EntryId} {trigger : Option Half} {s : State}
    (h : trigger = none ∨ (s.entry e).current.correlated = false) : reportHead n e trigger s = s := by
  rcases h with h | h
  · rw [h]
    rfl
  · cases trigger with
    | none => rfl
    | some g => simp only [reportHead, h, Bool.false_eq_true, if_false]

theorem reportHead_matches {n : PortId} {e : EntryId} {g : Half} {s : State}
    (h : (s.entry e).current.correlated = true) : reportHead n e (some g) s = matchHead n e g s := by
  simp only [reportHead, h, if_true]

/-- What the report of a HEAD does to the generator of its port. -/
theorem headTaken_gen (e : EntryId) (n : PortId) (k : Half) (a : Attributes) (s : State) :
    (a.trigger = none ∨ (s.entry e).current.correlated = false → (headTaken e n k a s).gen n = s.gen n)
    ∧ ∀ g, a.trigger = some g → (s.entry e).current.correlated = true →
      ((∀ p ∈ (s.gen n).pendings, ¬ (p.number = g ∧ e ∈ p.outstanding)) → (headTaken e n k a s).gen n = { s.gen n with
        counters := { (s.gen n).counters with unsolicited := bump (s.gen n).counters.unsolicited } })
      ∧ ∀ older p newer, (s.gen n).pendings = older ++ p :: newer → p.number = g → e ∈ p.outstanding →
        (∀ q ∈ older, ¬ (q.number = g ∧ e ∈ q.outstanding)) →
        (headTaken e n k a s).gen n = (s.gen n).matched e older p newer := by
  obtain ⟨-, -, -, hcurrent, -, -, hstays⟩ := sought_always e k a s
  have hgen : (sought e k a s).gen n = s.gen n := by rw [State.gen, hstays.gens]; rfl
  rw [headTaken_eq]
  generalize sought e k a s = u at hcurrent hgen
  rw [← hgen, ← hcurrent]
  refine ⟨fun h => by rw [reportHead_ignored h], fun g hg hc => ⟨fun hno => ?_, fun older p newer hp hn he ho => ?_⟩⟩
  · rw [hg, reportHead_matches hc, matchHead_unsolicited hno, setGen_gen_self]
  · rw [hg, reportHead_matches hc]
    obtain ⟨b, hb⟩ := matchHead_matched hp hn he ho
    rw [hb]
    exact setGen_gen_self u n ((u.gen n).matched e older p newer)

/-! ## The event -/

/-- The port after a HEAD on channel `c`: no frame of the channel is late any more. -/
def Port.headed (s : State) (c : Channel) (p : Port) : Port := { p.arrived s with late := p.late.set c none }

theorem exec_head {n : PortId} {unit : List Byte} {c : Channel} {k : Half} {a : Attributes} {e : EntryId} {s : State}
    (h : (s.port n).state = .active) (hc : classifyDown unit = .wellFormed (.head c k a)) (hl : lookup s n c = some e) :
    exec (.downstreamUnitReceived n unit) s = .next (headAt e n c k a (s.setPort n ((s.port n).headed s c))) := by
  have hforget : forgetLate n c (s.setPort n ((s.port n).arrived s)) = s.setPort n ((s.port n).headed s c) := by
    have hmap (u : State) : forgetLate n c u = u.setPort n { u.port n with late := (u.port n).late.set c none } := rfl
    rw [hmap, setPort_port_self, setPort_setPort]
    rfl
  have hhead : disposeDown n (.head c k a) (s.setPort n ((s.port n).arrived s))
      = headAt e n c k a (s.setPort n ((s.port n).headed s c)) := by
    rw [← hforget]
    exact toEntry_some (s := forgetLate n c (s.setPort n ((s.port n).arrived s))) hl _ _
  refine congrArg Host.Outcome.next ?_
  rw [downUnit_active n unit _ s h hc, hhead]

/-- What the report of a HEAD leaves of the state `u`, in which its frame has been sought. -/
structure Reported (n : PortId) (trigger : Option Half) (s u t : State) : Prop where
  entry : ∀ f, t.entry f = u.entry f
  store : t.store = u.store
  uplink : t.uplink = u.uplink
  port : ∀ m, t.port m = s.port m
  gen : ∀ m, m ≠ n → t.gen m = s.gen m
  agent : t.agent = s.agent
  replay : t.replay = s.replay
  flash : t.flash = s.flash
  notices : trigger = none → t.notices = u.notices

theorem reportHead_reported {n : PortId} {e : EntryId} {trigger : Option Half} {s u : State} (h : Stays s u) :
    Reported n trigger s u (reportHead n e trigger u) := by
  obtain ⟨g, b, ht⟩ := reportHead_leaves n e trigger u
  have hnotices : trigger = none → (reportHead n e trigger u).notices = u.notices := fun hn => by
    rw [reportHead_ignored (.inl hn)]
  have hport (m : PortId) : u.port m = s.port m := congrArg (fun ps : Vector Port 8 => ps[m]) h.ports
  have hgen (m : PortId) : u.gen m = s.gen m := congrArg (fun gs : Vector Generator 8 => gs[m]) h.gens
  rw [ht] at hnotices ⊢
  exact ⟨fun _ => rfl, rfl, rfl, hport, fun m hm => (setGen_gen_ne u n g hm).trans (hgen m), h.agent, h.replay, h.flash,
    hnotices⟩

end Sys2Proof.Machine
end

section
/-!
Settles O16: the frame opened, refused, and sought again at an entry made IDLE by the HEAD itself.
-/

namespace Sys2Proof.Machine

open Sys2Proof

/-! ## The store behind the close of another frame -/

/-- The free record list may have grown at its tail. -/
def grown (s t : State) : Prop := ∃ more, t.store.freeRecords = s.store.freeRecords ++ more

theorem grown_refl (s : State) : grown s s := ⟨[], (List.append_nil _).symm⟩

theorem grown_trans {s t u : State} (h : grown s t) (g : grown t u) : grown s u := by
  obtain ⟨a, ha⟩ := h
  obtain ⟨b, hb⟩ := g
  exact ⟨a ++ b, by rw [hb, ha, List.append_assoc]⟩

theorem reexamine_grown (r : RecordId) (s : State) : grown s (reexamine r s) := by
  have hplace (t : State) : (placeOnReclaim r t).store.freeRecords = t.store.freeRecords := by
    unfold placeOnReclaim
    split
    · split <;> rfl
    · rfl
  have hfree : grown s (freeIfUnclaimed r s) := by
    unfold freeIfUnclaimed
    split
    · exact ⟨[r], rfl⟩
    · exact grown_refl s
  obtain ⟨more, hmore⟩ := hfree
  exact ⟨more, (hplace _).trans hmore⟩

theorem enforceDepth_grown (e : EntryId) (s : State) : grown s (enforceDepth e s) := by
  refine evictions_induction (e := e) (P := grown) grown_refl (fun s t r _ _ _ h => grown_trans ?_ h) _ s
  exact reexamine_grown r _

/-- A close appends to the free record list at most (R78). -/
theorem closeOpen_grown (e : EntryId) (r : RecordId) (c : CloseReason) (s : State) : grown s (closeOpen e r c s) := by
  have hdecided : grown s (decided e r c s) := by
    by_cases h : keptOut (s.entry e).current (s.record r) (s.entry e).ring
    case pos => rw [decided_keptOut h]; exact ⟨[], (List.append_nil _).symm⟩
    case neg =>
      obtain ⟨more, hmore⟩ := enforceDepth_grown e (joined e r (mapRecord r (Record.closing c) s))
      exact ⟨more, (congrArg Store.freeRecords (decided_retains_store h)).trans hmore⟩
  obtain ⟨more, hmore⟩ := grown_trans hdecided (reexamine_grown r (decided e r c s))
  exact ⟨more, (congrArg Store.freeRecords (closeOpen_store e r c s)).trans hmore⟩

theorem ringMember_none_iff (s : State) (e : EntryId) (k : Half) :
    ringMember s e k = none ↔ ∀ q ∈ (s.entry e).ring, (s.record q).frame ≠ k := by
  simp only [ringMember, List.find?_eq_none, beq_iff_eq, ne_eq]

/-- A frame of another number that closes brings no ring member of the number. -/
theorem closeOpen_noMember {e : EntryId} {r : RecordId} {k : Half} {s : State} (c : CloseReason)
    (h : ringMember s e k = none) (hk : (s.record r).frame ≠ k) (hn : (s.entry e).ring.Nodup)
    (hr : r ∉ (s.entry e).ring) : ringMember (closeOpen e r c s) e k = none := by
  have hring : ((closeOpen e r c s).entry e).ring = ((decided e r c s).entry e).ring := by rw [closeOpen_entry]
  have hrecord : ∀ q, (closeOpen e r c s).record q = (reexamine r (decided e r c s)).record q :=
    record_of_store (closeOpen_store e r c s)
  rw [ringMember_none_iff] at h ⊢
  rw [hring]
  intro q hq
  rw [hrecord]
  by_cases hkept : keptOut (s.entry e).current (s.record r) (s.entry e).ring
  case pos =>
    have hd := decided_keptOut (c := c) hkept
    rw [hd, mapEntry_entry_self, mapRecord_entry] at hq
    have hne : q ≠ r := fun hqr => hr (hqr ▸ hq)
    rw [(reexamine_other hne _).1, hd, mapEntry_record, mapRecord_record_ne r _ s q hne]
    exact h q hq
  case neg =>
    let j := joined e r (mapRecord r (Record.closing c) s)
    obtain ⟨hself, hothers⟩ := joined_record e r (mapRecord r (Record.closing c) s)
    obtain ⟨v, hentry⟩ := decided_retains_entry (c := c) hkept
    have hjring : (j.entry e).ring = (s.entry e).ring ++ [r] := by rw [joined_entry, mapRecord_entry]
    have hjn : (j.entry e).ring.Nodup := by
      rw [hjring]
      exact List.nodup_append'.2 ⟨hn, List.nodup_singleton r, by simpa [List.disjoint_singleton] using hr⟩
    obtain ⟨ring, hsub, hdepth⟩ := enforceDepth_entry e j
    have hqr : q ∈ ((enforceDepth e j).entry e).ring := by
      rw [hentry] at hq
      exact hq
    have hsame : (decided e r c s).record q = j.record q :=
      (record_of_store (decided_retains_store hkept) q).trans (enforceDepth_kept e j hjn hqr).1
    by_cases hne : q = r
    case neg =>
      have hmem : q ∈ (s.entry e).ring := by
        rw [hdepth] at hqr
        have hin := hsub.subset hqr
        rw [hjring, List.mem_append, List.mem_singleton] at hin
        exact hin.resolve_right hne
      rw [(reexamine_other hne _).1, hsame, hothers q hne, mapRecord_record_ne r _ s q hne]
      exact h q hmem
    case pos =>
      rw [hne, hself, closing_record] at hsame
      have hclaimed : ((decided e r c s).record r).unclaimed = false := by
        rw [hsame]
        simp [Record.unclaimed]
      rw [hne, reexamine_claimed hclaimed, hsame]
      exact hk

/-! ## Lookup -/

/-- Lookup reads of the current images the identities alone (R38). -/
theorem lookup_congr {s t : State} (h : ∀ f, (t.entry f).current.valid = (s.entry f).current.valid
    ∧ (t.entry f).current.port = (s.entry f).current.port ∧ (t.entry f).current.channel = (s.entry f).current.channel)
    (n : PortId) (c : Channel) : lookup t n c = lookup s n c := by
  refine congrArg (fun p => List.find? p allEntries) (funext fun f => ?_)
  obtain ⟨hv, hp, hc⟩ := h f
  rw [hv, hp, hc]

theorem headAgain_some {n : PortId} {c : Channel} {e : EntryId} {s : State} (h : lookup s n c = some e) (k : Half)
    (a : Attributes) : headAgain n c k a s = headTaken e n k a s := by
  rw [headAgain, h]

/-- Settles O16: a HEAD in IDLE, in DISCARDING, and in FILLING. -/
theorem headOpensFrame : Obligations.HeadOpensFrame := by
  intro n unit c k a e s hst hc hl
  refine ⟨fun ha => ?idle, fun ha hs => ?discarding, fun o r rs ha hs hfree hro hframe hmember hnodup ho => ?filling⟩
  case idle =>
    let w := s.setPort n ((s.port n).headed s c)
    have htaken : headAt e n c k a w = headTaken e n k a w := by
      simp only [headAt, w, setPort_entry, ha]
    have hexec : exec (.downstreamUnitReceived n unit) s = .next (headTaken e n k a w) :=
      (exec_head hst hc hl).trans (congrArg Host.Outcome.next htaken)
    have hwm : ringMember w e k = ringMember s e k := ringMember_congr rfl rfl k
    have hport : w.port n = (s.port n).headed s c := setPort_port_self n ((s.port n).headed s c) s
    have hports : ∀ m, m ≠ n → w.port m = s.port m := setPort_port_ne n ((s.port n).headed s c) s
    have hwo (b : NoticeBody) : (offerNotice b w).notices = (offerNotice b s).notices := offerNotice_congr b rfl rfl
    obtain ⟨hnext, hexpected, hstall, hcurrent, hgaps, hmem, hstays⟩ := sought_always e k a w
    obtain ⟨hignored, hmatched⟩ := headTaken_gen e n k a w
    have hreport : Reported n a.trigger w (sought e k a w) (headTaken e n k a w) := reportHead_reported hstays
    have hopened (r : RecordId) (rs : List RecordId) (h : s.store.freeRecords = r :: rs) :
        Opened e k a r rs w (sought e k a w) := sought_opened h
    have hrefused (h : s.store.freeRecords = []) (hr : s.store.reclaim = []) (hn : ringMember s e k = none) :=
      sought_refused (e := e) a (s := w) h hr (hwm.trans hn)
    generalize headTaken e n k a w = t at hexec hignored hmatched hreport
    generalize sought e k a w = u at hnext hexpected hstall hcurrent hgaps hmem hstays hreport hopened hrefused
    have hentry := hreport.entry
    have hrecord := record_of_store hreport.store
    have hquiet (h : s.store.freeRecords ≠ []) (hno : a.trigger = none) : t.notices = (numbered e k w).notices := by
      obtain ⟨r, rs, hr⟩ := List.exists_cons_of_ne_nil h
      exact (hreport.notices hno).trans (hopened r rs hr).notices
    refine ⟨t, hexec, ?_, ?_, ?_, ?_, (hreport.port n).trans hport,
      fun m hm => ⟨(hreport.port m).trans (hports m hm), hreport.gen m hm⟩, ?_, hreport.agent, hreport.replay,
      hreport.flash, fun x hx hcont hkx => ⟨?_, fun hf hno => ?_⟩, fun hsame => ⟨?_, fun hf hno => ?_⟩, hignored, hmatched,
      fun r rs hr => ?opens, fun hf hr hn => ?refused⟩
    · rw [hentry, hnext]
    · rw [hentry, hexpected]
    · rw [hentry, hstall]
      rfl
    · rw [hentry, hcurrent]
      rfl
    · rw [hreport.store, hmem]
      rfl
    · rw [hentry, hgaps]
      exact gapsAfter_gap hx hcont hkx
    · exact ((hquiet hf hno).trans (numbered_notices_gap (s := w) hx hcont hkx)).trans (hwo _)
    · rw [hentry, hgaps]
      exact gapsAfter_none hsame
    · rw [hquiet hf hno]
      exact numbered_notices_none (s := w) hsame
    case refused =>
      obtain ⟨h1, h2, h3, h4, h5, h6, h7, h8⟩ := hrefused hf hr hn
      rw [hentry]
      exact ⟨h1, h2, h3, h4, hreport.store.trans h5, hreport.uplink.trans h6, fun f hf => (hentry f).trans (h7 f hf),
        fun hno hx => (hreport.notices hno).trans ((h8 hx).trans (hwo _))⟩
    case opens =>
      have h := hopened r rs hr
      obtain ⟨b, hrec⟩ := h.record
      obtain ⟨hring, hreplaced⟩ := h.checked
      obtain ⟨hnumbered, -, -⟩ := numbered_entry e k w
      rw [hrecord, hentry, hrec]
      refine ⟨h.assembly, rfl, rfl, rfl, rfl, rfl, rfl, rfl, rfl, rfl, rfl, rfl, h.queue, h.skipped,
        hreport.uplink.trans h.uplink, fun f hf => (hentry f).trans (h.others f hf), fun hn => ?_,
        fun d hd => ⟨fun hg => ?_, fun hg => ?_⟩⟩
      · obtain ⟨hchecked, hbar⟩ := checked_new (hwm.trans hn)
        obtain ⟨hfree, hrecords, hpages, hreclaim⟩ := h.new (hwm.trans hn)
        rw [hchecked, hnumbered] at hring
        rw [hreport.store]
        exact ⟨hbar, hring, hfree, fun x hx => (hrecord x).trans (hrecords x hx), hpages, hreclaim⟩
      · obtain ⟨hr', hd', hbar⟩ := checked_replaces (hwm.trans hd) hg
        exact ⟨hbar, hring.trans hr', hreplaced.trans hd'⟩
      · obtain ⟨hchecked, hbar⟩ := checked_guarded (hwm.trans hd) hg
        rw [hchecked, hnumbered] at hring hreplaced
        exact ⟨hbar, hring, hreplaced⟩
  case discarding =>
    let x : Entry := { s.entry e with assembly := .idle, stall := none, nextIndex := 1 }
    let p := (s.port n).headed s c
    let v := s.setEntry e x
    have hself : v.entry e = x := mapEntry_entry_self e (fun _ => x) s
    have hothers : ∀ f, f ≠ e → v.entry f = s.entry f := mapEntry_entry_ne e (fun _ => x) s
    have hlookup : ∀ q, lookup (v.setPort n q) n c = some e := fun q => by
      refine (lookup_congr (s := s) (fun f => ?_) n c).trans hl
      by_cases hf : f = e
      case pos => rw [hf, setPort_entry, hself]; exact ⟨rfl, rfl, rfl⟩
      case neg => rw [setPort_entry, hothers f hf]; exact ⟨rfl, rfl, rfl⟩
    have hleft : exec (.downstreamUnitReceived n unit) s = .next (headTaken e n k a (v.setPort n p)) := by
      refine (exec_head hst hc hl).trans (congrArg Host.Outcome.next ?_)
      have hidle : returnToIdle e .unterminated (s.setPort n p) = v.setPort n p :=
        returnToIdle_discarding (s := s.setPort n p) ha hs .unterminated
      simp only [headAt, setPort_entry, ha]
      rw [hidle]
      exact headAgain_some (hlookup p) k a
    have hright : exec (.downstreamUnitReceived n unit) v = .next (headTaken e n k a (v.setPort n p)) := by
      refine (exec_head (s := v) (e := e) hst hc ?_).trans (congrArg Host.Outcome.next ?_)
      · have h := hlookup (v.port n)
        rwa [setPort_port] at h
      · have hidle : (v.entry e).assembly = .idle := by rw [hself]
        simp only [headAt, setPort_entry, hidle]
        rfl
    exact hleft.trans hright.symm
  case filling =>
    let w := s.setPort n ((s.port n).headed s c)
    have hidle : returnToIdle e .unterminated w = closeOpen e o .unterminated w :=
      returnToIdle_filling (s := w) ha hs .unterminated
    have hclosed := closeOpen_frameClosed e o .unterminated w
    have himages := (closeOpen_images e o .unterminated w).2
    have hrecordo := closeOpen_record e o .unterminated w
    have hno : ringMember (closeOpen e o .unterminated w) e k = none :=
      closeOpen_noMember .unterminated ((ringMember_congr (s := s) (t := w) rfl rfl k).trans hmember) hframe hnodup ho
    have hgrown := closeOpen_grown e o .unterminated w
    have hout := (returnToIdle_entry e .unterminated w).1
    rw [hidle] at hout
    have hleft : exec (.downstreamUnitReceived n unit) s
        = .next (headAgain n c k a (closeOpen e o .unterminated w)) := by
      refine (exec_head hst hc hl).trans (congrArg Host.Outcome.next ?_)
      simp only [headAt, setPort_entry, ha]
      exact congrArg (headAgain n c k a) hidle
    generalize closeOpen e o .unterminated w = v at hclosed himages hrecordo hno hgrown hout hleft
    have hlookup : lookup v n c = some e := by
      refine (lookup_congr (s := s) (fun f => ?_) n c).trans hl
      by_cases hf : f = e
      case pos => rw [hf, himages]; exact ⟨rfl, rfl, rfl⟩
      case neg => rw [hout f hf]; exact ⟨rfl, rfl, rfl⟩
    obtain ⟨more, hmore⟩ := hgrown
    have hfreev : v.store.freeRecords = r :: (rs ++ more) := hmore.trans (congrArg (· ++ more) hfree)
    have h := sought_opened (e := e) (k := k) (a := a) hfreev
    obtain ⟨hnext, hexpected, -, -, -, -, hstays⟩ := sought_always e k a v
    have hreport : Reported n a.trigger v (sought e k a v) (headTaken e n k a v) := reportHead_reported hstays
    have hbar := (checked_new hno).2
    obtain ⟨b, hrec⟩ := h.record
    obtain ⟨-, hrecords, -, -⟩ := h.new hno
    have hentry := hreport.entry
    have hrecord := record_of_store hreport.store
    have hold : (headTaken e n k a v).record o = v.record o := (hrecord o).trans (hrecords o hro.symm)
    refine ⟨headTaken e n k a v, hleft.trans (congrArg Host.Outcome.next (headAgain_some hlookup k a)), ?_⟩
    rw [hold, hrecord, hentry, hrec]
    exact ⟨h.assembly, hnext, hexpected, rfl, rfl, rfl, rfl, rfl, hbar, h.framesIn.trans hclosed.1,
      h.framesDamaged.trans (hclosed.2.1 (.inr nofun)), hrecordo.imp id fun hc => ⟨hc.1, hc.2.1⟩⟩

end Sys2Proof.Machine
end

section
/-!
The arbiter: which source a grant serves, and what it starts. Settles O32 and O33.
-/

namespace Sys2Proof.Machine

open Sys2Proof

/-! ## The first of a range -/

/-- The range up to a number, with the smaller ones before it. -/
theorem finRange_split {m : Nat} (k : Fin m) :
    ∃ before after, List.finRange m = before ++ k :: after ∧ ∀ j ∈ before, j < k := by
  have hk : k.val < (List.finRange m).length := by rw [List.length_finRange]; exact k.isLt
  have hat : (List.finRange m)[k.val] = k := by rw [List.getElem_finRange]; rfl
  refine ⟨(List.finRange m).take k.val, (List.finRange m).drop (k.val + 1), ?_, fun j hj => ?_⟩
  · have hdrop := List.getElem_cons_drop hk
    rw [hat] at hdrop
    rw [hdrop, List.take_append_drop]
  · obtain ⟨i, hi, rfl⟩ := List.mem_take_iff_getElem.1 hj
    rw [List.getElem_finRange]
    exact Fin.lt_def.2 (Nat.lt_of_lt_of_le hi (Nat.min_le_left _ _))

theorem find?_finRange {m : Nat} {f : Fin m → Bool} {k : Fin m} (hk : f k = true) (h : ∀ j < k, f j = false) :
    (List.finRange m).find? f = some k := by
  obtain ⟨before, after, hsplit, hlt⟩ := finRange_split k
  rw [hsplit, List.find?_append, List.find?_eq_none.2 fun j hj => by rw [h j (hlt j hj)]; exact Bool.false_ne_true]
  exact List.find?_cons_of_pos hk

theorem findSome?_finRange {m : Nat} {α : Type} {f : Fin m → Option α} {k : Fin m} {a : α} (hk : f k = some a)
    (h : ∀ j < k, f j = none) : (List.finRange m).findSome? f = some a := by
  obtain ⟨before, after, hsplit, hlt⟩ := finRange_split k
  rw [hsplit, List.findSome?_append, List.findSome?_eq_none_iff.2 fun j hj => h j (hlt j hj), List.findSome?_cons, hk]
  rfl

/-! ## The class and member served (R104 to R106) -/

theorem nextMember_none {s : State} {c : ClassId} (h : ∀ p, memberOffer s c p = none) : nextMember s c = none := by
  refine List.find?_eq_none.2 fun p _ => ?_
  rw [h p]
  exact Bool.false_ne_true

theorem nextMember_turn {s : State} {c : ClassId} {p : Fin 33} {o : Offer} (hp : memberOffer s c p = some o)
    (h : ∀ k < p - s.uplink.starts[c], memberOffer s c (s.uplink.starts[c] + k) = none) : nextMember s c = some p := by
  have hat : s.uplink.starts[c] + (p - s.uplink.starts[c]) = p := add_sub_cancel _ _
  have hfirst : (List.finRange 33).find? ((fun q => (memberOffer s c q).isSome) ∘ fun k => s.uplink.starts[c] + k)
      = some (p - s.uplink.starts[c]) :=
    find?_finRange (by simp only [Function.comp_apply, hat, hp, Option.isSome_some])
      fun j hj => by simp only [Function.comp_apply, h j hj, Option.isSome_none]
  rw [nextMember, List.find?_map, hfirst, Option.map_some, hat]

theorem nextFrameSource_none {s : State} (h : ∀ c p, memberOffer s c p = none) : nextFrameSource s = none :=
  List.findSome?_eq_none_iff.2 fun c _ => by rw [nextMember_none (h c), Option.map_none]

theorem nextFrameSource_turn {s : State} {c : ClassId} {p : Fin 33} {o : Offer} (hp : memberOffer s c p = some o)
    (hclasses : ∀ c' < c, ∀ q, memberOffer s c' q = none)
    (h : ∀ k < p - s.uplink.starts[c], memberOffer s c (s.uplink.starts[c] + k) = none) :
    nextFrameSource s = some (c, p) :=
  findSome?_finRange (by rw [nextMember_turn hp h, Option.map_some])
    fun c' hc' => by rw [nextMember_none (hclasses c' hc'), Option.map_none]

/-! ## The grant -/

theorem grant_arbitrates {s : State} (ha : s.uplink.state = .active) (ht : s.uplink.tx = none) :
    exec .uplinkGrant s = .next (arbitrate s) := congrArg Host.Outcome.next (if_pos ⟨ha, ht⟩)

theorem grant_not {s : State} (h : s.uplink.state ≠ .active ∨ s.uplink.tx ≠ none) : exec .uplinkGrant s = .next s :=
  congrArg Host.Outcome.next (if_neg fun ⟨ha, ht⟩ => h.elim (absurd ha) (absurd ht))

theorem arbitrate_frame {s : State} (hr : s.agent.replies = []) (hn : s.notices.queue = []) :
    arbitrate s = grantFrame s := by
  simp only [arbitrate, hr, hn]

/-- A grant to the position that has its turn. -/
theorem exec_grant_turn {s : State} {c : ClassId} {p : Fin 33} {o : Offer} (h : s.turn c p)
    (hp : memberOffer s c p = some o) : exec .uplinkGrant s
      = .next (mapUplink (fun u => { u with starts := u.starts.set c (p + 1) }) (grantPosition p o s)) := by
  obtain ⟨ha, ht, hr, hn, hclasses, hbefore⟩ := h
  rw [grant_arbitrates ha ht, arbitrate_frame hr hn]
  simp only [grantFrame, nextFrameSource_turn hp hclasses hbefore, grantMember, hp]

/-- Settles O32, by the queue that is first to hold something. -/
theorem grantServesQueuesFirst : Obligations.GrantServesQueuesFirst := by
  intro s
  refine ⟨fun ha ht => ⟨fun r rs hr => ?_, fun m ms hr hn => ?_, fun hr hn hnone => ?_⟩, grant_not⟩
  · rw [grant_arbitrates ha ht, arbitrate, hr]
    rfl
  · rw [grant_arbitrates ha ht, arbitrate, hr, hn]
    rfl
  · rw [grant_arbitrates ha ht, arbitrate_frame hr hn, grantFrame, nextFrameSource_none hnone]
    rfl

/-! ## What a forwarding offers (R101) -/

theorem cutNext_whole {k : Cursor} {closed : Bool} {stored : Nat} (ht : k.tailGranted = false)
    (h : k.segSize ≤ stored - k.bytes) : cutNext (some k) closed stored = some (.body k.segSize) := by
  simp only [cutNext, ht, Bool.false_eq_true, if_false, if_pos h]

theorem cutNext_rest {k : Cursor} {stored : Nat} (ht : k.tailGranted = false) (h0 : 0 < stored - k.bytes)
    (h : stored - k.bytes < k.segSize) : cutNext (some k) true stored = some (.body (stored - k.bytes)) := by
  simp only [cutNext, ht, Bool.false_eq_true, if_false, if_neg (Nat.not_le_of_lt h), Bool.not_true,
    if_pos (Nat.lt_of_sub_pos h0)]

theorem cutNext_tail {k : Cursor} {stored : Nat} (ht : k.tailGranted = false) (h : stored ≤ k.bytes)
    (h0 : 0 < k.segSize) : cutNext (some k) true stored = some .tail := by
  have hsent : ¬ k.segSize ≤ stored - k.bytes := by omega
  simp only [cutNext, ht, Bool.false_eq_true, if_false, if_neg hsent, Bool.not_true, if_neg (Nat.not_lt_of_le h)]

theorem closeCode_some {x : Record} {why : CloseReason} (h : x.close = some why) :
    (x.close.map CloseReason.code).getD 0 = why.code := by
  rw [h]
  rfl

theorem memberOffer_live {s : State} {c : ClassId} {p : Fin 33} {e : EntryId} {r : RecordId} {rs : List RecordId}
    (hp : p.val = e.val) (hc : (s.entry e).current.priority = c) (hq : (s.entry e).forwardQueue = r :: rs) :
    memberOffer s c p = cutNext (s.entry e).cursor ((s.record r).state == .closed) (s.record r).bytes
      ∧ ∀ o, grantPosition p o s = grantLive e r o s := by
  have hlt : p.val < 32 := hp ▸ e.isLt
  have hpos : positionEntry p = some e := by
    rw [positionEntry, dif_pos hlt]
    exact congrArg some (Fin.ext hp)
  refine ⟨?_, fun o => ?_⟩
  · simp only [memberOffer, hpos, if_pos hc, liveOffer, hq]
  · simp only [grantPosition, hpos, hq]

theorem memberOffer_replay {s : State} {c : ClassId} {r : RecordId} (hc : s.uplink.replayClass = c)
    (hr : s.replay.pinned = some r) :
    memberOffer s c 32 = replayOffer s ∧ ∀ o, grantPosition 32 o s = grantReplay r o s := by
  have hpos : positionEntry 32 = none := dif_neg (by decide)
  refine ⟨?_, fun o => ?_⟩
  · simp only [memberOffer, hpos, if_pos hc]
  · simp only [grantPosition, hpos, hr]

/-- Settles O33, segment by segment, for an entry and for the replay engine. -/
theorem grantRotatesWithinClass : Obligations.GrantRotatesWithinClass := by
  refine ⟨?live, ?replay⟩
  case live =>
    intro s c p e r rs hturn hp hc hq x
    obtain ⟨hoffer, hgrant⟩ := memberOffer_live hp hc hq
    have hexec (o : Offer) (h : memberOffer s c p = some o) := exec_grant_turn hturn h
    simp only [hoffer, hgrant] at hexec
    refine ⟨fun hk => ?_, fun k hk htail => ⟨fun len hlen => ?_, fun why hclosed hwhy hsent hsize => ?_⟩⟩
    · rw [hk] at hexec
      rw [hexec .head rfl, grantLive, hk]
      rfl
    · have hbody : cutNext (some k) ((s.record r).state == .closed) (s.record r).bytes = some (.body len) := by
        rcases hlen with ⟨rfl, hle⟩ | ⟨rfl, h0, hlt, hclosed⟩
        · exact cutNext_whole htail hle
        · rw [beq_iff_eq.2 hclosed]
          exact cutNext_rest htail h0 hlt
      rw [hk] at hexec
      rw [hexec _ hbody, grantLive, hk]
      rfl
    · have hlast : cutNext (some k) ((s.record r).state == .closed) (s.record r).bytes = some .tail := by
        rw [beq_iff_eq.2 hclosed]
        exact cutNext_tail htail hsent hsize
      rw [hk] at hexec
      rw [hexec _ hlast, grantLive, hk]
      simp only [cutSegment, closeCode_some (x := s.record r) hwhy]
      rfl
  case replay =>
    intro s c q qs r hturn hc hq hr x
    obtain ⟨hoffer, hgrant⟩ := memberOffer_replay hc hr
    have hexec (o : Offer) (h : memberOffer s c 32 = some o) := exec_grant_turn hturn h
    simp only [hoffer, hgrant, replayOffer, hr] at hexec
    have hhead : headRequest s = (q.id, q.entry) := by simp only [headRequest, hq]
    refine ⟨fun hsending hk => ?_, fun k hk htail => ⟨fun len hsending hlen => ?_,
      fun why hsending hwhy hsent hsize => ?_, fun hclosing => ?_⟩⟩
    · rw [hsending, hk] at hexec
      rw [hexec .head rfl, grantReplay, hk, hhead]
      rfl
    · have hbody : cutNext (some k) true (s.record r).bytes = some (.body len) := by
        rcases hlen with ⟨rfl, hle⟩ | ⟨rfl, h0, hlt⟩
        · exact cutNext_whole htail hle
        · exact cutNext_rest htail h0 hlt
      rw [hsending, hk] at hexec
      rw [hexec _ hbody, grantReplay, hk, hhead]
      rfl
    · rw [hsending, hk] at hexec
      rw [hexec _ (cutNext_tail htail hsent hsize), grantReplay, hk, hhead]
      simp only [cutSegment, closeCode_some (x := s.record r) hwhy]
      rfl
    · rw [hclosing, hk] at hexec
      have hclose : closingOffer (some k) = some .abortedTail := by
        simp only [closingOffer, htail, Bool.false_eq_true, if_false]
      rw [hexec _ hclose, grantReplay, hk, hhead]
      rfl

end Sys2Proof.Machine
end

section
/-!
The replay engine: the frames that are settled at a take, the pin, and the end of a request. Settles O38, O39 and O40.
-/

namespace Sys2Proof.Machine

open Sys2Proof

/-! ## The head request -/

/-- `s` with `q` at the head of the replay queue and `qs` behind it. -/
def withHead (q : ReplayRequest) (qs : List ReplayRequest) : State → State := mapReplay fun v => { v with queue := q :: qs }

theorem mapHead_eq {s : State} {q : ReplayRequest} {qs : List ReplayRequest} (f : ReplayRequest → ReplayRequest)
    (h : s.replay.queue = q :: qs) : mapHead f s = withHead (f q) qs s := by
  simp only [mapHead, mapReplay, withHead, h]

/-- The request after `k` more frames have got outcome `o`. -/
def ReplayRequest.settled (k : Nat) (o : FrameOutcome) (q : ReplayRequest) : ReplayRequest :=
  { q with outcomes := q.outcomes ++ List.replicate k o }

/-- The frame `j` places on has outcome `o` without a pin: STREAM_GONE for all, or MISSING for one that is no ring member
(R119). -/
def settles (s : State) (q : ReplayRequest) (o : FrameOutcome) (j : Nat) : Prop :=
  q.gone = true ∧ o = .streamGone
    ∨ q.gone = false ∧ o = .missing
      ∧ ringMember s q.entry (q.first + BitVec.ofNat 16 (q.outcomes.length + j)) = none

/-- Frames without a pin are settled one by one. -/
theorem advance_settles {o : FrameOutcome} {qs : List ReplayRequest} (m k : Nat) (q : ReplayRequest) (s : State)
    (hq : s.replay.queue = q :: qs) (hk : q.outcomes.length + k ≤ q.count) (h : ∀ j < k, settles s q o j) :
    advance (k + m) s = advance m (withHead (q.settled k o) qs s) := by
  induction k generalizing q s with
  | zero =>
    have hsame : withHead (q.settled 0 o) qs s = s := by
      have hq0 : q.settled 0 o = q := by simp [ReplayRequest.settled]
      rw [hq0, withHead, mapReplay, ← hq]
    rw [Nat.zero_add, hsame]
  | succ k ih =>
    have hstep : advance (k + 1 + m) s = advance (k + m) (mapHead (.settle o) s) := by
      have hlt : ¬ q.count ≤ q.outcomes.length := by omega
      rw [show k + 1 + m = (k + m) + 1 by omega]
      rcases h 0 (Nat.succ_pos k) with ⟨hg, rfl⟩ | ⟨hg, rfl, hnone⟩
      · simp only [advance, hq, if_neg hlt, hg, if_true]
      · have hframe : ringMember s q.entry q.frame = none := hnone
        simp only [advance, hq, if_neg hlt, hg, Bool.false_eq_true, if_false, hframe]
    have hnext : ∀ j < k, settles (withHead (q.settle o) qs s) (q.settle o) o j := fun j hj => by
      have hlen : (q.settle o).outcomes.length + j = q.outcomes.length + (j + 1) := by
        simp only [ReplayRequest.settle, List.length_append, List.length_singleton]
        omega
      rcases h (j + 1) (Nat.succ_lt_succ hj) with hgone | ⟨hg, ho, hnone⟩
      · exact .inl hgone
      · exact .inr ⟨hg, ho, by rw [hlen]; exact hnone⟩
    have hroom : (q.settle o).outcomes.length + k ≤ (q.settle o).count := by
      simp only [ReplayRequest.settle, List.length_append, List.length_singleton]
      omega
    have hdone : (q.settle o).settled k o = q.settled (k + 1) o := by
      simp only [ReplayRequest.settled, ReplayRequest.settle, List.append_assoc, List.replicate_succ]
      rfl
    rw [hstep, mapHead_eq (.settle o) hq, ih (q.settle o) _ rfl hroom hnext, hdone]
    rfl

/-- With every outcome decided the engine stays. -/
theorem advance_decided {qs : List ReplayRequest} {m : Nat} {q : ReplayRequest} {s : State}
    (hq : s.replay.queue = q :: qs) (h : q.count ≤ q.outcomes.length) : advance m s = s := by
  cases m with
  | zero => rfl
  | succ m => simp only [advance, hq, if_pos h]

/-- A frame that is a ring member is pinned. -/
theorem advance_pins {qs : List ReplayRequest} {m : Nat} {q : ReplayRequest} {s : State} {r : RecordId}
    (hq : s.replay.queue = q :: qs) (h : q.outcomes.length < q.count) (hg : q.gone = false)
    (hr : ringMember s q.entry q.frame = some r) : advance (m + 1) s = startSending r s := by
  simp only [advance, hq, if_neg (Nat.not_le_of_lt h), hg, Bool.false_eq_true, if_false, hr]

/-- The end of the head request (R122). -/
theorem endHead_eq {qs : List ReplayRequest} {q : ReplayRequest} {s : State} (hq : s.replay.queue = q :: qs) :
    endHead s = { offerNotice q.done s with
      replay := { s.replay with queue := qs, engine := .idle, pinned := none, cursor := none } } := by
  simp only [endHead, hq]
  exact congrArg (fun v : ReplayService => { offerNotice q.done s with
    replay := { v with queue := qs, engine := .idle, pinned := none, cursor := none } }) (offerNotice_replay q.done s)

/-! ## The pin -/

theorem takePin_eq (r : RecordId) (s : State) : takePin r s = { s with store := { s.store with
    records := s.store.records.set r { s.record r with pin := true }, reclaim := s.store.reclaim.erase r } } := by
  have hself : (mapRecord r (fun x => { x with pin := true }) s).record r = { s.record r with pin := true } :=
    mapRecord_record_self r _ s
  have hpinned : ((mapRecord r (fun x => { x with pin := true }) s).record r).reclaimable = false := by
    rw [hself]
    simp [Record.reclaimable]
  rw [takePin, placeOnReclaim, if_neg (by rw [hpinned]; exact Bool.false_ne_true)]
  rfl

/-- The unpin touches the notices of no unit and leaves the record without a pin (R89). -/
theorem unpin_pin (r : RecordId) (s : State) : ((unpin r s).record r).pin = false := by
  let u := mapRecord r (fun x => { x with pin := false }) s
  have hreexamined (q : RecordId) (t : State) (h : (t.record r).pin = false) : ((reexamine q t).record r).pin = false := by
    by_cases hq : r = q
    case pos =>
      rcases reexamine_self r t with hs | hs
      · rw [← hq, hs]; exact h
      · rw [← hq, hs]; rfl
    case neg => rw [(reexamine_other hq t).1]; exact h
  have hstep (t v : State) (q : RecordId)
      (ih : ((evict (s.record r).entry q t).record r).pin = false → (v.record r).pin = false)
      (h : (t.record r).pin = false) : (v.record r).pin = false := by
    refine ih (hreexamined q _ ?_)
    by_cases hq : r = q
    case pos => rw [← hq, mapRecord_record_self]; exact h
    case neg => rw [mapRecord_record_ne q _ _ r hq]; exact h
  have hdepth : ((enforceDepth (s.record r).entry u).record r).pin = false :=
    evictions_induction (e := (s.record r).entry) (P := fun t v => (t.record r).pin = false → (v.record r).pin = false)
      (fun _ h => h) (fun t v q _ _ _ ih => hstep t v q ih) _ u (by rw [mapRecord_record_self])
  exact hreexamined r _ hdepth

theorem unpin_quiet (r : RecordId) (s : State) : Offers s (unpin r s) [] := by
  have hflag : Offers s (mapRecord r (fun x => { x with pin := false }) s) [] := ⟨rfl, rfl⟩
  exact (hflag.after (enforceDepth_quiet _ _)).after (reexamine_quiet r _)

/-! ## The takes -/

theorem replayDue_iff (s : State) :
    replayDue s = true ↔ s.replay.engine = .idle ∧ s.uplink.state = .active ∧ s.replay.queue ≠ [] := by
  simp only [replayDue, Bool.and_eq_true, beq_iff_eq, Bool.not_eq_true', List.isEmpty_eq_false_iff, and_assoc, ne_eq]

theorem takeRequests_not {k : Nat} {s : State} (h : replayDue s = false) : takeRequests k s = s := by
  cases k with
  | zero => rfl
  | succ k => simp only [takeRequests, h, Bool.false_eq_true, if_false]

/-- Outside IDLE, or with the uplink not ACTIVE, or with no request, nothing is taken (R118). -/
theorem replayTakes_not {s : State} (h : s.replay.engine ≠ .idle ∨ s.uplink.state ≠ .active ∨ s.replay.queue = []) :
    replayTakes s = s := by
  refine takeRequests_not (Bool.eq_false_iff.2 fun hd => ?_)
  obtain ⟨he, hu, hq⟩ := (replayDue_iff s).1 hd
  rcases h with h | h | h
  · exact h he
  · exact h hu
  · exact hq h

section taken

variable {q : ReplayRequest} {qs : List ReplayRequest} {s : State}

theorem takeHead_eq (hq : s.replay.queue = q :: qs) :
    takeHead s = advance q.count (withHead { q with active := true } qs s) := by
  have hmap := mapHead_eq (fun x => { x with active := true }) hq
  simp only [takeHead, hq, hmap]

/-- A take that pins. -/
theorem replayTakes_pins {t : State} {r : RecordId} (hq : s.replay.queue = q :: qs) (he : s.replay.engine = .idle)
    (hu : s.uplink.state = .active) (ht : takeHead s = t) (hr : t.replay.pinned = some r) : replayTakes s = t := by
  have hdue : replayDue s = true := (replayDue_iff s).2 ⟨he, hu, by rw [hq]; exact List.cons_ne_nil q qs⟩
  rw [replayTakes, hq, List.length_cons, takeRequests]
  simp only [hdue, if_true, ht, hr, Option.isSome_some]

/-- A take that pins nothing ends the request, and the taking goes on. -/
theorem replayTakes_ends {t : State} (hq : s.replay.queue = q :: qs) (he : s.replay.engine = .idle)
    (hu : s.uplink.state = .active) (ht : takeHead s = t) (hr : t.replay.pinned = none)
    (hn : (endHead t).replay.queue = qs) : replayTakes s = replayTakes (endHead t) := by
  have hdue : replayDue s = true := (replayDue_iff s).2 ⟨he, hu, by rw [hq]; exact List.cons_ne_nil q qs⟩
  rw [replayTakes, hq, List.length_cons, takeRequests, replayTakes, hn]
  simp only [hdue, if_true, ht, hr, Option.isSome_none, Bool.false_eq_true, if_false]

/-- The first ring member among the frames of a request is pinned, the frames before it are MISSING (R119). -/
theorem takeHead_pins {k : Nat} {r : RecordId} (hq : s.replay.queue = q :: qs) (ho : q.outcomes = []) (hg : q.gone = false)
    (hk : k < q.count) (hmissing : ∀ j < k, ringMember s q.entry (q.first + BitVec.ofNat 16 j) = none)
    (hr : ringMember s q.entry (q.first + BitVec.ofNat 16 k) = some r) :
    takeHead s = startSending r (withHead { q with active := true, outcomes := List.replicate k .missing } qs s) := by
  let a : ReplayRequest := { q with active := true }
  obtain ⟨m, hm⟩ : ∃ m, q.count = k + (m + 1) := ⟨q.count - k - 1, by omega⟩
  have hlen : a.outcomes.length = 0 := congrArg List.length ho
  have hsettles : ∀ j < k, settles (withHead a qs s) a .missing j := fun j hj =>
    .inr ⟨hg, rfl, by rw [hlen, Nat.zero_add]; exact hmissing j hj⟩
  have hsettled : a.settled k .missing = { q with active := true, outcomes := List.replicate k .missing } := by
    simp only [ReplayRequest.settled, a, ho, List.nil_append]
  have hadvance := advance_settles (m + 1) k a (withHead a qs s) rfl (by rw [hlen, Nat.zero_add]; exact hk.le) hsettles
  rw [hsettled, ← hm] at hadvance
  rw [takeHead_eq hq]
  refine hadvance.trans (advance_pins rfl ?_ hg ?_)
  · simp only [List.length_replicate]
    exact hk
  · simp only [ReplayRequest.frame, List.length_replicate]
    exact hr

/-- A request none of whose frames can be pinned has all its outcomes at the take (R119). -/
theorem takeHead_decides {o : FrameOutcome} (hq : s.replay.queue = q :: qs) (ho : q.outcomes = [])
    (h : ∀ j < q.count, settles s q o j) :
    takeHead s = withHead { q with active := true, outcomes := List.replicate q.count o } qs s := by
  let a : ReplayRequest := { q with active := true }
  have hlen : a.outcomes.length = 0 := congrArg List.length ho
  have hsettled : a.settled q.count o = { q with active := true, outcomes := List.replicate q.count o } := by
    simp only [ReplayRequest.settled, a, ho, List.nil_append]
  have hadvance := advance_settles (s := withHead a qs s) 0 q.count a rfl (by rw [hlen, Nat.zero_add]) h
  rw [hsettled] at hadvance
  rw [takeHead_eq hq]
  exact hadvance

end taken

theorem offerNotice_mapReplay (b : NoticeBody) (f : ReplayService → ReplayService) (s : State) :
    offerNotice b (mapReplay f s) = mapReplay f (offerNotice b s) := by
  have hn : (offerNotice b (mapReplay f s)).notices = (offerNotice b s).notices := offerNotice_congr b rfl rfl
  rw [offerNotice_eq b (mapReplay f s), hn, offerNotice_eq b s]
  rfl

/-- Settles O40: the frame pinned at a take, the request that ends at it, and the events without a take. -/
theorem replayTakeServesHead : Obligations.ReplayTakeServesHead := by
  intro s q qs hq
  refine ⟨?due, fun h => ?stays⟩
  case stays =>
    have hnot : s.replay.engine ≠ .idle ∨ s.uplink.state ≠ .active ∨ s.replay.queue = [] := h.imp id .inl
    exact congrArg Host.Outcome.next (replayTakes_not hnot)
  case due =>
  intro he hu ho hcount missing
  refine ⟨fun k r hg hk hm hr => ?pins, ?ends⟩
  case pins =>
    have htake := takeHead_pins hq ho hg hk hm hr
    refine congrArg Host.Outcome.next ((replayTakes_pins (r := r) hq he hu htake rfl).trans ?_)
    rw [startSending, takePin_eq]
    rfl
  case ends =>
    intro o ho' hpinned t
    have hsettles : ∀ j < q.count, settles s q o j := fun j hj => by
      rcases ho' with ⟨hg, rfl⟩ | ⟨hg, hm, rfl⟩
      · exact .inl ⟨hg, rfl⟩
      · exact .inr ⟨hg, rfl, by rw [ho]; simpa only [List.length_nil, Nat.zero_add] using hm j hj⟩
    let a : ReplayRequest := { q with active := true, outcomes := List.replicate q.count o }
    have htake : takeHead s = withHead a qs s := takeHead_decides hq ho hsettles
    have hend : endHead (withHead a qs s) = t := by
      rw [endHead_eq (s := withHead a qs s) rfl, withHead, offerNotice_mapReplay]
      rfl
    have hgoes := replayTakes_ends hq he hu htake hpinned (by rw [hend])
    rw [hend] at hgoes
    exact ⟨congrArg Host.Outcome.next hgoes, fun hqs =>
      congrArg Host.Outcome.next (hgoes.trans (replayTakes_not (.inr (.inr hqs))))⟩

/-! ## The engine beside the agent -/

section agent

variable (f : Agent → Agent)

theorem startSending_mapAgent (r : RecordId) (s : State) : startSending r (mapAgent f s) = mapAgent f (startSending r s) := by
  rw [startSending, startSending, takePin_eq, takePin_eq]
  rfl

theorem advance_mapAgent (k : Nat) (s : State) : advance k (mapAgent f s) = mapAgent f (advance k s) := by
  induction k generalizing s with
  | zero => rfl
  | succ k ih =>
    cases hq : s.replay.queue with
    | nil => simp only [advance, mapAgent_replay, hq]
    | cons q qs =>
      have hhead (g : ReplayRequest → ReplayRequest) : mapHead g (mapAgent f s) = mapAgent f (mapHead g s) := rfl
      have hmember : ringMember (mapAgent f s) q.entry q.frame = ringMember s q.entry q.frame := rfl
      simp only [advance, mapAgent_replay, hq, hhead, hmember, ih]
      by_cases hd : q.count ≤ q.outcomes.length
      case pos => rw [if_pos hd, if_pos hd]
      case neg =>
        rw [if_neg hd, if_neg hd]
        cases q.gone
        case true => rfl
        case false =>
          cases ringMember s q.entry q.frame with
          | none => rfl
          | some r => exact startSending_mapAgent f r s

theorem endHead_mapAgent (s : State) : endHead (mapAgent f s) = mapAgent f (endHead s) := by
  cases hq : s.replay.queue with
  | nil => simp only [endHead, mapAgent_replay, hq]
  | cons q qs =>
    rw [endHead_eq (s := mapAgent f s) hq, endHead_eq hq, offerNotice_mapAgent]
    rfl

theorem takeRequests_mapAgent (k : Nat) (s : State) : takeRequests k (mapAgent f s) = mapAgent f (takeRequests k s) := by
  induction k generalizing s with
  | zero => rfl
  | succ k ih =>
    have hdue : replayDue (mapAgent f s) = replayDue s := rfl
    have htake : takeHead (mapAgent f s) = mapAgent f (takeHead s) := by
      cases hq : s.replay.queue with
      | nil => simp only [takeHead, mapAgent_replay, hq]
      | cons q qs =>
        rw [takeHead_eq (s := mapAgent f s) hq, takeHead_eq hq]
        exact advance_mapAgent f q.count (withHead { q with active := true } qs s)
    simp only [takeRequests, hdue, htake, endHead_mapAgent, ih, mapAgent_replay]
    cases replayDue s
    case false => rfl
    case true =>
      cases (takeHead s).replay.pinned with
      | none => rfl
      | some r => rfl

/-- The takes leave the agent alone, and do not look at it. -/
theorem replayTakes_mapAgent (s : State) : replayTakes (mapAgent f s) = mapAgent f (replayTakes s) :=
  takeRequests_mapAgent f s.replay.queue.length s

end agent

/-! ## REPLAY (R115, R116) -/

theorem freeReplayId_nonzero (k : Nat) (q : List ReplayRequest) {i : Byte} (h : i ≠ 0) : freeReplayId k q i ≠ 0 := by
  induction k generalizing i with
  | zero => exact h
  | succ k ih =>
    have hnext : nextReplayId i ≠ 0 := by
      unfold nextReplayId
      split
      · decide
      · next hi => bv_omega
    unfold freeReplayId
    split
    · exact ih hnext
    · exact h

theorem opReplay_badArgument {a b : Byte} (k : Half) (s : State) (h : 32 ≤ a.toNat ∨ b.toNat = 0 ∨ 16 < b.toNat) :
    opReplay a k b s = refuse .badArgument s := by
  rcases h with h | h
  · simp only [opReplay, indexBelow_none 32 a h]
  · have hw : within 1 16 b.toNat = none := by
      rcases h with h | h
      · exact within_below (by omega)
      · exact within_above h
    cases ha : indexBelow 32 a <;> simp only [opReplay, ha, hw]

section opReplay

variable {e : EntryId} {b : Byte} {k : Half} {s : State} (hb : 1 ≤ b.toNat ∧ b.toNat ≤ 16)

include hb

theorem opReplay_notFound (h : (s.entry e).current.valid = false) :
    opReplay (byteOf e.val) k b s = refuse .notFound s := by
  simp only [opReplay, indexBelow_byteOf 32 e (by decide), within_of_range hb, h, Bool.not_false, if_true]

theorem opReplay_busy (h : (s.entry e).current.valid = true) (hq : 16 ≤ s.replay.queue.length) :
    opReplay (byteOf e.val) k b s = refuse .busy s := by
  have hfull : Config.replayCapacity ≤ s.replay.queue.length := hq
  simp only [opReplay, indexBelow_byteOf 32 e (by decide), within_of_range hb, h, Bool.not_true, Bool.false_eq_true,
    if_false, if_pos hfull]

theorem opReplay_accepted (h : (s.entry e).current.valid = true) (hq : s.replay.queue.length < 16) :
    opReplay (byteOf e.val) k b s = accept [givenReplayId s, byteOf (s.replay.queue.length + 1)]
      (replayTakes (joinReplayQueue e k b.toNat s)) := by
  have hroom : ¬ Config.replayCapacity ≤ s.replay.queue.length := Nat.not_le_of_lt hq
  simp only [opReplay, indexBelow_byteOf 32 e (by decide), within_of_range hb, h, Bool.not_true, Bool.false_eq_true,
    if_false, if_neg hroom]

end opReplay

theorem replayTakes_agent (s : State) : (replayTakes s).agent = s.agent :=
  (replayTakes_moves (F := { replay := true, entries := true, store := true, notices := true }) ⟨⟨rfl, rfl, rfl⟩, rfl⟩ s).agent rfl

/-- Settles O38: the refusals, the join, and the take that follows it. -/
theorem replayJoinsQueue : Obligations.ReplayJoinsQueue := by
  refine ⟨fun tag k s h => ⟨fun a b hab => ?bad, fun e b h1 h16 => ⟨fun hv => ?notFound, fun hv hq => ?busy,
    fun hv hq hnot => ?joins, fun hv hq he hu => ?taken⟩⟩, fun s hl hn => ⟨freeReplayId_nonzero 16 _ hn, givenReplayId_new s hl⟩,
    rfl, fun i hi => if_neg hi⟩
  case bad => exact exec_read tag (.replay a k b) .badArgument [] h (opReplay_badArgument k _ hab)
  case notFound => exact exec_read tag (.replay (byteOf e.val) k b) .notFound [] h (opReplay_notFound ⟨h1, h16⟩ hv)
  case busy => exact exec_read tag (.replay (byteOf e.val) k b) .busy [] h (opReplay_busy ⟨h1, h16⟩ hv hq)
  case joins =>
    have hstays : replayTakes (joinReplayQueue e k b.toNat (setReserved true s)) = setReserved true (joinReplayQueue e k b.toNat s) :=
      replayTakes_not (hnot.imp id .inl)
    have hop := opReplay_accepted (k := k) (s := setReserved true s) ⟨h1, h16⟩ hv hq
    rw [hstays] at hop
    exact exec_write' (t := joinReplayQueue e k b.toNat s) tag (.replay (byteOf e.val) k b) .ok _ h hop rfl
  case taken =>
    let j := joinReplayQueue e k b.toNat s
    have hstays : replayTakes (joinReplayQueue e k b.toNat (setReserved true s)) = setReserved true (replayTakes j) :=
      replayTakes_mapAgent (fun a => { a with reserved := true }) j
    have hop := opReplay_accepted (k := k) (s := setReserved true s) ⟨h1, h16⟩ hv hq
    rw [hstays] at hop
    have hexec : exec (.replay tag (byteOf e.val) k b) s = .next ((replayTakes j).withReply tag 0x30 0x00
        [givenReplayId s, byteOf (s.replay.queue.length + 1)]) :=
      exec_write' (t := replayTakes j) tag (.replay (byteOf e.val) k b) .ok _ h hop (replayTakes_agent j)
    refine ⟨⟨replayTakes j, rfl, hexec⟩, fun r hempty hr => ?_⟩
    let q : ReplayRequest := ⟨givenReplayId s, e, k, b.toNat, false, [], false⟩
    have hqueue : j.replay.queue = [q] := congrArg (· ++ [q]) hempty
    have hfirst : ringMember j e (k + BitVec.ofNat 16 0) = some r := by
      rw [show k + BitVec.ofNat 16 0 = k from BitVec.add_zero k]
      exact hr
    have htake := takeHead_pins hqueue rfl rfl h1 (fun i hi => absurd hi (Nat.not_lt_zero i)) hfirst
    have hpins := replayTakes_pins (r := r) hqueue he hu htake rfl
    rw [hpins, startSending, takePin_eq, hempty] at hexec
    exact hexec

/-! ## The end of the pinned frame (R121 to R125) -/

/-- What is left when the last request has ended: the engine IDLE, its record without a pin, and the notice. -/
structure EngineEnds (q : ReplayRequest) (r : RecordId) (s t : State) : Prop where
  replay : t.replay = { s.replay with queue := [], engine := .idle, pinned := none, cursor := none }
  notices : t.notices = (offerNotice q.done s).notices
  pin : (t.record r).pin = false
  uplink : t.uplink = s.uplink
  agent : t.agent = s.agent

theorem releasePin_eq {s : State} {r : RecordId} (h : s.replay.pinned = some r) :
    releasePin s = unpin r (mapReplay (fun v => { v with pinned := none, cursor := none }) s) := by
  simp only [releasePin, h]

/-- The last request ends behind the unpin of its record. -/
theorem lastRequest_ends {q : ReplayRequest} {r : RecordId} {s : State} (hp : s.replay.pinned = some r) :
    EngineEnds q r s (replayTakes (endHead (releasePin (withHead q [] s)))) := by
  let u := mapReplay (fun v => { v with pinned := none, cursor := none }) (withHead q [] s)
  have hmoves := unpin_moves Touch.storeOnly_hasStore r u
  have hquiet := unpin_quiet r u
  have hpin := unpin_pin r u
  rw [releasePin_eq (s := withHead q [] s) hp]
  generalize unpin r u = v at hmoves hquiet hpin
  have hreplay : v.replay = u.replay := hmoves.replay rfl
  have hqueue : v.replay.queue = [q] := congrArg ReplayService.queue hreplay
  have hend := endHead_eq hqueue
  have hstays : replayTakes (endHead v) = endHead v := replayTakes_not (.inr (.inr (by rw [hend])))
  have hagent : (offerNotice q.done v).agent = s.agent := (offerNotice_agent q.done v).trans (hmoves.agent rfl)
  have huplink : (offerNotice q.done v).uplink = s.uplink := (offerNotice_uplink q.done v).trans (hmoves.uplink rfl)
  rw [hstays, hend, hreplay]
  exact ⟨rfl, offerNotice_congr q.done hquiet.notices hquiet.time,
    (congrArg Record.pin (offerNotice_record q.done v r)).trans hpin, huplink, hagent⟩

theorem finishHead_ends {q : ReplayRequest} {r : RecordId} {s : State} (a b : FrameOutcome) (hq : s.replay.queue = [q])
    (hp : s.replay.pinned = some r) : EngineEnds ((q.settle a).fill b) r s (finishHead a b s) := by
  rw [finishHead, mapHead_eq _ hq]
  exact lastRequest_ends hp

theorem settle_fill_outcomes (q : ReplayRequest) (a b : FrameOutcome) : ((q.settle a).fill b).outcomes
    = q.outcomes ++ a :: List.replicate (q.count - q.outcomes.length - 1) b := by
  simp only [ReplayRequest.fill, ReplayRequest.settle, List.length_append, List.length_singleton, List.append_assoc,
    Nat.sub_sub]
  rfl

theorem settle_fill_done (q : ReplayRequest) (a b : FrameOutcome) : ((q.settle a).fill b).done
    = .replayDone q.id q.entry q.first q.count
      (q.outcomes ++ a :: List.replicate (q.count - q.outcomes.length - 1) b) :=
  congrArg (NoticeBody.replayDone q.id q.entry q.first q.count) (settle_fill_outcomes q a b)

/-! ## CANCEL_REPLAY (R123, R124) -/

theorem opCancelReplay_notFound {id : Byte} {s : State} (h : s.replay.queue.find? (fun q => q.id == id) = none) :
    opCancelReplay id s = refuse .notFound s := by
  simp only [opCancelReplay, h]

theorem opCancelReplay_waiting {id : Byte} {q : ReplayRequest} {s : State}
    (h : s.replay.queue.find? (fun q => q.id == id) = some q) (ha : q.active = false) :
    opCancelReplay id s = accept [id, 0] (withdraw q s) := by
  simp only [opCancelReplay, h, ha, Bool.false_eq_true, if_false]

theorem opCancelReplay_active {id : Byte} {q : ReplayRequest} {s t : State} {b : Byte}
    (h : s.replay.queue.find? (fun q => q.id == id) = some q) (ha : q.active = true) (hc : cancelActive s = (t, b)) :
    opCancelReplay id s = accept [id, b] t := by
  simp only [opCancelReplay, h, ha, if_true, hc]

/-- Settles O39, by the request's state and the engine's. -/
theorem cancelReplayByState : Obligations.CancelReplayByState := by
  intro tag id s h
  refine ⟨fun hnone => ?notFound, fun q hfind => ⟨fun ha ho => ?waiting, fun ha he hc => ?sending, fun ha he => ?closing,
    fun r ha he hc hq hp => ?ends⟩⟩
  case notFound =>
    exact exec_read tag (.cancelReplay id) .notFound [] h (opCancelReplay_notFound (s := setReserved true s) hnone)
  case waiting =>
    have hid : q.id = id := beq_iff_eq.1 (List.find?_some (p := fun q : ReplayRequest => q.id == id) hfind)
    have hop := opCancelReplay_waiting (s := setReserved true s) hfind ha
    have hdone : (q.fill .cancelled).done
        = .replayDone id q.entry q.first q.count (List.replicate q.count .cancelled) := by
      simp only [ReplayRequest.done, ReplayRequest.fill, ho, hid, List.nil_append, List.length_nil, Nat.sub_zero]
    have hwithdraw : withdraw q (setReserved true s) = setReserved true { offerNotice (.replayDone id q.entry q.first q.count
        (List.replicate q.count .cancelled)) s with
          replay := { s.replay with queue := s.replay.queue.erase q } } := by
      rw [withdraw, hdone, offerNotice_setReserved]
      exact congrArg (fun v : ReplayService => setReserved true { offerNotice (.replayDone id q.entry q.first q.count
        (List.replicate q.count .cancelled)) s with
          replay := { v with queue := v.queue.erase q } }) (offerNotice_replay _ s)
    rw [hwithdraw] at hop
    exact exec_write' tag (.cancelReplay id) .ok _ h hop (offerNotice_agent _ s)
  case sending =>
    obtain ⟨c, hcursor⟩ := Option.ne_none_iff_exists'.1 hc
    have hcancel : cancelActive (setReserved true s)
        = (setReserved true (mapReplay (fun v => { v with engine := .closing }) s), 1) := by
      simp only [cancelActive, setReserved_replay, he, hcursor]
      rfl
    exact exec_write' (t := mapReplay (fun v => { v with engine := .closing }) s) tag (.cancelReplay id) .ok _ h
      (opCancelReplay_active (s := setReserved true s) hfind ha hcancel) rfl
  case closing =>
    have hcancel : cancelActive (setReserved true s) = (setReserved true s, 2) := by
      simp only [cancelActive, setReserved_replay, he]
    exact exec_read tag (.cancelReplay id) .ok _ h (opCancelReplay_active (s := setReserved true s) hfind ha hcancel)
  case ends =>
    have hid : q.id = id := beq_iff_eq.1 (List.find?_some (p := fun q : ReplayRequest => q.id == id) hfind)
    have hcancel : cancelActive (setReserved true s) = (finishHead .aborted .cancelled (setReserved true s), 1) := by
      simp only [cancelActive, setReserved_replay, he, hc]
    have hends := finishHead_ends (s := setReserved true s) .aborted .cancelled hq hp
    generalize finishHead .aborted .cancelled (setReserved true s) = t at hcancel hends
    have hop := opCancelReplay_active (s := setReserved true s) hfind ha hcancel
    have hready : t.agent.state = .ready := (congrArg Agent.state hends.agent).trans h.2.1
    refine ⟨_, exec_change tag (.cancelReplay id) .ok _ h hop hready, hends.replay, ?_, hends.pin, placeReply_lastReply ..⟩
    rw [placeReply_notices, hends.notices, settle_fill_done, hid, offerNotice_setReserved]
    rfl

end Sys2Proof.Machine
end

section
/-!
Resets and flash work: RESET_PART (O53), the long operations (O55), their completions (O57) and HARD_RESET (O59).
-/

namespace Sys2Proof.Machine

open Sys2Proof

/-! ## What a reset leaves (R182, R183) -/

theorem savedSlot_false_code (staging : Option Profile) : (savedSlot false staging).code = 2 := by
  cases staging <;> exact Slot.code_unfinished _

/-- The cut of the flash work in flight, by its operation (R182). -/
theorem cutFlash_save {k : SlotId} {a : Agent} {f : ProfileStore} (h : a.longOp = some (.save, k)) (hk : k ≠ 0) :
    cutFlash a f = { f with slots := f.slots.set k (savedSlot false f.staging) } := by
  simp only [cutFlash, h, if_neg hk]

theorem cutFlash_selector {a : Agent} {f : ProfileStore}
    (h : a.longOp = some (.save, 0) ∨ ∃ k, a.longOp = some (.select, k)) : cutFlash a f = { f with selector := none } := by
  rcases h with h | ⟨k, h⟩
  · simp only [cutFlash, h, if_true]
  · simp only [cutFlash, h]

theorem cutFlash_none {a : Agent} {f : ProfileStore} (h : a.longOp = none ∨ ∃ k, a.longOp = some (.load, k)) :
    cutFlash a f = f := by
  rcases h with h | ⟨k, h⟩ <;> simp only [cutFlash, h]

theorem chooseSlot_valid {cause : ResetCause} {k : SlotId} {slots : Vector Slot 4} (h : (slots[k]).code = 1) :
    chooseSlot cause k slots = ⟨cause, k, false⟩ := if_pos (Slot.code_eq_one.1 h)

theorem chooseSlot_fallback {cause : ResetCause} {k : SlotId} {slots : Vector Slot 4} (h : (slots[k]).code ≠ 1) :
    chooseSlot cause k slots = ⟨cause, 0, true⟩ := if_neg (mt Slot.code_eq_one.2 h)

theorem chooseSlot_cause (cause : ResetCause) (k : SlotId) (slots : Vector Slot 4) :
    (chooseSlot cause k slots).cause = cause := by
  unfold chooseSlot
  split <;> rfl

/-- A reset is a whole reset, with the start-up record of the slot chosen. -/
theorem resetAll_whole (cause : ResetCause) (k : Option SlotId) (s : State) :
    s.wholeReset (resetAll cause k s) cause k := by
  refine ⟨rfl, rfl, rfl, rfl, rfl, rfl, fun n => ⟨resetAll_port cause k s n, resetAll_gen cause k s n⟩,
    resetAll_entry cause k s, rfl, rfl, rfl, rfl, rfl, rfl, rfl, chooseSlot_cause ..,
    fun j hj h => ?save, fun h => ?selector, fun h => ?kept, fun h => ?valid, fun h => ?fallback⟩
  case save =>
    have hcut : (resetAll cause k s).flash.slots = s.flash.slots.set j (savedSlot false s.flash.staging)
        ∧ (resetAll cause k s).flash.selector = s.flash.selector := by
      rw [resetAll, flashAtReset, cutFlash_save h hj]
      exact ⟨rfl, rfl⟩
    obtain ⟨hslots, hselector⟩ := hcut
    rw [hslots]
    refine ⟨?_, fun i hi => ?_, hselector⟩
    · rw [show (s.flash.slots.set j (savedSlot false s.flash.staging))[j] = savedSlot false s.flash.staging from
        Vector.getElem_set_self _]
      exact savedSlot_false_code _
    · exact Vector.getElem_set_ne _ _ fun he => hi (Fin.ext he.symm)
  case selector =>
    rw [resetAll, flashAtReset, cutFlash_selector h]
    exact ⟨rfl, rfl⟩
  case kept =>
    rw [resetAll, flashAtReset, cutFlash_none h]
    exact ⟨rfl, rfl⟩
  case valid =>
    have hchosen := chooseSlot_valid (cause := cause) h
    exact ⟨congrArg StartUpRecord.slot hchosen, congrArg StartUpRecord.fallback hchosen⟩
  case fallback =>
    have hchosen := chooseSlot_fallback (cause := cause) h
    exact ⟨congrArg StartUpRecord.slot hchosen, congrArg StartUpRecord.fallback hchosen⟩

/-- Settles O59: a hard reset is the whole reset of the selector's slot. -/
theorem hardResetRestoresResetValues : Obligations.HardResetRestoresResetValues :=
  fun s => ⟨hardReset s, rfl, resetAll_whole .hard none s, rfl, rfl⟩

theorem partReset_whole {k : Option SlotId} {s : State} (h : s.agent.state = .resetPending k) :
    s.wholeReset (partReset s) .part k := by
  have heq : partReset s = resetAll .part k s := by simp only [partReset, h]
  rw [heq]
  exact resetAll_whole .part k s

/-! ## RESET_PART (R158) -/

theorem resetSlot_none {a : Byte} (h : 4 ≤ a.toNat) (hf : a ≠ 0xFF) : resetSlot a = none := by
  rw [resetSlot, if_neg hf, indexBelow_none 4 a h, Option.map_none]

theorem resetSlot_some {a : Byte} {k : Option SlotId} (h : a = 0xFF ∧ k = none ∨ ∃ j : SlotId, a = byteOf j.val ∧ k = some j) :
    resetSlot a = some k := by
  rcases h with ⟨rfl, rfl⟩ | ⟨j, rfl, rfl⟩
  · rfl
  · have hne : byteOf j.val ≠ 0xFF := fun h => by
      have hval : (byteOf j.val).toNat = 255 := congrArg BitVec.toNat h
      have hj := j.isLt
      simp only [byteOf, BitVec.toNat_ofNat] at hval
      omega
    rw [resetSlot, if_neg hne, indexBelow_byteOf 4 j (by decide), Option.map_some]

/-- An accepted RESET_PART before its part reset. -/
def resetAwaited (tag : Half) (a : Byte) (k : Option SlotId) (s : State) : State :=
  { s with agent := { s.agent with
    state := .resetPending k, replies := s.agent.replies ++ [⟨0x0F, tag, [0x02, 0x00, a], true⟩] } }

theorem exec_resetPart {tag : Half} {a : Byte} {k : Option SlotId} {s : State} (h : s.mayTake) (hk : resetSlot a = some k) :
    exec (.resetPart tag a) s = .next (resetIfDown (resetAwaited tag a k s)) := by
  have hrest : s.agent.reserved = false := h.2.2.2
  have hop : operate (.resetPart a) (setReserved true s)
      = accept [a] (mapAgent (fun x => { x with state := .resetPending k }) (setReserved true s)) := by
    simp only [operate, opResetPart, hk]
  have hanswer : answer (.resetPart a) (setReserved true s) = _ := hop
  have hexecuted : executed tag (.resetPart a) s = resetAwaited tag a k s := by
    rw [executed, hanswer]
    simp only [resetAwaited, accept, placeReply, pushReply, setReserved, mapAgent, ownReply, bringsReset, isResetPart,
      opCode, ← hrest]
    rfl
  have hrun : exec (.resetPart tag a) s = .next (hostRequest tag (.resetPart a) s) := exec_commandOf tag (.resetPart a) s
  rw [hrun, hostRequest, agentFree_of_mayTake s h, executeOp, hexecuted]
  rfl

/-- Settles O53: the refusal, the wait with U ACTIVE, and the part reset at once without. -/
theorem resetPartWaitsForItsReply : Obligations.ResetPartWaitsForItsReply := by
  intro tag s h
  refine ⟨fun a ha hf => ?refused, fun a k hk => ⟨fun hu => ?waits, fun hu => ?resets⟩⟩
  case refused =>
    have hop : opResetPart a (setReserved true s) = refuse .badArgument (setReserved true s) := by
      simp only [opResetPart, resetSlot_none ha hf]
    have hready := h.2.1
    have hexecuted : executed tag (.resetPart a) s = s.withReply tag 0x02 0x04 [] := by
      have hanswer : answer (.resetPart a) (setReserved true s) = (setReserved true s, ⟨.badArgument, []⟩) := hop
      rw [executed, hanswer]
      exact placeReply_reserved s h.2.2.2 tag 0x02 0x04 []
    have hstays : resetIfDown (s.withReply tag 0x02 0x04 []) = s.withReply tag 0x02 0x04 [] :=
      if_neg fun hne => hne.1 hready
    have hrun : exec (.resetPart tag a) s = .next (hostRequest tag (.resetPart a) s) :=
      exec_commandOf tag (.resetPart a) s
    rw [hrun, hostRequest, agentFree_of_mayTake s h, executeOp, hexecuted, hstays]
    rfl
  case waits =>
    have hstays : resetIfDown (resetAwaited tag a k s) = resetAwaited tag a k s := if_neg fun hne => hne.2 hu
    rw [exec_resetPart h (resetSlot_some hk), hstays]
    rfl
  case resets =>
    have hresets : resetIfDown (resetAwaited tag a k s) = partReset (resetAwaited tag a k s) := if_pos ⟨nofun, hu⟩
    have hwhole : s.wholeReset (partReset (resetAwaited tag a k s)) .part k :=
      partReset_whole (s := resetAwaited tag a k s) rfl
    refine ⟨_, (exec_resetPart h (resetSlot_some hk)).trans (congrArg Host.Outcome.next hresets), hwhole, fun hn => ?_⟩
    obtain ⟨-, -, -, -, -, -, -, -, -, -, -, -, -, -, -, -, -, -, hkept, -⟩ := hwhole
    exact hkept (.inl hn)

/-! ## The long operations (R156, R174 to R180) -/

/-- While a long operation is in flight another is refused (R156). -/
theorem exec_longBusy (tag : Half) (op : HostOp) {s : State} (h : s.mayTake) (hl : isLong op = true)
    (hn : s.agent.longOp ≠ none) : exec (commandOf tag op) s = .next (s.withReply tag (opCode op) 0x06 []) := by
  have hsome : s.agent.longOp.isSome = true := Option.isSome_iff_ne_none.2 hn
  have hanswer : answer op (setReserved true s) = refuse .busy (setReserved true s) := by
    rw [answer, hl, setReserved_longOp, hsome]
    rfl
  have hreset : bringsReset op ⟨.busy, []⟩ = false := Bool.and_false _
  have hexecuted : executed tag op s = s.withReply tag (opCode op) 0x06 [] := by
    rw [executed, hanswer]
    simp only [refuse, hreset]
    exact placeReply_reserved s h.2.2.2 tag (opCode op) 0x06 []
  have hstays : resetIfDown (s.withReply tag (opCode op) 0x06 []) = s.withReply tag (opCode op) 0x06 [] :=
    if_neg fun hne => hne.1 h.2.1
  rw [exec_commandOf, hostRequest, agentFree_of_mayTake s h, executeOp, hexecuted, hstays]
  rfl

theorem slotCode_eq (x : Slot) : x.code = (match x with
    | .empty => 0x00 | .written p c => if Profile.check p = c then 0x01 else 0x02) := by
  cases x <;> rfl

section begin

variable {k : SlotId} {s : State}

theorem opProfileSave_begins (hk : k ≠ 0) : opProfileSave (byteOf k.val) s = started k (beginSave k s) := by
  simp only [opProfileSave, indexBelow_byteOf 4 k (by decide), if_neg hk]

theorem opProfileLoad_begins (h : (s.flash.slots[k]).code = 1) :
    opProfileLoad (byteOf k.val) s = started k (beginLong .load k .loading Config.loadBound s) := by
  simp only [opProfileLoad, indexBelow_byteOf 4 k (by decide), Slot.code_eq_one.1 h, if_true]

theorem opBootSelect_begins (h : (s.flash.slots[k]).code = 1) :
    opBootSelect (byteOf k.val) s = started k (beginLong .select k .selecting Config.selectBound s) := by
  simp only [opBootSelect, indexBelow_byteOf 4 k (by decide), Slot.code_eq_one.1 h, if_true]

theorem opProfileLoad_badSlot (h : (s.flash.slots[k]).code ≠ 1) : opProfileLoad (byteOf k.val) s = refuse .badSlot s := by
  simp only [opProfileLoad, indexBelow_byteOf 4 k (by decide), if_neg (mt Slot.code_eq_one.2 h)]

theorem opBootSelect_badSlot (h : (s.flash.slots[k]).code ≠ 1) : opBootSelect (byteOf k.val) s = refuse .badSlot s := by
  simp only [opBootSelect, indexBelow_byteOf 4 k (by decide), if_neg (mt Slot.code_eq_one.2 h)]

end begin

/-- Settles O55: BUSY while one is in flight, and with none each operation by the slot it names. -/
theorem longOperationsStart : Obligations.LongOperationsStart := by
  refine ⟨fun tag slot s h hn => ⟨exec_longBusy tag (.profileSave slot) h rfl hn, exec_longBusy tag (.profileLoad slot) h rfl hn,
    exec_longBusy tag (.bootSelect slot) h rfl hn⟩, fun tag s h hn => ⟨fun a ha => ?outOfRange, ?revert,
    fun k => ⟨slotCode_eq _, fun hk => ?save, fun hc => ⟨?loadBad, ?selectBad⟩, fun hc => ⟨?load, ?select⟩⟩⟩⟩
  case outOfRange =>
    have hnone := indexBelow_none 4 a ha
    exact ⟨exec_read tag (.profileSave a) .badArgument [] h (by simp only [operate, opProfileSave, hnone, refuse]) rfl (.inr hn),
      exec_read tag (.profileLoad a) .badArgument [] h (by simp only [operate, opProfileLoad, hnone, refuse]) rfl (.inr hn),
      exec_read tag (.bootSelect a) .badArgument [] h (by simp only [operate, opBootSelect, hnone, refuse]) rfl (.inr hn)⟩
  case revert =>
    exact exec_write (t := beginLong .save 0 .selecting Config.selectBound s) tag (.profileSave 0) .started _ h rfl h.2.1
      h.2.2.2 rfl (.inr hn)
  case save =>
    refine ⟨snapshot s, exec_write (t := beginSave k s) tag (.profileSave (byteOf k.val)) .started _ h
      (opProfileSave_begins (s := setReserved true s) hk) h.2.1 h.2.2.2 rfl (.inr hn), fun e => ?_, fun n => ⟨?_, ?_⟩,
      rfl, rfl, rfl, rfl⟩
    · exact Vector.getElem_ofFn _
    · exact Vector.getElem_ofFn _
    · exact Vector.getElem_ofFn _
  case loadBad =>
    exact exec_read tag (.profileLoad (byteOf k.val)) .badSlot [] h (opProfileLoad_badSlot (s := setReserved true s) hc) rfl
      (.inr hn)
  case selectBad =>
    exact exec_read tag (.bootSelect (byteOf k.val)) .badSlot [] h (opBootSelect_badSlot (s := setReserved true s) hc) rfl
      (.inr hn)
  case load =>
    exact exec_write (t := beginLong .load k .loading Config.loadBound s) tag (.profileLoad (byteOf k.val)) .started _ h
      (opProfileLoad_begins (s := setReserved true s) hc) h.2.1 h.2.2.2 rfl (.inr hn)
  case select =>
    exact exec_write (t := beginLong .select k .selecting Config.selectBound s) tag (.bootSelect (byteOf k.val)) .started _ h
      (opBootSelect_begins (s := setReserved true s) hc) h.2.1 h.2.2.2 rfl (.inr hn)

/-! ## Completions (R175, R176, R180) -/

theorem offerNotice_mapFlash (b : NoticeBody) (f : ProfileStore → ProfileStore) (s : State) :
    offerNotice b (mapFlash f s) = mapFlash f (offerNotice b s) := by
  have hn : (offerNotice b (mapFlash f s)).notices = (offerNotice b s).notices := offerNotice_congr b rfl rfl
  rw [offerNotice_eq b (mapFlash f s), hn, offerNotice_eq b s]
  rfl

/-- A long operation that ends with its work on flash done. -/
theorem endLong_mapFlash (op : LongOp) (k : SlotId) (o : ProfileOutcome) (f : ProfileStore → ProfileStore) (s : State) :
    endLong op k o (mapFlash f s) = { offerNotice (.profileDone op k o) s with
      agent := { s.agent with longOp := none }
      flash := { f s.flash with controller := .idle, staging := none, bound := none } } := by
  rw [endLong, offerNotice_mapFlash, ← offerNotice_agent (.profileDone op k o) s, ← offerNotice_flash (.profileDone op k o) s]
  rfl

/-- Settles O57, by the operation in flight. -/
theorem flashWorkCompletes : Obligations.FlashWorkCompletes := by
  intro k v s
  refine ⟨fun p hk h hp => ?save, fun h => ?revert, fun h => ?select⟩
  case save =>
    have hrun : exec (.profileSaveCompletes v) s = .next (finishSave k v s) := by
      refine congrArg Host.Outcome.next ?_
      simp only [saveCompletes, h, if_neg hk]
    have hslot : savedSlot v s.flash.staging
        = .written p (if v then Profile.check p else ~~~ Profile.check p) := by
      rw [hp]
      cases v <;> rfl
    rw [hrun, finishSave, endLong_mapFlash, hslot, verifyOutcome]
  case revert =>
    have hrun : exec (.bootRevertCompletes v) s = .next (endLong .save 0 .bootReverted (writeSelector 0 v s)) := by
      refine congrArg Host.Outcome.next ?_
      simp only [revertCompletes, h, if_true]
    rw [hrun, writeSelector, endLong_mapFlash]
  case select =>
    have hrun : exec (.bootSelectCompletes v) s = .next (endLong .select k (verifyOutcome v) (writeSelector k v s)) := by
      refine congrArg Host.Outcome.next ?_
      simp only [selectCompletes, h]
    rw [hrun, writeSelector, endLong_mapFlash, verifyOutcome]

end Sys2Proof.Machine
end

section
/-!
The agent takes its requests: the execution of the oldest leaves the others waiting. Settles O54.
-/

namespace Sys2Proof.Machine

open Sys2Proof

/-! ## What leaves the request queue alone -/

/-- From `s` to `t` the request queue does not change. -/
def Waits (s t : State) : Prop := t.agent.requests = s.agent.requests

namespace Waits

theorem refl (s : State) : Waits s s := rfl

theorem trans {s t u : State} (h : Waits s t) (g : Waits t u) : Waits s u := Eq.trans g h

theorem ofAgent {s t : State} (h : t.agent = s.agent) : Waits s t := congrArg Agent.requests h

theorem ite {c : Prop} [Decidable c] {s t u : State} (h : Waits s t) (g : Waits s u) : Waits s (if c then t else u) := by
  split
  · exact h
  · exact g

theorem forEach {α : Type} (xs : List α) (f : α → State → State) (s : State) (h : ∀ x t, Waits t (f x t)) :
    Waits s (Machine.forEach xs f s) := by
  induction xs generalizing s with
  | nil => exact refl s
  | cons x xs ih => exact (h x s).trans (ih (f x s))

end Waits

theorem offerNotice_waits (b : NoticeBody) (s : State) : Waits s (offerNotice b s) := .ofAgent (offerNotice_agent b s)

theorem replyOrDrop_waits (r : Reply) (s : State) : Waits s (replyOrDrop r s) := Waits.ite rfl rfl

theorem refuseDisplaced_waits (m : Mreq) (s : State) : Waits s (refuseDisplaced m s) := by
  have h : Waits s (if replyRoom s then pushReply (portDownReply m 1) s else s) := Waits.ite rfl rfl
  exact h

/-- What touches every part but the agent. -/
def Touch.offAgent : Touch := { Touch.all with agent := false }

theorem waits_ofMoves {s t : State} (h : Moves Touch.offAgent s t) : Waits s t := .ofAgent (h.agent rfl)

/-! ## The ports -/

theorem leaveActive_waits (n : PortId) (s : State) : Waits s (leaveActive n s) := by
  have hflush (t : State) : Waits t (flushOutput n t) := Waits.forEach (t.port n).outMreqs refuseRemoved
    (mapPort n (fun p => { p with outTrigs := [], outMreqs := [] }) t) fun m u => replyOrDrop_waits (portDownReply m 0) u
  have hclose (t : State) : Waits t (forEach (entriesOn t n) (fun e => returnToIdle e .portLost) t) :=
    Waits.forEach _ _ t fun e u => waits_ofMoves (returnToIdle_moves ⟨⟨⟨rfl, rfl, rfl⟩, rfl⟩, rfl⟩ e .portLost u)
  exact Waits.ite ((hclose s).trans (hflush _)) (Waits.refl s)

theorem movePort_waits (n : PortId) (st : PortState) (why : PortReason) (s : State) : Waits s (movePort n st why s) :=
  waits_ofMoves (movePort_moves rfl rfl n st why s)

theorem applyPortSettings_waits (n : PortId) (a b : Bool) (s : State) : Waits s (applyPortSettings n a b s) := by
  let t := mapPort n (fun p => { p with enabled := a, powered := b }) s
  have hleft : Waits s (leaveActive n t) := leaveActive_waits n t
  unfold applyPortSettings
  refine Waits.ite ?_ (Waits.ite ?_ (Waits.ite (Waits.refl s) ?_))
  · exact hleft.trans (movePort_waits n .off .disabled _)
  · exact movePort_waits n (startState b) .enabled t
  · exact hleft.trans (movePort_waits n (startState b) .reconfigured _)

theorem resetPort_waits (n : PortId) (s : State) : Waits s (resetPort n s) := by
  have hleft : Waits s (mapPort n Port.cleared (leaveActive n s)) := leaveActive_waits n s
  exact Waits.ite (hleft.trans (offerNotice_waits _ _)) hleft

/-! ## Triggers -/

theorem offerTrig_waits (n : PortId) (t : Trig) (s : State) : Waits s (offerTrig n t s).1 := by
  unfold offerTrig
  split
  · exact Waits.refl s
  · split
    · next m _ => exact refuseDisplaced_waits m _
    · exact Waits.refl s

theorem attemptIssue_waits (n : PortId) (src : TrigSource) (line : Byte) (s : State) :
    Waits s (attemptIssue n src line s).1 := by
  have hoffer := offerTrig_waits n ⟨(s.gen n).next, src.code, line⟩ s
  unfold attemptIssue
  split
  · exact Waits.refl s
  · split
    · exact offerNotice_waits _ _
    · split
      · next t ht => rw [ht] at hoffer; exact hoffer
      · next t ht => rw [ht] at hoffer; exact hoffer

/-! ## The operations -/

/-- No operation takes from the request queue or adds to it. -/
theorem operate_waits (op : HostOp) (s : State) : Waits s (operate op s).1 := by
  cases op with
  | setPort a b c =>
    simp only [operate, opSetPort]
    split
    · exact Waits.refl s
    · split
      · next n x y _ _ _ => exact applyPortSettings_waits n x y s
      · exact Waits.refl s
  | portReset a =>
    simp only [operate, opPortReset]
    split
    · exact Waits.refl s
    · split
      · next n _ => exact resetPort_waits n s
      · exact Waits.refl s
  | trigNow a =>
    simp only [operate, opTrigNow]
    split
    · exact Waits.refl s
    · next n _ => exact attemptIssue_waits n .request 0xFF s
  | resetPart a =>
    simp only [operate, opResetPart]
    split <;> exact Waits.refl s
  | profileSave a =>
    simp only [operate, opProfileSave]
    split
    · exact Waits.refl s
    · exact Waits.ite (Waits.refl s) (Waits.refl s)
  | profileLoad a =>
    simp only [operate, opProfileLoad]
    split
    · exact Waits.refl s
    · split <;> exact Waits.refl s
  | bootSelect a =>
    simp only [operate, opBootSelect]
    split
    · exact Waits.refl s
    · split <;> exact Waits.refl s
  | clearCounters a b =>
    simp only [operate, opClearCounters]
    split
    · next g _ => cases g <;> exact Waits.refl s
    · exact Waits.refl s
  | describe | profileInfo => exact Waits.refl s
  | getPort a => exact waits_ofMoves (opGetPort_moves a s)
  | readEntry a =>
    simp only [operate, opReadEntry]
    split <;> exact Waits.refl s
  | trigStatus a =>
    simp only [operate, opTrigStatus]
    split <;> exact Waits.refl s
  | readCounters a b =>
    simp only [operate, opReadCounters]
    split <;> exact Waits.refl s
  | listFrames a b => exact waits_ofMoves (opListFrames_moves a b s)
  | writeEntry a b => exact waits_ofMoves (opWriteEntry_moves ⟨⟨⟨rfl, rfl, rfl⟩, rfl⟩, rfl⟩ rfl a b s)
  | hold a b => exact waits_ofMoves (opHold_moves rfl a b s)
  | release a b => exact waits_ofMoves (opRelease_moves ⟨rfl, rfl, rfl⟩ a b s)
  | drop a b => exact waits_ofMoves (opDrop_moves ⟨rfl, rfl, rfl⟩ a b s)
  | storeClear => exact waits_ofMoves (opStoreClear_moves ⟨rfl, rfl, rfl⟩ s)
  | setUplink b => exact waits_ofMoves (opSetUplink_moves rfl b s)
  | replay a b c => exact waits_ofMoves (opReplay_moves ⟨⟨rfl, rfl, rfl⟩, rfl⟩ a b c s)
  | cancelReplay a => exact waits_ofMoves (opCancelReplay_moves ⟨⟨rfl, rfl, rfl⟩, rfl⟩ a s)
  | trigConfig a b => exact waits_ofMoves (opTrigConfig_moves rfl a b s)
  | trigStart a => exact waits_ofMoves (opTrigStart_moves rfl a s)
  | trigStop a => exact waits_ofMoves (opTrigStop_moves rfl a s)
  | setNoticeMask a => exact waits_ofMoves (opSetNoticeMask_moves rfl a s)

theorem executed_waits (tag : Half) (op : HostOp) (s : State) : Waits s (executed tag op s) := by
  have hanswer : Waits s (answer op (setReserved true s)).1 := by
    unfold answer
    split
    · exact Waits.refl s
    · exact operate_waits op (setReserved true s)
  exact hanswer

/-- After a part reset the agent takes nothing until the start-up load completes (R17, R159). -/
theorem partReset_busy {s : State} (h : s.agent.state ≠ .ready) : agentFree (partReset s) = false := by
  cases hs : s.agent.state with
  | ready => exact absurd hs h
  | resetPending k =>
    simp only [partReset, hs]
    rfl

/-- After an execution the other requests wait as before, or the part is starting up. -/
theorem executeOp_waits (tag : Half) (op : HostOp) (s : State) :
    Waits s (executeOp tag op s) ∨ agentFree (executeOp tag op s) = false := by
  unfold executeOp resetIfDown
  split
  · next h => exact .inr (partReset_busy h.1)
  · exact .inl (executed_waits tag op s)

/-! ## The take (R153) -/

theorem agentRun_busy {k : Nat} {s : State} (h : agentFree s = false) : agentRun k s = s := by
  cases k with
  | zero => rfl
  | succ k => simp only [agentRun, h, Bool.false_and, Bool.false_eq_true, if_false]

/-- A take, and the takes that follow it. -/
theorem agentTakes_next {s u : State} {m : Mreq} {ms : List Mreq} (hm : s.agent.requests = m :: ms)
    (hf : agentFree s = true) (hu : executeRequest m { s with agent := { s.agent with requests := ms } } = u)
    (hw : u.agent.requests = ms ∨ agentFree u = false) : agentTakes s = agentTakes u := by
  have htake : takeRequest s = u := by
    rw [takeRequest, hm]
    exact hu
  have hstep : agentTakes s = agentRun ms.length u := by
    rw [agentTakes, hm, List.length_cons, agentRun, hf, hm, htake]
    rfl
  rw [hstep]
  rcases hw with hw | hw
  · rw [agentTakes, hw]
  · rw [agentRun_busy hw, agentTakes, agentRun_busy hw]

theorem agentTakes_none {s : State} (h : s.agent.requests = []) : agentTakes s = s := by
  rw [agentTakes, h]
  rfl

theorem agentTakes_busy {s : State} (h : agentFree s = false) : agentTakes s = s := agentRun_busy h

theorem agentFree_notReady {s : State} (h : s.agent.state ≠ .ready) : agentFree s = false := by
  have hstate : (s.agent.state == AgentState.ready) = false := beq_eq_false_iff_ne.2 h
  rw [agentFree, hstate, Bool.and_false, Bool.false_and]

theorem agentFree_full {s : State} (h : 16 ≤ s.agent.replies.length) : agentFree s = false := by
  have hlt : ¬ s.agent.replies.length < Config.replyCapacity := Nat.not_lt_of_le h
  rw [agentFree, decide_eq_false hlt, Bool.and_false]

/-- A request that a check of the agent refuses: the reply is the whole. -/
theorem refuseRequest_eq {s : State} (m : Mreq) (st : Status) (h : s.atRest) :
    refuseRequest m st s = s.withReply m.tag m.op st.code [] := by
  have hr : s.agent.reserved = false := h
  simp [refuseRequest, ownReply, placeReply, pushReply, setReserved, mapAgent, State.withReply, hr]

theorem executeRequest_route {s : State} {m : Mreq} (h : s.atRest) (hr : m.route ≠ 0x0F) :
    executeRequest m s = s.withReply m.tag m.op 0x04 [] := by
  rw [executeRequest, if_pos hr]
  exact refuseRequest_eq m .badArgument h

theorem executeRequest_unlisted {s : State} {m : Mreq} (h : s.atRest) (hr : m.route = 0x0F) (hl : argLengths m.op = none) :
    executeRequest m s = s.withReply m.tag m.op 0x03 [] := by
  have hp : parseOp m.op m.args = .error .badOperation := by simp only [parseOp, hl]
  rw [executeRequest, if_neg (not_not.2 hr), hp]
  exact refuseRequest_eq m .badOperation h

theorem executeRequest_length {s : State} {m : Mreq} {ls : List Nat} (h : s.atRest) (hr : m.route = 0x0F)
    (hl : argLengths m.op = some ls) (hn : m.args.length ∉ ls) :
    executeRequest m s = s.withReply m.tag m.op 0x04 [] := by
  have hp : parseOp m.op m.args = .error .badArgument := by simp only [parseOp, hl, if_neg hn]
  rw [executeRequest, if_neg (not_not.2 hr), hp]
  exact refuseRequest_eq m .badArgument h

theorem executeRequest_op {s : State} {m : Mreq} {op : HostOp} (hr : m.route = 0x0F)
    (hp : parseOp m.op m.args = .ok op) : executeRequest m s = executeOp m.tag op s := by
  rw [executeRequest, if_neg (not_not.2 hr), hp]

/-- Settles O54, by the check of the agent that the oldest request fails, or its operation. -/
theorem requestTakeExecutesOldest : Obligations.RequestTakeExecutesOldest := by
  intro s
  refine ⟨fun h => ?stays, ?takes⟩
  case stays =>
    rcases h with h | h
    · exact congrArg Host.Outcome.next (agentTakes_none h)
    · exact congrArg Host.Outcome.next (agentTakes_busy (agentFree_full h))
  case takes =>
    intro m ms hm h rest
    have hfree := agentFree_of_mayTake s h
    have hrest : rest.mayTake := h
    have hnext {u : State} (hu : executeRequest m rest = u) (hw : u.agent.requests = ms ∨ agentFree u = false) :
        exec .requestTake s = exec .requestTake u := congrArg Host.Outcome.next (agentTakes_next hm hfree hu hw)
    have hlast {u : State} (hms : ms = []) (hu : executeRequest m rest = u)
        (hw : u.agent.requests = ms ∨ agentFree u = false) : exec .requestTake s = .next u := by
      refine (hnext hu hw).trans (congrArg Host.Outcome.next ?_)
      rcases hw with hw | hw
      · exact agentTakes_none (hw.trans hms)
      · exact agentTakes_busy hw
    have hop (op : HostOp) (hc : m.op = opCode op) (ha : m.args = opArgs op) (hr : m.route = 0x0F) :
        executeRequest m rest = executeOp m.tag op rest :=
      executeRequest_op hr (by rw [hc, ha]; exact operationsReadBack op)
    have hrun (op : HostOp) : exec (commandOf m.tag op) rest = .next (executeOp m.tag op rest) := by
      rw [exec_commandOf, hostRequest, agentFree_of_mayTake rest hrest, if_pos rfl]
    refine ⟨fun hr => hnext (executeRequest_route hrest.2.2.2 hr) (.inl rfl),
      fun hr hl => hnext (executeRequest_unlisted hrest.2.2.2 hr hl) (.inl rfl),
      fun ls hr hl hn => hnext (executeRequest_length hrest.2.2.2 hr hl hn) (.inl rfl),
      fun op hr hc ha => ⟨_, hrun op, hnext (hop op hc ha hr) (executeOp_waits m.tag op rest)⟩,
      fun hms => ⟨fun hr => hlast hms (executeRequest_route hrest.2.2.2 hr) (.inl rfl),
        fun hr hl => hlast hms (executeRequest_unlisted hrest.2.2.2 hr hl) (.inl rfl),
        fun ls hr hl hn => hlast hms (executeRequest_length hrest.2.2.2 hr hl hn) (.inl rfl),
        fun op hr hc ha => ?_⟩⟩
    rw [hrun op]
    exact hlast hms (hop op hc ha hr) (executeOp_waits m.tag op rest)

end Sys2Proof.Machine
end

section
/-!
The loss of the uplink, and the silence timer that brings it. Settles O35.
-/

namespace Sys2Proof.Machine

open Sys2Proof

/-! ## Forward queues are cut -/

theorem dropForwardQuietly_rest (r : RecordId) (s : State) :
    (dropForwardQuietly r s).entries = s.entries ∧ (dropForwardQuietly r s).store.mem = s.store.mem := by
  unfold dropForwardQuietly freeIfUnclaimed
  split <;> exact ⟨rfl, rfl⟩

theorem forEach_dropForwardQuietly_rest (rs : List RecordId) (s : State) :
    (forEach rs dropForwardQuietly s).entries = s.entries ∧ (forEach rs dropForwardQuietly s).store.mem = s.store.mem := by
  induction rs generalizing s with
  | nil => exact ⟨rfl, rfl⟩
  | cons r rs ih =>
    obtain ⟨he, hm⟩ := dropForwardQuietly_rest r s
    obtain ⟨hes, hms⟩ := ih (dropForwardQuietly r s)
    exact ⟨hes.trans he, hms.trans hm⟩

theorem cutForward_entry (e : EntryId) (s : State) :
    (cutForward e s).entry e = { s.entry e with forwardQueue := [], cursor := none }
      ∧ (∀ f, f ≠ e → (cutForward e s).entry f = s.entry f) ∧ (cutForward e s).store.mem = s.store.mem := by
  let u := mapEntry e (fun x => { x with forwardQueue := [], cursor := none }) s
  obtain ⟨he, hm⟩ := forEach_dropForwardQuietly_rest (s.entry e).forwardQueue u
  have hentry : ∀ f, (cutForward e s).entry f = u.entry f := fun f => congrArg (fun es : Vector Entry 32 => es[f]) he
  exact ⟨(hentry e).trans (mapEntry_entry_self e _ s), fun f hf => (hentry f).trans (mapEntry_entry_ne e _ s f hf), hm⟩

/-- The entries that are visited lose their forward queue and cursor. -/
theorem forEach_cutForward_entry (es : List EntryId) (s : State) (f : EntryId) :
    (forEach es cutForward s).entry f
      = (if f ∈ es then { s.entry f with forwardQueue := [], cursor := none } else s.entry f)
      ∧ (forEach es cutForward s).store.mem = s.store.mem := by
  induction es generalizing s with
  | nil => exact ⟨rfl, rfl⟩
  | cons e es ih =>
    obtain ⟨hself, hothers, hmem⟩ := cutForward_entry e s
    obtain ⟨hentry, hm⟩ := ih (cutForward e s)
    refine ⟨hentry.trans ?_, hm.trans hmem⟩
    by_cases hf : f = e
    case pos => simp [hf, hself]
    case neg => simp [hf, hothers f hf]

/-! ## The replay request that is aborted (R126) -/

/-- Of an entry ring and counters alone change. -/
def reringed (x y : Entry) : Prop := ∃ ring c, y = { x with ring := ring, counters := c }

theorem freeIfUnclaimed_rest (r : RecordId) (s : State) :
    (freeIfUnclaimed r s).entries = s.entries ∧ (freeIfUnclaimed r s).store.mem = s.store.mem
      ∧ (freeIfUnclaimed r s).notices = s.notices ∧ (freeIfUnclaimed r s).partTime = s.partTime := by
  unfold freeIfUnclaimed
  split <;> exact ⟨rfl, rfl, rfl, rfl⟩

theorem enforceDepth_reringed (e : EntryId) (s : State) (f : EntryId) :
    reringed (s.entry f) ((enforceDepth e s).entry f) := by
  by_cases hf : f = e
  case pos =>
    obtain ⟨ring, -, heq⟩ := enforceDepth_entry e s
    rw [hf, heq]
    exact ⟨_, _, rfl⟩
  case neg =>
    rw [(enforceDepth_rings (P := (· = e)) e s rfl).outside f hf]
    exact ⟨_, _, rfl⟩

theorem unpinQuietly_rest (r : RecordId) (s : State) :
    (∀ f, reringed (s.entry f) ((unpinQuietly r s).entry f)) ∧ (unpinQuietly r s).store.mem = s.store.mem
      ∧ (unpinQuietly r s).notices = s.notices ∧ (unpinQuietly r s).partTime = s.partTime := by
  let e := (s.record r).entry
  let u := mapRecord r (fun x => { x with pin := false }) s
  obtain ⟨he, hm, hn, ht⟩ := freeIfUnclaimed_rest r (enforceDepth e u)
  have hquiet := enforceDepth_quiet e u
  have hentry : ∀ f, (unpinQuietly r s).entry f = (enforceDepth e u).entry f :=
    fun f => congrArg (fun es : Vector Entry 32 => es[f]) he
  exact ⟨fun f => by rw [hentry]; exact enforceDepth_reringed e u f,
    hm.trans (enforceDepth_rings (P := (· = e)) e u rfl).mem, hn.trans hquiet.notices, ht.trans hquiet.time⟩

/-- The state in which the ACTIVE request ends. -/
def unpinned (s : State) : State :=
  match s.replay.pinned with
  | some r => unpinQuietly r (mapHead (.fill .aborted) s)
  | none => mapHead (.fill .aborted) s

theorem abortReplay_idle {s : State} (h : s.replay.engine = .idle) : abortReplay s = s := if_pos h

theorem abortReplay_busy {s : State} (h : s.replay.engine ≠ .idle) : abortReplay s = endHead (unpinned s) := if_neg h

theorem unpinned_rest (s : State) :
    (∀ f, reringed (s.entry f) ((unpinned s).entry f)) ∧ (unpinned s).store.mem = s.store.mem
      ∧ (unpinned s).notices = s.notices ∧ (unpinned s).partTime = s.partTime
      ∧ (unpinned s).replay = (mapHead (.fill .aborted) s).replay := by
  unfold unpinned
  cases s.replay.pinned with
  | none => exact ⟨fun f => ⟨_, _, rfl⟩, rfl, rfl, rfl, rfl⟩
  | some r =>
    obtain ⟨h1, h2, h3, h4⟩ := unpinQuietly_rest r (mapHead (.fill .aborted) s)
    exact ⟨h1, h2, h3, h4, (unpinQuietly_moves Touch.storeOnly_hasStore r _).replay rfl⟩

theorem endHead_rest (s : State) : (endHead s).entries = s.entries ∧ (endHead s).store = s.store := by
  cases hq : s.replay.queue with
  | nil => simp only [endHead, hq, and_self]
  | cons q qs =>
    rw [endHead_eq hq]
    exact ⟨offerNotice_entries .., offerNotice_store ..⟩

theorem abortReplay_rest (s : State) :
    (∀ f, reringed (s.entry f) ((abortReplay s).entry f)) ∧ (abortReplay s).store.mem = s.store.mem := by
  by_cases h : s.replay.engine = .idle
  case pos => rw [abortReplay_idle h]; exact ⟨fun f => ⟨_, _, rfl⟩, rfl⟩
  case neg =>
    obtain ⟨he, hs⟩ := endHead_rest (unpinned s)
    obtain ⟨hentry, hmem, -⟩ := unpinned_rest s
    have hsame : ∀ f, (endHead (unpinned s)).entry f = (unpinned s).entry f :=
      fun f => congrArg (fun es : Vector Entry 32 => es[f]) he
    rw [abortReplay_busy h]
    exact ⟨fun f => by rw [hsame]; exact hentry f, (congrArg Store.mem hs).trans hmem⟩

/-- The ACTIVE request ends with every frame left ABORTED. -/
theorem abortReplay_ends {s : State} {q : ReplayRequest} {qs : List ReplayRequest} (hq : s.replay.queue = q :: qs)
    (h : s.replay.engine ≠ .idle) :
    (abortReplay s).replay = { s.replay with queue := qs, engine := .idle, pinned := none, cursor := none }
      ∧ (abortReplay s).notices = (offerNotice (.replayDone q.id q.entry q.first q.count
          (q.outcomes ++ List.replicate (q.count - q.outcomes.length) .aborted)) s).notices := by
  obtain ⟨-, -, hnotices, htime, hreplay⟩ := unpinned_rest s
  rw [mapHead_eq _ hq] at hreplay
  have hqueue : (unpinned s).replay.queue = q.fill .aborted :: qs := congrArg ReplayService.queue hreplay
  rw [abortReplay_busy h, endHead_eq hqueue, hreplay]
  exact ⟨rfl, offerNotice_congr _ hnotices htime⟩

/-! ## The loss (R33, R108, R126, R159) -/

/-- The loss before the part reset that it may bring. -/
def linkLost (why : PrevLoss) (s : State) : State :=
  joinQualified (abortReplay (forEach allEntries cutForward (loseLink why s)))

theorem leaveUplink_eq (why : PrevLoss) (s : State) : leaveUplink why s = resetIfPending (linkLost why s) := rfl

theorem joinQualified_mem (s : State) : (joinQualified s).store.mem = s.store.mem := by
  have hplace (r : RecordId) (t : State) : (placeOnReclaim r t).store.mem = t.store.mem := by
    unfold placeOnReclaim
    split
    · split <;> rfl
    · rfl
  unfold joinQualified
  generalize (allEntries.flatMap fun e => (s.entry e).ring) = rs
  induction rs generalizing s with
  | nil => rfl
  | cons r rs ih => exact (ih (placeOnReclaim r s)).trans (hplace r s)

/-- What the loss touches. -/
def Touch.lost : Touch := { entries := true, store := true, notices := true, replay := true }

theorem linkLost_spec (why : PrevLoss) (s : State) :
    s.uplinkLost (linkLost why s) why ∧ Moves Touch.lost (loseLink why s) (linkLost why s) := by
  let u := loseLink why s
  have hcut : Moves { entries := true, store := true } u (forEach allEntries cutForward u) :=
    Moves.forEach allEntries cutForward u fun e t => cutForward_moves rfl rfl e t
  have hcut' : Moves Touch.lost u (forEach allEntries cutForward u) :=
    Moves.forEach allEntries cutForward u fun e t => cutForward_moves rfl rfl e t
  have hcutEntry := forEach_cutForward_entry allEntries u
  have hlost : linkLost why s = joinQualified (abortReplay (forEach allEntries cutForward u)) := rfl
  generalize forEach allEntries cutForward u = v at hcut hcut' hcutEntry hlost
  let w := abortReplay v
  have habort : Moves Touch.lost v w := abortReplay_moves ⟨⟨rfl, rfl, rfl⟩, rfl⟩ v
  have hjoin : Moves { store := true } w (linkLost why s) := hlost ▸ joinQualified_moves rfl w
  have hjoin' : Moves Touch.lost w (linkLost why s) := hlost ▸ joinQualified_moves rfl w
  have hall : Moves Touch.lost u (linkLost why s) := (hcut'.trans habort).trans hjoin'
  have hmem : (linkLost why s).store.mem = s.store.mem := by
    rw [hlost, joinQualified_mem, (abortReplay_rest v).2, (hcutEntry 0).2]
    rfl
  have hentry : ∀ e, reringed { s.entry e with forwardQueue := [], cursor := none } ((linkLost why s).entry e) := fun e => by
    have hv : v.entry e = { s.entry e with forwardQueue := [], cursor := none } :=
      (hcutEntry e).1.trans (if_pos (List.mem_finRange e))
    have hw := (abortReplay_rest v).1 e
    have he : (linkLost why s).entry e = w.entry e := congrArg (fun es : Vector Entry 32 => es[e]) (hjoin.entries rfl)
    rw [he, ← hv]
    exact hw
  have huplink : (linkLost why s).uplink = u.uplink := hall.uplink rfl
  have hreplay : v.replay = s.replay := hcut.replay rfl
  have hnotices : v.notices = s.notices := hcut.notices rfl
  have htime : v.partTime = s.partTime := hcut.time rfl
  refine ⟨⟨?_, ?_, ?_, ?_, ?_, ?_, fun e => ?_, fun e => ?_, hall.agent rfl, hall.ports rfl, hall.gens rfl, hmem,
    fun q hq hbusy => ?_, fun hidle => ?_⟩, hall⟩
  · rw [huplink]; rfl
  · rw [huplink]; rfl
  · rw [huplink]; rfl
  · rw [huplink]; rfl
  · rw [huplink]; rfl
  · rw [huplink]; rfl
  · obtain ⟨ring, c, h⟩ := hentry e
    rw [h]
    exact ⟨rfl, rfl⟩
  · obtain ⟨ring, c, h⟩ := hentry e
    rw [h]
    exact ⟨rfl, rfl⟩
  · obtain ⟨qs, hqs⟩ := List.head?_eq_some_iff.1 hq
    obtain ⟨hr, hn⟩ := abortReplay_ends (s := v) (hreplay.symm ▸ hqs) (by rw [hreplay]; exact hbusy)
    have htail : s.replay.queue.tail = qs := by rw [hqs]; rfl
    rw [htail, hjoin.replay rfl, hjoin.notices rfl, ← hreplay]
    exact ⟨hr, hn.trans (offerNotice_congr _ hnotices htime)⟩
  · have hstays : w = v := abortReplay_idle (by rw [hreplay]; exact hidle)
    have hjr : (linkLost why s).replay = w.replay := hjoin.replay rfl
    have hjn : (linkLost why s).notices = w.notices := hjoin.notices rfl
    rw [hjr, hjn, hstays]
    exact ⟨hreplay, hnotices⟩

/-- With the agent READY the loss is the whole. -/
theorem leaveUplink_lost (why : PrevLoss) {s : State} (h : s.agent.state = .ready) :
    leaveUplink why s = linkLost why s ∧ s.uplinkLost (leaveUplink why s) why := by
  obtain ⟨hlost, hmoves⟩ := linkLost_spec why s
  have hready : (linkLost why s).agent.state = .ready := (congrArg Agent.state (hmoves.agent rfl)).trans h
  have hstays : resetIfPending (linkLost why s) = linkLost why s := if_neg (not_not.2 hready)
  rw [leaveUplink_eq, hstays]
  exact ⟨rfl, hlost⟩

/-- A whole reset reads of the state before it the pins, the DRAM bytes, flash with the operation in flight, and the
model's own queue and counter. -/
theorem wholeReset_source {u s t : State} {cause : ResetCause} {k : Option SlotId} (htin : u.tin = s.tin)
    (hpg : u.pg = s.pg) (hpending : u.pending = s.pending) (hfresh : u.fresh = s.fresh)
    (hmem : u.store.mem = s.store.mem) (hlong : u.agent.longOp = s.agent.longOp) (hflash : u.flash = s.flash)
    (h : u.wholeReset t cause k) : s.wholeReset t cause k := by
  unfold State.wholeReset at h ⊢
  rwa [htin, hpg, hpending, hfresh, hmem, hlong, hflash] at h

/-- With the agent RESET_PENDING the loss brings the part reset (R159). -/
theorem leaveUplink_resets (why : PrevLoss) {s : State} {k : Option SlotId} (h : s.agent.state = .resetPending k) :
    s.wholeReset (leaveUplink why s) .part k := by
  obtain ⟨hlost, hmoves⟩ := linkLost_spec why s
  obtain ⟨-, -, -, -, -, -, -, -, -, -, -, hmem, -⟩ := hlost
  have hpending : (linkLost why s).agent.state = .resetPending k := (congrArg Agent.state (hmoves.agent rfl)).trans h
  have hresets : resetIfPending (linkLost why s) = partReset (linkLost why s) := if_pos (by rw [hpending]; exact nofun)
  rw [leaveUplink_eq, hresets]
  exact wholeReset_source (hmoves.tin rfl) (hmoves.pg rfl) hmoves.pending hmoves.fresh hmem
    (congrArg Agent.longOp (hmoves.agent rfl)) (hmoves.flash rfl) (partReset_whole hpending)

/-- Settles O35: the loss at the deadline, and the part reset that it brings a RESET_PENDING agent. -/
theorem silenceLosesUplink : Obligations.SilenceLosesUplink := by
  intro d s ha hd
  have hexec : exec (.silenceTimerExpiry .up) s = .next (leaveUplink .silence (atDeadline d s)) := by
    refine congrArg Host.Outcome.next ?_
    simp only [uplinkSilence, ha, hd]
  refine ⟨fun h => ⟨_, hexec, ?_⟩, fun k h => ⟨_, hexec, ?_⟩⟩
  · exact (leaveUplink_lost .silence (by rw [atDeadline_agent]; exact h)).2
  · have hwhole := leaveUplink_resets .silence (s := atDeadline d s) (k := k) (by rw [atDeadline_agent]; exact h)
    exact wholeReset_source (atDeadline_tin d s) (by rw [atDeadline_eq]) (atDeadline_pending d s) (atDeadline_fresh d s)
      (by rw [atDeadline_store]) (by rw [atDeadline_agent]) (atDeadline_flash d s) hwhole

end Sys2Proof.Machine
end

section
/-!
Units received on the uplink: what each counts, the runs that they move, and the requests that they carry. Settles O36.
-/

namespace Sys2Proof.Machine

open Sys2Proof

theorem offerNotice_mapUplink (b : NoticeBody) (f : Uplink → Uplink) (s : State) :
    offerNotice b (mapUplink f s) = mapUplink f (offerNotice b s) := by
  have hn : (offerNotice b (mapUplink f s)).notices = (offerNotice b s).notices := offerNotice_congr b rfl rfl
  rw [offerNotice_eq b (mapUplink f s), hn, offerNotice_eq b s]
  rfl

/-! ## The counters and the runs (R17, R18, R20) -/

/-- The uplink that a unit finds in ACTIVE, counted. -/
def Uplink.heard (s : State) (u : Uplink) : Uplink := { u with segIn := bump u.segIn, silence := some (s.after 4000) }

section counted

variable {s : State}

theorem countUpUnit_active (h : s.uplink.state = .active) : countUpUnit s = { s with uplink := s.uplink.heard s } := by
  simp only [countUpUnit, mapUplink, if_pos h]
  rfl

theorem countUpUnit_inactive (h : s.uplink.state ≠ .active) :
    countUpUnit s = { s with uplink := { s.uplink with segIn := bump s.uplink.segIn } } := by
  simp only [countUpUnit, mapUplink, if_neg h]

theorem badUpUnit_acquiring (h : s.uplink.state = .acquiring) :
    badUpUnit s = { s with uplink := { s.uplink with badCheck := bump s.uplink.badCheck, acqRun := 0 } } := by
  have hna : s.uplink.state ≠ .active := by rw [h]; exact nofun
  simp only [badUpUnit, mapUplink, if_pos h, hna, if_false, false_and]

theorem badUpUnit_lost (h : s.uplink.state = .lost) :
    badUpUnit s = { s with uplink := { s.uplink with badCheck := bump s.uplink.badCheck } } := by
  have hna : s.uplink.state ≠ .active := by rw [h]; exact nofun
  have hnq : s.uplink.state ≠ .acquiring := by rw [h]; exact nofun
  simp only [badUpUnit, mapUplink, hna, hnq, if_false, false_and]

theorem badUpUnit_run (h : s.uplink.state = .active) (hr : s.uplink.badRun < 15) :
    badUpUnit s = { s with uplink := { s.uplink with
      badCheck := bump s.uplink.badCheck, badRun := s.uplink.badRun + 1 } } := by
  have hnq : s.uplink.state ≠ .acquiring := by rw [h]; exact nofun
  have hshort : ¬ Config.badCheckRun ≤ s.uplink.badRun + 1 := Nat.not_le_of_lt (Nat.succ_lt_succ hr)
  simp only [badUpUnit, mapUplink, if_pos h, hnq, if_false, hshort, and_false]

/-- The sixteenth bad check in a row loses the link (R20). -/
theorem badUpUnit_loses (h : s.uplink.state = .active) (hr : s.uplink.badRun = 15) :
    badUpUnit s = leaveUplink .badChecks { s with uplink := { s.uplink with
      badCheck := bump s.uplink.badCheck, badRun := s.uplink.badRun + 1 } } := by
  have hnq : s.uplink.state ≠ .acquiring := by rw [h]; exact nofun
  have hlong : Config.badCheckRun ≤ s.uplink.badRun + 1 := by rw [hr]; exact Nat.le_refl 16
  simp only [badUpUnit, mapUplink, if_pos h, hnq, if_false]
  exact if_pos ⟨h, hlong⟩

theorem goodUpUnit_other (h : s.uplink.state ≠ .acquiring) :
    goodUpUnit s = { s with uplink := { s.uplink with badRun := 0 } } := by
  simp only [goodUpUnit, mapUplink, h, false_and, if_false]

theorem goodUpUnit_run (h : s.uplink.state = .acquiring) (hr : s.uplink.acqRun < 7) :
    goodUpUnit s = { s with uplink := { s.uplink with badRun := 0, acqRun := s.uplink.acqRun + 1 } } := by
  have hshort : ¬ Config.acquisitionRun ≤ s.uplink.acqRun + 1 := Nat.not_le_of_lt (Nat.succ_lt_succ hr)
  simp only [goodUpUnit, mapUplink, if_pos h, hshort, and_false, if_false]

/-- The eighth good check in a row acquires the link (R18). -/
theorem goodUpUnit_acquires (h : s.uplink.state = .acquiring) (hr : s.uplink.acqRun = 7) :
    goodUpUnit s = replayTakes { offerNotice (.uplinkState s.uplink.prevLoss) s with uplink := { s.uplink with
      state := .active, acqRun := 8, badRun := 0, silence := some (s.after 4000), prevLoss := .none } } := by
  have hlong : Config.acquisitionRun ≤ s.uplink.acqRun + 1 := by rw [hr]; exact Nat.le_refl 8
  have henter : goodUpUnit s = enterUplink { s with uplink := { s.uplink with
      badRun := 0, acqRun := s.uplink.acqRun + 1 } } := by
    simp only [goodUpUnit, mapUplink, if_pos h]
    exact if_pos ⟨h, hlong⟩
  let f : Uplink → Uplink := fun _ => { s.uplink with
    state := .active, badRun := 0, silence := some (s.after 4000), acqRun := s.uplink.acqRun + 1 }
  have hoffer := offerNotice_mapUplink (.uplinkState s.uplink.prevLoss) f s
  rw [henter, enterUplink]
  refine congrArg replayTakes (Eq.trans ?_ (?_ : mapUplink (fun u => { u with prevLoss := .none })
    (offerNotice (.uplinkState s.uplink.prevLoss) (mapUplink f s)) = _))
  · rfl
  · rw [hoffer]
    simp only [mapUplink, f, hr]

end counted

/-! ## The classes of units -/

section classes

variable {unit : List Byte} {s : State}

theorem upUnit_badCheck (hs : s.starting = false) (h : classifyUp unit = .badCheck) :
    exec (.uplinkUnitReceived unit) s = .next (badUpUnit (countUpUnit s)) := by
  refine congrArg Host.Outcome.next ?_
  simp only [upUnit, hs, Bool.false_eq_true, if_false, h]

/-- Outside ACTIVE a good-check unit, well-formed or not, moves the runs alone. -/
theorem upUnit_good (hs : s.starting = false) (ha : s.uplink.state ≠ .active) (h : classifyUp unit ≠ .badCheck) :
    exec (.uplinkUnitReceived unit) s = .next (goodUpUnit (countUpUnit s)) := by
  refine congrArg Host.Outcome.next ?_
  cases hc : classifyUp unit with
  | badCheck => exact absurd hc h
  | malformed => simp only [upUnit, hs, Bool.false_eq_true, if_false, hc]
  | wellFormed g => simp only [upUnit, hs, Bool.false_eq_true, if_false, hc, if_neg ha]

/-- In ACTIVE: the state in which a good-check unit's segment is disposed of. -/
theorem good_active (ha : s.uplink.state = .active) : goodUpUnit (countUpUnit s) = { s with uplink := { s.uplink with
    segIn := bump s.uplink.segIn, badRun := 0, silence := some (s.after 4000) } } := by
  rw [countUpUnit_active ha]
  refine (goodUpUnit_other (s := { s with uplink := s.uplink.heard s }) ?_).trans rfl
  intro h
  exact absurd (ha.symm.trans h) (by decide)

theorem upUnit_mreq {m : Mreq} (hs : s.starting = false) (ha : s.uplink.state = .active)
    (h : classifyUp unit = .wellFormed (.mreq m)) :
    exec (.uplinkUnitReceived unit) s = .next (agentTakes (requestArrives m { s with uplink := { s.uplink with
      segIn := bump s.uplink.segIn, badRun := 0, silence := some (s.after 4000) } })) := by
  refine congrArg Host.Outcome.next ?_
  simp only [upUnit, hs, Bool.false_eq_true, if_false, h, if_pos ha, good_active ha, disposeUp]

theorem upUnit_idle (hs : s.starting = false) (ha : s.uplink.state = .active)
    (h : classifyUp unit = .malformed ∨ classifyUp unit = .wellFormed .link) :
    exec (.uplinkUnitReceived unit) s = .next { s with uplink := { s.uplink with
      segIn := bump s.uplink.segIn, badRun := 0, silence := some (s.after 4000) } } := by
  refine congrArg Host.Outcome.next ?_
  rcases h with h | h
  · simp only [upUnit, hs, Bool.false_eq_true, if_false, h, good_active ha]
  · simp only [upUnit, hs, Bool.false_eq_true, if_false, h, if_pos ha, good_active ha, disposeUp]

end classes

/-! ## A request arrives (R148, R149, R157) -/

/-- `s` with one more request received. -/
def received (s : State) : State := { s with agent := { s.agent with received := bump s.agent.received } }

theorem requestArrives_camera {m : Mreq} {n : PortId} (h : m.route = byteOf n.val) (s : State) :
    requestArrives m s = forwardRequest n m (received s) := by
  have hroute : indexBelow 8 m.route = some n := by rw [h]; exact indexBelow_byteOf 8 n (by decide)
  simp only [requestArrives, hroute]
  rfl

theorem requestArrives_part {m : Mreq} (h : 8 ≤ m.route.toNat) (s : State) :
    requestArrives m s = joinRequests m (received s) := by
  simp only [requestArrives, indexBelow_none 8 m.route h]
  rfl

theorem replyRoom_iff (s : State) : replyRoom s = true ↔ ¬ 16 ≤ s.agent.replies.length + s.agent.reserved.toNat := by
  simp only [replyRoom, decide_eq_true_eq, Nat.not_le]
  exact Iff.rfl

theorem replyOrDrop_joins {r : Reply} {s : State} (h : ¬ 16 ≤ s.agent.replies.length + s.agent.reserved.toNat) :
    replyOrDrop r s = pushReply r s := if_pos ((replyRoom_iff s).2 h)

theorem replyOrDrop_drops {r : Reply} {s : State} (h : 16 ≤ s.agent.replies.length + s.agent.reserved.toNat) :
    replyOrDrop r s = countDropped s := if_neg (mt (replyRoom_iff s).1 (not_not.2 h))

section forward

variable {n : PortId} {m : Mreq} {s : State}

theorem forwardRequest_joins (h : (s.port n).state = .active)
    (hq : (s.port n).outTrigs.length + (s.port n).outMreqs.length < 4) :
    forwardRequest n m s = mapPort n (fun p => { p with outMreqs := p.outMreqs ++ [m] }) s := by
  have hroom : outputLength s n < Config.outputCapacity := hq
  rw [forwardRequest, if_neg (not_not.2 h), if_pos hroom]

theorem forwardRequest_down (h : (s.port n).state ≠ .active) :
    forwardRequest n m s = replyOrDrop (portDownReply m 0) s := if_pos h

theorem forwardRequest_busy (h : (s.port n).state = .active)
    (hq : 4 ≤ (s.port n).outTrigs.length + (s.port n).outMreqs.length) :
    forwardRequest n m s = replyOrDrop (partReply m.tag m.op .busy []) s := by
  have hfull : ¬ outputLength s n < Config.outputCapacity := Nat.not_lt_of_le hq
  rw [forwardRequest, if_neg (not_not.2 h), if_neg hfull]

/-- A request that finds no place on its port has a reply, whichever, or none. -/
theorem forwardRequest_refused
    (h : (s.port n).state ≠ .active ∨ 4 ≤ (s.port n).outTrigs.length + (s.port n).outMreqs.length) :
    ∃ r, forwardRequest n m s = replyOrDrop r s := by
  by_cases ha : (s.port n).state = .active
  case pos => exact ⟨_, forwardRequest_busy ha (h.resolve_left (not_not.2 ha))⟩
  case neg => exact ⟨_, forwardRequest_down ha⟩

end forward

theorem joinRequests_joins {m : Mreq} {s : State} (h : s.agent.requests.length < 8) :
    joinRequests m s = mapAgent (fun a => { a with requests := a.requests ++ [m] }) s := if_pos h

theorem joinRequests_full {m : Mreq} {s : State} (h : 8 ≤ s.agent.requests.length) :
    (¬ 16 ≤ s.agent.replies.length + s.agent.reserved.toNat → joinRequests m s
      = mapAgent (fun a => { a with refusedFull := bump a.refusedFull })
          (pushReply (partReply m.tag m.op .queueFull []) s))
    ∧ (16 ≤ s.agent.replies.length + s.agent.reserved.toNat → joinRequests m s = countDropped s) := by
  have hfull : ¬ s.agent.requests.length < Config.requestCapacity := Nat.not_lt_of_le h
  rw [joinRequests, if_neg hfull]
  exact ⟨fun hr => if_pos ((replyRoom_iff s).2 hr), fun hr => if_neg (mt (replyRoom_iff s).1 (not_not.2 hr))⟩

/-- One request waiting that passes the agent's checks: its execution is the whole. -/
theorem agentTakes_one {s : State} {m : Mreq} {op : HostOp} (hm : s.agent.requests = [m]) (h : s.mayTake)
    (hr : m.route = 0x0F) (hp : parseOp m.op m.args = .ok op) :
    .next (agentTakes s) = exec (commandOf m.tag op) { s with agent := { s.agent with requests := [] } } := by
  let rest : State := { s with agent := { s.agent with requests := [] } }
  have hrest : rest.mayTake := h
  have hw := executeOp_waits m.tag op rest
  have hrun : exec (commandOf m.tag op) rest = .next (executeOp m.tag op rest) := by
    rw [exec_commandOf, hostRequest, agentFree_of_mayTake rest hrest, if_pos rfl]
  rw [agentTakes_next hm (agentFree_of_mayTake s h) (executeRequest_op hr hp) hw, hrun]
  refine congrArg Host.Outcome.next ?_
  rcases hw with hw | hw
  · exact agentTakes_none hw
  · exact agentTakes_busy hw

/-- Settles O36, by the uplink's state and the class of the unit. -/
theorem uplinkUnitsReachAgent : Obligations.UplinkUnitsReachAgent := by
  intro unit s
  refine ⟨fun hs => ?starting, fun hs ha => ⟨fun hc => ?acquiringBad, fun hc hr => ?acquiringRun, fun hc hr => ?acquires⟩,
    fun hs ha => ⟨fun hc hr => ?activeBad, fun hc => upUnit_idle hs ha hc⟩,
    fun hs ha => ⟨fun hc => ?lostBad, fun hc => ?lostGood⟩, fun hs ha hr hc hready => ?loses,
    fun m n hs ha hc hroute hempty => ?camera, fun m hs ha hc hroute => ?part⟩
  case starting => exact congrArg Host.Outcome.next (if_pos hs)
  case acquiringBad =>
    have hna : s.uplink.state ≠ .active := by rw [ha]; exact nofun
    rw [upUnit_badCheck hs hc, countUpUnit_inactive hna]
    exact congrArg Host.Outcome.next (badUpUnit_acquiring ha)
  case acquiringRun =>
    have hna : s.uplink.state ≠ .active := by rw [ha]; exact nofun
    rw [upUnit_good hs hna hc, countUpUnit_inactive hna]
    exact congrArg Host.Outcome.next (goodUpUnit_run ha hr)
  case acquires =>
    intro t
    have hna : s.uplink.state ≠ .active := by rw [ha]; exact nofun
    let u : State := { s with uplink := { s.uplink with segIn := bump s.uplink.segIn } }
    have hoffer : offerNotice (.uplinkState s.uplink.prevLoss) u
        = mapUplink (fun x => { x with segIn := bump x.segIn }) (offerNotice (.uplinkState s.uplink.prevLoss) s) :=
      offerNotice_mapUplink (.uplinkState s.uplink.prevLoss) (fun x => { x with segIn := bump x.segIn }) s
    have hacquired : goodUpUnit (countUpUnit s) = replayTakes t := by
      rw [countUpUnit_inactive hna]
      refine (goodUpUnit_acquires (s := u) ha hr).trans (congrArg replayTakes ?_)
      rw [show u.uplink.prevLoss = s.uplink.prevLoss from rfl, hoffer]
      rfl
    have hexec : exec (.uplinkUnitReceived unit) s = .next (replayTakes t) :=
      (upUnit_good hs hna hc).trans (congrArg Host.Outcome.next hacquired)
    have hreplay : t.replay = s.replay := offerNotice_replay _ s
    exact ⟨hexec, fun hq => hexec.trans (congrArg Host.Outcome.next
      (replayTakes_not (.inr (.inr (by rw [hreplay]; exact hq)))))⟩
  case activeBad =>
    rw [upUnit_badCheck hs hc, countUpUnit_active ha]
    exact congrArg Host.Outcome.next (badUpUnit_run ha hr)
  case lostBad =>
    have hna : s.uplink.state ≠ .active := by rw [ha]; exact nofun
    rw [upUnit_badCheck hs hc, countUpUnit_inactive hna]
    exact congrArg Host.Outcome.next (badUpUnit_lost ha)
  case lostGood =>
    have hna : s.uplink.state ≠ .active := by rw [ha]; exact nofun
    have hnq : s.uplink.state ≠ .acquiring := by rw [ha]; exact nofun
    rw [upUnit_good hs hna hc, countUpUnit_inactive hna]
    exact congrArg Host.Outcome.next (goodUpUnit_other hnq)
  case loses =>
    let u : State := { s with uplink := { s.uplink.heard s with
      badCheck := bump s.uplink.badCheck, badRun := s.uplink.badRun + 1 } }
    have hbad : badUpUnit (countUpUnit s) = leaveUplink .badChecks u := by
      rw [countUpUnit_active ha]
      exact badUpUnit_loses ha hr
    obtain ⟨heq, hlost⟩ := leaveUplink_lost .badChecks (s := u) hready
    have hcount : (leaveUplink .badChecks u).uplink.badCheck = bump s.uplink.badCheck := by
      rw [heq, (linkLost_spec .badChecks u).2.uplink rfl]
      rfl
    refine ⟨leaveUplink .badChecks u, (upUnit_badCheck hs hc).trans (congrArg Host.Outcome.next hbad), ?_, hcount⟩
    have hoffer (b : NoticeBody) : (offerNotice b u).notices = (offerNotice b s).notices := offerNotice_congr b rfl rfl
    unfold State.uplinkLost at hlost ⊢
    simp only [hoffer] at hlost
    exact hlost
  case camera =>
    intro up full
    let u : State := { s with uplink := up }
    have hexec : exec (.uplinkUnitReceived unit) s = .next (agentTakes (forwardRequest n m (received u))) := by
      rw [upUnit_mreq hs ha hc, requestArrives_camera hroute]
    have hdone {v : State} (hf : forwardRequest n m (received u) = v) (hv : v.agent.requests = []) :
        exec (.uplinkUnitReceived unit) s = .next v := by rw [hexec, hf, agentTakes_none hv]
    refine ⟨fun h hq => ?_, fun h hr => ?_, fun h hq hr => ?_, fun h hr => ?_⟩
    · exact hdone (forwardRequest_joins (s := received u) h hq) hempty
    · exact hdone ((forwardRequest_down (s := received u) h).trans (replyOrDrop_joins (s := received u) hr)) hempty
    · exact hdone ((forwardRequest_busy (s := received u) h hq).trans (replyOrDrop_joins (s := received u) hr)) hempty
    · obtain ⟨r, hrefused⟩ := forwardRequest_refused (m := m) (s := received u) h
      exact hdone (hrefused.trans (replyOrDrop_drops (s := received u) hr)) hempty
  case part =>
    intro up full
    let u : State := { s with uplink := up }
    have hexec : exec (.uplinkUnitReceived unit) s = .next (agentTakes (joinRequests m (received u))) := by
      rw [upUnit_mreq hs ha hc, requestArrives_part hroute]
    have hdone {v : State} (hj : joinRequests m (received u) = v) (hv : agentFree v = false) :
        exec (.uplinkUnitReceived unit) s = .next v := by rw [hexec, hj, agentTakes_busy hv]
    refine ⟨fun op h hempty hr hp => ?_, fun h hq => ?_, fun h hq hr => ?_, fun hq hr => ?_⟩
    · have hjoins := joinRequests_joins (m := m) (s := received u) (by
        rw [show (received u).agent.requests = [] from hempty]
        exact Nat.zero_lt_succ 7)
      let v := mapAgent (fun a => { a with requests := a.requests ++ [m] }) (received u)
      have hone : v.agent.requests = [m] := congrArg (· ++ [m]) hempty
      have hempty' : ({ v with agent := { v.agent with requests := [] } } : State) = received u := by
        rw [← hempty]
        rfl
      have htake := agentTakes_one (s := v) hone h hr hp
      rw [hempty'] at htake
      rw [hexec, hjoins]
      exact htake
    · exact hdone (joinRequests_joins (s := received u) hq) (agentFree_notReady h)
    · exact hdone ((joinRequests_full (s := received u) hq).1 hr) (agentFree_notReady h)
    · have hfull : 16 ≤ (received u).agent.replies.length + (received u).agent.reserved.toNat :=
        Nat.le_add_right_of_le hr
      exact hdone ((joinRequests_full (s := received u) hq).2 hfull) (agentFree_full hr)

end Sys2Proof.Machine
end

section
/-!
A segment that completes on the uplink, by its source. Settles O34.
-/

namespace Sys2Proof.Machine

open Sys2Proof

/-! ## The transmitter (R33, R107) -/

/-- `s` with the transmitter free behind a counted segment. -/
def segmentOut (s : State) : State :=
  { s with uplink := { s.uplink with tx := none, segOut := bump s.uplink.segOut } }

section completes

variable {x : UplinkTx} {s : State}

theorem exec_completes (h : s.uplink.tx = some x) :
    exec .uplinkSegmentCompletes s = .next (segmentLeft x (freeTransmitter x s)) := by
  refine congrArg Host.Outcome.next ?_
  simp only [segmentCompletes, h]

theorem freeTransmitter_counted (ha : s.uplink.state = .active) (hk : x.segment.kind ≠ .link) :
    freeTransmitter x s = segmentOut s := by
  simp only [freeTransmitter, mapUplink, Uplink.rest, if_pos ha, if_neg hk]
  rfl

theorem freeTransmitter_link (ha : s.uplink.state = .active) (hk : x.segment.kind = .link) :
    freeTransmitter x s = { s with uplink := { s.uplink with tx := none } } := by
  simp only [freeTransmitter, mapUplink, Uplink.rest, if_pos ha, if_pos hk]

/-- Outside ACTIVE the next LINK filler follows (log entry 21). -/
theorem freeTransmitter_filler (ha : s.uplink.state ≠ .active) (h : s.uplink.tx = some .filler) :
    freeTransmitter .filler s = s := by
  simp only [freeTransmitter, mapUplink, Uplink.rest, if_neg ha, ← h]
  rfl

/-- A counted segment leaves the transmitter free, and its source goes on. -/
theorem exec_counted (ha : s.uplink.state = .active) (h : s.uplink.tx = some x) (hk : x.segment.kind ≠ .link) :
    exec .uplinkSegmentCompletes s = .next (segmentLeft x (segmentOut s)) := by
  rw [exec_completes h, freeTransmitter_counted ha hk]

end completes

/-! ## A reply, a notice and a live TAIL leave -/

theorem replyLeaves_plain {r : Reply} {rs : List Reply} {s : State} (h : s.agent.replies = r :: rs) (hr : r.resets = false) :
    replyLeaves s = agentTakes { s with agent := { s.agent with replies := rs } } := by
  simp only [replyLeaves, mapAgent, h, List.head?_cons, Option.map_some, Option.getD_some, hr, Bool.false_eq_true, if_false,
    List.drop_succ_cons, List.drop_zero]

theorem replyLeaves_resets {r : Reply} {rs : List Reply} {s : State} (h : s.agent.replies = r :: rs) (hr : r.resets = true) :
    replyLeaves s = partReset { s with agent := { s.agent with replies := rs } } := by
  simp only [replyLeaves, mapAgent, h, List.head?_cons, Option.map_some, Option.getD_some, hr, if_true,
    List.drop_succ_cons, List.drop_zero]

theorem holdsNoticesLost_iff (q : List Notice) : holdsNoticesLost q = true ↔ ∃ x ∈ q, x.isLost = true := List.any_eq_true

section notice

variable {m : Notice} {ms : List Notice} {s : State} (h : s.notices.queue = m :: ms)

include h

theorem noticeLeaves_plain (hl : s.notices.lost = 0 ∨ ∃ x ∈ ms, x.isLost = true) :
    noticeLeaves s = { s with notices := { s.notices with queue := ms } } := by
  have hno : ¬ (0 < s.notices.lost ∧ holdsNoticesLost ms = false) := by
    rintro ⟨hpos, hnone⟩
    rcases hl with hl | hl
    · exact absurd hl (Nat.ne_of_gt hpos)
    · exact Bool.false_ne_true (hnone.symm.trans ((holdsNoticesLost_iff ms).2 hl))
  simp only [noticeLeaves, mapNotices, h, List.drop_succ_cons, List.drop_zero, if_neg hno]

theorem noticeLeaves_lost (hl : 0 < s.notices.lost) (hn : ∀ x ∈ ms, x.isLost = false) :
    noticeLeaves s = { s with notices := { s.notices with
      queue := ms ++ [⟨s.notices.seq, s.partTime, .noticesLost s.notices.lost⟩], seq := s.notices.seq + 1, lost := 0 } } := by
  have hnone : holdsNoticesLost ms = false := Bool.eq_false_iff.2 fun hh => by
    obtain ⟨x, hx, hlost⟩ := (holdsNoticesLost_iff ms).1 hh
    exact Bool.false_ne_true ((hn x hx).symm.trans hlost)
  simp only [noticeLeaves, mapNotices, h, List.drop_succ_cons, List.drop_zero, hl, hnone, and_self, if_true, pushNotice]

end notice

/-- What the TAIL of a live forwarding leaves (R88, R102). -/
theorem forwardTailLeaves_spec {e : EntryId} {r : RecordId} {rs : List RecordId} {s : State}
    (h : (s.entry e).forwardQueue = r :: rs) :
    let t := forwardTailLeaves e s
    t.uplink = s.uplink ∧ t.entry e = { s.entry e with
        forwardQueue := rs, cursor := none,
        counters := { (s.entry e).counters with forwarded := bump (s.entry e).counters.forwarded } }
      ∧ (∀ f, f ≠ e → t.entry f = s.entry f) ∧ (t.record r).forward = false ∧ t.agent = s.agent
      ∧ t.notices = s.notices ∧ t.store.mem = s.store.mem := by
  intro t
  let u := mapEntry e (fun x => { x with forwardQueue := rs, cursor := none }) s
  have ht : t = countEntry e (fun c => { c with forwarded := bump c.forwarded }) (dropForward r u) := by
    simp only [t, forwardTailLeaves, h]
    rfl
  have hmoves : Moves { store := true } u (dropForward r u) := dropForward_moves rfl r u
  have hforward := dropForward_self r u
  have hmem : (dropForward r u).store.mem = u.store.mem :=
    (reexamine_rings (P := fun _ => True) r (mapRecord r (fun x => { x with forward := false }) u)).mem
  generalize dropForward r u = v at ht hmoves hforward hmem
  have hentry : ∀ f, v.entry f = u.entry f := fun f => congrArg (fun es : Vector Entry 32 => es[f]) (hmoves.entries rfl)
  rw [ht]
  refine ⟨hmoves.uplink rfl, ?_, fun f hf => ?_, hforward, hmoves.agent rfl, hmoves.notices rfl, hmem⟩
  · rw [countEntry, mapEntry_entry_self, hentry, mapEntry_entry_self]
  · exact (mapEntry_entry_ne e _ v f hf).trans ((hentry f).trans (mapEntry_entry_ne e _ s f hf))

/-! ## A replay TAIL leaves (R121, R125) -/

theorem sentOutcome_eq (x : Record) : sentOutcome x
    = if x.damage = ⟨false, false, false, false⟩ ∧ x.close = some .tail then .sent else .sentDamaged := by
  simp only [sentOutcome, Bool.and_eq_true, beq_iff_eq]
  rfl

theorem pinnedOutcome_eq {s : State} {r : RecordId} (h : s.replay.pinned = some r) :
    pinnedOutcome s = sentOutcome (s.record r) := by
  simp only [pinnedOutcome, h]

theorem replayTailLeaves_sending {s : State} (h : s.replay.engine = .sending) :
    replayTailLeaves s = continueHead (releasePin (mapHead (.settle (pinnedOutcome s)) s)) := by
  simp only [replayTailLeaves, h]

theorem replayTailLeaves_closing {s : State} (h : s.replay.engine = .closing) :
    replayTailLeaves s = finishHead (pinnedOutcome s) .cancelled s := by
  simp only [replayTailLeaves, h]

section tail

variable {q : ReplayRequest} {qs : List ReplayRequest} {r : RecordId} {s : State}

/-- The queue and the pin behind the unpin of the pinned record. -/
theorem releasePin_replay (h : s.replay.pinned = some r) :
    (releasePin s).replay = { s.replay with pinned := none, cursor := none } := by
  rw [releasePin_eq h]
  exact (unpin_moves Touch.storeOnly_hasStore r _).replay rfl

/-- The last frame of the last request ends it. -/
theorem continueHead_last (hp : s.replay.pinned = some r) (hc : q.count ≤ q.outcomes.length) :
    continueHead (releasePin (withHead q [] s)) = replayTakes (endHead (releasePin (withHead q [] s))) := by
  have hreplay := releasePin_replay (s := withHead q [] s) hp
  generalize releasePin (withHead q [] s) = u at hreplay
  have hqueue : u.replay.queue = [q] := congrArg ReplayService.queue hreplay
  have hpinned : u.replay.pinned = none := congrArg ReplayService.pinned hreplay
  have hstays : advance q.count u = u := advance_decided hqueue hc
  simp only [continueHead, hqueue, hstays, hpinned, Option.isSome_none, Bool.false_eq_true, if_false]

/-- A ring member without a pin whose ring is within its depth: the unpin evicts nothing and frees nothing (R89). -/
theorem unpin_kept (hr : (s.record r).ring = true)
    (hd : (s.entry (s.record r).entry).ring.length ≤ (s.entry (s.record r).entry).current.ringDepth) :
    (unpin r s).entries = s.entries ∧ (unpin r s).record r = { s.record r with pin := false }
      ∧ ∀ x, x ≠ r → (unpin r s).record x = s.record x := by
  let u := mapRecord r (fun x => { x with pin := false }) s
  have hself : u.record r = { s.record r with pin := false } := mapRecord_record_self r _ s
  have hclaimed : (u.record r).unclaimed = false := by
    rw [hself]
    simp [Record.unclaimed, hr]
  have hwithin : unpin r s = reexamine r u := congrArg (reexamine r) (evictions_within (s := u) hd)
  rw [hwithin]
  exact ⟨(reexamine_moves (F := { store := true }) rfl r u).entries rfl, (reexamine_claimed hclaimed).trans hself,
    fun x hx => (reexamine_other hx u).1.trans (mapRecord_record_ne r _ s x hx)⟩

/-- Where the frame of a request is found depends on the ring and on the numbers of its members. -/
theorem ringMember_frames {s t : State} {e : EntryId} (hring : (t.entry e).ring = (s.entry e).ring)
    (hframe : ∀ x, (t.record x).frame = (s.record x).frame) (k : Half) : ringMember t e k = ringMember s e k := by
  simp only [ringMember, hring, hframe]

theorem continueHead_pins {r' : RecordId} {u : State} (hq : u.replay.queue = q :: qs) (hc : q.outcomes.length < q.count)
    (hg : q.gone = false) (hm : ringMember u q.entry q.frame = some r') :
    continueHead u = startSending r' u := by
  obtain ⟨k, hk⟩ : ∃ k, q.count = k + 1 := ⟨q.count - 1, by omega⟩
  have hpins : advance q.count u = startSending r' u := by
    rw [hk]
    exact advance_pins hq hc hg hm
  have hpinned : (startSending r' u).replay.pinned = some r' := rfl
  simp only [continueHead, hq, hpins, hpinned, Option.isSome_some, if_true]

end tail

/-- The pin of a record, in the other parts of the state. -/
theorem startSending_spec (r : RecordId) (s : State) :
    (startSending r s).replay = { s.replay with engine := .sending, pinned := some r, cursor := none }
      ∧ (startSending r s).entries = s.entries ∧ (startSending r s).notices = s.notices
      ∧ (startSending r s).uplink = s.uplink ∧ ((startSending r s).record r).pin = true
      ∧ ∀ x, x ≠ r → (startSending r s).record x = s.record x := by
  have hrecord : ∀ x, (startSending r s).record x = (mapRecord r (fun y => { y with pin := true }) s).record x := fun x => by
    rw [startSending, takePin_eq]
    rfl
  have hself : ((startSending r s).record r).pin = true := by rw [hrecord, mapRecord_record_self]
  have hothers : ∀ x, x ≠ r → (startSending r s).record x = s.record x := fun x hx =>
    (hrecord x).trans (mapRecord_record_ne r _ s x hx)
  refine ⟨?_, ?_, ?_, ?_, hself, hothers⟩ <;> rw [startSending, takePin_eq] <;> rfl

/-- The next frame of the request is pinned. -/
theorem nextFrame_pins {q : ReplayRequest} {qs : List ReplayRequest} {r r' : RecordId} {s : State}
    (hp : s.replay.pinned = some r) (hg : q.gone = false) (hc : q.outcomes.length < q.count)
    (hr : (s.record r).ring = true)
    (hd : (s.entry (s.record r).entry).ring.length ≤ (s.entry (s.record r).entry).current.ringDepth)
    (hm : ringMember s q.entry q.frame = some r') (hne : r' ≠ r) :
    let t := continueHead (releasePin (withHead q qs s))
    t.replay = { s.replay with queue := q :: qs, engine := .sending, pinned := some r', cursor := none }
      ∧ t.notices = s.notices ∧ (t.record r).pin = false ∧ (t.record r').pin = true ∧ t.entries = s.entries
      ∧ t.uplink = s.uplink := by
  intro t
  let v := mapReplay (fun x => { x with pinned := none, cursor := none }) (withHead q qs s)
  obtain ⟨hentries, hself, hothers⟩ := unpin_kept (s := v) hr hd
  have hmoves := unpin_moves Touch.storeOnly_hasStore r v
  have hquiet := unpin_quiet r v
  have ht : t = continueHead (unpin r v) := congrArg continueHead (releasePin_eq (s := withHead q qs s) hp)
  generalize unpin r v = w at hentries hself hothers hmoves hquiet ht
  have hreplay : w.replay = v.replay := hmoves.replay rfl
  have hframe : ∀ x, (w.record x).frame = (s.record x).frame := fun x => by
    by_cases hx : x = r
    case pos => rw [hx, hself]; rfl
    case neg => rw [hothers x hx]; rfl
  have hring : (w.entry q.entry).ring = (s.entry q.entry).ring := by rw [State.entry, hentries]; rfl
  have hmember : ringMember w q.entry q.frame = some r' := (ringMember_frames hring hframe q.frame).trans hm
  rw [continueHead_pins (congrArg ReplayService.queue hreplay) hc hg hmember] at ht
  obtain ⟨h1, h2, h3, h4, h5, h6⟩ := startSending_spec r' w
  rw [ht]
  refine ⟨h1.trans (by rw [hreplay]; rfl), h3.trans hquiet.notices, ?_, h5, h2.trans hentries, h4.trans (hmoves.uplink rfl)⟩
  rw [h6 r hne.symm, hself]

/-- Settles O34, by the source and the kind of the segment. -/
theorem completedSegmentLeaves : Obligations.CompletedSegmentLeaves := by
  intro s g
  refine ⟨fun ha hx => ?filler, fun ha hk hx => ?link, fun r rs ha hk hx hq => ?reply, fun m ms ha hk hx hq => ?notice,
    fun e ha hk hx => ?plain, fun e r rs ha hk hx hq => ?live, fun q qs r o ha hk hq hp ho => ?replay⟩
  case filler => rw [exec_completes hx]; exact congrArg Host.Outcome.next (freeTransmitter_filler ha hx)
  case link => rw [exec_completes hx]; exact congrArg Host.Outcome.next (freeTransmitter_link ha hk)
  case reply =>
    have hcounted := exec_counted ha hx (by rw [hk]; exact nofun)
    have hplain (hr : r.resets = false) := hcounted.trans
      (congrArg Host.Outcome.next (replyLeaves_plain (s := segmentOut s) hq hr))
    refine ⟨hplain, fun hr hempty => (hplain hr).trans (congrArg Host.Outcome.next (agentTakes_none hempty)),
      fun k hr hpending => ⟨_, hcounted.trans
        (congrArg Host.Outcome.next (replyLeaves_resets (s := segmentOut s) hq hr)), ?_⟩⟩
    exact partReset_whole (s := { segmentOut s with agent := { s.agent with replies := rs } }) hpending
  case notice =>
    have hcounted := exec_counted ha hx (by rw [hk]; exact nofun)
    exact ⟨fun hl => hcounted.trans (congrArg Host.Outcome.next (noticeLeaves_plain (s := segmentOut s) hq hl)),
      fun hl hn => hcounted.trans (congrArg Host.Outcome.next (noticeLeaves_lost (s := segmentOut s) hq hl hn))⟩
  case plain =>
    have hlink : g.kind ≠ .link := by rcases hk with hk | hk <;> rw [hk] <;> exact nofun
    have htail : g.kind ≠ .tail := by rcases hk with hk | hk <;> rw [hk] <;> exact nofun
    rcases hx with hx | hx
    · exact (exec_counted ha hx hlink).trans (congrArg Host.Outcome.next (if_neg htail))
    · exact (exec_counted ha hx hlink).trans (congrArg Host.Outcome.next (if_neg htail))
  case live =>
    have hcounted := exec_counted ha hx (by rw [hk]; exact nofun)
    exact ⟨_, hcounted.trans (congrArg Host.Outcome.next (if_pos hk)), forwardTailLeaves_spec (s := segmentOut s) hq⟩
  case replay =>
    let u := segmentOut s
    have hcounted {x : TxSource} (hx : s.uplink.tx = some ⟨x, g⟩) := exec_counted ha hx (by rw [hk]; exact nofun)
    have htail (hx : s.uplink.tx = some ⟨.replay, g⟩) : exec .uplinkSegmentCompletes s = .next (replayTailLeaves u) :=
      (hcounted hx).trans (congrArg Host.Outcome.next (if_pos hk))
    have houtcome : pinnedOutcome u = o := (pinnedOutcome_eq (s := u) hp).trans ((sentOutcome_eq _).trans ho.symm)
    have hoffer (b : NoticeBody) : (offerNotice b u).notices = (offerNotice b s).notices := offerNotice_congr b rfl rfl
    refine ⟨fun hx he hqs hc => ?last, fun r' hx he hg hc hr hd hm hne => ?next, fun hx he hqs => ?closing,
      fun hx he hqs => ?aborted⟩
    case last =>
      rw [hqs] at hq
      have hlen : (q.settle o).count ≤ (q.settle o).outcomes.length := by
        simp only [ReplayRequest.settle, List.length_append, List.length_singleton]
        exact hc.ge
      have hrun : replayTailLeaves u = replayTakes (endHead (releasePin (withHead (q.settle o) [] u))) := by
        rw [replayTailLeaves_sending (s := u) he, houtcome, mapHead_eq (s := u) _ hq]
        exact continueHead_last hp hlen
      have hends := lastRequest_ends (q := q.settle o) (r := r) (s := u) hp
      exact ⟨_, (htail hx).trans (congrArg Host.Outcome.next hrun), hends.replay, hends.notices.trans (hoffer _), hends.pin,
        hends.uplink⟩
    case next =>
      have hlen : (q.settle o).outcomes.length = q.outcomes.length + 1 := by
        simp only [ReplayRequest.settle, List.length_append, List.length_singleton]
      have hrun : replayTailLeaves u = continueHead (releasePin (withHead (q.settle o) qs u)) := by
        rw [replayTailLeaves_sending (s := u) he, houtcome, mapHead_eq (s := u) _ hq]
      have hframe : ringMember u (q.settle o).entry (q.settle o).frame = some r' := by
        rw [ReplayRequest.frame, hlen]
        exact hm
      obtain ⟨h1, h2, h3, h4, h5, h6⟩ := nextFrame_pins (q := q.settle o) (qs := qs) (s := u) hp hg (by rw [hlen]; exact hc)
        hr hd hframe hne
      refine ⟨_, (htail hx).trans (congrArg Host.Outcome.next hrun), h1.trans ?_, h2, h3, h4, h5, h6⟩
      rw [← he]
      rfl
    case closing =>
      rw [hqs] at hq
      have hends := finishHead_ends (s := u) (pinnedOutcome u) .cancelled hq hp
      rw [← replayTailLeaves_closing (s := u) he, houtcome] at hends
      refine ⟨_, htail hx, hends.replay, ?_, hends.pin⟩
      rw [hends.notices, settle_fill_done]
      exact hoffer _
    case aborted =>
      rw [hqs] at hq
      have hends := finishHead_ends (s := u) .aborted .cancelled hq hp
      refine ⟨_, hcounted hx, hends.replay, ?_, hends.pin⟩
      refine hends.notices.trans ?_
      rw [settle_fill_done]
      exact hoffer _

end Sys2Proof.Machine
end

section
/-!
The first steps of a profile load (R178): open frames end, the generators stop, and each loaded image becomes current.
-/

namespace Sys2Proof.Machine

open Sys2Proof

/-! ## The end of an entry's assembly (R71, R74) -/

/-- From `x` to `y` the assembly of an entry has ended: an open frame is counted as damaged, and its close may have ended a
one-shot; the binding stays. -/
structure Entry.AssemblyEnded (x y : Entry) : Prop where
  assembly : y.assembly = .idle
  current : y.current = { x.current with retention := y.current.retention }
  expected : y.expected = x.expected
  open_counts : ∀ r, x.assembly = .filling r → y.counters.framesIn = bump x.counters.framesIn
    ∧ y.counters.framesDamaged = bump x.counters.framesDamaged
  other_counts : (∀ r, x.assembly ≠ .filling r) → y.counters.framesIn = x.counters.framesIn
    ∧ y.counters.framesDamaged = x.counters.framesDamaged
  idle : x.assembly = .idle → y = x

/-- An open frame that closes for another reason than TAIL. -/
theorem closeOpen_ended {e : EntryId} {r : RecordId} {c : CloseReason} {s : State} (hc : c ≠ .tail)
    (hr : (s.entry e).assembly = .filling r) : (s.entry e).AssemblyEnded ((closeOpen e r c s).entry e) := by
  have hdamaged : damagedClose (s.record r).damage c = true := (damagedClose_iff _ c).2 (.inr hc)
  have hidle : (s.entry e).assembly ≠ .idle := by rw [hr]; exact nofun
  by_cases hk : keptOut (s.entry e).current (s.record r) (s.entry e).ring
  case pos =>
    obtain ⟨hentry, -⟩ := closeOpen_keptOut (c := c) hk
    rw [hentry, hdamaged]
    exact ⟨rfl, rfl, rfl, fun _ _ => ⟨rfl, rfl⟩, fun h => absurd hr (h r), fun h => absurd h hidle⟩
  case neg =>
    obtain ⟨v, hentry⟩ := closeOpen_retains (c := c) hk
    rw [hentry, hdamaged]
    exact ⟨rfl, rfl, rfl, fun _ _ => ⟨rfl, rfl⟩, fun h => absurd hr (h r), fun h => absurd h hidle⟩

theorem endAssembly_ended (e : EntryId) {c : CloseReason} (hc : c ≠ .tail) (s : State) :
    (s.entry e).AssemblyEnded ((endAssembly e c s).entry e) := by
  unfold endAssembly
  split
  case h_1 hi => exact ⟨hi, rfl, rfl, fun r hr => (nomatch hi.symm.trans hr), fun _ => ⟨rfl, rfl⟩, fun _ => rfl⟩
  case h_2 r hr => exact closeOpen_ended hc hr
  case h_3 hd =>
    rw [assemblyIdle, mapEntry_entry_self]
    exact ⟨rfl, rfl, rfl, fun r hr => (nomatch hd.symm.trans hr), fun _ => ⟨rfl, rfl⟩, fun hi => (nomatch hd.symm.trans hi)⟩

theorem closedFor_of_store {s t : State} (h : t.store = s.store) {r : RecordId} {c : CloseReason} (hr : s.closedFor r c) :
    t.closedFor r c := by
  rw [State.closedFor, record_of_store h]
  exact hr

/-- The frame that was open is closed for the reason, and those closed for it before stay so. -/
theorem endAssembly_closedFor (e : EntryId) (c : CloseReason) (s : State) :
    (∀ q, s.closedFor q c → (endAssembly e c s).closedFor q c)
      ∧ ∀ r, (s.entry e).assembly = .filling r → (endAssembly e c s).closedFor r c := by
  have hstore (r : RecordId) : (closeOpen e r c s).store = (closeRecord e r c s).store :=
    (countClose_sheds_record e (s.record r) c (closeRecord e r c s)).1
  unfold endAssembly
  split
  case h_1 hi => exact ⟨fun _ hq => hq, fun r hr => (nomatch hi.symm.trans hr)⟩
  case h_2 q hq =>
    obtain ⟨hown, hothers, -⟩ := closeRecord_closedFor e q c s
    refine ⟨fun r hr => closedFor_of_store (hstore q) (hothers r hr), fun r hr => ?_⟩
    obtain rfl : q = r := Assembly.filling.inj (hq.symm.trans hr)
    exact closedFor_of_store (hstore q) hown
  case h_3 hd => exact ⟨fun _ hq => hq, fun r hr => (nomatch hd.symm.trans hr)⟩

/-! ## Every frame ends (R178 steps 1 and 2) -/

/-- From `s` to `t` the frames closed STREAM_CHANGED stay so, and the bytes are kept. -/
def keepsClosed (s t : State) : Prop :=
  (∀ q, s.closedFor q .streamChanged → t.closedFor q .streamChanged) ∧ t.store.mem = s.store.mem

theorem keepsClosed_refl (s : State) : keepsClosed s s := ⟨fun _ h => h, rfl⟩

theorem keepsClosed_trans (s t u : State) (h : keepsClosed s t) (g : keepsClosed t u) : keepsClosed s u :=
  ⟨fun q hq => g.1 q (h.1 q hq), g.2.trans h.2⟩

theorem keepsClosed_of_store {s t : State} (h : t.store = s.store) : keepsClosed s t :=
  ⟨fun _ hq => closedFor_of_store h hq, by rw [h]⟩

theorem keepsClosed_of_sheds {s t : State} (h : Sheds s t) (hm : t.store.mem = s.store.mem) : keepsClosed s t :=
  ⟨fun _ hq => h.closedFor hq, hm⟩

/-- The state in which the frames have ended and their ports know them as late, the staged images still there. -/
def framesEnded (s : State) : State := markLate s (forEach allEntries (fun e => endAssembly e .streamChanged) s)

theorem framesEnded_entry (s : State) :
    keepsClosed s (framesEnded s) ∧ ∀ e, (s.entry e).AssemblyEnded ((framesEnded s).entry e)
      ∧ ∀ r, (s.entry e).assembly = .filling r → (framesEnded s).closedFor r .streamChanged := by
  have hkeeps (e : EntryId) (t : State) : keepsClosed t (endAssembly e .streamChanged t) :=
    ⟨(endAssembly_closedFor e .streamChanged t).1, (endAssembly_entry e .streamChanged t).2.2.2.2⟩
  obtain ⟨hkept, -, hvisit⟩ := forEach_visit (fun e t => t.entry e) (fun e => endAssembly e .streamChanged) keepsClosed
    keepsClosed_refl keepsClosed_trans hkeeps (fun e f t hf => (endAssembly_entry e .streamChanged t).1 f hf) allEntries
    (List.nodup_finRange 32) s
  have hlate (t : State) : (markLate s t).store = t.store ∧ ∀ e, (markLate s t).entry e = t.entry e := ⟨rfl, fun _ => rfl⟩
  unfold framesEnded
  generalize forEach allEntries (fun e => endAssembly e .streamChanged) s = u at hkept hvisit
  obtain ⟨hstore, hentry⟩ := hlate u
  have hclosed := keepsClosed_of_store hstore
  refine ⟨keepsClosed_trans _ _ _ hkept hclosed, fun e => ?_⟩
  obtain ⟨t, -, hbefore, hend, hrest⟩ := hvisit e (List.mem_finRange e)
  rw [hentry, hend, ← hbefore]
  exact ⟨endAssembly_ended e (by decide) t, fun r hr => hclosed.1 r (hrest.1 r ((endAssembly_closedFor e _ t).2 r hr))⟩

theorem endAllFrames_eq (s : State) : endAllFrames s
    = forEach allEntries (fun e => mapEntry e fun x => { x with staged := none }) (framesEnded s) := rfl

theorem endAllFrames_entry (s : State) :
    keepsClosed s (endAllFrames s)
      ∧ ∀ e, (∃ y, (s.entry e).AssemblyEnded y ∧ (endAllFrames s).entry e = { y with staged := none })
        ∧ ∀ r, (s.entry e).assembly = .filling r → (endAllFrames s).closedFor r .streamChanged := by
  obtain ⟨hkept, hended⟩ := framesEnded_entry s
  obtain ⟨hstore, -, hvisit⟩ := forEach_visit (fun e t => t.entry e)
    (fun e => mapEntry e fun x => { x with staged := none }) (fun t u => u.store = t.store) (fun _ => rfl)
    (fun _ _ _ h g => g.trans h) (fun _ _ => rfl) (fun e f t hf => mapEntry_entry_ne e _ t f hf) allEntries
    (List.nodup_finRange 32) (framesEnded s)
  rw [← endAllFrames_eq] at hstore hvisit
  have hclosed := keepsClosed_of_store hstore
  refine ⟨keepsClosed_trans _ _ _ hkept hclosed, fun e => ?_⟩
  obtain ⟨hassembly, hrecord⟩ := hended e
  obtain ⟨t, -, hbefore, hend, -⟩ := hvisit e (List.mem_finRange e)
  rw [mapEntry_entry_self, hbefore] at hend
  exact ⟨⟨_, hassembly, hend⟩, fun r hr => hclosed.1 r (hrecord r hr)⟩

/-- What the end of the frames may change. -/
def Touch.frames : Touch := { ports := true, entries := true, store := true, notices := true }

theorem endAllFrames_leaves (s : State) : Moves Touch.frames s (endAllFrames s) :=
  endAllFrames_moves ⟨rfl, rfl, rfl⟩ rfl s

theorem mapEntries_ports (f : Entry → Entry) (xs : List EntryId) (s : State) :
    (forEach xs (fun e => mapEntry e f) s).ports = s.ports := by
  induction xs generalizing s with
  | nil => rfl
  | cons x xs ih => exact ih (mapEntry x f s)

/-- The ports know the frames that were open as late (R74). -/
theorem endAllFrames_port (s : State) (n : PortId) : (endAllFrames s).port n = { s.port n with
    late := Vector.ofFn fun c => (openFrameOn s n c).or (s.port n).late[c] } := by
  have hports : (forEach allEntries (fun e => endAssembly e .streamChanged) s).ports = s.ports :=
    (Moves.forEach allEntries _ s fun e t => endAssembly_moves Touch.storeOnly_hasStore e .streamChanged t).ports rfl
  have hstaged := mapEntries_ports (fun x => { x with staged := none }) allEntries (framesEnded s)
  rw [← endAllFrames_eq] at hstaged
  have hport : (framesEnded s).port n = { s.port n with
      late := Vector.ofFn fun c => (openFrameOn s n c).or (s.port n).late[c] } := by
    rw [framesEnded, markLate, State.port, State.port, ← hports]
    exact Vector.getElem_ofFn ..
  rw [State.port, hstaged]
  exact hport

/-- The frame that alone is open on its pair. -/
theorem openFrameOn_some {s : State} {e : EntryId} {r : RecordId} (hr : (s.entry e).assembly = .filling r)
    (halone : ∀ f q, (s.entry f).assembly = .filling q → (s.entry f).current.port = (s.entry e).current.port →
      (s.entry f).current.channel = (s.entry e).current.channel → f = e) :
    openFrameOn s (s.entry e).current.port (s.entry e).current.channel = some (s.record r).frame := by
  refine findSome?_finRange (k := e) ?here fun f hf => ?before
  case here => simp only [hr, and_self, if_true]
  case before =>
    split
    case h_1 q hq => exact if_neg fun ⟨hp, hc⟩ => absurd (halone f q hq hp hc) hf.ne
    case h_2 => rfl
    case h_3 => rfl

theorem openFrameOn_none {s : State} {n : PortId} {c : Channel}
    (h : ∀ e r, (s.entry e).assembly = .filling r → (s.entry e).current.port = n → (s.entry e).current.channel ≠ c) :
    openFrameOn s n c = none := by
  refine List.findSome?_eq_none_iff.2 fun e _ => ?_
  split
  case h_1 r hr => exact if_neg fun ⟨hp, hc⟩ => h e r hr hp hc
  case h_2 => rfl
  case h_3 => rfl

/-! ## The generators stop (R178 step 3) -/

/-- A generator that has stopped, its pending list emptied into ABANDONED (R144). -/
def Generator.abandoned (g : Generator) : Generator := { g with
  state := .idle, period := none, pendings := []
  counters := { g.counters with abandoned := bumpBy g.pendings.length g.counters.abandoned } }

/-- From `s` to `t` the generators change alone. -/
def gensOnly (s t : State) : Prop := ∃ gs, t = { s with gens := gs }

theorem gensOnly_trans (s t u : State) (h : gensOnly s t) (g : gensOnly t u) : gensOnly s u := by
  obtain ⟨gs, rfl⟩ := h
  obtain ⟨hs, rfl⟩ := g
  exact ⟨hs, rfl⟩

theorem stopAllGenerators_spec (s : State) :
    gensOnly s (stopAllGenerators s) ∧ ∀ n, (stopAllGenerators s).gen n = (s.gen n).abandoned := by
  obtain ⟨honly, -, hvisit⟩ := forEach_visit (fun n t => t.gen n) abandonTriggers gensOnly (fun s => ⟨s.gens, rfl⟩)
    gensOnly_trans (fun _ _ => ⟨_, rfl⟩) (fun n m t hm => mapGen_gen_ne n _ t m hm) allPorts (List.nodup_finRange 8) s
  refine ⟨honly, fun n => ?_⟩
  obtain ⟨t, -, hbefore, hend, -⟩ := hvisit n (List.mem_finRange n)
  rw [abandonTriggers, mapGen_gen_self, hbefore] at hend
  exact hend

/-! ## The loaded images (R178 step 4) -/

/-- From `y` to `z` an IDLE entry without a staged image has had image `i` activated (R45 to R50). -/
structure Entry.Activated (i : Image) (y z : Entry) : Prop where
  current : z.current = i
  staged : z.staged = none
  assembly : z.assembly = y.assembly
  framesIn : z.counters.framesIn = y.counters.framesIn
  framesDamaged : z.counters.framesDamaged = y.counters.framesDamaged
  ends : identityDiffers y.current i = true → z.ring = [] ∧ z.expected = none
  goes_on : identityDiffers y.current i = false → z.expected = y.expected
  same : i = y.current → z = { y with staged := none }

theorem identityDiffers_self (i : Image) : identityDiffers i i = false := by simp [identityDiffers]

theorem policyDiffers_self (i : Image) : policyDiffers i i = false := by simp [policyDiffers]

theorem activate_activated (e : EntryId) (i : Image) (s : State) :
    (s.entry e).Activated i ((activate e i s).entry e) := by
  by_cases h : identityDiffers (s.entry e).current i = true
  case pos =>
    rw [activate_identity h, endStream_entry, installImage_entry]
    refine ⟨rfl, rfl, rfl, rfl, rfl, fun _ => ⟨rfl, rfl⟩, fun hno => absurd (h.symm.trans hno) (by decide), fun hi => ?_⟩
    rw [hi, identityDiffers_self] at h
    exact absurd h Bool.false_ne_true
  case neg =>
    have hsame : identityDiffers (s.entry e).current i = false := Bool.eq_false_iff.2 h
    obtain ⟨hentries, -, -⟩ := activate_kept hsame
    have hentry : (activate e i s).entry e = (activatedStore e i s).entry e := congrArg (·[e]) hentries
    rw [hentry]
    obtain ⟨ring, -, heq⟩ := activatedStore_entry e i s
    refine ⟨by rw [heq], by rw [heq], by rw [heq], by rw [heq], by rw [heq], fun hno => absurd hno h, fun _ => by rw [heq],
      fun hi => ?_⟩
    rw [activatedStore_still (by rw [hi, policyDiffers_self]), installImage_entry, hi]

/-- Generators whose pending lists are empty stay at an activation. -/
theorem activate_gens {s : State} (hs : ∀ n, (s.gen n).pendings = []) (e : EntryId) (i : Image) (n : PortId) :
    (activate e i s).gen n = s.gen n := by
  have hstrike : { s.gen n with pendings := strikePending e (s.gen n).pendings } = s.gen n := by
    rw [hs n]
    exact congrArg (fun ps => { s.gen n with pendings := ps }) (hs n).symm
  obtain ⟨hends, hkeeps⟩ := activate_effects e i s
  by_cases h : i.valid ≠ (s.entry e).current.valid ∨ i.port ≠ (s.entry e).current.port
      ∨ i.channel ≠ (s.entry e).current.channel
  case pos =>
    obtain ⟨-, -, -, -, -, -, hgens, -⟩ := hends h
    exact (hgens n).trans hstrike
  case neg =>
    obtain ⟨-, -, -, -, hleaves, hsame, -⟩ := hkeeps h
    by_cases hc : (s.entry e).current.correlated = true ∧ i.correlated = false
    · exact (hleaves hc.1 hc.2 n).trans hstrike
    · have hor : (s.entry e).current.correlated = false ∨ i.correlated = true := by
        simpa [Decidable.or_iff_not_imp_left] using hc
      exact congrArg (·[n]) (hsame hor)

/-- A request of the replay queue behind a load that changes identities by `differs` (R127). -/
def ReplayRequest.lost (differs : EntryId → Bool) (q : ReplayRequest) : ReplayRequest :=
  if differs q.entry then { q with gone := true } else q

theorem lost_congr {f g : EntryId → Bool} {q : ReplayRequest} (h : f q.entry = g q.entry) : q.lost f = q.lost g := by
  rw [ReplayRequest.lost, ReplayRequest.lost, h]

theorem lost_lost (f g : EntryId → Bool) (q : ReplayRequest) : (q.lost g).lost f = q.lost fun e => g e || f e := by
  cases hg : g q.entry <;> cases hf : f q.entry <;> simp [ReplayRequest.lost, hg, hf]

theorem activate_replay (e : EntryId) (i : Image) (s : State) : (activate e i s).replay = { s.replay with
    queue := s.replay.queue.map (ReplayRequest.lost fun f => f == e && identityDiffers (s.entry e).current i) } := by
  by_cases h : identityDiffers (s.entry e).current i = true
  case pos =>
    have hlost : ReplayRequest.lost (fun f => f == e && true)
        = fun q => if q.entry = e then { q with gone := true } else q := by
      funext q
      simp only [ReplayRequest.lost, Bool.and_true, beq_iff_eq]
    rw [activate_identity h, endStream_replay, h, hlost]
    rfl
  case neg =>
    have hsame : identityDiffers (s.entry e).current i = false := Bool.eq_false_iff.2 h
    have hlost : ReplayRequest.lost (fun f => f == e && identityDiffers (s.entry e).current i) = id := by
      funext q
      rw [ReplayRequest.lost, hsame, Bool.and_false, if_neg Bool.false_ne_true, id]
    rw [(activate_kept hsame).2.2, (activatedStore_moves e i s).2, hlost, List.map_id]

/-- What activations leave: closed frames, the parts beside the table, no notice, and generators without pendings. -/
structure Activates (s t : State) : Prop where
  closed : keepsClosed s t
  moves : Moves Touch.table s t
  quiet : Offers s t []
  gens : (∀ n, (s.gen n).pendings = []) → ∀ n, t.gen n = s.gen n

theorem Activates.refl (s : State) : Activates s s := ⟨keepsClosed_refl s, Moves.refl _ s, Offers.refl s, fun _ _ => rfl⟩

theorem Activates.trans (s t u : State) (h : Activates s t) (g : Activates t u) : Activates s u where
  closed := keepsClosed_trans s t u h.closed g.closed
  moves := h.moves.trans g.moves
  quiet := h.quiet.after g.quiet
  gens hs n := (g.gens (fun m => (congrArg Generator.pendings (h.gens hs m)).trans (hs m)) n).trans (h.gens hs n)

theorem activate_activates (e : EntryId) (i : Image) (s : State) : Activates s (activate e i s) where
  closed := keepsClosed_of_sheds (activate_sheds e i s) (activate_streams e i s).mem
  moves := activate_table e i s
  quiet := activate_quiet e i s
  gens hs := activate_gens hs e i

theorem loadImages_spec (p : Profile) (s : State) :
    Activates s (loadImages p s) ∧ ∀ e, (s.entry e).Activated p.images[e] ((loadImages p s).entry e) := by
  obtain ⟨hall, -, hvisit⟩ := forEach_visit (fun e t => t.entry e) (fun e => activate e p.images[e]) Activates
    Activates.refl Activates.trans (fun e t => activate_activates e _ t) (fun e f t hf => (activate_streams e _ t).outside f hf)
    allEntries (List.nodup_finRange 32) s
  refine ⟨hall, fun e => ?_⟩
  obtain ⟨t, -, hbefore, hend, -⟩ := hvisit e (List.mem_finRange e)
  have hactivated := activate_activated e p.images[e] t
  rw [hbefore, ← hend] at hactivated
  exact hactivated

theorem activates_replay (p : Profile) (xs : List EntryId) (hxs : xs.Nodup) (s : State) :
    (forEach xs (fun e => activate e p.images[e]) s).replay = { s.replay with
      queue := s.replay.queue.map (ReplayRequest.lost fun f =>
        decide (f ∈ xs) && identityDiffers (s.entry f).current p.images[f]) } := by
  induction xs generalizing s with
  | nil =>
    have hlost : ReplayRequest.lost (fun f => decide (f ∈ []) && identityDiffers (s.entry f).current p.images[f]) = id :=
      funext fun q => if_neg (by simp)
    rw [hlost, List.map_id]
    rfl
  | cons x xs ih =>
    obtain ⟨hx, hnd⟩ := List.nodup_cons.1 hxs
    have hrest := ih hnd (activate x p.images[x] s)
    rw [activate_replay] at hrest
    refine Eq.trans hrest (congrArg (fun l => { s.replay with queue := l }) ?_)
    rw [List.map_map]
    refine List.map_congr_left fun q _ => (lost_lost _ _ q).trans (lost_congr ?_)
    by_cases hq : q.entry = x
    case pos => simp [hq, hx]
    case neg =>
      have hentry := (activate_streams x p.images[x] s).outside q.entry hq
      rw [hentry, beq_eq_false_iff_ne.2 hq, Bool.false_and, Bool.false_or]
      simp [hq]

theorem loadImages_replay (p : Profile) (s : State) : (loadImages p s).replay = { s.replay with
    queue := s.replay.queue.map (ReplayRequest.lost fun f => identityDiffers (s.entry f).current p.images[f]) } := by
  have hall := activates_replay p allEntries (List.nodup_finRange 32) s
  simp only [allEntries, List.mem_finRange, decide_true, Bool.true_and] at hall
  exact hall

/-! ## Steps 1 to 4 together -/

/-- What steps 1 to 4 leave of an entry (R178). -/
structure Entry.Loaded (i : Image) (x z : Entry) : Prop where
  current : z.current = i
  staged : z.staged = none
  assembly : z.assembly = .idle
  open_counts : ∀ r, x.assembly = .filling r → z.counters.framesIn = bump x.counters.framesIn
    ∧ z.counters.framesDamaged = bump x.counters.framesDamaged
  other_counts : (∀ r, x.assembly ≠ .filling r) → z.counters.framesIn = x.counters.framesIn
    ∧ z.counters.framesDamaged = x.counters.framesDamaged
  ends : identityDiffers x.current i = true → z.ring = [] ∧ z.expected = none
  goes_on : identityDiffers x.current i = false → z.expected = x.expected
  same : x.assembly = .idle → i = x.current → z = { x with staged := none }

/-- The identity of a binding does not name the retention mode (R46). -/
theorem Entry.AssemblyEnded.identity {x y : Entry} (h : x.AssemblyEnded y) (i : Image) :
    identityDiffers y.current i = identityDiffers x.current i := by
  rw [h.current]
  rfl

theorem Entry.Activated.loaded {i : Image} {x y z : Entry} (h : x.AssemblyEnded y)
    (g : Entry.Activated i { y with staged := none } z) : x.Loaded i z where
  current := g.current
  staged := g.staged
  assembly := g.assembly.trans h.assembly
  open_counts r hr := by rw [g.framesIn, g.framesDamaged]; exact h.open_counts r hr
  other_counts hr := by rw [g.framesIn, g.framesDamaged]; exact h.other_counts hr
  ends hd := g.ends ((h.identity i).trans hd)
  goes_on hd := (g.goes_on ((h.identity i).trans hd)).trans h.expected
  same hi hsame := by
    obtain rfl : y = x := h.idle hi
    exact g.same hsame

/-- Steps 1 to 4 of R178. -/
structure StreamsLoaded (p : Profile) (s t : State) : Prop where
  entry : ∀ e, (s.entry e).Loaded p.images[e] (t.entry e)
  closed : ∀ e r, (s.entry e).assembly = .filling r → t.closedFor r .streamChanged
  mem : t.store.mem = s.store.mem
  gen : ∀ n, t.gen n = (s.gen n).abandoned
  port : ∀ n, t.port n = { s.port n with late := Vector.ofFn fun c => (openFrameOn s n c).or (s.port n).late[c] }
  replay : t.replay = { s.replay with
    queue := s.replay.queue.map (ReplayRequest.lost fun e => identityDiffers (s.entry e).current p.images[e]) }
  notices : ∃ closes, s.closeNotices .streamChanged (fun _ => True) closes ∧ Offers s t (allEntries.flatMap closes)
  tin : t.tin = s.tin
  uplink : t.uplink = s.uplink
  agent : t.agent = s.agent
  flash : t.flash = s.flash

theorem loadStreams_loaded (p : Profile) (s : State) : StreamsLoaded p s (loadStreams p s) := by
  obtain ⟨hkept, hframes⟩ := endAllFrames_entry s
  have hmoves := endAllFrames_leaves s
  have hport := endAllFrames_port s
  obtain ⟨closes, hcloses, hoffers⟩ := endAllFrames_notices s
  rw [loadStreams]
  generalize endAllFrames s = a at hkept hframes hmoves hport hoffers
  obtain ⟨⟨gs, hstop⟩, hgen⟩ := stopAllGenerators_spec a
  generalize stopAllGenerators a = b at hstop hgen
  obtain ⟨hload, hentry⟩ := loadImages_spec p b
  have hreplay := loadImages_replay p b
  generalize loadImages p b = c at hload hentry hreplay
  have hpendings (n : PortId) : (b.gen n).pendings = [] := by rw [hgen]; rfl
  have hentries (e : EntryId) : b.entry e = a.entry e := by rw [hstop]; rfl
  have hidentity (e : EntryId) (i : Image) :
      identityDiffers (b.entry e).current i = identityDiffers (s.entry e).current i := by
    obtain ⟨⟨y, hy, heq⟩, -⟩ := hframes e
    rw [hentries, heq]
    exact hy.identity i
  refine ⟨fun e => ?entry, fun e r hr => ?closed, ?mem, fun n => ?gen, fun n => ?port, ?replay,
    ⟨closes, hcloses, hoffers.before (Offers.after ⟨by rw [hstop]; rfl, by rw [hstop]⟩ hload.quiet)⟩,
    ?tin, ?uplink, ?agent, ?flash⟩
  case entry =>
    obtain ⟨⟨y, hy, heq⟩, -⟩ := hframes e
    have hactivated := hentry e
    rw [hentries, heq] at hactivated
    exact hactivated.loaded hy
  case closed =>
    have hb : b.closedFor r .streamChanged := closedFor_of_store (by rw [hstop]) ((hframes e).2 r hr)
    exact hload.closed.1 r hb
  case mem => rw [hload.closed.2, hstop]; exact hkept.2
  case gen => rw [hload.gens hpendings, hgen]; exact congrArg (fun v => (v[n] : Generator).abandoned) (hmoves.gens rfl)
  case port =>
    have hports : c.ports = a.ports := by rw [hload.moves.ports rfl, hstop]
    rw [← hport n]
    exact congrArg (fun v => (v[n] : Port)) hports
  case replay =>
    have hb : b.replay = s.replay := by rw [hstop]; exact hmoves.replay rfl
    rw [hreplay, hb]
    simp only [hidentity]
  case tin => rw [hload.moves.tin rfl, hstop]; exact hmoves.tin rfl
  case uplink => rw [hload.moves.uplink rfl, hstop]; exact hmoves.uplink rfl
  case agent => rw [hload.moves.agent rfl, hstop]; exact hmoves.agent rfl
  case flash => rw [hload.moves.flash rfl, hstop]; exact hmoves.flash rfl

end Sys2Proof.Machine
end

section
/-!
The ports at a profile load (R178 step 5) and at start-up (R184 step 2): each port in turn changes itself, answers the
requests removed from its output queue, and offers its notice.
-/

namespace Sys2Proof.Machine

open Sys2Proof

/-! ## A visit of the ports -/

/-- What a visit makes of a port, the requests that it removes, and the notices that it offers: by the port and part time. -/
structure PortVisit where
  port : PortId → State → Port
  removes : PortId → State → List Mreq
  notices : PortId → State → List NoticeBody
  here : ∀ n s t, t.port n = s.port n → t.partTime = s.partTime →
    port n t = port n s ∧ removes n t = removes n s ∧ notices n t = notices n s

/-- The state with ports `ps`, the requests `ms` answered or counted and the notices `bs` offered. -/
def State.visited (s : State) (ps : Vector Port 8) (ms : List Mreq) (bs : List NoticeBody) : State :=
  { s with
    ports := ps
    agent := (forEach ms refuseRemoved s).agent
    notices := (forEach bs offerNotice s).notices }

/-- The visit of port `n`. -/
def PortVisit.run (k : PortVisit) (n : PortId) (s : State) : State :=
  s.visited (s.ports.set n (k.port n s)) (k.removes n s) (k.notices n s)

theorem refuseAll_agent (ms : List Mreq) {s t : State} (h : t.agent = s.agent) :
    (forEach ms refuseRemoved t).agent = (forEach ms refuseRemoved s).agent := by
  rw [refuseRemovedAll, refuseRemovedAll, h]

theorem visited_visited (s : State) (ps qs : Vector Port 8) (ms ns : List Mreq) (bs cs : List NoticeBody) :
    (s.visited ps ms bs).visited qs ns cs = s.visited qs (ms ++ ns) (bs ++ cs) := by
  have hagent : (forEach (ms ++ ns) refuseRemoved s).agent = (forEach ns refuseRemoved (s.visited ps ms bs)).agent :=
    (congrArg State.agent (List.foldl_append ..)).trans
      (refuseAll_agent ns (s := s.visited ps ms bs) (t := forEach ms refuseRemoved s) rfl)
  have hoffers : Offers s (s.visited ps ms bs) bs := ⟨rfl, rfl⟩
  have hnotices : (forEach cs offerNotice (s.visited ps ms bs)).notices = (forEach (bs ++ cs) offerNotice s).notices :=
    (hoffers.trans (u := forEach cs offerNotice (s.visited ps ms bs)) ⟨rfl, offerAll_partTime ..⟩).notices
  exact congrArg₂ (fun a u => { s with ports := qs, agent := a, notices := u }) hagent.symm hnotices

/-- The ports visited one after the other. -/
theorem PortVisit.forEach_run (k : PortVisit) (xs : List PortId) (hxs : xs.Nodup) (s : State) :
    ∃ ps, forEach xs k.run s
        = s.visited ps (xs.flatMap fun n => k.removes n s) (xs.flatMap fun n => k.notices n s)
      ∧ ∀ n : PortId, ps[n] = if n ∈ xs then k.port n s else s.port n := by
  induction xs generalizing s with
  | nil => exact ⟨s.ports, rfl, fun n => (if_neg List.not_mem_nil).symm⟩
  | cons x xs ih =>
    obtain ⟨hx, hnd⟩ := List.nodup_cons.1 hxs
    obtain ⟨ps, heq, hps⟩ := ih hnd (k.run x s)
    have hport (n : PortId) (hn : n ≠ x) : (k.run x s).port n = s.port n := setPort_port_ne x (k.port x s) s n hn
    have hrest (n : PortId) (hn : n ∈ xs) := k.here n s (k.run x s) (hport n (fun h => hx (h ▸ hn))) rfl
    refine ⟨ps, ?_, fun n => ?_⟩
    · have hremoves : (xs.flatMap fun n => k.removes n (k.run x s)) = xs.flatMap fun n => k.removes n s :=
        List.flatMap_congr fun n hn => (hrest n hn).2.1
      have hnotices : (xs.flatMap fun n => k.notices n (k.run x s)) = xs.flatMap fun n => k.notices n s :=
        List.flatMap_congr fun n hn => (hrest n hn).2.2
      rw [hremoves, hnotices] at heq
      exact heq.trans (visited_visited ..)
    · rw [hps n]
      by_cases hn : n ∈ xs
      case pos => rw [if_pos hn, if_pos (List.mem_cons_of_mem x hn), (hrest n hn).1]
      case neg =>
        rw [if_neg hn]
        by_cases hnx : n = x
        · subst hnx
          rw [if_pos List.mem_cons_self]
          exact setPort_port_self n (k.port n s) s
        · rw [if_neg (by simp [hn, hnx])]
          exact hport n hnx

/-! ## Entering a state -/

/-- The notice of a move to state `st` (R26, R27). -/
def moveNotice (n : PortId) (st : PortState) (why : PortReason) (q : Port) : List NoticeBody :=
  if q.state = st then [] else [.portState n q.state st why]

theorem enterPort_visited (n : PortId) (st : PortState) (why : PortReason) (s : State) : enterPort n st why s
    = s.visited (s.ports.set n (Port.enter st s (s.port n))) [] [.portState n (s.port n).state st why] := by
  rw [enterPort, offerNotice_eq, offerNotice_congr (s := s) (t := mapPort n (Port.enter st s) s) _ rfl rfl]
  rfl

theorem movePort_visited (n : PortId) (st : PortState) (why : PortReason) (s : State) : movePort n st why s
    = s.visited (s.ports.set n (Port.enter st s (s.port n))) [] (moveNotice n st why (s.port n)) := by
  by_cases h : (s.port n).state = st
  · rw [movePort_stays h, moveNotice, if_pos h]
    rfl
  · rw [movePort_changes h, moveNotice, if_neg h, enterPort_visited]

/-! ## Leaving ACTIVE behind the end of the frames and the triggers -/

/-- Every entry is IDLE without a staged image, and every generator has stopped. -/
def State.stilled (s : State) : Prop :=
  (∀ e, (s.entry e).assembly = .idle ∧ (s.entry e).staged = none)
    ∧ ∀ n, (s.gen n).state = .idle ∧ (s.gen n).period = none ∧ (s.gen n).pendings = []

/-- A port whose output queue has been emptied. -/
def Port.emptied (q : Port) : Port := { q with outTrigs := [], outMreqs := [] }

theorem returnToIdle_stilled {s : State} (h : s.stilled) (xs : List EntryId) (c : CloseReason) :
    forEach xs (fun e => returnToIdle e c) s = s := by
  induction xs with
  | nil => rfl
  | cons x xs ih =>
    have hx : returnToIdle x c s = s := (returnToIdle_closedFor x c s).2.2.2 (h.1 x).1 (h.1 x).2
    exact (congrArg (forEach xs fun e => returnToIdle e c) hx).trans ih

theorem bumpBy_zero (c : Word) : bumpBy 0 c = c := by
  have hle : c.toNat + 0 ≤ 0xFFFFFFFF := Nat.le_of_lt_succ c.isLt
  rw [bumpBy, if_pos hle]
  exact BitVec.add_zero c

theorem abandonTriggers_stilled {s : State} (h : s.stilled) (n : PortId) : abandonTriggers n s = s := by
  obtain ⟨hstate, hperiod, hpendings⟩ := h.2 n
  have hgen : (s.gen n).abandoned = s.gen n := by
    rw [Generator.abandoned, hpendings, ← hstate, ← hperiod, List.length_nil, bumpBy_zero]
    exact congrArg (fun ps => { s.gen n with pendings := ps }) hpendings.symm
  exact (mapGen_eq n Generator.abandoned s).trans (by rw [hgen, setGen_gen])

theorem refuseAll_eq (ms : List Mreq) (s : State) :
    forEach ms refuseRemoved s = { s with agent := (forEach ms refuseRemoved s).agent } := by
  have hone (m : Mreq) (s : State) : ∃ a, refuseRemoved m s = { s with agent := a } := by
    unfold refuseRemoved replyOrDrop
    split
    · exact ⟨_, rfl⟩
    · exact ⟨_, rfl⟩
  have hall : ∃ a, forEach ms refuseRemoved s = { s with agent := a } := by
    induction ms generalizing s with
    | nil => exact ⟨s.agent, rfl⟩
    | cons m ms ih =>
      obtain ⟨a, ha⟩ := hone m s
      obtain ⟨b, hb⟩ := ih (refuseRemoved m s)
      exact ⟨b, hb.trans (by rw [ha])⟩
  obtain ⟨a, ha⟩ := hall
  rw [ha]

theorem flushOutput_visited (n : PortId) (s : State) :
    flushOutput n s = s.visited (s.ports.set n (s.port n).emptied) (s.port n).outMreqs [] := by
  have hagent := refuseAll_agent (s.port n).outMreqs (s := s) (t := mapPort n Port.emptied s) rfl
  rw [State.visited, ← hagent]
  exact refuseAll_eq (s.port n).outMreqs (mapPort n Port.emptied s)

/-- The requests that leave the output queue of a port that leaves ACTIVE. -/
def Port.removed (q : Port) : List Mreq := if q.state = .active then q.outMreqs else []

/-- The port behind its leave of ACTIVE, or behind none. -/
def Port.left (q : Port) : Port := if q.state = .active then q.emptied else q

theorem Port.left_kept (q : Port) : q.left.state = q.state ∧ q.left.fault = q.fault := by
  unfold Port.left
  split <;> exact ⟨rfl, rfl⟩

theorem leaveActive_stilled {s : State} (h : s.stilled) (n : PortId) :
    leaveActive n s = s.visited (s.ports.set n (s.port n).left) (s.port n).removed [] := by
  by_cases ha : (s.port n).state = .active
  case pos =>
    rw [leaveActive, if_pos ha, portResetEffects, returnToIdle_stilled h, abandonTriggers_stilled h, flushOutput_visited,
      Port.left, Port.removed, if_pos ha, if_pos ha]
  case neg =>
    rw [leaveActive_of_ne ha, Port.left, Port.removed, if_neg ha, if_neg ha]
    exact (setPort_port (s := s) (n := n)).symm

/-! ## The port of a visit -/

theorem visited_port (s : State) (n : PortId) (q : Port) (ms : List Mreq) (bs : List NoticeBody) :
    (s.visited (s.ports.set n q) ms bs).port n = q := setPort_port_self n q s

theorem visited_set (s : State) (n : PortId) (q r : Port) (ms : List Mreq) (bs : List NoticeBody) :
    (s.visited (s.ports.set n q) ms bs).ports.set n r = s.ports.set n r := Vector.set_set ..

theorem mapPort_visited (f : Port → Port) (s : State) (n : PortId) (q : Port) (ms : List Mreq) (bs : List NoticeBody) :
    mapPort n f (s.visited (s.ports.set n q) ms bs) = s.visited (s.ports.set n (f q)) ms bs := by
  rw [mapPort_eq, visited_port]
  exact congrArg (fun ps => s.visited ps ms bs) (visited_set s n q (f q) ms bs)

/-- A port with new settings leaves ACTIVE, where it is in it, for another state. -/
theorem movePort_stilled {s : State} (h : s.stilled) {n : PortId} {f : Port → Port}
    (hstate : (f (s.port n)).state = (s.port n).state) (hreqs : (f (s.port n)).outMreqs = (s.port n).outMreqs)
    (st : PortState) (why : PortReason) : movePort n st why (leaveActive n (mapPort n f s))
      = s.visited (s.ports.set n (Port.enter st s (f (s.port n)).left)) (s.port n).removed
        (moveNotice n st why (s.port n)) := by
  have hstilled : (mapPort n f s).stilled := h
  have hremoved : (f (s.port n)).removed = (s.port n).removed := by rw [Port.removed, Port.removed, hstate, hreqs]
  have hleft : (f (s.port n)).left.state = (s.port n).state := (Port.left_kept _).1.trans hstate
  have hnotice : moveNotice n st why (f (s.port n)).left = moveNotice n st why (s.port n) := by
    rw [moveNotice, moveNotice, hleft]
  have hconfigured : mapPort n f s = s.visited (s.ports.set n (f (s.port n))) [] [] := rfl
  rw [leaveActive_stilled hstilled, movePort_visited, visited_port, mapPort_port_self, hremoved, hnotice, hconfigured]
  rw [visited_visited, visited_visited, visited_set, visited_set]
  rw [List.nil_append, List.append_nil, List.nil_append]
  rfl

/-! ## The loaded settings of a port (R27, R178 step 5) -/

/-- Port `n` behind a load of profile `p`, its late frames aside (R27, R178 step 5). -/
def State.loadedPort (s : State) (p : Profile) (n : PortId) : Port :=
  let q := (s.port n).configured p.ports[n].1 p.ports[n].2
  if p.ports[n] = ((s.port n).enabled, (s.port n).powered) then s.port n
  else if p.ports[n].1 = false then { Port.enter .off s q.left with fault := false }
  else if (s.port n).state ≠ .off ∧ p.ports[n].2 = (s.port n).powered then q
  else { Port.enter (startState p.ports[n].2) s q.left with
    fault := (s.port n).fault && decide ((s.port n).state ≠ .off) }

section loaded

variable {s : State} {p : Profile} {n : PortId}

/-- The settings of the port are the loaded ones. -/
theorem loaded_same (h : p.ports[n] = ((s.port n).enabled, (s.port n).powered)) :
    s.loadedState p n = (s.port n).state ∧ s.loadedPort p n = s.port n := ⟨if_pos h, if_pos h⟩

theorem loaded_disabled (h : p.ports[n] ≠ ((s.port n).enabled, (s.port n).powered)) (hc : p.ports[n].1 = false) :
    s.loadedState p n = .off ∧ s.loadedPort p n
      = { Port.enter .off s ((s.port n).configured p.ports[n].1 p.ports[n].2).left with fault := false } :=
  ⟨(if_neg h).trans (if_pos hc), (if_neg h).trans (if_pos hc)⟩

theorem loaded_kept (h : p.ports[n] ≠ ((s.port n).enabled, (s.port n).powered)) (hc : p.ports[n].1 = true)
    (hs : (s.port n).state ≠ .off) (hp : p.ports[n].2 = (s.port n).powered) :
    s.loadedState p n = (s.port n).state
      ∧ s.loadedPort p n = (s.port n).configured p.ports[n].1 p.ports[n].2 := by
  have hne : p.ports[n].1 ≠ false := by rw [hc]; decide
  exact ⟨(if_neg h).trans ((if_neg hne).trans (if_pos ⟨hs, hp⟩)), (if_neg h).trans ((if_neg hne).trans (if_pos ⟨hs, hp⟩))⟩

theorem loaded_starts (h : p.ports[n] ≠ ((s.port n).enabled, (s.port n).powered)) (hc : p.ports[n].1 = true)
    (hs : (s.port n).state = .off ∨ p.ports[n].2 ≠ (s.port n).powered) :
    s.loadedState p n = startState p.ports[n].2
      ∧ s.loadedPort p n = { Port.enter (startState p.ports[n].2) s
          ((s.port n).configured p.ports[n].1 p.ports[n].2).left with
          fault := (s.port n).fault && decide ((s.port n).state ≠ .off) } := by
  have hne : p.ports[n].1 ≠ false := by rw [hc]; decide
  have hk : ¬ ((s.port n).state ≠ .off ∧ p.ports[n].2 = (s.port n).powered) := fun ⟨ho, hp⟩ => hs.elim ho (absurd hp)
  exact ⟨(if_neg h).trans ((if_neg hne).trans (if_neg hk)), (if_neg h).trans ((if_neg hne).trans (if_neg hk))⟩

theorem loadRemoves_none (h : s.loadedState p n = (s.port n).state) : s.loadRemoves p n = [] :=
  if_neg fun ⟨ha, hne⟩ => hne (h.trans ha)

theorem loadRemoves_left (h : s.loadedState p n ≠ .active) : s.loadRemoves p n = (s.port n).removed := by
  simp only [State.loadRemoves, Port.removed, h, ne_eq, not_false_iff, and_true]

theorem loadedNotice_none (h : s.loadedState p n = (s.port n).state) : s.loadedNotice p n = [] := if_pos h

theorem loadedNotice_disabled (hc : p.ports[n].1 = false) :
    s.loadedNotice p n = moveNotice n (s.loadedState p n) .disabled (s.port n) := by
  rw [State.loadedNotice, moveNotice, if_pos hc]
  simp only [eq_comm]

theorem loadedNotice_starts (hc : p.ports[n].1 = true) : s.loadedNotice p n
    = moveNotice n (s.loadedState p n) (if (s.port n).state = .off then .enabled else .reconfigured) (s.port n) := by
  rw [State.loadedNotice, moveNotice, if_neg (c := p.ports[n].1 = false) (by rw [hc]; decide)]
  simp only [eq_comm]

end loaded

/-- The visit of the ports at a load of profile `p`. -/
def loadVisit (p : Profile) : PortVisit where
  port n s := s.loadedPort p n
  removes n s := s.loadRemoves p n
  notices n s := s.loadedNotice p n
  here n s t hp ht := by
    have hstate : t.loadedState p n = s.loadedState p n := by rw [State.loadedState, State.loadedState, hp]
    have henter (st : PortState) (q : Port) : Port.enter st t q = Port.enter st s q := enter_congr ht st q
    simp only [State.loadedPort, State.loadRemoves, State.loadedNotice, hstate, hp, henter, and_self]

theorem setFault_visited (s : State) (n : PortId) (b : Bool) (q : Port) (ms : List Mreq) (bs : List NoticeBody) :
    setFault n b (s.visited (s.ports.set n q) ms bs) = s.visited (s.ports.set n { q with fault := b }) ms bs :=
  mapPort_visited (fun q => { q with fault := b }) s n q ms bs

/-- A port takes its loaded settings (R27, R178 step 5). -/
theorem loadPort_visited {s : State} (h : s.stilled) (p : Profile) (n : PortId) :
    loadPort p n s = (loadVisit p).run n s := by
  by_cases hsame : p.ports[n] = ((s.port n).enabled, (s.port n).powered)
  case pos =>
    obtain ⟨hstate, hport⟩ := loaded_same hsame
    rw [loadPort, if_pos hsame, PortVisit.run, loadVisit]
    dsimp only
    rw [hport, loadRemoves_none hstate, loadedNotice_none hstate]
    exact (setPort_port (s := s) (n := n)).symm
  rw [loadPort, if_neg hsame, PortVisit.run, loadVisit]
  dsimp only
  have hmove (st : PortState) (why : PortReason) := movePort_stilled h (n := n)
    (f := Port.configured p.ports[n].1 p.ports[n].2) rfl rfl st why
  cases hc : p.ports[n].1
  case false =>
    obtain ⟨hstate, hport⟩ := loaded_disabled hsame hc
    have hremoves : s.loadRemoves p n = (s.port n).removed := loadRemoves_left (by rw [hstate]; decide)
    rw [hport, hremoves, loadedNotice_disabled hc, hstate, applyPortSettings_disabled, ← hc, hmove, setFault_visited]
  case true =>
    by_cases hoff : (s.port n).state = .off
    case pos =>
      obtain ⟨hstate, hport⟩ := loaded_starts hsame hc (.inl hoff)
      have hremoves : s.loadRemoves p n = (s.port n).removed :=
        loadRemoves_left (by rw [hstate]; exact startState_ne_active _)
      have hne : ((mapPort n (Port.configured true p.ports[n].2) s).port n).state ≠ .active := by
        rw [mapPort_port_self, show (Port.configured true p.ports[n].2 (s.port n)).state = _ from hoff]
        decide
      rw [hport, hremoves, loadedNotice_starts hc, hstate, applyPortSettings_off hoff, ← leaveActive_of_ne hne, ← hc,
        hmove, setFault_visited, if_pos hoff, hoff]
      simp only [ne_eq, not_true, decide_false, Bool.and_false]
    case neg =>
      by_cases hp : p.ports[n].2 = (s.port n).powered
      case pos =>
        obtain ⟨hstate, hport⟩ := loaded_kept hsame hc hoff hp
        rw [hport, loadRemoves_none hstate, loadedNotice_none hstate, hp, applyPortSettings_kept hoff, hc]
        rfl
      case neg =>
        obtain ⟨hstate, hport⟩ := loaded_starts hsame hc (.inr hp)
        have hremoves : s.loadRemoves p n = (s.port n).removed :=
          loadRemoves_left (by rw [hstate]; exact startState_ne_active _)
        rw [hport, hremoves, loadedNotice_starts hc, hstate, applyPortSettings_changed hoff (Ne.symm hp), ← hc, hmove,
          if_neg hoff]
        have hfault : (s.port n).fault = ((s.port n).configured p.ports[n].1 p.ports[n].2).left.fault :=
          (Port.left_kept ((s.port n).configured p.ports[n].1 p.ports[n].2)).2.symm
        simp only [ne_eq, hoff, not_false_eq_true, decide_true, Bool.and_true]
        rw [hfault]
        rfl

/-- Step 5 of R178, behind steps 1 to 4. -/
theorem loadPorts_visited {s : State} (h : s.stilled) (p : Profile) : ∃ ps, forEach allPorts (loadPort p) s
      = s.visited ps (allPorts.flatMap (s.loadRemoves p)) (allPorts.flatMap (s.loadedNotice p))
    ∧ ∀ n : PortId, ps[n] = s.loadedPort p n := by
  have hrun (xs : List PortId) (t : State) (ht : t.stilled) :
      forEach xs (loadPort p) t = forEach xs (loadVisit p).run t := by
    induction xs generalizing t with
    | nil => rfl
    | cons x xs ih => exact (congrArg (forEach xs (loadPort p)) (loadPort_visited ht p x)).trans (ih _ ht)
  obtain ⟨ps, heq, hps⟩ := (loadVisit p).forEach_run allPorts (List.nodup_finRange 8) s
  exact ⟨ps, (hrun allPorts s h).trans heq, fun n => (hps n).trans (if_pos (List.mem_finRange n))⟩

/-! ## Start-up (R16, R184 step 2) -/

/-- The visit of the ports at start-up. -/
def startVisit (p : Profile) : PortVisit where
  port n s := let q := (s.port n).configured p.ports[n].1 p.ports[n].2
    if p.ports[n].1 then Port.enter (startState p.ports[n].2) s q else q
  removes _ _ := []
  notices n s := if p.ports[n].1 then [.portState n (s.port n).state (startState p.ports[n].2) .startUp] else []
  here n s t hp ht := by
    have henter (st : PortState) (q : Port) : Port.enter st t q = Port.enter st s q := enter_congr ht st q
    simp only [hp, henter, and_self]

theorem startPort_visited (p : Profile) (n : PortId) (s : State) : startPort p n s = (startVisit p).run n s := by
  have hconfigured : mapPort n (Port.configured p.ports[n].1 p.ports[n].2) s
      = s.visited (s.ports.set n ((s.port n).configured p.ports[n].1 p.ports[n].2)) [] [] := rfl
  have hstart : startPort p n s = if p.ports[n].1
      then enterPort n (startState p.ports[n].2) .startUp (mapPort n (Port.configured p.ports[n].1 p.ports[n].2) s)
      else mapPort n (Port.configured p.ports[n].1 p.ports[n].2) s := rfl
  rw [hstart, PortVisit.run, startVisit]
  dsimp only
  split
  · rw [hconfigured, enterPort_visited, visited_port, visited_set, visited_visited]
    rfl
  · exact hconfigured

theorem startPorts_visited (p : Profile) (s : State) : ∃ ps, forEach allPorts (startPort p) s
      = s.visited ps [] (allPorts.flatMap fun n => (startVisit p).notices n s)
    ∧ ∀ n : PortId, ps[n] = (startVisit p).port n s := by
  have hrun : startPort p = (startVisit p).run := by funext n t; exact startPort_visited p n t
  obtain ⟨ps, heq, hps⟩ := (startVisit p).forEach_run allPorts (List.nodup_finRange 8) s
  have hnone : (allPorts.flatMap fun n => (startVisit p).removes n s) = [] := List.flatMap_eq_nil_iff.2 fun _ _ => rfl
  rw [hnone] at heq
  exact ⟨ps, by rw [hrun]; exact heq, fun n => (hps n).trans (if_pos (List.mem_finRange n))⟩

/-! ## The loaded configurations and the device settings (R178 steps 6 and 7) -/

/-- A generator that takes configuration `c` and restarts its tracker at raw level `level` (R133). -/
def Generator.reloaded (c : TrigConfig) (level : Bool) (g : Generator) : Generator :=
  { g with config := c, level := level, debounce := none }

theorem loadTrigger_eq (p : Profile) (n : PortId) (s : State) : loadTrigger p n s
    = s.setGen n ((s.gen n).reloaded p.triggers[n] (rawLevel s p.triggers[n])) := by
  rw [loadTrigger, restartTracker, mapGen_eq, mapGen_eq, setGen_gen_self, setGen_setGen]
  rfl

theorem loadTriggers_spec (p : Profile) (s : State) : gensOnly s (forEach allPorts (loadTrigger p) s)
    ∧ ∀ n, (forEach allPorts (loadTrigger p) s).gen n
      = (s.gen n).reloaded p.triggers[n] (rawLevel s p.triggers[n]) := by
  obtain ⟨honly, -, hvisit⟩ := forEach_visit (fun n t => t.gen n) (loadTrigger p) gensOnly (fun s => ⟨s.gens, rfl⟩)
    gensOnly_trans (fun n t => ⟨_, loadTrigger_eq p n t⟩)
    (fun n m t hm => by rw [loadTrigger_eq]; exact setGen_gen_ne t n _ hm) allPorts (List.nodup_finRange 8) s
  refine ⟨honly, fun n => ?_⟩
  obtain ⟨t, ⟨gs, ht⟩, hbefore, hend, -⟩ := hvisit n (List.mem_finRange n)
  have hlevel : rawLevel t p.triggers[n] = rawLevel s p.triggers[n] := by rw [ht]; rfl
  rw [loadTrigger_eq, setGen_gen_self, hbefore, hlevel] at hend
  exact hend

/-- Steps 6 and 7 of R178. -/
theorem loadSettings_spec (p : Profile) (s : State) : ∃ gs, loadSettings p s = { s with
      gens := gs
      uplink := { s.uplink with segSize := p.segSize, replayClass := p.replayClass, backlog := p.backlog }
      notices := { s.notices with mask := (p.mask &&& 0x03DE) ||| 0x1C20 } }
    ∧ ∀ n : PortId, gs[n] = (s.gen n).reloaded p.triggers[n] (rawLevel s p.triggers[n]) := by
  obtain ⟨⟨gs, honly⟩, hgen⟩ := loadTriggers_spec p s
  rw [loadSettings]
  generalize forEach allPorts (loadTrigger p) s = t at honly hgen
  subst honly
  exact ⟨gs, rfl, hgen⟩

end Sys2Proof.Machine
end

section
/-!
A profile load completes (O58): what becomes of each port, and the clauses of the statement from the steps of R178.
-/

namespace Sys2Proof.Machine

open Sys2Proof

/-! ## A port behind a load -/

section loadedPort

variable (s : State) (p : Profile) (n : PortId)

theorem loadedPort_kept : ((s.loadedPort p n).enabled, (s.loadedPort p n).powered) = p.ports[n]
    ∧ (s.loadedPort p n).state = s.loadedState p n ∧ (s.loadedPort p n).counters = (s.port n).counters
    ∧ (s.loadedPort p n).late = (s.port n).late := by
  have hleft (q : Port) : (q.left.enabled, q.left.powered) = (q.enabled, q.powered) ∧ q.left.counters = q.counters
      ∧ q.left.late = q.late := by
    unfold Port.left
    split <;> exact ⟨rfl, rfl, rfl⟩
  obtain ⟨hsettings, hcounters, hlate⟩ := hleft ((s.port n).configured p.ports[n].1 p.ports[n].2)
  by_cases hsame : p.ports[n] = ((s.port n).enabled, (s.port n).powered)
  case pos =>
    obtain ⟨hstate, hport⟩ := loaded_same hsame
    rw [hport, hstate]
    exact ⟨hsame.symm, rfl, rfl, rfl⟩
  cases hc : p.ports[n].1
  case false =>
    obtain ⟨hstate, hport⟩ := loaded_disabled hsame hc
    rw [hport, hstate]
    exact ⟨hsettings, rfl, hcounters, hlate⟩
  case true =>
    by_cases hk : (s.port n).state ≠ .off ∧ p.ports[n].2 = (s.port n).powered
    case pos =>
      obtain ⟨hstate, hport⟩ := loaded_kept hsame hc hk.1 hk.2
      rw [hport, hstate]
      exact ⟨rfl, rfl, rfl, rfl⟩
    case neg =>
      have hs : (s.port n).state = .off ∨ p.ports[n].2 ≠ (s.port n).powered := by
        simpa [Decidable.or_iff_not_imp_left] using hk
      obtain ⟨hstate, hport⟩ := loaded_starts hsame hc hs
      rw [hport, hstate]
      exact ⟨hsettings, rfl, hcounters, hlate⟩

/-- What a load with other settings makes of the timers and the fault flag (R27). -/
theorem loadedPort_changed (h : p.ports[n] ≠ ((s.port n).enabled, (s.port n).powered)) :
    (p.ports[n].1 = false → (s.loadedPort p n).fault = false ∧ (s.loadedPort p n).ramp = none
        ∧ (s.loadedPort p n).silence = none ∧ (s.loadedPort p n).hold = none)
      ∧ (p.ports[n].1 = true → (s.port n).state ≠ .off → p.ports[n].2 = (s.port n).powered →
        s.loadedPort p n = { s.port n with enabled := true })
      ∧ (p.ports[n].1 = true → (s.port n).state = .off ∨ p.ports[n].2 ≠ (s.port n).powered →
        (s.loadedPort p n).fault = ((s.port n).fault && decide ((s.port n).state ≠ .off))
          ∧ (s.loadedPort p n).ramp = (if p.ports[n].2 then some (s.after 20000) else none)
          ∧ (s.loadedPort p n).silence = none ∧ (s.loadedPort p n).hold = none) := by
  refine ⟨fun hc => ?disabled, fun hc hs hp => ?kept, fun hc hs => ?starts⟩
  case disabled =>
    rw [(loaded_disabled h hc).2]
    exact ⟨rfl, rfl, rfl, rfl⟩
  case kept =>
    rw [(loaded_kept h hc hs hp).2, hc, hp]
    rfl
  case starts =>
    let q := ((s.port n).configured p.ports[n].1 p.ports[n].2).left
    obtain ⟨hramp, hsilence, hhold⟩ := enter_startState_timers p.ports[n].2 s
    rw [(loaded_starts h hc hs).2]
    exact ⟨rfl, hramp q, hsilence q, hhold q⟩

/-- A port that leaves ACTIVE at a load has an empty output queue. -/
theorem loadedPort_left (h : (s.port n).state = .active) (hne : s.loadedState p n ≠ .active) :
    (s.loadedPort p n).outTrigs = [] ∧ (s.loadedPort p n).outMreqs = [] := by
  have hleft : ((s.port n).configured p.ports[n].1 p.ports[n].2).left
      = ((s.port n).configured p.ports[n].1 p.ports[n].2).emptied := if_pos h
  by_cases hsame : p.ports[n] = ((s.port n).enabled, (s.port n).powered)
  case pos => exact absurd ((loaded_same hsame).1.trans h) hne
  cases hc : p.ports[n].1
  case false =>
    rw [(loaded_disabled hsame hc).2, hleft]
    exact ⟨rfl, rfl⟩
  case true =>
    by_cases hp : p.ports[n].2 = (s.port n).powered
    case pos => exact absurd ((loaded_kept hsame hc (by rw [h]; decide) hp).1.trans h) hne
    case neg =>
      rw [(loaded_starts hsame hc (.inr hp)).2, hleft]
      exact ⟨rfl, rfl⟩

end loadedPort

/-! ## The whole load -/

theorem StreamsLoaded.stilled {p : Profile} {s t : State} (h : StreamsLoaded p s t) : t.stilled :=
  ⟨fun e => ⟨(h.entry e).assembly, (h.entry e).staged⟩, fun n => by rw [h.gen]; exact ⟨rfl, rfl, rfl⟩⟩

/-- A load of the ports reads nothing that steps 1 to 4 change. -/
theorem StreamsLoaded.ports {p : Profile} {s t : State} (h : StreamsLoaded p s t) (n : PortId) :
    t.loadedState p n = s.loadedState p n ∧ t.loadRemoves p n = s.loadRemoves p n
      ∧ t.loadedNotice p n = s.loadedNotice p n := by
  have hstate : t.loadedState p n = s.loadedState p n := by
    rw [State.loadedState, State.loadedState, h.port]
  refine ⟨hstate, ?_, ?_⟩
  · rw [State.loadRemoves, State.loadRemoves, hstate, h.port]
  · rw [State.loadedNotice, State.loadedNotice, hstate, h.port]

/-- A notice that no mask holds back is offered alike under another mask (R163). -/
theorem offerNotice_unmaskable {b : NoticeBody} (hb : b.maskable = false) {s t : State} {m : Half}
    (hn : t.notices = { s.notices with mask := m }) (ht : t.partTime = s.partTime) :
    (offerNotice b t).notices = { (offerNotice b s).notices with mask := m } := by
  have henabled (u : State) : noticeEnabled u.notices.mask b = true := by rw [noticeEnabled, hb]; rfl
  have hqueue : t.notices.queue = s.notices.queue := by rw [hn]
  by_cases hroom : s.notices.queue.length < 32
  case pos =>
    rw [offerNotice_room (henabled t) (hqueue ▸ hroom), offerNotice_room (henabled s) hroom, pushNotice_eq, pushNotice_eq,
      hn, ht]
  case neg =>
    have hfull := Nat.le_of_not_lt hroom
    rw [offerNotice_full (henabled t) (hqueue ▸ hfull), offerNotice_full (henabled s) hfull]
    simp only [loseNotice, mapNotices, hn]

theorem loadCompletes_eq {k : SlotId} {p : Profile} {s : State} (hl : s.agent.longOp = some (.load, k))
    (hk : s.flash.slots[k] = .written p (Profile.check p)) :
    loadCompletes s = endLong .load k .ok (applyProfile p s) := by
  have hp : (s.flash.slots[k]).profile? = some p := by rw [hk]; exact if_pos rfl
  simp only [loadCompletes, hl, hp]

/-- The state behind a load, over the state `c` behind steps 1 to 4. -/
def behindLoad (p : Profile) (k : SlotId) (c : State) (ps : Vector Port 8) (gs : Vector Generator 8) : State :=
  { c with
    ports := ps
    gens := gs
    uplink := { c.uplink with segSize := p.segSize, replayClass := p.replayClass, backlog := p.backlog }
    agent := { (forEach (allPorts.flatMap (c.loadRemoves p)) refuseRemoved c).agent with longOp := none }
    notices := { (forEach (allPorts.flatMap (c.loadedNotice p) ++ [.profileDone .load k .ok]) offerNotice c).notices with
      mask := (p.mask &&& 0x03DE) ||| 0x1C20 }
    flash := { c.flash with controller := .idle, staging := none, bound := none } }

theorem loadCompletes_spec {k : SlotId} {p : Profile} {s : State} (hl : s.agent.longOp = some (.load, k))
    (hk : s.flash.slots[k] = .written p (Profile.check p)) : ∃ c ps gs, StreamsLoaded p s c
      ∧ loadCompletes s = behindLoad p k c ps gs ∧ (∀ n : PortId, ps[n] = c.loadedPort p n)
      ∧ ∀ n : PortId, gs[n] = (c.gen n).reloaded p.triggers[n] (rawLevel c p.triggers[n]) := by
  have hloaded := loadStreams_loaded p s
  rw [loadCompletes_eq hl hk, applyProfile]
  generalize loadStreams p s = c at hloaded
  obtain ⟨ps, hports, hps⟩ := loadPorts_visited hloaded.stilled p
  rw [hports]
  generalize hw : c.visited ps (allPorts.flatMap (c.loadRemoves p)) (allPorts.flatMap (c.loadedNotice p)) = w
  obtain ⟨gs, hsettings, hgs⟩ := loadSettings_spec p w
  have hoffers : Offers c (offerNotice (.profileDone .load k .ok) w)
      (allPorts.flatMap (c.loadedNotice p) ++ [.profileDone .load k .ok]) :=
    Offers.trans (t := w) (by rw [← hw]; exact ⟨rfl, rfl⟩) (Offers.offer _ w)
  have hnotices := offerNotice_unmaskable (b := .profileDone .load k .ok) rfl (s := w) (t := loadSettings p w)
    (m := (p.mask &&& 0x03DE) ||| 0x1C20) (by rw [hsettings]) (by rw [hsettings])
  rw [hoffers.notices] at hnotices
  refine ⟨c, ps, gs, hloaded, ?_, hps, fun n => ?_⟩
  · rw [endLong, offerNotice_eq, hnotices, hsettings, ← hw]
    rfl
  · rw [hgs n, ← hw]
    rfl

/-! ## The clauses of the statement -/

section clauses

variable {p : Profile} {s c : State}

/-- The late frames of a port (R74). -/
theorem StreamsLoaded.late (h : StreamsLoaded p s c) (n : PortId) :
    (∀ e r, (s.entry e).assembly = .filling r → (s.entry e).current.port = n →
        (∀ f q, (s.entry f).assembly = .filling q → (s.entry f).current.port = n →
          (s.entry f).current.channel = (s.entry e).current.channel → f = e) →
        (c.port n).late[(s.entry e).current.channel] = some (s.record r).frame)
      ∧ ∀ ch : Channel, (∀ e r, (s.entry e).assembly = .filling r → (s.entry e).current.port = n →
          (s.entry e).current.channel ≠ ch) → (c.port n).late[ch] = (s.port n).late[ch] := by
  have hlate (ch : Channel) : (c.port n).late[ch] = (openFrameOn s n ch).or (s.port n).late[ch] := by
    rw [h.port]
    exact Vector.getElem_ofFn ..
  refine ⟨fun e r hr hn halone => ?marked, fun ch hnone => ?kept⟩
  case marked =>
    subst hn
    rw [hlate, openFrameOn_some hr halone]
    rfl
  case kept => rw [hlate, openFrameOn_none hnone]; rfl

/-- The notices, over those of steps 1 to 4. -/
theorem StreamsLoaded.offered (h : StreamsLoaded p s c) (last : List NoticeBody) :
    ∃ closes, s.closeNotices .streamChanged (fun _ => True) closes
      ∧ (forEach (allPorts.flatMap (c.loadedNotice p) ++ last) offerNotice c).notices
        = (forEach (allEntries.flatMap closes ++ allPorts.flatMap (s.loadedNotice p) ++ last) offerNotice s).notices := by
  obtain ⟨closes, hcloses, hoffers⟩ := h.notices
  have hnotice : c.loadedNotice p = s.loadedNotice p := funext fun n => (h.ports n).2.2
  refine ⟨closes, hcloses, ?_⟩
  rw [hnotice, List.append_assoc]
  exact (hoffers.trans (u := forEach (allPorts.flatMap (s.loadedNotice p) ++ last) offerNotice c)
    ⟨rfl, offerAll_partTime ..⟩).notices

/-- The requests removed from the output queues. -/
theorem StreamsLoaded.answered (h : StreamsLoaded p s c) :
    let room := 16 - (s.agent.replies.length + s.agent.reserved.toNat)
    let removed := allPorts.flatMap (s.loadRemoves p)
    (forEach (allPorts.flatMap (c.loadRemoves p)) refuseRemoved c).agent = { s.agent with
      replies := s.agent.replies ++ (removed.take room).map fun m => ⟨0x0F, m.tag, [m.op, 0x09, 0x00], false⟩
      dropped := bump^[removed.length - room] s.agent.dropped } := by
  have hremoves : c.loadRemoves p = s.loadRemoves p := funext fun n => (h.ports n).2.1
  rw [refuseRemovedAll, hremoves, h.agent]

end clauses

/-- Settles O58, clause by clause from the steps of R178. -/
theorem profileLoadApplies : Obligations.ProfileLoadApplies := by
  intro k p s hl hk room removed
  obtain ⟨c, ps, gs, hload, hend, hps, hgs⟩ := loadCompletes_spec hl hk
  have hanswered := hload.answered
  obtain ⟨closes, hcloses, hoffered⟩ := hload.offered [.profileDone .load k .ok]
  have htime : c.partTime = s.partTime := by
    obtain ⟨_, -, hoffers⟩ := hload.notices
    exact hoffers.time
  refine ⟨behindLoad p k c ps gs, congrArg Host.Outcome.next hend, fun e => ?entry, ?replay, fun n => ?gen,
    fun n => ?port, ?agent, ?uplink, ⟨closes, hcloses, ?notices⟩, rfl, ?slots, ?record, hload.mem⟩
  case entry =>
    have he := hload.entry e
    refine ⟨he.current, he.staged, he.assembly, fun r hr => ?_, he.other_counts, he.ends, he.goes_on, he.same⟩
    obtain ⟨hin, hdamaged⟩ := he.open_counts r hr
    exact ⟨hin, hdamaged, hload.closed e r hr⟩
  case replay => exact hload.replay
  case gen =>
    have hlevel : rawLevel c p.triggers[n] = rawLevel s p.triggers[n] := by rw [rawLevel, rawLevel, hload.tin]
    refine (hgs n).trans ?_
    rw [hlevel, hload.gen]
    rfl
  case port =>
    obtain ⟨hmarked, hkept⟩ := hload.late n
    obtain ⟨hsettings, hstate, hcounters, hlate⟩ := loadedPort_kept c p n
    have hsame := fun h => (loaded_same (s := c) (p := p) (n := n) h).2
    have hchanged := loadedPort_changed c p n
    have hleft := loadedPort_left c p n
    have hafter : c.after 20000 = s.after 20000 := by rw [State.after, State.after, htime]
    rw [show (behindLoad p k c ps gs).port n = c.loadedPort p n from hps n, ← (hload.ports n).1]
    rw [hload.port] at hcounters hsame hchanged hleft
    rw [hafter] at hchanged
    refine ⟨hsettings, hstate, hcounters, fun e r hr hn ha => hlate ▸ hmarked e r hr hn ha,
      fun ch hnone => hlate ▸ hkept ch hnone, fun h => ?_, fun h => ?_⟩
    · rw [hsame h]
    · obtain ⟨hdisabled, hstays, hstarts⟩ := hchanged h
      exact ⟨hdisabled, fun hc hs hp => by rw [hstays hc hs hp], hstarts, hleft⟩
  case agent =>
    rw [behindLoad, hanswered]
  case uplink => rw [behindLoad, hload.uplink]
  case notices => rw [behindLoad, hoffered]
  case slots => rw [behindLoad, hload.flash]
  case record => rw [behindLoad, hload.flash]

end Sys2Proof.Machine
end

section
/-!
The start-up load completes (O60): the steps of R178 at reset, the ports that start, and BOOT_REPORT behind their notices.
-/

namespace Sys2Proof.Machine

open Sys2Proof

/-! ## The queue behind several offers (R163) -/

theorem offerNotice_length (b : NoticeBody) (s : State) :
    (offerNotice b s).notices.queue.length ≤ s.notices.queue.length + 1 := by
  cases he : noticeEnabled s.notices.mask b
  case false => rw [offerNotice_masked he]; exact Nat.le_succ _
  case true =>
    by_cases hroom : s.notices.queue.length < 32
    case pos => rw [offerNotice_room he hroom, pushNotice_eq, List.length_append]; exact Nat.le_refl _
    case neg => rw [offerNotice_full he (Nat.le_of_not_lt hroom)]; exact Nat.le_succ _

theorem offerAll_mask (bs : List NoticeBody) (s : State) :
    (forEach bs offerNotice s).notices.mask = s.notices.mask := by
  induction bs generalizing s with
  | nil => rfl
  | cons b bs ih =>
    refine (ih (offerNotice b s)).trans ?_
    unfold offerNotice
    split
    · split <;> rfl
    · rfl

theorem offerAll_length (bs : List NoticeBody) (s : State) :
    (forEach bs offerNotice s).notices.queue.length ≤ s.notices.queue.length + bs.length := by
  induction bs generalizing s with
  | nil => exact Nat.le_refl _
  | cons b bs ih =>
    calc (forEach bs offerNotice (offerNotice b s)).notices.queue.length
      _ ≤ (offerNotice b s).notices.queue.length + bs.length := ih _
      _ ≤ s.notices.queue.length + 1 + bs.length := Nat.add_le_add_right (offerNotice_length b s) _
      _ = s.notices.queue.length + (b :: bs).length := by rw [List.length_cons]; omega

/-- The last notice offered is the last in the queue, where no mask holds it back and there is room. -/
theorem offerAll_last {b : NoticeBody} (hb : b.maskable = false) (bs : List NoticeBody) (s : State)
    (h : s.notices.queue.length + bs.length < 32) :
    (forEach (bs ++ [b]) offerNotice s).notices.queue.getLast?.map (·.body) = some b := by
  have hsplit : forEach (bs ++ [b]) offerNotice s = offerNotice b (forEach bs offerNotice s) := List.foldl_append ..
  have hroom : (forEach bs offerNotice s).notices.queue.length < 32 := Nat.lt_of_le_of_lt (offerAll_length bs s) h
  rw [hsplit, offerNotice_room (by rw [noticeEnabled, hb]; rfl) hroom, pushNotice_eq]
  dsimp only
  rw [List.getLast?_concat]
  rfl

theorem flatMap_length_le {α β : Type} (f : α → List β) (h : ∀ x, (f x).length ≤ 1) (xs : List α) :
    (xs.flatMap f).length ≤ xs.length := by
  induction xs with
  | nil => exact Nat.le_refl _
  | cons x xs ih =>
    rw [List.flatMap_cons, List.length_append, List.length_cons, Nat.add_comm]
    exact Nat.add_le_add ih (h x)

/-! ## The start-up load (R184) -/

/-- At reset no frame is open, and steps 1 to 4 offer nothing. -/
theorem StreamsLoaded.quiet {p : Profile} {s c : State} (h : StreamsLoaded p s c)
    (hs : ∀ e, (s.entry e).assembly = .idle) : Offers s c [] := by
  obtain ⟨closes, hcloses, hoffers⟩ := h.notices
  have hnone : allEntries.flatMap closes = [] := List.flatMap_eq_nil_iff.2 fun e _ =>
    (hcloses e).2 fun ⟨_, r, hr⟩ => nomatch (hs e).symm.trans hr
  rwa [hnone] at hoffers

/-- The PORT_STATE notices of start-up (R184). -/
def startNotices (p : Profile) : List NoticeBody := allPorts.flatMap fun n => if p.ports[n].1 then
  [.portState n .off (startState p.ports[n].2) .startUp] else []

/-- The state behind the start-up load, over the state `c` behind steps 1 to 4. -/
def behindStartUp (p : Profile) (c : State) (ps : Vector Port 8) (gs : Vector Generator 8) : State :=
  { c with
    starting := false
    ports := ps
    gens := gs
    uplink := { c.uplink with segSize := p.segSize, replayClass := p.replayClass, backlog := p.backlog }
    notices := (forEach (startNotices p ++ [bootReport c.flash]) offerNotice
      { c with notices := { c.notices with mask := (p.mask &&& 0x03DE) ||| 0x1C20 } }).notices
    flash := { c.flash with controller := .idle, bound := none } }

theorem startUpWith_spec (p : Profile) (s : State) (hoff : ∀ n, (s.port n).state = .off) :
    ∃ c ps gs, StreamsLoaded p s c ∧ startUpWith p s = behindStartUp p c ps gs
      ∧ (∀ n : PortId, (ps[n].enabled, ps[n].powered) = p.ports[n]
        ∧ ps[n].state = if p.ports[n].1 then startState p.ports[n].2 else .off)
      ∧ ∀ n : PortId, gs[n].config = p.triggers[n] := by
  have hloaded := loadStreams_loaded p s
  rw [startUpWith]
  generalize loadStreams p s = c at hloaded
  obtain ⟨gs, hsettings, hgs⟩ := loadSettings_spec p c
  generalize hv : loadSettings p c = v at hsettings
  obtain ⟨ps, hports, hps⟩ := startPorts_visited p v
  have hstate (n : PortId) : (v.port n).state = .off := by
    rw [hsettings]
    exact (congrArg Port.state (hloaded.port n)).trans (hoff n)
  have hnotices : (allPorts.flatMap fun n => (startVisit p).notices n v) = startNotices p := by
    refine List.flatMap_congr fun n _ => ?_
    rw [startVisit]
    dsimp only
    rw [hstate]
  rw [hnotices] at hports
  refine ⟨c, ps, gs, hloaded, ?whole, fun n => ?port, fun n => ?gen⟩
  case whole =>
    have hflash : bootReport (v.visited ps [] (startNotices p)).flash = bootReport c.flash := by rw [hsettings]; rfl
    have hoffers : Offers v (offerNotice (bootReport c.flash) { v.visited ps [] (startNotices p) with starting := false })
        (startNotices p ++ [bootReport c.flash]) :=
      Offers.trans (t := { v.visited ps [] (startNotices p) with starting := false }) ⟨rfl, rfl⟩ (Offers.offer ..)
    rw [hports, hflash, offerNotice_eq, hoffers.notices, offerAll_congr (s := { c with
      notices := { c.notices with mask := (p.mask &&& 0x03DE) ||| 0x1C20 } }) _ (by rw [hsettings]) (by rw [hsettings]),
      hsettings]
    rfl
  case port =>
    rw [hps, startVisit]
    dsimp only
    split
    · exact ⟨rfl, rfl⟩
    · exact ⟨rfl, hstate n⟩
  case gen => rw [hgs]; rfl

theorem startUpCompletes_eq {p : Profile} {s : State} (hs : s.starting = true)
    (hk : s.flash.slots[s.flash.record.slot] = .written p (Profile.check p)) : startUpCompletes s = startUpWith p s := by
  have hp : startUpImage s.flash = p := by
    rw [startUpImage, hk, Slot.profile?, if_pos rfl]
    rfl
  rw [startUpCompletes, if_pos hs, hp]

/-- Settles O60, from the steps of R178 at reset and those of R184. -/
theorem startUpLoadApplies : Obligations.StartUpLoadApplies := by
  intro p s hs hk hports hentries hnotices
  have hoff (n : PortId) : (s.port n).state = .off := by rw [hports]; rfl
  have hidle (e : EntryId) : (s.entry e).assembly = .idle := by rw [hentries]; rfl
  obtain ⟨c, ps, gs, hload, hend, hps, hgs⟩ := startUpWith_spec p s hoff
  have hquiet := hload.quiet hidle
  refine ⟨behindStartUp p c ps gs, congrArg Host.Outcome.next ((startUpCompletes_eq hs hk).trans hend), rfl, rfl,
    fun e => ⟨(hload.entry e).current, (hload.entry e).staged⟩,
    fun n => ⟨hgs n, (hps n).1, (hps n).2⟩, rfl, rfl, rfl, ?mask, ?offered, ?last⟩
  case mask => exact offerAll_mask ..
  case offered =>
    have hreport : bootReport c.flash = bootReport s.flash := by rw [hload.flash]
    have hsource : c.notices = s.notices := hquiet.notices
    rw [behindStartUp, hreport]
    exact offerAll_congr _ (by rw [hsource]) hquiet.time
  case last =>
    have hreport : bootReport c.flash = bootReport s.flash := by rw [hload.flash]
    have hempty : c.notices.queue = [] := by rw [hquiet.notices]; exact congrArg NoticeUnit.queue hnotices
    have hfew : (startNotices p).length ≤ 8 :=
      flatMap_length_le _ (fun n => by split; exacts [Nat.le_refl 1, Nat.zero_le 1]) allPorts
    rw [behindStartUp, hreport]
    refine offerAll_last rfl _ _ ?_
    dsimp only
    rw [hempty, List.length_nil]
    omega

end Sys2Proof.Machine
end
